-- ==== Sys2Proof/Word.lean ====
section
/-! DEFINITION. The word types of the CX96 and their plainest arithmetic.
Memory is byte-addressed and little-endian (R5), registers are 64 bits (R97), vector registers and
port entries hold 512 bytes (R14), an LSN is 32 bits with a cyclic order (R29). -/

namespace Sys2Proof

abbrev Byte := BitVec 8
abbrev Half := BitVec 16
abbrev W32 := BitVec 32
abbrev Dword := BitVec 64

/-- 512 bytes: a vector register, a port entry's data, a tile row (R14). -/
abbrev Vec := BitVec 4096

/-- A logical sequence number (R29). -/
abbrev Lsn := BitVec 32

/-- A taint set: bit t set means that tag tg t is held (R97, R140). -/
abbrev Taint := BitVec 16

/-- `2 ^ n`, written as a shift. -/
def pow2 (n : Nat) : Nat := 1 <<< n

/-- LSN a precedes LSN b when (b - a) mod 2^32 lies between 1 and 2^31 - 1 (R29). -/
def lsnLt (a b : Lsn) : Bool := 1 ≤ (b - a).toNat && (b - a).toNat < 0x80000000

/-- a precedes b or is b. -/
def lsnLe (a b : Lsn) : Bool := a == b || lsnLt a b

/-- `n` divided by `d`, rounded up. -/
def ceilDiv (n d : Nat) : Nat := (n + d - 1) / d

/-- The signed value of `x`. -/
def sgn {w : Nat} (x : BitVec w) : Int := x.toInt

/-- The element of a list at `i`, or `d` past its end. -/
def nth {α : Type} (l : List α) (i : Nat) (d : α) : α := l.getD i d

end Sys2Proof
end

