-- ==== Sys2Proof/Syntax.lean ====
section
/-! DEFINITION. The instructions and events of the CX96: one constructor of `Instr` for each row of
spec/opcode_table.json. An instruction word's fields keep their width (R66); class, order, size and function
codes are names (R75-R83). The rows without an encoding are the part's events (spec/95_what_each_step_holds.md);
their arguments are the data that the agent making the event supplies. -/

namespace Sys2Proof

/-- The six engines in the order of R65. -/
inductive Eng where
  | s | a | v | m | w | c
  deriving DecidableEq, Repr, Inhabited

/-- The two readings of a word (R65): a word of a logical program, or a word of a slice. -/
inductive View where
  | logical | slice
  deriving DecidableEq, Repr

/-- Access sizes of LDX and STX, M 1:0 (R74). -/
inductive Size where
  | byte | half | word | dword
  deriving DecidableEq, Repr

/-- LDX and LDV classes (R76, R108). -/
inductive LdClass where
  | plain | na | bypass | sy | syAcq
  deriving DecidableEq, Repr

/-- STX and STV classes (R76, R111). -/
inductive StClass where
  | plain | na | bypass | sy | syRel
  deriving DecidableEq, Repr

/-- AMO operations (R76, R114). -/
inductive AmoOp where
  | add | min | max | and | or | xor | swp | cas
  deriving DecidableEq, Repr

/-- AMO orders (R76, R115). -/
inductive AmoOrd where
  | sy | acq | rel | acqrel
  deriving DecidableEq, Repr

/-- PHASE scopes (R77, R118, R225), narrowest first. -/
inductive Reach where
  | cell | cluster | die | package | system
  deriving DecidableEq, Repr

/-- SEXT sizes (R75). -/
inductive SextSize where
  | byte | half | word
  deriving DecidableEq, Repr

/-- TLBINV modes (R224). -/
inductive TlbMode where
  | page | context | part
  deriving DecidableEq, Repr

/-- Stream kinds (R143). -/
inductive StreamKind where
  | pack | row
  deriving DecidableEq, Repr

/-- Rounding modes (R57). -/
inductive Round where
  | rne | rtz | rdn | rup
  deriving DecidableEq, Repr

/-- Format codes 0-13 (R55). -/
inductive Fmt where
  | raw | bf16 | fp32 | e4m3 | e5m2 | mxfp8 | mxfp4 | qn4 | qn4s | mxs | zm8 | zm16 | int8 | int4
  deriving DecidableEq, Repr

/-- Element widths of a predicate (R72). -/
inductive EWidth where
  | w4 | w8 | w16 | w32
  deriving DecidableEq, Repr

/-- VADD and VSUB X codes (R82). -/
inductive SatMode where
  | wrap | us | ss
  deriving DecidableEq, Repr

/-- VMUL X codes (R82). -/
inductive MulHalf where
  | low | highSigned | highUnsigned
  deriving DecidableEq, Repr

/-- VFCMP conditions (R82, R157). -/
inductive FCond where
  | eq | lt | le | ne
  deriving DecidableEq, Repr

/-- VICMP conditions (R82, R157). -/
inductive ICond where
  | eq | slt | ult | ne
  deriving DecidableEq, Repr

/-- VWID and VNAR X codes (R82, R159). -/
inductive NumKind where
  | float | signed | unsigned
  deriving DecidableEq, Repr

/-- VRED X codes (R160). -/
inductive RedOp where
  | fsum | fmax | isum | imax
  deriving DecidableEq, Repr

/-- VSCAN X codes (R160). -/
inductive ScanOp where
  | fsum | isum
  deriving DecidableEq, Repr

/-- VMOVI X codes (R161). -/
inductive MoviKind where
  | int | float
  deriving DecidableEq, Repr

/-- VSFU functions (R82, R162). -/
inductive SfuFn where
  | exp2 | log2 | rcp | rsqrt | sqrt | tanh | sigmoid
  deriving DecidableEq, Repr

/-- Drain configuration registers (R80, R184). -/
inductive DReg where
  | seed | thresh | keepscale | outscale | outfmt | rowbase | colbase | colcount | dest
  deriving DecidableEq, Repr

/-- A side-table entry (R25). -/
structure SideEntry where
  inct : BitVec 16
  incf : BitVec 16
  lpc  : BitVec 30
  exp  : Bool
  lr   : Bool
  deriving DecidableEq, Repr

/-- One engine's array of a slice image with its side table (R24). -/
structure Slice where
  start : Lsn
  words : List W32
  side  : List SideEntry
  deriving DecidableEq, Repr

/-- A slice image as Luwyn makes it (R24): the handle that Load returns, the virtual address at which the Hearth
places the arrays, the six slices in the order S, A, V, M, W, C, the words after CALLs and the pairs of a JR and a target
that a hint declares for it, as word offsets in the kernel (R26, R91, R104), and the indices of the access-engine words
that follow an NX hint (R91, R150), and the word offsets of the kernel's hints. -/
structure SliceImage where
  handle  : W32
  base    : Dword
  slices  : List Slice
  targets : List Nat
  hintTargets : List (Nat × Nat)
  nx      : List Nat := []
  hints   : List Nat := []
  deriving DecidableEq, Repr

/-- An SPDM session: the responder's die, which counts its sessions from 1, and the number (R259, R260). -/
structure SessionRef where
  die : Nat
  sid : Nat
  deriving DecidableEq, Repr

/-- How a bring-up goes (R264): the step that fails, if one does, and the cells that the self-test finds bad. -/
structure BringUp where
  failAt : Option Nat
  bad    : List Nat
  deriving DecidableEq, Repr

/-- A kernel of a code object: its logical program (hint words among the words) and the object table entries that it
declares, each as eight double words (R22, R95, R137, R139). -/
structure Kernel where
  words   : List W32
  objects : List (Nat × List Dword)
  deriving DecidableEq, Repr

/-- Where the Hearth places the images of a load (R262): the context's page-table base, object table base and spill base, and
the page-table nodes that it writes, each at a physical location. -/
structure Placement where
  ptbase  : Dword
  objbase : Dword
  spill   : Dword
  nodes   : List (Nat × List Byte)
  deriving DecidableEq, Repr

/-- What the operator and the Hearth assign to a partition: tag, budget refill period, functions, key identities, die-pad
pages and walkers (R130, R243, R244, R257, R303), the identities of functions that are never locked (R260), and the dies that home its memory
(R252, R253). -/
structure PartSetting where
  part : Nat
  tag  : BitVec 16
  refill : W32
  vfs  : List Nat
  keys : List (BitVec 7)
  pads : List Nat
  walkMin : Nat
  walkMax : Nat
  vfKeys : List (Nat × BitVec 7) := []
  homes : List Nat := []
  deriving DecidableEq, Repr

/-- A TDISP, SPDM or IDE peer's answer that the event carries with it (R259, R260): key material and nonces come from
outside the device. -/
abbrev PeerData := List Byte

/-- The instructions and events of the CX96. -/
inductive Instr where
  -- scalar ALU (R75, R99, R100)
  | add (d a b : BitVec 6) | sub (d a b : BitVec 6) | and (d a b : BitVec 6) | or (d a b : BitVec 6)
  | xor (d a b : BitVec 6) | andn (d a b : BitVec 6) | shl (d a b : BitVec 6) | shr (d a b : BitVec 6)
  | sar (d a b : BitVec 6) | rot (d a b : BitVec 6) | min (d a b : BitVec 6) | max (d a b : BitVec 6)
  | minu (d a b : BitVec 6) | maxu (d a b : BitVec 6) | slt (d a b : BitVec 6) | sltu (d a b : BitVec 6)
  | seq (d a b : BitVec 6) | mul (d a b : BitVec 6) | mulh (d a b : BitVec 6) | mulhu (d a b : BitVec 6)
  | div (d a b : BitVec 6) | divu (d a b : BitVec 6) | rem (d a b : BitVec 6) | remu (d a b : BitVec 6)
  | clz (d a : BitVec 6) | ffs (d a : BitVec 6) | popc (d a : BitVec 6) | brev (d a : BitVec 6)
  | bswp (d a : BitVec 6) | csel (d a b : BitVec 6) | addw (d a b : BitVec 6)
  | sext (d a : BitVec 6) (sz : SextSize)
  -- immediates and constants (R101, R102)
  | addi (d a : BitVec 6) (imm : BitVec 11) | andi (d a : BitVec 6) (imm : BitVec 11)
  | ori (d a : BitVec 6) (imm : BitVec 11) | xori (d a : BitVec 6) (imm : BitVec 11)
  | shli (d a n : BitVec 6) | shri (d a n : BitVec 6) | sari (d a n : BitVec 6) | roti (d a n : BitVec 6)
  | slti (d a : BitVec 6) (imm : BitVec 11) | sltui (d a : BitVec 6) (imm : BitVec 11)
  | movw (d : BitVec 6) (w : BitVec 17)
  | movk1 (d : BitVec 6) (w : BitVec 17) | movk2 (d : BitVec 6) (w : BitVec 17) | movk3 (d : BitVec 6) (w : BitVec 13)
  -- loads, stores, atomics (R107-R115)
  | ldb (d a : BitVec 6) (imm : BitVec 11) | ldh (d a : BitVec 6) (imm : BitVec 11)
  | ldw (d a : BitVec 6) (imm : BitVec 11) | ldd (d a : BitVec 6) (imm : BitVec 11)
  | stb (d a : BitVec 6) (imm : BitVec 11) | sth (d a : BitVec 6) (imm : BitVec 11)
  | stw (d a : BitVec 6) (imm : BitVec 11) | std (d a : BitVec 6) (imm : BitVec 11)
  | ldx (d a b : BitVec 6) (c : LdClass) (sz : Size) | ldxFill (d n : BitVec 6)
  | stx (d a b : BitVec 6) (c : StClass) (sz : Size) | stxSpill (d n : BitVec 6)
  | amo (d a b : BitVec 6) (ord : AmoOrd) (op : AmoOp) | amow (d a b : BitVec 6) (ord : AmoOrd) (op : AmoOp)
  -- control flow (R103-R105)
  | beq (d a : BitVec 6) (imm : BitVec 11) | bne (d a : BitVec 6) (imm : BitVec 11)
  | blt (d a : BitVec 6) (imm : BitVec 11) | bge (d a : BitVec 6) (imm : BitVec 11)
  | bltu (d a : BitVec 6) (imm : BitVec 11) | bgeu (d a : BitVec 6) (imm : BitVec 11)
  | jmp (j : BitVec 23) | call (j : BitVec 23) | jr (d a : BitVec 6)
  -- SYS (R77, R118-R121, R219-R224)
  | phase (r : Reach) | untaint (d : BitVec 6) | taint (d a : BitVec 6) | fence (mask : BitVec 6)
  | trap (code : BitVec 6) | eret | sysrd (d : BitVec 6) (r : BitVec 12) | syswr (d : BitVec 6) (r : BitVec 12)
  | icinv | tlbinv (a : BitVec 6) (mode : TlbMode) | halt | bkpt | yield | exit
  | xsend (a : BitVec 6) (e : Eng) | padmap (d a : BitVec 6)
  -- TASK (R207-R213)
  | spawn (d a b : BitVec 6) | scopeo (d a : BitVec 6) | scopec (a : BitVec 6) | quench (e a : BitVec 6)
  | cwait (d a : BitVec 6) | cread (d a : BitVec 6)
  -- BAR (R215-R217)
  | barArrive (a : BitVec 6) | barWait (a : BitVec 6) | barSync (a : BitVec 6) | barInit (a b : BitVec 6)
  -- DCB and ICPF (R116, R117)
  | dcbClean (a b : BitVec 6) | dcbInv (a b : BitVec 6) | dcbFlush (a b : BitVec 6) | dcbPf (a b : BitVec 6)
  | dcbZero (a b : BitVec 6) | icpf (a : BitVec 6) (imm : BitVec 11)
  -- access engine (R142-R149)
  | strm (d a b : BitVec 6) (k : StreamKind) (y n : Bool) | strmg (d a b : BitVec 6) (k : StreamKind) (y n : Bool)
  | strmc (d : BitVec 6) | ldv (d a b : BitVec 6) (c : LdClass) | ldt (d a b : BitVec 6) (r : BitVec 2)
  | pfd (a b : BitVec 6)
  -- vector engine (R153-R168)
  | vfadd (d a b : BitVec 6) (p : BitVec 3) | vfsub (d a b : BitVec 6) (p : BitVec 3)
  | vfmul (d a b : BitVec 6) (p : BitVec 3) | vfma (d a b : BitVec 6) (p : BitVec 3)
  | vfmin (d a b : BitVec 6) (p : BitVec 3) | vfmax (d a b : BitVec 6) (p : BitVec 3)
  | vfabs (d a : BitVec 6) (p : BitVec 3) | vfneg (d a : BitVec 6) (p : BitVec 3)
  | vadd (d a b : BitVec 6) (p : BitVec 3) (x : SatMode) | vsub (d a b : BitVec 6) (p : BitVec 3) (x : SatMode)
  | vmul (d a b : BitVec 6) (p : BitVec 3) (x : MulHalf)
  | vmin (d a b : BitVec 6) (p : BitVec 3) (sn : Bool) | vmax (d a b : BitVec 6) (p : BitVec 3) (sn : Bool)
  | vabs (d a : BitVec 6) (p : BitVec 3) (sn : Bool)
  | vand (d a b : BitVec 6) (p : BitVec 3) | vor (d a b : BitVec 6) (p : BitVec 3)
  | vxor (d a b : BitVec 6) (p : BitVec 3) | vandn (d a b : BitVec 6) (p : BitVec 3)
  | vshl (d a b : BitVec 6) (p : BitVec 3) | vshr (d a b : BitVec 6) (p : BitVec 3) (h : Bool)
  | vclz (d a : BitVec 6) (p : BitVec 3) | vffs (d a : BitVec 6) (p : BitVec 3) | vpopc (d a : BitVec 6) (p : BitVec 3)
  | vfcmp (d a b : BitVec 6) (p : BitVec 3) (x : FCond) | vicmp (d a b : BitVec 6) (p : BitVec 3) (x : ICond)
  | vsel (d a b : BitVec 6) (p : BitVec 3)
  | vcvt (d a : BitVec 6) (g isrc : Bool) (t : Fmt) (p : BitVec 3) (r : Round)
  | vwid (d a : BitVec 6) (p : BitVec 3) (x : NumKind) | vnar (d a : BitVec 6) (p : BitVec 3) (x : NumKind)
  | vred (d a : BitVec 6) (p : BitVec 3) (x : RedOp) | vscan (d a : BitVec 6) (p : BitVec 3) (x : ScanOp)
  | vperm (d a b : BitVec 6) (p : BitVec 3) | vslide (d a b : BitVec 6) (p : BitVec 3)
  | vbcast (d a : BitVec 6) (p : BitVec 3) | vmov (d a : BitVec 6) (p : BitVec 3)
  | vmovi (d : BitVec 6) (imm : BitVec 12) (p : BitVec 3) (x : MoviKind)
  | vsfu (d a : BitVec 6) (f : SfuFn) (p : BitVec 3)
  | vtw (d a b : BitVec 6) (p : BitVec 3) | vtr (d a b : BitVec 6) | tfmt (d : BitVec 6) (f : BitVec 4)
  | vlsl (d a b : BitVec 6) (p : BitVec 3) | vlss (d a b : BitVec 6) (p : BitVec 3)
  | pset (w : EWidth) (n : BitVec 3) (c : BitVec 13) | pwhile (w : EWidth) (n : BitVec 3) (a : BitVec 6) (g : BitVec 3)
  | pcnt (d : BitVec 6) (n : BitVec 3)
  -- matrix engine (R169-R179)
  | mlease (w : BitVec 17) | myield | mldb (d a b : BitVec 6)
  | mmul (d a : BitVec 6) (h : Bool) (k : BitVec 3) (m : BitVec 2) (y x c : Bool) (r : BitVec 2)
  | mmulg (d a : BitVec 6) (m : BitVec 2) (q : BitVec 4) (y x c : Bool) (k : BitVec 2)
  | aballoc (d : BitVec 6) (cnt : BitVec 11) | abfree (d : BitVec 6) (cnt : BitVec 11) | abown (d a b : BitVec 6)
  | mresume
  -- write-back engine (R184-R191)
  | stv (d a b : BitVec 6) (c : StClass) | wstrm (d a b : BitVec 6) (k : StreamKind) | stt (d a b : BitVec 6) (r : BitVec 2)
  | drn (d a b : BitVec 6) (z t u sc : Bool) | dcfg (r : DReg) (w : BitVec 17) | dcfgRegister (r : DReg) (x : BitVec 4)
  -- copy engine (R192-R206)
  | cpy (d a b : BitVec 6) | cpys (d a b : BitVec 6) (c : Fmt) | cpyh (d a b : BitVec 6) (n : BitVec 4)
  | cpyr (d a b : BitVec 6) (bf : Bool) | cvtl (d a : BitVec 6) | cpyc (b : BitVec 6)
  -- shared coupling group (R83-R90)
  | nop (e : Eng) | evpost (e : Eng) (n : BitVec 5) | evwait (e : Eng) (n : BitVec 5)
  | loop (e : Eng) (c : BitVec 2) (imm : BitVec 11) | lcset (e : Eng) (c : BitVec 2) (w : BitVec 17)
  | lcsetQueue (e : Eng) (c : BitVec 2) | follow (e : Eng) (j : BitVec 23) | jmpe (e : Eng) (j : BitVec 23)
  | tkwait (e : Eng) (mask : BitVec 8) | notify (e : Eng) | xrecv (e : Eng) (d : BitVec 4)
  | xaddi (e : Eng) (d a : BitVec 4) (imm : BitVec 11) | xmovw (e : Eng) (d : BitVec 4) (w : BitVec 17)
  | xadd (e : Eng) (d a b : BitVec 4)
  -- events of a seat and its cluster
  | generatorPush (q : BitVec 4) | predictionConfirm (q : BitVec 4)
  | chainRecord (ch : BitVec 2) | copyRetire (k : BitVec 3)
  -- events of the dispatcher and the partition
  | unitPlacement (seat : BitVec 11) | unitResume (seat : BitVec 11)
  | hearthPageService (entry : Dword)
  | faultReplyResume (vf : Nat) (seq : W32) | faultReplyQuench (vf : Nat) (seq : W32)
  -- events of the host interface
  | doorbellWrite (vf q : Nat) (tail : W32) (host : List (Nat × Byte)) | qerrClear (vf reg : Nat) (mask : Dword)
  | slipbaseWrite (vf part : Nat) (val : Dword) | registerWrite (vf off : Nat) (val : Dword)
  | queueBind (die slot vf q : Nat)
  | job (vf q : Nat) | pass (vf q : Nat) | graph (vf q : Nat) | launch (vf q : Nat) | close (vf q : Nat)
  | workQueueRestore (die : Nat) | watchdogExpiry (die slot : Nat) | gracePeriodExpiry (part : Nat)
  | fabricPacketReceive (port : Nat) (tag : BitVec 16) (epoch : Nat) (write : Option (Nat × List Byte))
  | dieLinkRetryExhausted (die link : Nat) | dropCounterRead (port : Nat)
  | moduleReset (run : BringUp)
  -- SPDM responders (R259)
  | getVersion (die : Nat) | getCapabilities (die : Nat) | negotiateAlgorithms (die : Nat) (peer : PeerData)
  | getDigests (die : Nat) | getCertificate (die : Nat) | challenge (die : Nat) (nonce : PeerData)
  | getMeasurements (die idx : Nat) | keyExchange (die : Nat) (peer : PeerData) | finish (die sid : Nat)
  | keyUpdate (die sid : Nat) | heartbeat (die sid : Nat) | endSession (die sid : Nat)
  -- TDISP and IDE (R260)
  | lockInterfaceRequest (vf : Nat) (at_ : SessionRef) | startInterfaceRequest (vf : Nat) | stopInterfaceRequest (vf : Nat)
  | keyProg (stream : Nat) (at_ : SessionRef) (vfs : List Nat) | tdiRequestOutsideStream (vf : Nat)
  -- code objects (R26, R262, R302)
  | codeObjectLoad (vf proc : Nat) (tagOk system : Bool) (kernels : List Kernel) (images : List SliceImage) (place : Placement)
  | imageUnload (handle : W32) | forcedUnload (handle : W32)
  -- Hearth operations
  | clusterMove (cluster part : Nat)
  | partitionMapChange (die : Nat) (ring : List (BitVec 8)) (ways : List (Nat × Nat × BitVec 16)) (allowed : List (Nat × List (BitVec 16)))
    (parts : List PartSetting)
  | cellRetirement (cell : Nat) | hearthStateDamage (parts : List Nat)
  | pinRequest (die slot : Nat) (pin : Bool) | testRequest (part : Nat) (on : Bool)
  -- events of the seat, the dispatcher, the host interface and the Hearth that carry no operand
  | gatedStoreDrain | leaseGrant | leaseRunEnd | matrixCommandCompletion | drainCompletion | unitCompletion | unitKill | forcedCheck
  | chipTick | sliceEnd | faultRaise | jobAdmission | responseTimeout | atomicLanding | haltResume
  deriving DecidableEq, Repr

/-- A soft error (R288-R291): damage that can not be corrected, to a register, a port entry, a tile row, a log entry, a bank row, a
macro row, a location with the structure that FAUX names, or a line of the instruction cache of a cell; an error that is corrected, at a die; or, where nothing is
checked, a wrong value. -/
inductive SoftError where
  | sreg (r : BitVec 6) | xreg (e : Eng) (r : Fin 16) | vreg (r : Fin 48) | pred (r : Fin 8)
  | port (q : Fin 16) (k : Nat) | row (t : Fin 8) (r : Fin 32) | log (e : Eng) (k : Nat)
  | bank (n : Fin 64) (r : Fin 8) | macroRow (slot : Fin 4) (blk : Fin 8)
  | mem (key : Nat) (kind : BitVec 8) | icLine (k : Nat) | corrected (die : Fin 4)
  | wrongS (r : BitVec 6) (x : Dword) | wrongX (e : Eng) (r : Fin 16) (x : Dword) | wrongV (r : Fin 48) (x : BitVec 4096)
  | wrongBank (n : Fin 64) (r : Fin 8) (x : BitVec 8192) | wrongByte (key : Nat) (x : Byte)
  deriving DecidableEq, Repr, Inhabited

/-- Which agent moves next (INVENTORY.md, Agents): an engine of a seat issues its next word, or an event that names no
seat of its own happens with that seat at hand, or the environment disturbs the seat at hand or its die. -/
inductive Turn where
  | engine (seat : BitVec 11) (e : Eng)
  | event (seat : BitVec 11) (ev : Instr)
  | soft (seat : BitVec 11) (d : SoftError)
  deriving DecidableEq, Repr, Inhabited

end Sys2Proof
end

