-- ==== Sys2Proof/WellFormed.lean ====
section
/-! DEFINITION. Which instructions an encoding without reserved values holds (R68, R69, R74-R83, R92), in a logical
program and in a slice. -/

namespace Sys2Proof

/-- A field that names a scalar in a non-scalar engine: any s register in a logical program, x0-x15 in a slice (R69). -/
def xs (v : View) (r : BitVec 6) : Bool :=
  match v with
  | .logical => true
  | .slice => decide (r.toNat < 16)

/-- The register whose successor holds a copy's length: x15 and s63 are reserved (R81). -/
def lenReg (v : View) (r : BitVec 6) : Bool :=
  match v with
  | .logical => decide (r.toNat < 63)
  | .slice => decide (r.toNat < 15)

/-- A port number outside the vector engine (R69). -/
def port (r : BitVec 6) : Bool := decide (r.toNat < 16)

/-- A tile or token number, 0-7 (R78, R81). -/
def tile (r : BitVec 6) : Bool := decide (r.toNat < 8)

/-- A slot, channel, table or cell number, 0-3 (R79, R81). -/
def slot (r : BitVec 6) : Bool := decide (r.toNat < 4)

/-- A bank count, 1-64 (R79). -/
def count (c : BitVec 11) : Bool := decide (1 ≤ c.toNat) && decide (c.toNat ≤ 64)

/-- A format code that a conversion field may hold: codes 5-9 are reserved values of it (R55). -/
def convCode (t : Fmt) : Bool :=
  match t with
  | .mxfp8 | .mxfp4 | .qn4 | .qn4s | .mxs => false
  | .raw | .bf16 | .fp32 | .e4m3 | .e5m2 | .zm8 | .zm16 | .int8 | .int4 => true

/-- Coupling words other than NOP, TKWAIT and XSEND stand in slices only (R23, R83). -/
def sliceOnly (v : View) : Bool :=
  match v with
  | .logical => false
  | .slice => true

/-- Forms that R83 excludes on the scalar engine. -/
def notS (e : Eng) : Bool := decide (e ≠ .s)

/-- The system registers that R220 lists. -/
def sysReadable (r : BitVec 12) : Bool :=
  decide (r.toNat ≤ 3) || (decide (8 ≤ r.toNat) && decide (r.toNat ≤ 0xD)) || (decide (0x10 ≤ r.toNat) && decide (r.toNat ≤ 0x14))
    || (decide (0x18 ≤ r.toNat) && decide (r.toNat ≤ 0x1A)) || (decide (0x20 ≤ r.toNat) && decide (r.toNat ≤ 0x25))
    || (decide (0x40 ≤ r.toNat) && decide (r.toNat ≤ 0x4F)) || r.toNat == 0x60

/-- The listed registers that are not read-only: ACKBASE, TVEC, EPC and the protected ones (R220). -/
def sysWritable (r : BitVec 12) : Bool :=
  (decide (0x10 ≤ r.toNat) && decide (r.toNat ≤ 0x12)) || (decide (0x18 ≤ r.toNat) && decide (r.toNat ≤ 0x1A))

/-- The engine that executes a word; an event has none (R65). -/
def Instr.engine : Instr → Option Eng
  | .add .. | .sub .. | .and .. | .or .. | .xor .. | .andn ..
  | .shl .. | .shr .. | .sar .. | .rot .. | .min .. | .max ..
  | .minu .. | .maxu .. | .slt .. | .sltu .. | .seq .. | .mul ..
  | .mulh .. | .mulhu .. | .div .. | .divu .. | .rem .. | .remu ..
  | .clz .. | .ffs .. | .popc .. | .brev .. | .bswp .. | .csel ..
  | .addw .. | .sext .. | .addi .. | .andi .. | .ori .. | .xori ..
  | .shli .. | .shri .. | .sari .. | .roti .. | .slti .. | .sltui ..
  | .movw .. | .movk1 .. | .movk2 .. | .movk3 .. | .ldb .. | .ldh ..
  | .ldw .. | .ldd .. | .stb .. | .sth .. | .stw .. | .std ..
  | .ldx .. | .ldxFill .. | .stx .. | .stxSpill .. | .amo .. | .amow ..
  | .beq .. | .bne .. | .blt .. | .bge .. | .bltu .. | .bgeu ..
  | .jmp .. | .call .. | .jr .. | .phase .. | .untaint .. | .taint ..
  | .fence .. | .trap .. | .eret .. | .sysrd .. | .syswr .. | .icinv ..
  | .tlbinv .. | .halt .. | .bkpt .. | .yield .. | .exit .. | .xsend ..
  | .padmap .. | .spawn .. | .scopeo .. | .scopec .. | .quench .. | .cwait ..
  | .cread .. | .barArrive .. | .barWait .. | .barSync .. | .barInit .. | .dcbClean ..
  | .dcbInv .. | .dcbFlush .. | .dcbPf .. | .dcbZero .. | .icpf .. => some .s
  | .strm .. | .strmg .. | .strmc .. | .ldv .. | .ldt .. | .pfd .. => some .a
  | .vfadd .. | .vfsub .. | .vfmul .. | .vfma .. | .vfmin .. | .vfmax ..
  | .vfabs .. | .vfneg .. | .vadd .. | .vsub .. | .vmul .. | .vmin ..
  | .vmax .. | .vabs .. | .vand .. | .vor .. | .vxor .. | .vandn ..
  | .vshl .. | .vshr .. | .vclz .. | .vffs .. | .vpopc .. | .vfcmp ..
  | .vicmp .. | .vsel .. | .vcvt .. | .vwid .. | .vnar .. | .vred ..
  | .vscan .. | .vperm .. | .vslide .. | .vbcast .. | .vmov .. | .vmovi ..
  | .vsfu .. | .vtw .. | .vtr .. | .tfmt .. | .vlsl .. | .vlss ..
  | .pset .. | .pwhile .. | .pcnt .. => some .v
  | .mlease .. | .myield .. | .mldb .. | .mmul .. | .mmulg .. | .aballoc ..
  | .abfree .. | .abown .. | .mresume .. => some .m
  | .stv .. | .wstrm .. | .stt .. | .drn .. | .dcfg .. | .dcfgRegister .. => some .w
  | .cpy .. | .cpys .. | .cpyh .. | .cpyr .. | .cvtl .. | .cpyc .. => some .c
  | .nop e .. => some e
  | .evpost e .. => some e
  | .evwait e .. => some e
  | .loop e .. => some e
  | .lcset e .. => some e
  | .lcsetQueue e .. => some e
  | .follow e .. => some e
  | .jmpe e .. => some e
  | .tkwait e .. => some e
  | .notify e .. => some e
  | .xrecv e .. => some e
  | .xaddi e .. => some e
  | .xmovw e .. => some e
  | .xadd e .. => some e
  | .gatedStoreDrain .. | .generatorPush .. | .predictionConfirm .. | .leaseGrant .. | .leaseRunEnd .. | .matrixCommandCompletion ..
  | .drainCompletion .. | .chainRecord .. | .copyRetire .. | .unitCompletion .. | .unitKill .. | .forcedCheck ..
  | .unitPlacement .. | .chipTick .. | .sliceEnd .. | .unitResume .. | .faultRaise .. | .hearthPageService ..
  | .faultReplyResume .. | .faultReplyQuench .. | .doorbellWrite .. | .qerrClear .. | .slipbaseWrite .. | .registerWrite ..
  | .queueBind .. | .jobAdmission .. | .job .. | .pass .. | .graph .. | .launch ..
  | .close .. | .workQueueRestore .. | .watchdogExpiry .. | .gracePeriodExpiry .. | .fabricPacketReceive .. | .responseTimeout ..
  | .dieLinkRetryExhausted .. | .dropCounterRead .. | .moduleReset .. | .getVersion .. | .getCapabilities .. | .negotiateAlgorithms ..
  | .getDigests .. | .getCertificate .. | .challenge .. | .getMeasurements .. | .keyExchange .. | .finish ..
  | .keyUpdate .. | .heartbeat .. | .endSession .. | .lockInterfaceRequest .. | .startInterfaceRequest .. | .stopInterfaceRequest ..
  | .keyProg .. | .tdiRequestOutsideStream .. | .codeObjectLoad .. | .imageUnload .. | .forcedUnload .. | .clusterMove ..
  | .atomicLanding .. | .partitionMapChange .. | .cellRetirement .. | .haltResume .. | .hearthStateDamage .. | .pinRequest ..
  | .testRequest .. => none

/-- No reserved value and no reserved form, in the given view. -/
def Instr.wf (v : View) : Instr → Bool
  | .add .. | .sub .. | .and .. | .or .. | .xor .. | .andn ..
  | .shl .. | .shr .. | .sar .. | .rot .. | .min .. | .max ..
  | .minu .. | .maxu .. | .slt .. | .sltu .. | .seq .. | .mul ..
  | .mulh .. | .mulhu .. | .div .. | .divu .. | .rem .. | .remu ..
  | .clz .. | .ffs .. | .popc .. | .brev .. | .bswp .. | .csel ..
  | .addw .. | .sext .. | .addi .. | .andi .. | .ori .. | .xori ..
  | .shli .. | .shri .. | .sari .. | .roti .. | .slti .. | .sltui ..
  | .movw .. | .movk1 .. | .movk2 .. | .movk3 .. | .ldb .. | .ldh ..
  | .ldw .. | .ldd .. | .stb .. | .sth .. | .stw .. | .std ..
  | .ldx .. | .ldxFill .. | .stx .. | .stxSpill .. | .amo .. | .amow ..
  | .beq .. | .bne .. | .blt .. | .bge .. | .bltu .. | .bgeu ..
  | .jmp .. | .call .. | .jr .. | .phase .. | .untaint .. | .taint ..
  | .fence .. | .trap .. | .eret .. | .icinv .. | .tlbinv .. | .halt ..
  | .bkpt .. | .yield .. | .exit .. | .padmap .. | .spawn .. | .scopeo ..
  | .scopec .. | .cwait .. | .cread .. | .barArrive .. | .barWait .. | .barSync ..
  | .barInit .. | .dcbClean .. | .dcbInv .. | .dcbFlush .. | .dcbPf .. | .dcbZero ..
  | .icpf .. | .vfadd .. | .vfsub .. | .vfmul .. | .vfma .. | .vfmin ..
  | .vfmax .. | .vfabs .. | .vfneg .. | .vadd .. | .vsub .. | .vmul ..
  | .vmin .. | .vmax .. | .vabs .. | .vand .. | .vor .. | .vxor ..
  | .vandn .. | .vshl .. | .vshr .. | .vclz .. | .vffs .. | .vpopc ..
  | .vfcmp .. | .vicmp .. | .vsel .. | .vwid .. | .vnar .. | .vred ..
  | .vscan .. | .vperm .. | .vmov .. | .vmovi .. | .vsfu .. | .pset ..
  | .mlease .. | .myield .. | .mresume .. | .dcfg .. | .dcfgRegister .. | .nop ..
  | .tkwait .. | .gatedStoreDrain .. | .generatorPush .. | .predictionConfirm .. | .leaseGrant .. | .leaseRunEnd ..
  | .matrixCommandCompletion .. | .drainCompletion .. | .chainRecord .. | .copyRetire .. | .unitCompletion .. | .unitKill ..
  | .forcedCheck .. | .unitPlacement .. | .chipTick .. | .sliceEnd .. | .unitResume .. | .faultRaise ..
  | .hearthPageService .. | .faultReplyResume .. | .faultReplyQuench .. | .doorbellWrite .. | .qerrClear .. | .slipbaseWrite ..
  | .registerWrite .. | .queueBind .. | .jobAdmission .. | .job .. | .pass .. | .graph ..
  | .launch .. | .close .. | .workQueueRestore .. | .watchdogExpiry .. | .gracePeriodExpiry .. | .fabricPacketReceive ..
  | .responseTimeout .. | .dieLinkRetryExhausted .. | .dropCounterRead .. | .moduleReset .. | .getVersion .. | .getCapabilities ..
  | .negotiateAlgorithms .. | .getDigests .. | .getCertificate .. | .challenge .. | .getMeasurements .. | .keyExchange ..
  | .finish .. | .keyUpdate .. | .heartbeat .. | .endSession .. | .lockInterfaceRequest .. | .startInterfaceRequest ..
  | .stopInterfaceRequest .. | .keyProg .. | .tdiRequestOutsideStream .. | .codeObjectLoad .. | .imageUnload .. | .forcedUnload ..
  | .clusterMove .. | .atomicLanding .. | .partitionMapChange .. | .cellRetirement .. | .haltResume .. | .hearthStateDamage ..
  | .pinRequest .. | .testRequest .. => true
  | .sysrd _ r => sysReadable r
  | .syswr _ r => sysWritable r
  | .xsend _ e => decide (e ≠ .s)
  | .quench e _ => decide (e.toNat ≤ 0x20)
  | .strm d a b _ _ _ => port d && xs v a && xs v b
  | .strmg d a b _ _ _ => port d && xs v a && port b
  | .strmc d => port d
  | .ldv d a b _ => port d && xs v a && xs v b
  | .ldt d a b _ => tile d && xs v a && xs v b
  | .pfd a b => xs v a && xs v b
  | .vcvt _ _ _ _ t _ _ => convCode t
  | .vslide _ _ b _ => xs v b
  | .vbcast _ a _ => xs v a
  | .vtw d _ b _ => tile d && xs v b
  | .vtr _ a b => tile a && xs v b
  | .tfmt d _ => tile d
  | .vlsl _ _ b _ => xs v b
  | .vlss _ _ b _ => xs v b
  | .pwhile _ _ a g => xs v a && decide (1 ≤ g.toNat) && decide (g.toNat ≤ 6)
  | .pcnt d _ => xs v d
  | .mldb d a b => slot d && xs v a && xs v b
  | .mmul _ a _ _ _ _ _ _ _ => tile a
  | .mmulg _ a _ _ _ _ _ _ => tile a
  | .aballoc _ cnt => count cnt
  | .abfree _ cnt => count cnt
  | .abown _ _ b => slot b
  | .stv d a b _ => port d && xs v a && xs v b
  | .wstrm d a b _ => port d && xs v a && xs v b
  | .stt d a b _ => tile d && xs v a && xs v b
  | .drn d _ b _ _ _ _ => (port d || d == 0x3F) && (port b || b == 0x3F)
  | .cpy d a b => tile d && xs v a && slot b
  | .cpys d a b c => tile d && xs v a && lenReg v b && convCode c
  | .cpyh d a b _ => tile d && xs v a && lenReg v b
  | .cpyr d a b _ => tile d && xs v a && lenReg v b
  | .cvtl d a => slot d && xs v a
  | .cpyc b => slot b
  | .evpost _ _ => sliceOnly v
  | .evwait _ _ => sliceOnly v
  | .loop _ _ _ => sliceOnly v
  | .lcset _ _ _ => sliceOnly v
  | .lcsetQueue e _ => sliceOnly v && notS e
  | .follow e _ => sliceOnly v && notS e
  | .jmpe _ _ => sliceOnly v
  | .notify _ => sliceOnly v
  | .xrecv e _ => sliceOnly v && notS e
  | .xaddi e _ _ _ => sliceOnly v && notS e
  | .xmovw e _ _ => sliceOnly v && notS e
  | .xadd e _ _ _ => sliceOnly v && notS e

end Sys2Proof
end

