-- ==== Sys2Proof/Decode.lean ====
section
/-! DEFINITION. Decoding of instruction words (R64-R83, R92) and the encoder.
The decoder reads E, then OP, then the sub-operation, then the payload fields, and refuses by name: `illegal` where R92
says ILLEGAL, `reserved` where it says RESERVED_FIELD. -/

namespace Sys2Proof

/-- Why a word is refused (R92). -/
inductive DecErr where
  | illegal | reserved
  deriving DecidableEq, Repr

abbrev Dec := Except DecErr Instr

-- The fields of the five formats (R66).
def fE (w : W32) : BitVec 3 := w.extractLsb' 29 3
def fOp (w : W32) : BitVec 6 := w.extractLsb' 23 6
def fD (w : W32) : BitVec 6 := w.extractLsb' 17 6
def fA (w : W32) : BitVec 6 := w.extractLsb' 11 6
def fB (w : W32) : BitVec 6 := w.extractLsb' 5 6
def fM (w : W32) : BitVec 5 := w.extractLsb' 0 5
def fI (w : W32) : BitVec 11 := w.extractLsb' 0 11
def fW (w : W32) : BitVec 17 := w.extractLsb' 0 17
def fJ (w : W32) : BitVec 23 := w.extractLsb' 0 23
def fP (w : W32) : BitVec 3 := w.extractLsb' 2 3
def fX (w : W32) : BitVec 2 := w.extractLsb' 0 2

/-- `i`, if a field that must hold zero does (R68). -/
def zero {n : Nat} (x : BitVec n) (r : Dec) : Dec := if x == 0#n then r else .error .reserved

/-- `f` of a code's name, if the code has one. -/
def named {α : Type} (x : Option α) (f : α → Instr) : Dec :=
  match x with
  | some y => .ok (f y)
  | none => .error .reserved

def sizeOf2 (x : BitVec 2) : Size :=
  if x == 0 then .byte else if x == 1 then .half else if x == 2 then .word else .dword
def ldClassOf (x : BitVec 3) : Option LdClass :=
  if x == 0 then some .plain else if x == 1 then some .na else if x == 2 then some .bypass else if x == 3 then some .sy
  else if x == 4 then some .syAcq else none
def stClassOf (x : BitVec 3) : Option StClass :=
  if x == 0 then some .plain else if x == 1 then some .na else if x == 2 then some .bypass else if x == 3 then some .sy
  else if x == 5 then some .syRel else none
def amoOpOf (x : BitVec 3) : AmoOp :=
  if x == 0 then .add else if x == 1 then .min else if x == 2 then .max else if x == 3 then .and
  else if x == 4 then .or else if x == 5 then .xor else if x == 6 then .swp else .cas
def amoOrdOf (x : BitVec 2) : AmoOrd :=
  if x == 0 then .sy else if x == 1 then .acq else if x == 2 then .rel else .acqrel
def reachOf (x : BitVec 3) : Option Reach :=
  if x == 0 then some .cell else if x == 1 then some .cluster else if x == 2 then some .die else if x == 3 then some .package
  else if x == 4 then some .system else none
def sextOf (x : BitVec 2) : Option SextSize :=
  if x == 0 then some .byte else if x == 1 then some .half else if x == 2 then some .word else none
def tlbOf (x : BitVec 6) : Option TlbMode :=
  if x == 0 then some .page else if x == 1 then some .context else if x == 2 then some .part else none
def streamOf (x : BitVec 3) : Option StreamKind := if x == 0 then some .pack else if x == 1 then some .row else none
def roundOf (x : BitVec 2) : Round := if x == 0 then .rne else if x == 1 then .rtz else if x == 2 then .rdn else .rup
def fmtOf (x : BitVec 4) : Option Fmt :=
  if x == 0 then some .raw else if x == 1 then some .bf16 else if x == 2 then some .fp32 else if x == 3 then some .e4m3
  else if x == 4 then some .e5m2 else if x == 5 then some .mxfp8 else if x == 6 then some .mxfp4 else if x == 7 then some .qn4
  else if x == 8 then some .qn4s else if x == 9 then some .mxs else if x == 10 then some .zm8 else if x == 11 then some .zm16
  else if x == 12 then some .int8 else if x == 13 then some .int4 else none
def ewidthOf (x : BitVec 2) : EWidth := if x == 0 then .w4 else if x == 1 then .w8 else if x == 2 then .w16 else .w32
def satOf (x : BitVec 2) : Option SatMode :=
  if x == 0 then some .wrap else if x == 1 then some .us else if x == 3 then some .ss else none
def mulOf (x : BitVec 2) : Option MulHalf :=
  if x == 0 then some .low else if x == 1 then some .highSigned else if x == 2 then some .highUnsigned else none
def fcondOf (x : BitVec 2) : FCond := if x == 0 then .eq else if x == 1 then .lt else if x == 2 then .le else .ne
def icondOf (x : BitVec 2) : ICond := if x == 0 then .eq else if x == 1 then .slt else if x == 2 then .ult else .ne
def numOf (x : BitVec 2) : Option NumKind :=
  if x == 0 then some .float else if x == 1 then some .signed else if x == 2 then some .unsigned else none
def redOf (x : BitVec 2) : RedOp := if x == 0 then .fsum else if x == 1 then .fmax else if x == 2 then .isum else .imax
def scanOf (x : BitVec 2) : Option ScanOp := if x == 0 then some .fsum else if x == 1 then some .isum else none
def moviOf (x : BitVec 2) : Option MoviKind := if x == 0 then some .int else if x == 1 then some .float else none
def sfuOf (x : BitVec 3) : Option SfuFn :=
  if x == 0 then some .exp2 else if x == 1 then some .log2 else if x == 2 then some .rcp else if x == 3 then some .rsqrt
  else if x == 4 then some .sqrt else if x == 5 then some .tanh else if x == 6 then some .sigmoid else none
def dregOf (x : BitVec 4) : Option DReg :=
  if x == 0 then some .seed else if x == 1 then some .thresh else if x == 2 then some .keepscale else if x == 3 then some .outscale
  else if x == 4 then some .outfmt else if x == 5 then some .rowbase else if x == 6 then some .colbase
  else if x == 7 then some .colcount else if x == 8 then some .dest else none
def engOf (x : BitVec 3) : Option Eng :=
  if x == 0 then some .s else if x == 1 then some .a else if x == 2 then some .v else if x == 3 then some .m
  else if x == 4 then some .w else if x == 5 then some .c else none

/-- ALU sub-operations (R75). -/
def decAlu (w : W32) : Dec :=
  let d := fD w; let a := fA w; let b := fB w
  match (fM w).toNat with
  | 0 => .ok (.add d a b) | 1 => .ok (.sub d a b) | 2 => .ok (.and d a b) | 3 => .ok (.or d a b)
  | 4 => .ok (.xor d a b) | 5 => .ok (.andn d a b) | 6 => .ok (.shl d a b) | 7 => .ok (.shr d a b)
  | 8 => .ok (.sar d a b) | 9 => .ok (.rot d a b) | 10 => .ok (.min d a b) | 11 => .ok (.max d a b)
  | 12 => .ok (.minu d a b) | 13 => .ok (.maxu d a b) | 14 => .ok (.slt d a b) | 15 => .ok (.sltu d a b)
  | 16 => .ok (.seq d a b) | 17 => .ok (.mul d a b) | 18 => .ok (.mulh d a b) | 19 => .ok (.mulhu d a b)
  | 20 => .ok (.div d a b) | 21 => .ok (.divu d a b) | 22 => .ok (.rem d a b) | 23 => .ok (.remu d a b)
  | 24 => zero b (.ok (.clz d a)) | 25 => zero b (.ok (.ffs d a)) | 26 => zero b (.ok (.popc d a))
  | 27 => zero b (.ok (.brev d a)) | 28 => zero b (.ok (.bswp d a)) | 29 => .ok (.csel d a b)
  | 30 => .ok (.addw d a b)
  | _ => zero (b.extractLsb' 2 4) (named (sextOf (b.extractLsb' 0 2)) (.sext d a))

/-- SHI forms: I 10:9 selects, I 8:6 is zero (R74). -/
def decShi (w : W32) : Dec :=
  let d := fD w; let a := fA w; let n : BitVec 6 := w.extractLsb' 0 6
  zero (w.extractLsb' 6 3 : BitVec 3)
    (match (w.extractLsb' 9 2 : BitVec 2).toNat with
     | 0 => .ok (.shli d a n) | 1 => .ok (.shri d a n) | 2 => .ok (.sari d a n) | _ => .ok (.roti d a n))

/-- LDX and its fill form (R74, R76, R113). -/
def decLdx (w : W32) : Dec :=
  let c : BitVec 3 := w.extractLsb' 2 3
  if c == 6 then (if (fX w) == 3 then zero (fA w) (.ok (.ldxFill (fD w) (fB w))) else .error .reserved)
  else named (ldClassOf c) (fun c => .ldx (fD w) (fA w) (fB w) c (sizeOf2 (fX w)))

/-- STX and its spill form (R74, R76, R113). -/
def decStx (w : W32) : Dec :=
  let c : BitVec 3 := w.extractLsb' 2 3
  if c == 6 then (if (fX w) == 3 then zero (fA w) (.ok (.stxSpill (fD w) (fB w))) else .error .reserved)
  else named (stClassOf c) (fun c => .stx (fD w) (fA w) (fB w) c (sizeOf2 (fX w)))

/-- SYS sub-operations (R77). -/
def decSys (w : W32) : Dec :=
  let d := fD w; let a := fA w; let b := fB w
  let r : BitVec 12 := w.extractLsb' 5 12
  match (fM w).toNat with
  | 0 => zero d (zero a (zero (b.extractLsb' 3 3) (named (reachOf (b.extractLsb' 0 3)) .phase)))
  | 1 => zero a (zero b (.ok (.untaint d)))
  | 2 => zero b (.ok (.taint d a))
  | 3 => zero d (zero a (.ok (.fence b)))
  | 4 => zero d (zero a (.ok (.trap b)))
  | 5 => zero d (zero a (zero b (.ok .eret)))
  | 6 => .ok (.sysrd d r)
  | 7 => .ok (.syswr d r)
  | 8 => zero d (zero a (zero b (.ok .icinv)))
  | 9 => zero d (named (tlbOf b) (.tlbinv a))
  | 10 => zero d (zero a (zero b (.ok .halt)))
  | 11 => zero d (zero a (zero b (.ok .bkpt)))
  | 12 => zero d (zero a (zero b (.ok .yield)))
  | 13 => zero d (zero a (zero b (.ok .exit)))
  | 14 => zero d (zero (b.extractLsb' 3 3) (named (engOf (b.extractLsb' 0 3)) (.xsend a)))
  | 15 => zero b (.ok (.padmap d a))
  | _ => .error .illegal

/-- TASK sub-operations (R77). -/
def decTask (w : W32) : Dec :=
  let d := fD w; let a := fA w; let b := fB w
  match (fM w).toNat with
  | 0 => .ok (.spawn d a b)
  | 1 => zero b (.ok (.scopeo d a))
  | 2 => zero d (zero b (.ok (.scopec a)))
  | 3 => zero b (.ok (.quench d a))
  | 4 => zero b (.ok (.cwait d a))
  | 5 => zero b (.ok (.cread d a))
  | _ => .error .illegal

/-- BAR sub-operations (R77). -/
def decBar (w : W32) : Dec :=
  let d := fD w; let a := fA w; let b := fB w
  match (fM w).toNat with
  | 0 => zero d (zero b (.ok (.barArrive a)))
  | 1 => zero d (zero b (.ok (.barWait a)))
  | 2 => zero d (zero b (.ok (.barSync a)))
  | 3 => zero d (.ok (.barInit a b))
  | _ => .error .illegal

/-- DCB sub-operations (R74). -/
def decDcb (w : W32) : Dec :=
  let d := fD w; let a := fA w; let b := fB w
  match (fM w).toNat with
  | 0 => zero d (.ok (.dcbClean a b))
  | 1 => zero d (.ok (.dcbInv a b))
  | 2 => zero d (.ok (.dcbFlush a b))
  | 3 => zero d (.ok (.dcbPf a b))
  | 4 => zero d (.ok (.dcbZero a b))
  | _ => .error .illegal

/-- Scalar words (R74). -/
def decS (op : Nat) (w : W32) : Dec :=
  let d := fD w; let a := fA w; let imm := fI w
  match op with
  | 0x00 => decAlu w
  | 0x01 => .ok (.addi d a imm) | 0x02 => .ok (.andi d a imm) | 0x03 => .ok (.ori d a imm) | 0x04 => .ok (.xori d a imm)
  | 0x05 => decShi w
  | 0x06 => .ok (.slti d a imm) | 0x07 => .ok (.sltui d a imm)
  | 0x08 => .ok (.movw d (fW w)) | 0x09 => .ok (.movk1 d (fW w)) | 0x0A => .ok (.movk2 d (fW w))
  | 0x0B => zero (w.extractLsb' 13 4 : BitVec 4) (.ok (.movk3 d (w.extractLsb' 0 13)))
  | 0x0C => .ok (.ldb d a imm) | 0x0D => .ok (.ldh d a imm) | 0x0E => .ok (.ldw d a imm) | 0x0F => .ok (.ldd d a imm)
  | 0x10 => .ok (.stb d a imm) | 0x11 => .ok (.sth d a imm) | 0x12 => .ok (.stw d a imm) | 0x13 => .ok (.std d a imm)
  | 0x14 => decLdx w
  | 0x15 => decStx w
  | 0x16 => .ok (.amo d a (fB w) (amoOrdOf (w.extractLsb' 3 2)) (amoOpOf (w.extractLsb' 0 3)))
  | 0x17 => .ok (.amow d a (fB w) (amoOrdOf (w.extractLsb' 3 2)) (amoOpOf (w.extractLsb' 0 3)))
  | 0x18 => .ok (.beq d a imm) | 0x19 => .ok (.bne d a imm) | 0x1A => .ok (.blt d a imm)
  | 0x1B => .ok (.bge d a imm) | 0x1C => .ok (.bltu d a imm) | 0x1D => .ok (.bgeu d a imm)
  | 0x1E => .ok (.jmp (fJ w)) | 0x1F => .ok (.call (fJ w))
  | 0x20 => zero (fI w) (.ok (.jr d a))
  | 0x21 => decSys w | 0x22 => decTask w | 0x23 => decBar w | 0x24 => decDcb w
  | 0x25 => zero d (.ok (.icpf a imm))
  | _ => .error .illegal

/-- Access-engine words (R78). -/
def decA (op : Nat) (w : W32) : Dec :=
  let d := fD w; let a := fA w; let b := fB w
  match op with
  | 0x00 => named (streamOf (fP w)) (fun k => .strm d a b k (w.getLsbD 1) (w.getLsbD 0))
  | 0x01 => named (streamOf (fP w)) (fun k => .strmg d a b k (w.getLsbD 1) (w.getLsbD 0))
  | 0x02 => zero (w.extractLsb' 0 17 : BitVec 17) (.ok (.strmc d))
  | 0x03 => zero (fX w) (named (ldClassOf (fP w)) (.ldv d a b))
  | 0x04 => zero (fP w) (.ok (.ldt d a b (fX w)))
  | 0x05 => zero d (zero (fM w) (.ok (.pfd a b)))
  | _ => .error .illegal

/-- VCVT (R158). -/
def decVcvt (w : W32) : Dec :=
  named (fmtOf (w.extractLsb' 5 4)) (fun t => .vcvt (fD w) (fA w) (w.getLsbD 10) (w.getLsbD 9) t (fP w) (roundOf (fX w)))

/-- Vector words (R82). -/
def decV (op : Nat) (w : W32) : Dec :=
  let d := fD w; let a := fA w; let b := fB w; let p := fP w; let x := fX w
  match op with
  | 0x00 => zero x (.ok (.vfadd d a b p)) | 0x01 => zero x (.ok (.vfsub d a b p)) | 0x02 => zero x (.ok (.vfmul d a b p))
  | 0x03 => zero x (.ok (.vfma d a b p)) | 0x04 => zero x (.ok (.vfmin d a b p)) | 0x05 => zero x (.ok (.vfmax d a b p))
  | 0x06 => zero b (zero x (.ok (.vfabs d a p))) | 0x07 => zero b (zero x (.ok (.vfneg d a p)))
  | 0x08 => named (satOf x) (.vadd d a b p) | 0x09 => named (satOf x) (.vsub d a b p)
  | 0x0A => named (mulOf x) (.vmul d a b p)
  | 0x0B => zero (x.extractLsb' 1 1) (.ok (.vmin d a b p (w.getLsbD 0)))
  | 0x0C => zero (x.extractLsb' 1 1) (.ok (.vmax d a b p (w.getLsbD 0)))
  | 0x0D => zero b (zero (x.extractLsb' 1 1) (.ok (.vabs d a p (w.getLsbD 0))))
  | 0x0E => zero x (.ok (.vand d a b p)) | 0x0F => zero x (.ok (.vor d a b p)) | 0x10 => zero x (.ok (.vxor d a b p))
  | 0x11 => zero x (.ok (.vandn d a b p)) | 0x12 => zero x (.ok (.vshl d a b p))
  | 0x13 => zero (x.extractLsb' 1 1) (.ok (.vshr d a b p (w.getLsbD 0)))
  | 0x14 => zero b (zero x (.ok (.vclz d a p))) | 0x15 => zero b (zero x (.ok (.vffs d a p)))
  | 0x16 => zero b (zero x (.ok (.vpopc d a p)))
  | 0x17 => .ok (.vfcmp d a b p (fcondOf x)) | 0x18 => .ok (.vicmp d a b p (icondOf x))
  | 0x19 => zero x (.ok (.vsel d a b p))
  | 0x1A => decVcvt w
  | 0x1B => zero b (named (numOf x) (.vwid d a p)) | 0x1C => zero b (named (numOf x) (.vnar d a p))
  | 0x1D => zero b (.ok (.vred d a p (redOf x))) | 0x1E => zero b (named (scanOf x) (.vscan d a p))
  | 0x1F => zero x (.ok (.vperm d a b p)) | 0x20 => zero x (.ok (.vslide d a b p))
  | 0x21 => zero b (zero x (.ok (.vbcast d a p))) | 0x22 => zero b (zero x (.ok (.vmov d a p)))
  | 0x23 => named (moviOf x) (.vmovi d (w.extractLsb' 5 12) p)
  | 0x24 => zero (b.extractLsb' 3 3) (zero x (named (sfuOf (b.extractLsb' 0 3)) (fun f => .vsfu d a f p)))
  | 0x25 => zero x (.ok (.vtw d a b p))
  | 0x26 => zero p (zero x (.ok (.vtr d a b)))
  | 0x27 => zero (a.extractLsb' 4 2) (zero (w.extractLsb' 0 11 : BitVec 11) (.ok (.tfmt d (a.extractLsb' 0 4))))
  | 0x28 => zero x (.ok (.vlsl d a b p)) | 0x29 => zero x (.ok (.vlss d a b p))
  | 0x2A => zero (d.extractLsb' 5 1) (zero (w.extractLsb' 13 4 : BitVec 4)
      (.ok (.pset (ewidthOf (d.extractLsb' 3 2)) (d.extractLsb' 0 3) (w.extractLsb' 0 13))))
  | 0x2B => zero (d.extractLsb' 5 1) (zero (b.extractLsb' 3 3) (zero (fM w)
      (.ok (.pwhile (ewidthOf (d.extractLsb' 3 2)) (d.extractLsb' 0 3) a (b.extractLsb' 0 3)))))
  | 0x2C => zero (a.extractLsb' 3 3) (zero (w.extractLsb' 0 11 : BitVec 11) (.ok (.pcnt d (a.extractLsb' 0 3))))
  | _ => .error .illegal

/-- Matrix words (R79). -/
def decM (op : Nat) (w : W32) : Dec :=
  let d := fD w; let a := fA w; let b := fB w
  match op with
  | 0x00 => zero d (.ok (.mlease (fW w)))
  | 0x01 => zero (fJ w) (.ok .myield)
  | 0x02 => zero (fM w) (.ok (.mldb d a b))
  | 0x03 => .ok (.mmul d a (w.getLsbD 10) (w.extractLsb' 7 3) (w.extractLsb' 5 2) (w.getLsbD 4) (w.getLsbD 3) (w.getLsbD 2) (fX w))
  | 0x04 => .ok (.mmulg d a (w.extractLsb' 9 2) (w.extractLsb' 5 4) (w.getLsbD 4) (w.getLsbD 3) (w.getLsbD 2) (fX w))
  | 0x05 => zero a (.ok (.aballoc d (fI w)))
  | 0x06 => zero a (.ok (.abfree d (fI w)))
  | 0x07 => zero (fM w) (.ok (.abown d a b))
  | 0x08 => zero (fJ w) (.ok .mresume)
  | _ => .error .illegal

/-- Write-back words (R80). -/
def decW (op : Nat) (w : W32) : Dec :=
  let d := fD w; let a := fA w; let b := fB w
  match op with
  | 0x00 => zero (fX w) (named (stClassOf (fP w)) (.stv d a b))
  | 0x01 => zero (fX w) (named (streamOf (fP w)) (.wstrm d a b))
  | 0x02 => zero (fP w) (.ok (.stt d a b (fX w)))
  | 0x03 => zero (w.extractLsb' 4 1 : BitVec 1) (.ok (.drn d a b (w.getLsbD 3) (w.getLsbD 2) (w.getLsbD 1) (w.getLsbD 0)))
  | 0x04 => zero (w.extractLsb' 22 1 : BitVec 1)
      (if w.getLsbD 21 then zero (w.extractLsb' 4 13 : BitVec 13) (named (dregOf (w.extractLsb' 17 4)) (fun r => .dcfgRegister r (w.extractLsb' 0 4)))
       else named (dregOf (w.extractLsb' 17 4)) (fun r => .dcfg r (fW w)))
  | _ => .error .illegal

/-- Copy words (R81). -/
def decC (op : Nat) (w : W32) : Dec :=
  let d := fD w; let a := fA w; let b := fB w
  match op with
  | 0x00 => zero (fM w) (.ok (.cpy d a b))
  | 0x01 => zero (w.extractLsb' 4 1 : BitVec 1) (named (fmtOf (w.extractLsb' 0 4)) (.cpys d a b))
  | 0x02 => zero (w.extractLsb' 4 1 : BitVec 1) (.ok (.cpyh d a b (w.extractLsb' 0 4)))
  | 0x03 => zero (w.extractLsb' 1 4 : BitVec 4) (.ok (.cpyr d a b (w.getLsbD 0)))
  | 0x04 => zero (fI w) (.ok (.cvtl d a))
  | 0x05 => zero d (zero a (zero (fM w) (.ok (.cpyc b))))
  | _ => .error .illegal

/-- A coupling word where R83 does not allow it: slice-only words in a logical program, and on the scalar engine FOLLOW, the
x-register words and LCSET with D 5 = 1. -/
def couplingIllegal (v : View) (e : Eng) (op : Nat) (w : W32) : Bool :=
  (decide (v = .logical) && !(op == 0x30 || op == 0x37))
    || (decide (e = .s) && (op == 0x35 || op == 0x39 || op == 0x3A || op == 0x3B || op == 0x3C || (op == 0x34 && w.getLsbD 22)))

/-- The shared coupling group (R83-R90). -/
def decX (v : View) (e : Eng) (op : Nat) (w : W32) : Dec :=
  let xd : BitVec 4 := w.extractLsb' 17 4; let xa : BitVec 4 := w.extractLsb' 11 4; let xb : BitVec 4 := w.extractLsb' 5 4
  let d54 : BitVec 2 := w.extractLsb' 21 2; let a54 : BitVec 2 := w.extractLsb' 15 2; let b54 : BitVec 2 := w.extractLsb' 9 2
  if couplingIllegal v e op w then .error .illegal else
  match op with
  | 0x30 => zero (fJ w) (.ok (.nop e))
  | 0x31 => zero (w.extractLsb' 5 18 : BitVec 18) (.ok (.evpost e (w.extractLsb' 0 5)))
  | 0x32 => zero (w.extractLsb' 5 18 : BitVec 18) (.ok (.evwait e (w.extractLsb' 0 5)))
  | 0x33 => zero (fD w) (zero (w.extractLsb' 13 4 : BitVec 4) (.ok (.loop e (w.extractLsb' 11 2) (fI w))))
  | 0x34 => zero (w.extractLsb' 19 3 : BitVec 3)
      (if w.getLsbD 22 then zero (fW w) (.ok (.lcsetQueue e (w.extractLsb' 17 2))) else .ok (.lcset e (w.extractLsb' 17 2) (fW w)))
  | 0x35 => .ok (.follow e (fJ w))
  | 0x36 => .ok (.jmpe e (fJ w))
  | 0x37 => zero (w.extractLsb' 8 15 : BitVec 15) (.ok (.tkwait e (w.extractLsb' 0 8)))
  | 0x38 => zero (fJ w) (.ok (.notify e))
  | 0x39 => zero d54 (zero (fW w) (.ok (.xrecv e xd)))
  | 0x3A => zero d54 (zero a54 (.ok (.xaddi e xd xa (fI w))))
  | 0x3B => zero d54 (.ok (.xmovw e xd (fW w)))
  | 0x3C => zero d54 (zero a54 (zero b54 (zero (fM w) (.ok (.xadd e xd xa xb)))))
  | _ => .error .illegal

/-- The fields of a word, before the value ranges are checked. -/
def decodeRaw (v : View) (w : W32) : Dec :=
  match engOf (fE w) with
  | none => .error .illegal
  | some e =>
    let op := (fOp w).toNat
    if 0x30 ≤ op then decX v e op w
    else match e with
      | .s => decS op w
      | .a => decA op w
      | .v => decV op w
      | .m => decM op w
      | .w => decW op w
      | .c => decC op w

/-- The instruction that a word encodes in a view, or the fault that R92 names. -/
def decode (v : View) (w : W32) : Dec :=
  match decodeRaw v w with
  | .error r => .error r
  | .ok i => if i.wf v then .ok i else .error .reserved

/-- A slice word as the engine whose array holds it reads it: a word of another engine is ILLEGAL (R65, R92). -/
def decodeSlice (e : Eng) (w : W32) : Dec :=
  if engOf (fE w) = some e then decode .slice w else .error .illegal

/-- A little-endian word from four bytes (R5). -/
def wordOfBytes (b0 b1 b2 b3 : Byte) : W32 := b3 ++ b2 ++ b1 ++ b0

/-- Decoding on any bytes: the instruction in the first four of them and the rest, or the refusal. Fewer than four bytes hold no word. -/
def decodeBytes (v : View) : List Byte → Except DecErr (Instr × List Byte)
  | b0 :: b1 :: b2 :: b3 :: rest =>
    match decode v (wordOfBytes b0 b1 b2 b3) with
    | .ok i => .ok (i, rest)
    | .error r => .error r
  | _ => .error .illegal

/-- The instruction read from a table word: a slice word where the slice view has it, else a logical word (R65). -/
def decodeTableWord (nbits w : Nat) : Option Instr :=
  if nbits = 32 ∧ w < 0x100000000 then
    match decode .slice (BitVec.ofNat 32 w) with
    | .ok i => some i
    | .error _ => match decode .logical (BitVec.ofNat 32 w) with
      | .ok i => some i
      | .error _ => none
  else none

-- ENCODER: the words of the formats (R66), built from the same encoding tables.

def encE (e : Eng) : BitVec 3 := match e with | .s => 0 | .a => 1 | .v => 2 | .m => 3 | .w => 4 | .c => 5
def encF3 (e : Eng) (op d a b : BitVec 6) (m : BitVec 5) : W32 := encE e ++ op ++ d ++ a ++ b ++ m
def encFI (e : Eng) (op d a : BitVec 6) (imm : BitVec 11) : W32 := encE e ++ op ++ d ++ a ++ imm
def encFW (e : Eng) (op d : BitVec 6) (w : BitVec 17) : W32 := encE e ++ op ++ d ++ w
def encFJ (e : Eng) (op : BitVec 6) (j : BitVec 23) : W32 := encE e ++ op ++ j
def encFV (e : Eng) (op d a b : BitVec 6) (p : BitVec 3) (x : BitVec 2) : W32 := encE e ++ op ++ d ++ a ++ b ++ p ++ x

def encSize (x : Size) : BitVec 2 := match x with | .byte => 0 | .half => 1 | .word => 2 | .dword => 3
def encLd (x : LdClass) : BitVec 3 := match x with | .plain => 0 | .na => 1 | .bypass => 2 | .sy => 3 | .syAcq => 4
def encSt (x : StClass) : BitVec 3 := match x with | .plain => 0 | .na => 1 | .bypass => 2 | .sy => 3 | .syRel => 5
def encAmoOp (x : AmoOp) : BitVec 3 :=
  match x with | .add => 0 | .min => 1 | .max => 2 | .and => 3 | .or => 4 | .xor => 5 | .swp => 6 | .cas => 7
def encAmoOrd (x : AmoOrd) : BitVec 2 := match x with | .sy => 0 | .acq => 1 | .rel => 2 | .acqrel => 3
def encReach (x : Reach) : BitVec 3 := match x with | .cell => 0 | .cluster => 1 | .die => 2 | .package => 3 | .system => 4
def encSext (x : SextSize) : BitVec 2 := match x with | .byte => 0 | .half => 1 | .word => 2
def encTlb (x : TlbMode) : BitVec 6 := match x with | .page => 0 | .context => 1 | .part => 2
def encStream (x : StreamKind) : BitVec 3 := match x with | .pack => 0 | .row => 1
def encRound (x : Round) : BitVec 2 := match x with | .rne => 0 | .rtz => 1 | .rdn => 2 | .rup => 3
def encFmt (x : Fmt) : BitVec 4 :=
  match x with
  | .raw => 0 | .bf16 => 1 | .fp32 => 2 | .e4m3 => 3 | .e5m2 => 4 | .mxfp8 => 5 | .mxfp4 => 6 | .qn4 => 7 | .qn4s => 8
  | .mxs => 9 | .zm8 => 10 | .zm16 => 11 | .int8 => 12 | .int4 => 13
def encWidth (x : EWidth) : BitVec 2 := match x with | .w4 => 0 | .w8 => 1 | .w16 => 2 | .w32 => 3
def encSat (x : SatMode) : BitVec 2 := match x with | .wrap => 0 | .us => 1 | .ss => 3
def encMul (x : MulHalf) : BitVec 2 := match x with | .low => 0 | .highSigned => 1 | .highUnsigned => 2
def encFCond (x : FCond) : BitVec 2 := match x with | .eq => 0 | .lt => 1 | .le => 2 | .ne => 3
def encICond (x : ICond) : BitVec 2 := match x with | .eq => 0 | .slt => 1 | .ult => 2 | .ne => 3
def encNum (x : NumKind) : BitVec 2 := match x with | .float => 0 | .signed => 1 | .unsigned => 2
def encRed (x : RedOp) : BitVec 2 := match x with | .fsum => 0 | .fmax => 1 | .isum => 2 | .imax => 3
def encScan (x : ScanOp) : BitVec 2 := match x with | .fsum => 0 | .isum => 1
def encMovi (x : MoviKind) : BitVec 2 := match x with | .int => 0 | .float => 1
def encSfu (x : SfuFn) : BitVec 3 :=
  match x with | .exp2 => 0 | .log2 => 1 | .rcp => 2 | .rsqrt => 3 | .sqrt => 4 | .tanh => 5 | .sigmoid => 6
def encDReg (x : DReg) : BitVec 4 :=
  match x with
  | .seed => 0 | .thresh => 1 | .keepscale => 2 | .outscale => 3 | .outfmt => 4 | .rowbase => 5 | .colbase => 6 | .colcount => 7
  | .dest => 8
def encBit (b : Bool) : BitVec 1 := BitVec.ofBool b

/-- The word of an instruction; an event has none. -/
def encode : Instr → Option W32
  | .add d a b => some (encF3 .s 0x00 d a b 0)
  | .sub d a b => some (encF3 .s 0x00 d a b 1)
  | .and d a b => some (encF3 .s 0x00 d a b 2)
  | .or d a b => some (encF3 .s 0x00 d a b 3)
  | .xor d a b => some (encF3 .s 0x00 d a b 4)
  | .andn d a b => some (encF3 .s 0x00 d a b 5)
  | .shl d a b => some (encF3 .s 0x00 d a b 6)
  | .shr d a b => some (encF3 .s 0x00 d a b 7)
  | .sar d a b => some (encF3 .s 0x00 d a b 8)
  | .rot d a b => some (encF3 .s 0x00 d a b 9)
  | .min d a b => some (encF3 .s 0x00 d a b 10)
  | .max d a b => some (encF3 .s 0x00 d a b 11)
  | .minu d a b => some (encF3 .s 0x00 d a b 12)
  | .maxu d a b => some (encF3 .s 0x00 d a b 13)
  | .slt d a b => some (encF3 .s 0x00 d a b 14)
  | .sltu d a b => some (encF3 .s 0x00 d a b 15)
  | .seq d a b => some (encF3 .s 0x00 d a b 16)
  | .mul d a b => some (encF3 .s 0x00 d a b 17)
  | .mulh d a b => some (encF3 .s 0x00 d a b 18)
  | .mulhu d a b => some (encF3 .s 0x00 d a b 19)
  | .div d a b => some (encF3 .s 0x00 d a b 20)
  | .divu d a b => some (encF3 .s 0x00 d a b 21)
  | .rem d a b => some (encF3 .s 0x00 d a b 22)
  | .remu d a b => some (encF3 .s 0x00 d a b 23)
  | .clz d a => some (encF3 .s 0x00 d a 0 24)
  | .ffs d a => some (encF3 .s 0x00 d a 0 25)
  | .popc d a => some (encF3 .s 0x00 d a 0 26)
  | .brev d a => some (encF3 .s 0x00 d a 0 27)
  | .bswp d a => some (encF3 .s 0x00 d a 0 28)
  | .csel d a b => some (encF3 .s 0x00 d a b 29)
  | .addw d a b => some (encF3 .s 0x00 d a b 30)
  | .sext d a sz => some (encF3 .s 0x00 d a ((0 : BitVec 4) ++ encSext sz) 31)
  | .addi d a imm => some (encFI .s 0x01 d a imm)
  | .andi d a imm => some (encFI .s 0x02 d a imm)
  | .ori d a imm => some (encFI .s 0x03 d a imm)
  | .xori d a imm => some (encFI .s 0x04 d a imm)
  | .slti d a imm => some (encFI .s 0x06 d a imm)
  | .sltui d a imm => some (encFI .s 0x07 d a imm)
  | .shli d a n => some (encFI .s 0x05 d a ((0 : BitVec 2) ++ (0 : BitVec 3) ++ n))
  | .shri d a n => some (encFI .s 0x05 d a ((1 : BitVec 2) ++ (0 : BitVec 3) ++ n))
  | .sari d a n => some (encFI .s 0x05 d a ((2 : BitVec 2) ++ (0 : BitVec 3) ++ n))
  | .roti d a n => some (encFI .s 0x05 d a ((3 : BitVec 2) ++ (0 : BitVec 3) ++ n))
  | .movw d w => some (encFW .s 0x08 d w)
  | .movk1 d w => some (encFW .s 0x09 d w)
  | .movk2 d w => some (encFW .s 0x0A d w)
  | .movk3 d w => some (encFW .s 0x0B d ((0 : BitVec 4) ++ w))
  | .ldb d a imm => some (encFI .s 0x0C d a imm)
  | .ldh d a imm => some (encFI .s 0x0D d a imm)
  | .ldw d a imm => some (encFI .s 0x0E d a imm)
  | .ldd d a imm => some (encFI .s 0x0F d a imm)
  | .stb d a imm => some (encFI .s 0x10 d a imm)
  | .sth d a imm => some (encFI .s 0x11 d a imm)
  | .stw d a imm => some (encFI .s 0x12 d a imm)
  | .std d a imm => some (encFI .s 0x13 d a imm)
  | .ldx d a b c sz => some (encF3 .s 0x14 d a b (encLd c ++ encSize sz))
  | .ldxFill d n => some (encF3 .s 0x14 d 0 n 0x1B)
  | .stx d a b c sz => some (encF3 .s 0x15 d a b (encSt c ++ encSize sz))
  | .stxSpill d n => some (encF3 .s 0x15 d 0 n 0x1B)
  | .amo d a b ord op => some (encF3 .s 0x16 d a b (encAmoOrd ord ++ encAmoOp op))
  | .amow d a b ord op => some (encF3 .s 0x17 d a b (encAmoOrd ord ++ encAmoOp op))
  | .beq d a imm => some (encFI .s 0x18 d a imm)
  | .bne d a imm => some (encFI .s 0x19 d a imm)
  | .blt d a imm => some (encFI .s 0x1A d a imm)
  | .bge d a imm => some (encFI .s 0x1B d a imm)
  | .bltu d a imm => some (encFI .s 0x1C d a imm)
  | .bgeu d a imm => some (encFI .s 0x1D d a imm)
  | .jmp j => some (encFJ .s 0x1E j)
  | .call j => some (encFJ .s 0x1F j)
  | .jr d a => some (encF3 .s 0x20 d a 0 0)
  | .phase r => some (encF3 .s 0x21 0 0 ((0 : BitVec 3) ++ encReach r) 0)
  | .untaint d => some (encF3 .s 0x21 d 0 0 1)
  | .taint d a => some (encF3 .s 0x21 d a 0 2)
  | .fence mask => some (encF3 .s 0x21 0 0 mask 3)
  | .trap code => some (encF3 .s 0x21 0 0 code 4)
  | .eret => some (encF3 .s 0x21 0 0 0 5)
  | .sysrd d r => some (encE .s ++ (0x21 : BitVec 6) ++ d ++ r ++ (6 : BitVec 5))
  | .syswr d r => some (encE .s ++ (0x21 : BitVec 6) ++ d ++ r ++ (7 : BitVec 5))
  | .icinv => some (encF3 .s 0x21 0 0 0 8)
  | .tlbinv a mode => some (encF3 .s 0x21 0 a (encTlb mode) 9)
  | .halt => some (encF3 .s 0x21 0 0 0 10)
  | .bkpt => some (encF3 .s 0x21 0 0 0 11)
  | .yield => some (encF3 .s 0x21 0 0 0 12)
  | .exit => some (encF3 .s 0x21 0 0 0 13)
  | .xsend a e => some (encF3 .s 0x21 0 a ((0 : BitVec 3) ++ encE e) 14)
  | .padmap d a => some (encF3 .s 0x21 d a 0 15)
  | .spawn d a b => some (encF3 .s 0x22 d a b 0)
  | .scopeo d a => some (encF3 .s 0x22 d a 0 1)
  | .scopec a => some (encF3 .s 0x22 0 a 0 2)
  | .quench e a => some (encF3 .s 0x22 e a 0 3)
  | .cwait d a => some (encF3 .s 0x22 d a 0 4)
  | .cread d a => some (encF3 .s 0x22 d a 0 5)
  | .barArrive a => some (encF3 .s 0x23 0 a 0 0)
  | .barWait a => some (encF3 .s 0x23 0 a 0 1)
  | .barSync a => some (encF3 .s 0x23 0 a 0 2)
  | .barInit a b => some (encF3 .s 0x23 0 a b 3)
  | .dcbClean a b => some (encF3 .s 0x24 0 a b 0)
  | .dcbInv a b => some (encF3 .s 0x24 0 a b 1)
  | .dcbFlush a b => some (encF3 .s 0x24 0 a b 2)
  | .dcbPf a b => some (encF3 .s 0x24 0 a b 3)
  | .dcbZero a b => some (encF3 .s 0x24 0 a b 4)
  | .icpf a imm => some (encFI .s 0x25 0 a imm)
  | .strm d a b k y n => some (encF3 .a 0x00 d a b (encStream k ++ encBit y ++ encBit n))
  | .strmg d a b k y n => some (encF3 .a 0x01 d a b (encStream k ++ encBit y ++ encBit n))
  | .strmc d => some (encF3 .a 0x02 d 0 0 0)
  | .ldv d a b c => some (encF3 .a 0x03 d a b (encLd c ++ (0 : BitVec 2)))
  | .ldt d a b r => some (encF3 .a 0x04 d a b ((0 : BitVec 3) ++ r))
  | .pfd a b => some (encF3 .a 0x05 0 a b 0)
  | .vfadd d a b p => some (encFV .v 0x00 d a b p 0)
  | .vfsub d a b p => some (encFV .v 0x01 d a b p 0)
  | .vfmul d a b p => some (encFV .v 0x02 d a b p 0)
  | .vfma d a b p => some (encFV .v 0x03 d a b p 0)
  | .vfmin d a b p => some (encFV .v 0x04 d a b p 0)
  | .vfmax d a b p => some (encFV .v 0x05 d a b p 0)
  | .vfabs d a p => some (encFV .v 0x06 d a 0 p 0)
  | .vfneg d a p => some (encFV .v 0x07 d a 0 p 0)
  | .vadd d a b p x => some (encFV .v 0x08 d a b p (encSat x))
  | .vsub d a b p x => some (encFV .v 0x09 d a b p (encSat x))
  | .vmul d a b p x => some (encFV .v 0x0A d a b p (encMul x))
  | .vmin d a b p sn => some (encFV .v 0x0B d a b p ((0 : BitVec 1) ++ encBit sn))
  | .vmax d a b p sn => some (encFV .v 0x0C d a b p ((0 : BitVec 1) ++ encBit sn))
  | .vabs d a p sn => some (encFV .v 0x0D d a 0 p ((0 : BitVec 1) ++ encBit sn))
  | .vand d a b p => some (encFV .v 0x0E d a b p 0)
  | .vor d a b p => some (encFV .v 0x0F d a b p 0)
  | .vxor d a b p => some (encFV .v 0x10 d a b p 0)
  | .vandn d a b p => some (encFV .v 0x11 d a b p 0)
  | .vshl d a b p => some (encFV .v 0x12 d a b p 0)
  | .vshr d a b p h => some (encFV .v 0x13 d a b p ((0 : BitVec 1) ++ encBit h))
  | .vclz d a p => some (encFV .v 0x14 d a 0 p 0)
  | .vffs d a p => some (encFV .v 0x15 d a 0 p 0)
  | .vpopc d a p => some (encFV .v 0x16 d a 0 p 0)
  | .vfcmp d a b p x => some (encFV .v 0x17 d a b p (encFCond x))
  | .vicmp d a b p x => some (encFV .v 0x18 d a b p (encICond x))
  | .vsel d a b p => some (encFV .v 0x19 d a b p 0)
  | .vcvt d a g isrc t p r => some (encFV .v 0x1A d a (encBit g ++ encBit isrc ++ encFmt t) p (encRound r))
  | .vwid d a p x => some (encFV .v 0x1B d a 0 p (encNum x))
  | .vnar d a p x => some (encFV .v 0x1C d a 0 p (encNum x))
  | .vred d a p x => some (encFV .v 0x1D d a 0 p (encRed x))
  | .vscan d a p x => some (encFV .v 0x1E d a 0 p (encScan x))
  | .vperm d a b p => some (encFV .v 0x1F d a b p 0)
  | .vslide d a b p => some (encFV .v 0x20 d a b p 0)
  | .vbcast d a p => some (encFV .v 0x21 d a 0 p 0)
  | .vmov d a p => some (encFV .v 0x22 d a 0 p 0)
  | .vmovi d imm p x => some (encE .v ++ (0x23 : BitVec 6) ++ d ++ imm ++ p ++ encMovi x)
  | .vsfu d a f p => some (encFV .v 0x24 d a ((0 : BitVec 3) ++ encSfu f) p 0)
  | .vtw d a b p => some (encFV .v 0x25 d a b p 0)
  | .vtr d a b => some (encFV .v 0x26 d a b 0 0)
  | .tfmt d f => some (encFV .v 0x27 d ((0 : BitVec 2) ++ f) 0 0 0)
  | .vlsl d a b p => some (encFV .v 0x28 d a b p 0)
  | .vlss d a b p => some (encFV .v 0x29 d a b p 0)
  | .pset w n c => some (encFW .v 0x2A ((0 : BitVec 1) ++ encWidth w ++ n) ((0 : BitVec 4) ++ c))
  | .pwhile w n a g => some (encFV .v 0x2B ((0 : BitVec 1) ++ encWidth w ++ n) a ((0 : BitVec 3) ++ g) 0 0)
  | .pcnt d n => some (encFV .v 0x2C d ((0 : BitVec 3) ++ n) 0 0 0)
  | .mlease w => some (encFW .m 0x00 0 w)
  | .myield => some (encF3 .m 0x01 0 0 0 0)
  | .mldb d a b => some (encF3 .m 0x02 d a b 0)
  | .mmul d a h k m y x c r => some (encF3 .m 0x03 d a (encBit h ++ k ++ m) (encBit y ++ encBit x ++ encBit c ++ r))
  | .mmulg d a m q y x c k => some (encF3 .m 0x04 d a (m ++ q) (encBit y ++ encBit x ++ encBit c ++ k))
  | .aballoc d cnt => some (encFI .m 0x05 d 0 cnt)
  | .abfree d cnt => some (encFI .m 0x06 d 0 cnt)
  | .abown d a b => some (encF3 .m 0x07 d a b 0)
  | .mresume => some (encF3 .m 0x08 0 0 0 0)
  | .stv d a b c => some (encF3 .w 0x00 d a b (encSt c ++ (0 : BitVec 2)))
  | .wstrm d a b k => some (encF3 .w 0x01 d a b (encStream k ++ (0 : BitVec 2)))
  | .stt d a b r => some (encF3 .w 0x02 d a b ((0 : BitVec 3) ++ r))
  | .drn d a b z t u sc => some (encF3 .w 0x03 d a b ((0 : BitVec 1) ++ encBit z ++ encBit t ++ encBit u ++ encBit sc))
  | .dcfg r w => some (encFW .w 0x04 ((0 : BitVec 2) ++ encDReg r) w)
  | .dcfgRegister r x => some (encFW .w 0x04 ((1 : BitVec 2) ++ encDReg r) ((0 : BitVec 13) ++ x))
  | .cpy d a b => some (encF3 .c 0x00 d a b 0)
  | .cpys d a b c => some (encF3 .c 0x01 d a b ((0 : BitVec 1) ++ encFmt c))
  | .cpyh d a b n => some (encF3 .c 0x02 d a b ((0 : BitVec 1) ++ n))
  | .cpyr d a b bf => some (encF3 .c 0x03 d a b ((0 : BitVec 4) ++ encBit bf))
  | .cvtl d a => some (encF3 .c 0x04 d a 0 0)
  | .cpyc b => some (encF3 .c 0x05 0 0 b 0)
  | .nop e => some (encFJ e 0x30 0)
  | .evpost e n => some (encFW e 0x31 0 ((0 : BitVec 12) ++ n))
  | .evwait e n => some (encFW e 0x32 0 ((0 : BitVec 12) ++ n))
  | .loop e c imm => some (encFI e 0x33 0 ((0 : BitVec 4) ++ c) imm)
  | .lcset e c w => some (encFW e 0x34 ((0 : BitVec 4) ++ c) w)
  | .lcsetQueue e c => some (encFW e 0x34 ((8 : BitVec 4) ++ c) 0)
  | .follow e j => some (encFJ e 0x35 j)
  | .jmpe e j => some (encFJ e 0x36 j)
  | .tkwait e mask => some (encFW e 0x37 0 ((0 : BitVec 9) ++ mask))
  | .notify e => some (encFJ e 0x38 0)
  | .xrecv e d => some (encFW e 0x39 ((0 : BitVec 2) ++ d) 0)
  | .xaddi e d a imm => some (encFI e 0x3A ((0 : BitVec 2) ++ d) ((0 : BitVec 2) ++ a) imm)
  | .xmovw e d w => some (encFW e 0x3B ((0 : BitVec 2) ++ d) w)
  | .xadd e d a b => some (encF3 e 0x3C ((0 : BitVec 2) ++ d) ((0 : BitVec 2) ++ a) ((0 : BitVec 2) ++ b) 0)
  | .gatedStoreDrain .. | .generatorPush .. | .predictionConfirm .. | .leaseGrant .. | .leaseRunEnd .. | .matrixCommandCompletion ..
  | .drainCompletion .. | .chainRecord .. | .copyRetire .. | .unitCompletion .. | .unitKill .. | .forcedCheck ..
  | .unitPlacement .. | .chipTick .. | .sliceEnd .. | .unitResume .. | .faultRaise .. | .hearthPageService ..
  | .faultReplyResume .. | .faultReplyQuench .. | .doorbellWrite .. | .qerrClear .. | .slipbaseWrite .. | .registerWrite ..
  | .queueBind .. | .jobAdmission .. | .job .. | .pass .. | .graph .. | .launch ..
  | .close .. | .workQueueRestore .. | .watchdogExpiry .. | .gracePeriodExpiry .. | .fabricPacketReceive .. | .responseTimeout ..
  | .dieLinkRetryExhausted .. | .dropCounterRead .. | .moduleReset .. | .getVersion .. | .getCapabilities .. | .negotiateAlgorithms ..
  | .getDigests .. | .getCertificate .. | .challenge .. | .getMeasurements .. | .keyExchange .. | .finish ..
  | .keyUpdate .. | .heartbeat .. | .endSession .. | .lockInterfaceRequest .. | .startInterfaceRequest .. | .stopInterfaceRequest ..
  | .keyProg .. | .tdiRequestOutsideStream .. | .codeObjectLoad .. | .imageUnload .. | .forcedUnload .. | .clusterMove ..
  | .atomicLanding .. | .partitionMapChange .. | .cellRetirement .. | .haltResume .. | .hearthStateDamage .. | .pinRequest ..
  | .testRequest .. => none

end Sys2Proof
end

