-- ==== Sys2Proof/Config.lean ====
section
/-! DEFINITION. What the spec leaves open or leaves to the outside: constants without a body, so that no proof can see
their values (log entries 2-6). -/

namespace Sys2Proof.Config

/-- A fresh free value for each value of the state's counter `nonce` (log 2): the choice among the outcomes that the
spec lists where it calls a result unspecified (R2, R229, R240). -/
opaque free : Nat → Nat

/-- Which agent moves next when the state's agenda names none (log 3). -/
opaque turn : Nat → Turn

/-- What the host driver and the Hearth agreed on for a queue of a VF before it is first used: the process, the bus
address of the ring, LOGN, the priority, the watchdog limit and the MSI-X vector (R245, R248; log 4). -/
opaque queueProc : Nat → Nat → Nat
opaque queueBase : Nat → Nat → BitVec 55
opaque queueLogn : Nat → Nat → Nat
opaque queuePrio : Nat → Nat → BitVec 3
opaque queueWdog : Nat → Nat → BitVec 32
opaque queueVec : Nat → Nat → BitVec 8

/-- Cryptography of R259-R262: digests, signatures, key derivation and the responders' own data (log 5). -/
opaque sha512 : List (BitVec 8) → List (BitVec 8)
opaque sign : Nat → List (BitVec 8) → List (BitVec 8)
opaque hkdf : List (BitVec 8) → Nat → List (BitVec 8)
opaque ecdh : List (BitVec 8) → Nat → List (BitVec 8)
opaque certificate : Nat → List (BitVec 8)
opaque firmware : Nat → Nat → List (BitVec 8)

/-- A special function's result where the bounds of Machine/Special.lean do not decide the rounding (log 6); never
reached where they do. -/
opaque transcendental : Nat → Bool → Nat → Nat

/-- The timetable the Hearth gives a VF: slice length of the shared pool, process weight, tenant weight, allotment and
bucket rate and depth (R251, R254-R256; log 4). -/
opaque sliceLength : Nat → Nat
opaque processWeight : Nat → Nat → Nat
opaque tenantWeight : Nat → Nat
opaque allotment : Nat → Nat → Nat
opaque bucketRate : Nat → Nat → Nat
opaque bucketDepth : Nat → Nat → Nat

/-- Which of its partition's key identities a VF that is not locked runs with (R260; log 124). -/
opaque vfKey : Nat → Nat

/-- FADDR and FAUX of a RIGHTS fault of a scope or barrier word, for which R278 gives none, from the operand (log 15). -/
opaque rightsAddr : BitVec 64 → BitVec 64
opaque rightsAux : BitVec 64 → BitVec 8

/-- The set in which a cache keeps a line: the device's choice (R11, R132; log 98). -/
opaque cacheSet : Nat → Nat → Nat

/-- Entries of a die's reserved work-queue region, and the 64 KiB pages of the die pads in which it lies (R255; log 4). -/
opaque workRegion : Nat → Nat
opaque workPage : Nat → Bool

/-- What a 16-byte block of a line reads as under another key than that under which it was written (R261; log 5): from the two
keys, the block's place and its value. -/
opaque decipher : Nat → Nat → Nat → Nat → Nat

end Sys2Proof.Config
end

