-- ==== Sys2Proof/Machine/State.lean ====
section
/-! DEFINITION. The state of one CX96 package module as plain data, its state after reset, and the reasons for which a step
of the model can stop. Fields cite the rule that names them; a field marked MODEL is the model's own bookkeeping (log 7). -/

namespace Sys2Proof.Machine

/-- A format code of R55, as the four bits that page entries, tags and objects hold. -/
abbrev FCode := BitVec 4

/-- A seat's number as CELLID shows it (R220): bit 0 seat, bits 2:1 cell, bits 8:3 cluster, bits 10:9 die. -/
abbrev SeatId := BitVec 11

/-- What a word fault carries besides its word (R276, R278); `psn` tells that a poisoned entry or row carried it (R141), and `page` is the address
whose translation failed, where FADDR names another (R201). -/
structure FaultInfo where
  code : Byte
  addr : Dword := 0
  aux  : Byte := 0
  psn  : Bool := false
  page : Option Dword := none
  deriving DecidableEq, Repr

/-- The fault record (R277). -/
structure FaultRecord where
  fcode : Byte := 0
  flsn  : W32 := 0
  flpc  : W32 := 0
  faddr : Dword := 0
  feng  : BitVec 3 := 0
  faux  : Byte := 0
  deriving DecidableEq, Repr

/-- An entry of a coupling means: its value, its producer's LSN, the LSN of the word that took it tentatively (R28), and the engines of the two
(R284). -/
structure Item (α : Type) where
  val   : α
  lsn   : Lsn
  taken : Option Lsn := none
  maker : Eng := .s
  taker : Eng := .s
  deriving DecidableEq, Repr

/-- A port entry without its LSN, which its `Item` holds (R140); `bad` is its storage's damaged mark (R288). -/
structure PortEntry where
  data  : Vec
  taint : Taint := 0
  vcnt  : Nat := 512
  prov  : Bool := false
  psn   : Bool := false
  last  : Bool := false
  fcode : Byte := 0
  faux  : Byte := 0
  fmt   : FCode := 0
  bad   : Bool := false
  deriving DecidableEq, Repr

/-- A tile row (R27, R148): its full bit, its data, its taint, the fault of a poisoned row, its producer's LSN, the LSN
and the engine of a last reader that H has not passed, and its storage's damaged mark (R288). -/
structure Row where
  full  : Bool := false
  data  : Vec := 0
  taint : Taint := 0
  psn   : Option FaultInfo := none
  lsn   : Lsn := 0
  taken : Option Lsn := none
  taker : Eng := .v
  bad   : Bool := false
  deriving DecidableEq, Repr

/-- A tile register: format tag and 32 rows (R14). -/
structure Tile where
  tag  : FCode := 0
  rows : Vector Row 32 := Vector.replicate 32 {}
  deriving DecidableEq, Repr

/-- What a word waits for from the fabric or the host port, a response (R263) or an acknowledgement (R236): nothing asked, asked at a count of cycles for an address, or answered. -/
inductive Remote where
  | idle | asked (at_ : Nat) (va : Dword) | answered
  deriving DecidableEq, Repr

/-- A stream generator of a port q0-q9 (R142-R146): the object entry it walks, the walk position as a count of elements,
the index port of a gather with the indices taken and not yet used, the LSN of a STRMC that
stopped it, and where the next entry's response from a remote package stands (R263). -/
structure Gen where
  port    : Nat
  lsn     : Lsn
  obj     : List Dword
  off     : Dword := 0
  kind    : StreamKind := .pack
  sy      : Bool := false
  nx      : Bool := false
  taint   : Taint := 0
  pos     : Nat := 0
  index   : Option Nat := none
  pending : List (W32 × Taint) := []
  lastIn  : Bool := false
  ended   : Bool := false
  prov    : Bool := false
  stopped : Option Lsn := none
  remote  : Remote := .idle
  deriving DecidableEq, Repr

/-- Why an engine's word has not executed (R27, R42, R180): the waits of R42 are kill points. A wait for a page-table walker names the
page, its place in arrival order, and whether the walk has one (R303). -/
inductive Wait where
  | event | tile | portEmpty | portFull | barrier | token | lease | alloc | cwait
  | horizon | log | queueFull | queueEmpty | decision | atomic | range | matrix | slot | fence | drain | remote | distance
  | buffer | post | table | bucket | ack | walker (page ord : Nat) (held : Bool)
  deriving DecidableEq, Repr

/-- The waits that R42 names. -/
def Wait.killPoint : Wait → Bool
  | .event | .tile | .portEmpty | .barrier | .token | .lease | .alloc | .cwait => true
  | .portFull | .horizon | .log | .queueFull | .queueEmpty | .decision | .atomic | .range | .matrix | .slot | .fence
  | .drain | .remote | .distance | .buffer | .post | .table | .bucket | .ack | .walker .. => false

/-- An engine of a seat (R14, R29, R71, R284): the slice index of its next word, its running LSN, whether its NOTIFY has
executed, its local registers, loop counters and rotation bases, the word at hand with its side-table entry, the reason
it waits for, the fault held with its next word, the words that H has not passed (newest first), and its transfer and
decision queues. -/
structure Engine where
  pc     : Nat := 0
  lsn    : Lsn := 0
  done   : Bool := false
  x      : Vector Dword 16 := Vector.replicate 16 0
  xt     : Vector Taint 16 := Vector.replicate 16 0
  lc     : Vector W32 4 := Vector.replicate 4 0
  rbv    : Fin 24 := 0
  rbp    : Fin 4 := 0
  word   : W32 := 0
  side   : SideEntry := ⟨0, 0, 0, false, false⟩
  wait   : Option Wait := none
  held   : Option FaultInfo := none
  issued : List (Nat × Lsn) := []
  xq     : List (Item (Dword × Taint)) := []
  dq     : List (Item Bool) := []
  remote : Remote := .idle
  deriving DecidableEq, Repr

/-- The container and the old contents that a log entry restores (R31, R32). -/
inductive Undo where
  | sreg (r : BitVec 6) (v : Dword) (t : Taint)
  | vreg (r : Fin 48) (v : Vec) (t : Taint)
  | pred (r : Fin 8) (v : BitVec 16) (t : Taint)
  | xreg (e : Eng) (r : Fin 16) (v : Dword) (t : Taint)
  | loopc (e : Eng) (r : Fin 4) (v : W32)
  | bases (e : Eng) (v : Fin 24) (p : Fin 4)
  | row (t : Fin 8) (r : Fin 32) (old : Row)
  | tag (t : Fin 8) (f : FCode)
  | lane (off : Nat) (old : List (Nat × Byte))
  | nothing
  deriving DecidableEq, Repr

/-- Damaged registers of a seat (R288, R289); port entries, tile rows and log entries carry their own marks. -/
inductive Damage where
  | sreg (r : BitVec 6) | xreg (e : Eng) (r : Fin 16) | vreg (r : Fin 48) | pred (r : Fin 8)
  deriving DecidableEq, Repr

/-- An entry of a slag log or of the access engine's log (R31, R32): its place in the order in which the seat's three logs were
written (R283), whether the register that it restores was damaged (R289), and whether its own storage is (R288). -/
structure LogEntry where
  undo : Undo
  lsn  : Lsn
  ord  : Nat := 0
  was  : Bool := false
  bad  : Bool := false
  deriving DecidableEq, Repr

/-- A byte to be written: location, value, the bits that are written (an INT4 element writes four, R188), whether its
line is one of those that an L1 and an L2 hold (R132), the format of the translation (R134), whether it lies in a pad block (R125), and whether a
`by` store's way home allocates no line (R133). -/
structure WByte where
  key  : Nat
  val  : Byte
  mask : Byte := 0xFF
  l2   : Bool := false
  l1   : Bool := false
  fmt  : FCode := 0
  kid  : BitVec 7 := 0
  pad  : Bool := false
  bypass : Bool := false
  deriving DecidableEq, Repr

/-- A store in the gated store buffer (R33, R111) with its engine; `sys` tells that a release reaches SYSTEM (R226), `spill` that
it writes a spill slot (R113). -/
structure GStore where
  lsn   : Lsn
  cls   : StClass := .plain
  bytes : List WByte
  sys   : Bool := false
  eng   : Eng := .s
  spill : Bool := false
  deriving DecidableEq, Repr

/-- An unpublished byte of the unit (R43, R127, R298): it has left the buffer and no publication covers it. `tok` names the
token of a copy that wrote it and has not been joined (R239); `copy` tells that a copy wrote it (R272), `spill` that a spill
did, which no publication covers (R111, R113). -/
structure UByte where
  byte : WByte
  lsn  : Lsn
  tok  : Option (Fin 8) := none
  copy : Bool := false
  spill : Bool := false
  deriving DecidableEq, Repr

/-- A read in the log of run-ahead load addresses (R150); `nx` marks one that skips the alias check, and is listed for the
squash of R118 alone. -/
structure RunAhead where
  lsn  : Lsn
  keys : List Nat
  nx   : Bool := false
  deriving DecidableEq, Repr

/-- An atomic that has been issued and has not landed (R114). -/
structure Atom where
  lsn  : Lsn
  op   : AmoOp
  ord  : AmoOrd
  dst  : BitVec 6
  key  : Nat
  wide : Bool
  b    : Dword
  dIn  : Dword
  taint : Taint
  l2   : Bool := false
  fmt  : FCode := 0
  kid  : BitVec 7 := 0
  deriving DecidableEq, Repr

/-- A translated location: its key, its format and key identity, whether an L1 and an L2 hold its line, the pad-space offset of a
pad or window address, and the size of the page, pad block or window bank that holds it (R198). -/
structure Loc where
  key  : Nat
  fmt  : FCode := 0
  kid  : BitVec 7 := 0
  l1   : Bool := false
  l2   : Bool := false
  pad  : Option Nat := none
  page : Nat := 16384
  deriving DecidableEq, Repr

/-- A span of a copy (R198): `n` source bytes at `sva`, the destination pieces, and the scale pages under which it was checked, each by its
address and the location of its first byte (R53, R201). -/
structure Span where
  src : Loc
  sva : Dword
  n   : Nat
  dst : List (Loc × Dword × Nat)
  scales : List (Dword × Loc) := []
  deriving DecidableEq, Repr

/-- Kinds of copy, in the numbering of replay entries (R295). -/
inductive CopyKind where
  | chain | plain | halo | reduce
  deriving DecidableEq, Repr

/-- A copy in flight (R192, R201-R204, R272, R295): `off` source bytes have moved to `doff` destination bytes; `spans` are those that a CPYS or CPYR checked
(none after a resume: they are checked again, R296); `since` is the seat's count of cycles when its requests were made (R263);
`resp` tells that the remote package has answered, `late` that it has not in time; `ended` is the status of a copy that has only to retire; `moved` are destination bytes that a read of the unit has found
written before their span's move (R240). Of a chain, `off` and `doff` count within its record and within the row at hand, `begun` is the
record that is at hand and `row` its bytes as they were read (R197), and `page` an address whose page the Hearth is to make present (R197). -/
structure Copy where
  kind  : CopyKind
  tok   : Fin 8
  conv  : BitVec 4 := 0
  src   : Dword := 0
  dst   : Dword := 0
  len   : Nat := 0
  off   : Nat := 0
  doff  : Nat := 0
  bar   : Nat := 0
  gen   : Half := 0
  ch    : Fin 4 := 0
  lsn   : Lsn
  taint : Taint := 0
  spans : List Span := []
  since : Nat := 0
  ended : Option Byte := none
  moved : List (Nat × Byte) := []
  begun : Option Dword := none
  row   : List Byte := []
  page  : Option Dword := none
  resp  : Bool := false
  late  : Bool := false
  deriving DecidableEq, Repr

/-- A range of the range scoreboard (R136): pad-space offsets, lowest and first beyond. -/
structure Range where
  tok : Fin 8
  lo  : Nat
  hi  : Nat
  dst : Bool
  deriving DecidableEq, Repr

/-- A matrix command in the matrix queue (R175, R176, R294): its operands, the pair list of an MMULG, whether it is a
last read, the next row and K-block, whether it has started, and was counted, under the present run (R170), and whether a resume has
brought it back (R294). -/
structure MCmd where
  lsn   : Lsn
  bank  : Nat
  tile  : Fin 8
  slot  : Fin 4
  pairs : List (Nat × Nat)
  kb    : Nat
  acc   : Bool
  asg   : Bool
  bsg   : Bool
  hi    : Bool
  tag   : FCode
  idxT  : Taint := 0
  lr    : Bool
  row   : Nat := 0
  blk   : Nat := 0
  started : Bool := false
  back  : Bool := false
  deriving DecidableEq, Repr

/-- MSTATE without LS and BUD (R178): a command stopped part-way. -/
structure Stopped where
  lsn : Lsn := 0
  kb  : BitVec 3 := 0
  row : BitVec 5 := 0
  v   : Bool := false
  deriving DecidableEq, Repr

/-- The drain configuration registers (R184). -/
structure Dcfg where
  seed      : W32 := 0
  thresh    : BitVec 17 := 0
  keepscale : W32 := 0x3F800000
  outscale  : W32 := 0x3F800000
  outfmt    : BitVec 4 := 2
  rowbase   : W32 := 0
  colbase   : W32 := 0
  colcount  : BitVec 9 := 256
  dest      : Half := 0
  deriving DecidableEq, Repr

/-- The contents of a B slot element or of any source element as an exact value (R48, R60). -/
inductive Num where
  | nan
  | inf (neg : Bool)
  | fin (neg : Bool) (m : Nat) (e : Int)
  deriving DecidableEq, Repr

/-- Slot types (R172). -/
inductive SlotTy where
  | float | int8 | int4
  deriving DecidableEq, Repr

/-- A resident B slot (R172, R173): its owner, type, and the nonzero elements with their places 256n + k; `bad` lists the
K-blocks whose macro row has a parity error (R290). -/
structure Slot where
  owner : Option SeatId := none
  ty    : SlotTy := .float
  elems : List (Nat × Num) := []
  bad   : List Nat := []
  deriving DecidableEq, Repr

/-- Bank types (R177). -/
inductive BankTy where
  | clear | fp32 | int32
  deriving DecidableEq, Repr

/-- An accumulator bank (R177, R183, R290): eight rows of 256 words, column 0 in the low bits; `bad` is the structure by which
a row is damaged, 6 a macro row or 7 the bank itself, or 0 (R278). -/
structure Bank where
  ty    : BankTy := .clear
  owner : Option SeatId := none
  cell  : Nat := 0
  rows  : Vector (BitVec 8192) 8 := Vector.replicate 8 0
  taint : Vector Taint 8 := Vector.replicate 8 0
  bad   : Vector Byte 8 := Vector.replicate 8 0
  deriving DecidableEq, Repr

/-- A drain that is under way (R181, R182, R187): the bank's number, the contents that it has had since the DRN executed, oldest first,
and whether it is still the allocation that the DRN met. -/
structure Drain where
  lsn  : Lsn
  num  : Nat
  seen : List Bank
  live : Bool := true
  port : Nat
  res  : Option Nat
  sc   : Bool
  dr   : Bool
  row  : Nat := 0
  deriving DecidableEq, Repr

/-- A value that the access engine predicted for an LDV.SY.ACQ (R152): the port, the LDV's LSN and slice index, the
address, the predicted data, the count of home writes at the prediction, and whether the acquire has a tag. -/
structure Predicted where
  port : Nat
  lsn  : Lsn
  pc   : Nat
  addr : Dword
  data : Vec
  seq  : Nat
  tag  : Bool := true
  deriving DecidableEq, Repr

/-- Why a resident unit is to be killed at its next kill point (R43, R302). -/
inductive KillWhy where
  | no | quench | unload
  deriving DecidableEq, Repr

/-- What occupies a seat (R36, R208, R220): the unit's serial in the model, image, unit index, scope with generation,
partition, context, privilege, handle, release tick, and the order of its launch. -/
structure UnitRec where
  uid     : Nat := 0
  image   : W32 := 0
  ix      : W32 := 0
  scope   : BitVec 12 := 0
  gen     : BitVec 20 := 0
  part    : Fin 32 := 0
  vf      : Nat := 0
  proc    : Nat := 0
  priv    : Bool := false
  ct      : Bool := false
  handle  : W32 := 0
  release : W32 := 0
  order   : Nat := 0
  bypass  : Nat := 0
  pinned  : Bool := false
  deriving DecidableEq, Repr

/-- What a seat does: no unit, a unit that runs, one that waits for the Hearth's service in place (R285), a halted one
(R221), or one that is killed and waits for its started copies to land (R274). -/
inductive Status where
  | vacant | running | service | halted | dying
  deriving DecidableEq, Repr

/-- A line that a word or a fork moves through an L2 slice port (R254): its LSN, line and port, and whether it has a token. -/
structure LineReq where
  lsn  : Lsn
  line : Nat
  port : Nat
  got  : Bool
  deriving DecidableEq, Repr

/-- A seat with its resident unit context (R14, R97, R297). MODEL: `forced` holds while one event runs the unit's copies and stores to their
ends, in which the waits for tokens and walkers pass (log 123). -/
structure Seat where
  id      : SeatId := 0
  status  : Status := .vacant
  unit    : UnitRec := {}
  s       : Vector Dword 64 := Vector.replicate 64 0
  st      : Vector Taint 64 := Vector.replicate 64 0
  v       : Vector Vec 48 := Vector.replicate 48 0
  vt      : Vector Taint 48 := Vector.replicate 48 0
  p       : Vector (BitVec 16) 8 := Vector.replicate 8 0x6080
  pt      : Vector Taint 8 := Vector.replicate 8 0
  tiles   : Vector Tile 8 := Vector.replicate 8 {}
  ports   : Vector (List (Item PortEntry)) 16 := Vector.replicate 16 []
  gens    : List Gen := []
  ev      : Vector (List (Item Unit)) 32 := Vector.replicate 32 []
  engS    : Engine := {}
  engA    : Engine := {}
  engV    : Engine := {}
  engM    : Engine := {}
  engW    : Engine := {}
  engC    : Engine := {}
  kstat   : Vector Byte 8 := Vector.replicate 8 0
  chd     : Vector Dword 4 := Vector.replicate 4 0
  chStop  : Vector Bool 4 := Vector.replicate 4 false
  ctab    : Vector Vec 4 := Vector.replicate 4 0
  copies  : List Copy := []
  ranges  : List Range := []
  replay  : List Copy := []
  dcfg    : Dcfg := {}
  drain   : Option Drain := none
  ls      : Bool := false
  bud     : BitVec 17 := 32
  mstop   : Stopped := {}
  mq      : List MCmd := []
  ackbase : Dword := 0
  tvec    : Dword := 0
  epc     : Dword := 0
  ecode   : Byte := 0
  hf      : Bool := false
  frec    : FaultRecord := {}
  shadow  : Vector Taint 64 := Vector.replicate 64 0
  lanes   : List Host.Cell := []
  slagS   : List LogEntry := []
  slagV   : List LogEntry := []
  logA    : List LogEntry := []
  logNo   : Nat := 0
  gsb     : List GStore := []
  unpub   : List UByte := []
  rlog    : List RunAhead := []
  atoms   : List Atom := []
  preds   : List Predicted := []
  lastAcq : List (Nat × Vec) := []
  cycles  : Dword := 0
  vpAny   : Nat := 0
  vpClus  : Nat := 0
  kill    : KillWhy := .no
  atKill  : Bool := false
  damage  : List Damage := []
  barGen  : Option (Fin 16 × Half) := none
  chk     : Dword := 0
  after   : Option (Nat × Lsn) := none
  lines   : List LineReq := []
  forced  : Bool := false
  deriving DecidableEq, Repr

/-- A publication of a write (R226): its reach, the cell that made it, and its place in the order of home writes. -/
structure Pub where
  reach : Reach
  cell  : Nat
  seq   : Nat
  deriving DecidableEq, Repr

/-- A write to a location, newest first in `State.hist` (R229, R230): what the location held before, the bits written, the write's place in
the order of home writes, its unit and LSN, the cell that it came from, its publications, none where the byte has reached its
home before any (R226), and whether it is a spill, which none covers (R113), or a copy's, with the token that has not been joined (R239). -/
structure Past where
  key   : Nat
  old   : Byte
  mask  : Byte := 0xFF
  seq   : Nat
  uid   : Nat
  lsn   : Lsn
  cell  : Nat
  pubs  : List Pub
  spill : Bool := false
  tok   : Option (Fin 8) := none
  copy  : Bool := false
  deriving DecidableEq, Repr

/-- The byte has reached its home before any publication. -/
def Past.early (p : Past) : Bool := p.pubs.isEmpty

/-- A published byte that a cache level holds newer than its home memory (R116, R132): the home's byte, the writer. -/
structure Dirty where
  key  : Nat
  back : Byte
  seat : SeatId
  part : Fin 32
  vf   : Nat
  deriving DecidableEq, Repr

/-- Damaged bytes of memory, a pad or a window (R288): the first, how many, those that have not been written again, the
structure that held them (R278), and the cell, where it is that cell's L1. -/
structure MemMark where
  lo   : Nat
  n    : Nat
  left : List Nat
  kind : Byte
  cell : Option Nat := none
  deriving DecidableEq, Repr

/-- A line that a cache holds, with the format that it carries (R132, R134): the holder (a cell's L1 below 1,024, a die's L2 from
1,024 on), the line (key ÷ 128), the format, and the partition and key identity that it is tagged with (R253). -/
structure LineTag where
  holder : Nat
  line   : Nat
  fmt    : FCode
  part   : Fin 32 := 0
  kid    : BitVec 7 := 0
  deriving DecidableEq, Repr

/-- A cached translation of a cell (R224): partition, context, virtual page number (64 KiB) and leaf entry with its level. -/
structure TlbEntry where
  cell : Nat
  part : Fin 32
  vf   : Nat
  proc : Nat
  page : Nat
  leaf : Dword
  lvl  : Nat
  deriving DecidableEq, Repr

/-- A cached object entry of a cell (R138, R224). -/
structure ObjEntry where
  cell : Nat
  part : Fin 32
  vf   : Nat
  proc : Nat
  ix   : Nat
  obj  : List Dword
  deriving DecidableEq, Repr

/-- A line of a cell's instruction cache (R132): the context that owns the image, the line's address and its bytes. -/
structure ICLine where
  cell : Nat
  vf   : Nat
  proc : Nat
  addr : Dword
  data : BitVec 512
  deriving DecidableEq, Repr

/-- A cluster's Anvil (R12, R169-R177): slots, banks, the lease's holder with the commands it may still start, the last
holder, the requesting seats, the waiting ABALLOC requests in arrival order, and the reservations of R300. -/
structure Anvil where
  slots  : Vector Slot 4 := Vector.replicate 4 {}
  banks  : Vector Bank 64 := Vector.replicate 64 {}
  holder : Option SeatId := none
  left   : Nat := 0
  last   : SeatId := 7
  reqs   : List SeatId := []
  allocs : List (SeatId × Nat × Nat) := []
  resv   : List (Nat × List Nat × List Nat) := []
  deriving DecidableEq, Repr

/-- A cluster barrier (R215-R218): domain, participants with their arrived bit and generation, and the BARST fields. -/
structure Barrier where
  domain : BitVec 12 := 0
  parts  : List (Nat × Option Half) := []
  cnt    : Byte := 0
  exp    : Byte := 0
  gen    : Half := 0
  absent : Bool := false
  broken : Bool := false
  init   : Bool := false
  deriving DecidableEq, Repr

/-- A cluster (R12): its number die × 64 + cluster, its Anvil and its sixteen barriers. -/
structure Cluster where
  ix    : Nat
  anvil : Anvil := {}
  bars  : Vector Barrier 16 := Vector.replicate 16 {}
  deriving DecidableEq, Repr

/-- A timetable entry that its partition holds (R36-R38): not yet released, released and waiting, or placed. -/
inductive Phase where
  | waiting | released | placed
  deriving DecidableEq, Repr

/-- A timetable entry (R36), with its context, the launch scopes it is held by (R246), where it stands, and whether it is
swapped out of the die pad (R255). -/
structure Entry where
  unit    : UnitRec
  probe   : BitVec 55 := 0
  due     : W32 := 0
  pv      : Bool := false
  dv      : Bool := false
  deps    : List (BitVec 12 × BitVec 20) := []
  phase   : Phase := .waiting
  swapped : Bool := false
  deriving DecidableEq, Repr

/-- Scope states (R40, R213). -/
inductive ScopeState where
  | free | opened | closed | done
  deriving DecidableEq, Repr

/-- What opened a scope (R35, R209, R246). -/
inductive ScopeKind where
  | root | job | pass | graph | launch | device
  deriving DecidableEq, Repr

/-- A scope table entry (R40, R207, R209, R246, R273): `cancel` tells that a QUENCH covers it, `cancelled` that its status is
CANCELLED, `hostAck` that the acknowledgement area is a bus address. -/
structure Scope where
  num     : BitVec 12
  gen     : BitVec 20 := 0
  parent  : BitVec 12 := 0
  state   : ScopeState := .free
  cancel  : Bool := false
  cancelled : Bool := false
  counter : W32 := 0
  ack     : Dword := 0
  hostAck : Bool := false
  kind    : ScopeKind := .device
  tag     : W32 := 0
  vf      : Nat := 0
  proc    : Nat := 0
  deriving DecidableEq, Repr

/-- A QUENCH that has not ended (R43, R211, R212): its scope, the unit and event to post to, and the counts. -/
structure Quench where
  scope   : BitVec 12
  gen     : BitVec 20
  issuer  : Option (Nat × BitVec 5) := none
  killed  : W32 := 0
  dropped : W32 := 0
  landed  : W32 := 0
  absent  : W32 := 0
  earlier : Bool := false
  deriving DecidableEq, Repr

/-- An event post that waits for its counter (R301). -/
structure Post where
  uid : Nat
  ev  : BitVec 5
  deriving DecidableEq, Repr

/-- A partition (R37, R40, R243, R257, R317), with its quota of page-table walkers, least and most (R303), and the dies that home its
memory (R252, R253). -/
structure Part where
  id        : Fin 32
  tag       : Half := 0
  frame     : W32 := 0
  slipping  : Bool := false
  slipcount : W32 := 0
  slipbase  : Dword := 0
  slipix    : W32 := 0
  refill    : W32 := 51557
  ctm       : Bool := false
  rst       : Bool := false
  testReq   : Bool := false
  walkMin   : Nat := 4
  walkMax   : Nat := 128
  firstJob  : Bool := false
  serial    : W32 := 0
  epoch     : Nat := 0
  keys      : List (BitVec 7) := []
  padPages  : List Nat := []
  homes     : List Nat := []
  scopes    : List Scope := []
  entries   : List Entry := []
  quenches  : List Quench := []
  posts     : List Post := []
  deriving DecidableEq, Repr

/-- A context: one process of one VF (R244, R254, R256), with its protected registers (R220), its seat-cycles in the refill
period, the queue number at which the round robin goes on (R251), and the tokens that its bucket at each L2 slice port has below its
DEPTH (R254). -/
structure Ctx where
  vf      : Nat
  proc    : Nat
  part    : Fin 32 := 0
  ptbase  : Dword := 0
  objbase : Dword := 0
  spill   : Dword := 0
  bal     : Int := 0
  frac    : Nat := 0
  used    : Nat := 0
  rr      : Nat := 0
  levels  : List (Nat × Nat) := []
  deriving DecidableEq, Repr

/-- A slice image as the Hearth holds it (R24, R25): the words themselves lie in memory at `base`. -/
structure Image where
  img    : SliceImage
  vf     : Nat := 0
  proc   : Nat := 0
  system : Bool := false
  object : Nat := 0
  unload : Bool := false
  deriving DecidableEq, Repr

/-- A saved context (R297-R302): the seat's context, its held banks and slots by number, its pad translation entries with
the contents of its near-pad blocks and their damage by block, that of its unpublished bytes in the L1 that it left (R289), its cluster, the times it was
passed over, whether it waits for a reply (the report's SEQ) or for its report to be written, and whether it must resume in its cluster (R299). -/
structure Saved where
  seat   : Seat
  banks  : List (Nat × Bank) := []
  slots  : List (Nat × Slot) := []
  pads   : List (Nat × Dword × List (Nat × Byte)) := []
  padMarks : List (Nat × MemMark) := []
  l1Marks : List MemMark := []
  clus   : Nat := 0
  passed : Nat := 0
  reply  : Option W32 := none
  unsent : Bool := false
  pinClus : Bool := false
  deriving DecidableEq, Repr

/-- A cell: its pad translation table (entries that are not zero, by block), the VF whose unit has last been on each seat (R260), and whether it is
retired (R17, R125). -/
structure CellRec where
  ix      : Nat
  pads    : List (Nat × Dword) := []
  users   : List (Nat × Nat) := []
  retired : Bool := false
  deriving DecidableEq, Repr

/-- A bind record with its watchdog count (R248, R249, R306). -/
structure Bind where
  v     : Bool := false
  pin   : Bool := false
  qbase : BitVec 55 := 0
  wdog  : W32 := 0
  part  : BitVec 5 := 0
  prio  : BitVec 3 := 0
  logn  : BitVec 5 := 0
  vf    : BitVec 7 := 0
  proc  : Byte := 0
  head  : W32 := 0
  tail  : W32 := 0
  qnum  : BitVec 10 := 0
  vec   : Byte := 0
  count : W32 := 0
  deriving DecidableEq, Repr

/-- A grace period of a slot (R306, R316): the slot, the job's scope, and the chip ticks that are left. -/
structure Grace where
  die   : Nat
  slot  : Nat
  part  : Fin 32
  scope : BitVec 12
  gen   : BitVec 20
  left  : Nat
  deriving DecidableEq, Repr

/-- The Hearth's state of a host queue (R245-R247, R250): while a slot holds the queue, HEAD and TAIL are the record's.
`nest` is the queue's open scopes with their generations, innermost first; `jobIx` the index of the open job's JOB; `skip` the levels still to
skip after a breach. -/
structure HostQueue where
  vf      : Nat
  q       : Nat
  proc    : Nat := 0
  qbase   : BitVec 55 := 0
  logn    : Nat := 4
  prio    : BitVec 3 := 0
  wdog    : W32 := 0
  vec     : Byte := 0
  head    : W32 := 0
  tail    : W32 := 0
  pending : Bool := false
  nest    : List (BitVec 12 × BitVec 20) := []
  jobIx   : W32 := 0
  skip    : Nat := 0
  deriving DecidableEq, Repr

/-- An open job (R247): its scope, queue, record address, tag, SLIPCOUNT at its JOB command, ERRIX, its launches, newest first:
tag, scope and graph, each scope with its generation (R246), and the dies whose tables have held its queue since it is open (R19). -/
structure Job where
  scope : BitVec 12
  part  : Fin 32
  vf    : Nat
  q     : Nat
  record : BitVec 55
  tag   : W32
  slips : W32
  errix : W32 := 0
  launches : List (W32 × (BitVec 12 × BitVec 20) × (BitVec 12 × BitVec 20)) := []
  dies  : List Nat := []
  deriving DecidableEq, Repr

/-- TDI interface states (R260). -/
inductive Tdi where
  | unlocked | locked | run | error
  deriving DecidableEq, Repr

/-- A function (R244, R250, R260, R285): its partition, TDI state, key identity and key, fault ring base, SEQ counter,
unanswered reports, and QERR bits. -/
structure Vf where
  vf      : Nat
  part    : Fin 32 := 0
  tdi     : Tdi := .unlocked
  key     : Option (BitVec 7) := none
  secret  : List Byte := []
  fltbase : Dword := 0
  seq     : W32 := 0
  open_   : List W32 := []
  qerr    : List Nat := []
  deriving DecidableEq, Repr

/-- An SPDM session (R259). -/
structure Session where
  sid    : Nat
  secret : List Byte
  ready  : Bool := false
  gen    : Nat := 0
  deriving DecidableEq, Repr

/-- A die's SPDM responder (R259): what has been negotiated, the transcript, and the open sessions. -/
structure Responder where
  version : Bool := false
  caps    : Bool := false
  algs    : Bool := false
  script  : List Byte := []
  opened  : List Session := []
  nextSid : Nat := 1
  deriving DecidableEq, Repr

/-- A selective IDE stream (R260), with the die and the session that programmed it. -/
structure IdeStream where
  stream : Nat
  die    : Nat
  sid    : Nat
  vfs    : List Nat
  deriving DecidableEq, Repr

/-- A fabric port (R263, R305): allowed tags, drop counter, and whether the next drop interrupts the Hearth. -/
structure FPort where
  allowed : List Half := []
  drops   : W32 := 0
  armed   : Bool := true
  deriving DecidableEq, Repr

/-- What the device sends to the host: MSI-X vectors, answers of the responders and of TDISP and IDE, image handles, and drop
counters that the physical function reads (R247, R258-R260, R262, R285, R305). -/
inductive Sent where
  | msix (vf vec : Nat)
  | answer (die : Nat) (data : List Byte)
  | tdisp (vf : Nat) (ok : Bool)
  | ide (stream : Nat) (ok : Bool)
  | handles (hs : List W32)
  | drops (port : Nat) (n : W32)
  deriving DecidableEq, Repr

/-- Interrupts to the Hearth (R41, R250, R258, R288, R305). -/
inductive HearthIrq where
  | count (scope : BitVec 12) (n : W32)
  | doorbell (vf q : Nat) | slip (part : Nat) | drop (port : Nat) | link (die l : Nat) | halted (uid : Nat)
  deriving DecidableEq, Repr

/-- Why a step of the model stops. -/
inductive Fault where
  /-- Raised by `exec` for an instruction word when the seat at hand holds no running unit: there is no such execution on
  the hardware, and `step` never asks for one. Safe. -/
  | noUnit
  deriving DecidableEq, Repr

/-- Why an instruction has no meaning in the model. -/
inductive Refusal where
  /-- Raised by `exec` for an instruction whose meaning has not been written. Safe. -/
  | notModelled (mnemonic : String)
  deriving DecidableEq, Repr

/-- The package module. `seat` is the seat at hand and `others` the other seats that are not vacant. MODEL: `labels` has, for a line, the
number of the key under which it was last written, and `keyGens`, for a key identity, how often its key has changed (R260, R261); `graces` are
the grace periods that run (R306, R316); `codeObjs` has the object entries that all kernels of a code object declare (R139), `hostDrops` is the
host port's drop counter (R317), and `sliceAge` counts the frame ticks of the shared pool's current slice (R251). -/
structure State where
  seat     : Seat := {}
  others   : List Seat := []
  saved    : List Saved := []
  mem      : List Host.Cell := []
  hist     : List Past := []
  seqNo    : Nat := 0
  dirty    : List Dirty := []
  lineTags : List LineTag := []
  tlb      : List TlbEntry := []
  objs     : List ObjEntry := []
  icache   : List ICLine := []
  badMem   : List MemMark := []
  labels   : List (Nat × Nat) := []
  keyGens  : List (Nat × Nat) := []
  cells    : List CellRec := []
  clusters : List Cluster := []
  owned    : List (Nat × Fin 32) := []
  parts    : List Part := []
  ctxs     : List Ctx := []
  images   : List Image := []
  nextImg  : W32 := 1
  nextObj  : Nat := 0
  codeObjs : List (Nat × List (Nat × List Dword)) := []
  nextUid  : Nat := 1
  order    : Nat := 0
  slots    : Vector (Vector Bind 64) 4 := Vector.replicate 4 (Vector.replicate 64 {})
  graces   : List Grace := []
  queues   : List HostQueue := []
  jobs     : List Job := []
  vfs      : List Vf := []
  curVf    : Nat := 0
  sliceAge : Nat := 0
  rings    : Vector (Vector Byte 256) 4 := Vector.replicate 4 (Vector.replicate 256 0x80)
  ways     : List (Nat × Nat × Nat × BitVec 16) := []
  ports    : Vector FPort 48 := Vector.replicate 48 {}
  links    : List (Nat × Nat) := []
  hostDrops : W32 := 0
  spdm     : Vector Responder 6 := Vector.replicate 6 {}
  ide      : List IdeStream := []
  sent     : List Sent := []
  irqs     : List HearthIrq := []
  tod      : Dword := 0
  bootFail : Nat := 0
  sriov    : Bool := false
  corrected : Vector W32 4 := Vector.replicate 4 0
  nonce    : Nat := 0
  agenda   : List Turn := []
  deriving DecidableEq, Repr

/-- Partition 0 after bring-up (R264 step 6, R265): the Hearth uses scope entry 0, the root, which is open. Every key
identity but the Hearth's is in its set (log 8). -/
def resetPart0 : Part :=
  { id := 0, keys := (List.range 127).map (fun k => BitVec.ofNat 7 (k + 1)), scopes := [{ num := 0, gen := 1, state := .opened, kind := .root }] }

/-- The module right after reset (R264): memory zero, partition 0 over all clusters, no unit on any seat, SR-IOV offered.
Registers of a seat hold their unit-start values (R97, R72, R90, R184). -/
def State.reset : State :=
  { parts := [resetPart0], sriov := true }

end Sys2Proof.Machine
end

