-- ==== Sys2Proof/Machine/Bits.lean ====
section
/-! DEFINITION. Bytes of words, elements of vectors, and canonical sparse memories. Multi-byte values are little-endian and
elements are packed from bit 0 up (R5, R46, R153). -/

namespace Sys2Proof.Machine

/-- Byte `i` of a word. -/
def byteOf {n : Nat} (x : BitVec n) (i : Nat) : Byte := x.extractLsb' (8 * i) 8

/-- The first `k` bytes of a word, lowest address first. -/
def bytesOf {n : Nat} (x : BitVec n) (k : Nat) : List Byte := (List.range k).map (byteOf x)

/-- The number that bytes hold, lowest address first. -/
def natOfBytes (l : List Byte) : Nat := l.foldr (fun b acc => b.toNat + 256 * acc) 0

def wordOf (n : Nat) (l : List Byte) : BitVec n := BitVec.ofNat n (natOfBytes l)

/-- Element `e` of width `w` of a packed string of bits. -/
def elemAt (x : Nat) (w e : Nat) : Nat := (x >>> (w * e)) % pow2 w

/-- `k` elements of width `w` packed from bit 0, `f e` being element `e`. -/
def packElems (w k : Nat) (f : Nat → Nat) : Nat :=
  ((List.range k).foldr (fun e acc => (acc <<< w) + f e % pow2 w) 0)

/-- Elements given as a list. -/
def packList (w : Nat) (l : List Nat) : Nat := l.foldr (fun x acc => (acc <<< w) + x % pow2 w) 0

/-- The two's complement value of the low `w` bits. -/
def signedOf (w x : Nat) : Int :=
  let y := x % pow2 w
  if y < pow2 (w - 1) then (y : Int) else (y : Int) - (pow2 w : Nat)

/-- The low `w` bits of an integer. -/
def wrapInt (w : Nat) (x : Int) : Nat := (x % ((pow2 w : Nat) : Int)).toNat

/-- `x` limited to the range `lo` to `hi`. -/
def clampInt (lo hi x : Int) : Int := if x < lo then lo else if hi < x then hi else x

/-- Leading zeros of a `w`-bit value; `w` for 0 (R99, R156). -/
def clzNat (w x : Nat) : Nat := if x % pow2 w == 0 then w else w - 1 - Nat.log2 (x % pow2 w)

/-- The lowest set bit of a `w`-bit value; `w` for 0. -/
def ffsNat (w x : Nat) : Nat := ((List.range w).find? (fun i => x.testBit i)).getD w

/-- The number of set bits among the low `w`. -/
def popNat (w x : Nat) : Nat := ((List.range w).filter (fun i => x.testBit i)).length

/-- `f` of each element of a vector, by recursion on its list. -/
def vmap {α β : Type} {n : Nat} (f : α → β) (v : Vector α n) : Vector β n := ⟨⟨v.toList.map f⟩, by simp⟩

namespace Memory

/-- What a location that is not listed reads as: memory is zero after bring-up (R264 step 4; log 8). -/
def unlisted : Byte := 0

/-- Keys strictly rising, and no entry equal to what an unlisted location reads as. -/
def sorted : List Host.Cell → Bool
  | [] => true
  | [c] => c.2 != unlisted
  | c :: d :: rest => c.2 != unlisted && decide (c.1 < d.1) && sorted (d :: rest)

/-- The canonical form. -/
abbrev wf (m : List Host.Cell) : Prop := sorted m = true

def read (m : List Host.Cell) (k : Nat) : Byte :=
  match m with
  | [] => unlisted
  | c :: rest => if c.1 = k then c.2 else if k < c.1 then unlisted else read rest k

/-- Writes one location and keeps the canonical form. -/
def write (m : List Host.Cell) (k : Nat) (b : Byte) : List Host.Cell :=
  match m with
  | [] => if b = unlisted then [] else [(k, b)]
  | c :: rest =>
    if c.1 = k then (if b = unlisted then rest else (k, b) :: rest)
    else if k < c.1 then (if b = unlisted then c :: rest else (k, b) :: c :: rest)
    else c :: write rest k b

/-- Writes the bytes at successive locations. -/
def writeBytes (m : List Host.Cell) (k : Nat) : List Byte → List Host.Cell
  | [] => m
  | b :: rest => writeBytes (write m k b) (k + 1) rest

end Memory

/-- The byte `old` with the bits of `mask` taken from `new`. -/
def mergeByte (old new mask : Byte) : Byte := (old &&& ~~~mask) ||| (new &&& mask)

/-- The first entry that satisfies `p` replaced by `f` of it. -/
def mapFirst {α : Type} (p : α → Bool) (f : α → α) : List α → List α
  | [] => []
  | x :: rest => if p x then f x :: rest else x :: mapFirst p f rest

/-- `x` put in the place of the entry that satisfies `p`, or at the end. -/
def putWhere {α : Type} (p : α → Bool) (x : α) : List α → List α
  | [] => [x]
  | y :: rest => if p y then x :: rest else y :: putWhere p x rest

end Sys2Proof.Machine
end

