-- ==== Sys2Proof/Machine/Formats.lean ====
section
/-! DEFINITION. Number formats and exact arithmetic (R46-R63): exact values, rounding, conversions, the decoding of MX and
QN4 elements, ZM slots, block alignment and the keep test. -/

namespace Sys2Proof.Machine

/-- How a floating-point layout uses its largest exponent (R48). -/
inductive Top where
  | ieee | nanOnly | finite
  deriving DecidableEq, Repr

/-- A floating-point layout: exponent bits, fraction bits, bias (R48). -/
structure FLayout where
  eb   : Nat
  fb   : Nat
  bias : Int
  top  : Top
  deriving DecidableEq, Repr

def fp32 : FLayout := ⟨8, 23, 127, .ieee⟩
def bf16 : FLayout := ⟨8, 7, 127, .ieee⟩
def e5m2 : FLayout := ⟨5, 2, 15, .ieee⟩
def e4m3 : FLayout := ⟨4, 3, 7, .nanOnly⟩
def e2m1 : FLayout := ⟨2, 1, 1, .finite⟩

/-- The exact value of a bit pattern (R48). -/
def decodeF (f : FLayout) (x : Nat) : Num :=
  let frac := x % pow2 f.fb
  let ex := (x >>> f.fb) % pow2 f.eb
  let neg := x.testBit (f.eb + f.fb)
  let sub : Num := .fin neg frac (1 - f.bias - f.fb)
  let nor : Num := .fin neg (pow2 f.fb + frac) ((ex : Int) - f.bias - f.fb)
  match f.top with
  | .ieee =>
    if ex == pow2 f.eb - 1 then (if frac == 0 then .inf neg else .nan) else if ex == 0 then sub else nor
  | .nanOnly => if ex == pow2 f.eb - 1 && frac == pow2 f.fb - 1 then .nan else if ex == 0 then sub else nor
  | .finite => if ex == 0 then sub else nor

/-- The sign bit in its place. -/
def signBit (f : FLayout) (neg : Bool) : Nat := if neg then pow2 (f.eb + f.fb) else 0

/-- The canonical NaN (R49, R56). -/
def nanF (f : FLayout) : Nat :=
  match f.top with
  | .ieee => ((pow2 f.eb - 1) <<< f.fb) + pow2 (f.fb - 1)
  | .nanOnly => ((pow2 f.eb - 1) <<< f.fb) + (pow2 f.fb - 1)
  | .finite => 0

def infF (f : FLayout) (neg : Bool) : Nat := signBit f neg + ((pow2 f.eb - 1) <<< f.fb)

/-- The largest finite magnitude (R49). -/
def maxF (f : FLayout) : Nat :=
  match f.top with
  | .ieee => ((pow2 f.eb - 1) <<< f.fb) - 1
  | .nanOnly => ((pow2 f.eb - 1) <<< f.fb) + (pow2 f.fb - 2)
  | .finite => ((pow2 f.eb - 1) <<< f.fb) + (pow2 f.fb - 1)

/-- Whether a magnitude is raised to the next one, from its last bit and the bits dropped (R57). -/
def roundUp (mode : Round) (neg : Bool) (odd : Bool) (rem half2 : Nat) : Bool :=
  match mode with
  | .rne => decide (half2 < 2 * rem) || (2 * rem == half2 && odd)
  | .rtz => false
  | .rdn => neg && rem != 0
  | .rup => !neg && rem != 0

/-- `m × 2^(-sh)` rounded to an integer. -/
def roundShift (mode : Round) (neg : Bool) (m : Nat) (sh : Int) : Nat :=
  if sh ≤ 0 then m <<< (-sh).toNat
  else
    let k := sh.toNat
    let q := m >>> k
    if roundUp mode neg (q % 2 == 1) (m % pow2 k) (pow2 k) then q + 1 else q

/-- What a finite value beyond the range becomes (R58). -/
def overflowF (f : FLayout) (mode : Round) (neg : Bool) : Nat :=
  if f == fp32 || f == bf16 then
    match mode with
    | .rne => infF f neg
    | .rtz => signBit f neg + maxF f
    | .rdn => if neg then infF f neg else maxF f
    | .rup => if neg then signBit f neg + maxF f else infF f neg
  else signBit f neg + maxF f

/-- ROUND of the exact value `± m × 2^e` (R57), with the limits of R58. -/
def roundF (f : FLayout) (mode : Round) (neg : Bool) (m : Nat) (e : Int) : Nat :=
  if m == 0 then signBit f neg
  else
    let top : Int := Nat.log2 m + e
    let emin : Int := 1 - f.bias
    let base := if top < emin then emin else top
    let sig := roundShift mode neg m (base - f.fb - e)
    let bits := if top < emin then sig else ((base + f.bias).toNat <<< f.fb) + (sig - pow2 f.fb)
    if maxF f < bits then overflowF f mode neg else signBit f neg + bits

/-- An exact value in a format (R58): float to float. -/
def numToF (f : FLayout) (mode : Round) : Num → Nat
  | .nan => nanF f
  | .inf neg => if f == e4m3 then signBit f neg + maxF f else infF f neg
  | .fin neg m e => roundF f mode neg m e

/-- An exact value rounded to an integer and limited to a range (R58); NaN gives 0. -/
def numToInt (mode : Round) (lo hi : Int) : Num → Int
  | .nan => 0
  | .inf neg => if neg then lo else hi
  | .fin neg m e =>
    let q := roundShift mode neg m (-e)
    clampInt lo hi (if neg then -(q : Int) else q)

def numOfInt (x : Int) : Num := .fin (decide (x < 0)) x.natAbs 0

/-- Exact sum (R56): an exact zero of opposite signs is +0. -/
def numAdd : Num → Num → Num
  | .nan, _ => .nan
  | _, .nan => .nan
  | .inf a, .inf b => if a == b then .inf a else .nan
  | .inf a, .fin .. => .inf a
  | .fin .., .inf b => .inf b
  | .fin sa ma ea, .fin sb mb eb =>
    let e := if ea ≤ eb then ea else eb
    let x : Int := ma <<< (ea - e).toNat
    let y : Int := mb <<< (eb - e).toNat
    let z := (if sa then -x else x) + (if sb then -y else y)
    if z == 0 then .fin (sa && sb) 0 e else .fin (decide (z < 0)) z.natAbs e

/-- Exact product; zero times infinity is NaN. -/
def numMul : Num → Num → Num
  | .nan, _ => .nan
  | _, .nan => .nan
  | .inf a, .inf b => .inf (a != b)
  | .inf a, .fin b m _ => if m == 0 then .nan else .inf (a != b)
  | .fin a m _, .inf b => if m == 0 then .nan else .inf (a != b)
  | .fin a ma ea, .fin b mb eb => .fin (a != b) (ma * mb) (ea + eb)

def numNeg : Num → Num
  | .nan => .nan
  | .inf a => .inf (!a)
  | .fin a m e => .fin (!a) m e

def numIsNan : Num → Bool
  | .nan => true
  | .inf _ | .fin .. => false

/-- The order of numbers that are not NaN; −0 equals +0. -/
def numLt : Num → Num → Bool
  | .nan, _ => false
  | _, .nan => false
  | .inf a, .inf b => a && !b
  | .inf a, .fin .. => a
  | .fin .., .inf b => !b
  | .fin sa ma ea, .fin sb mb eb =>
    let e := if ea ≤ eb then ea else eb
    let x : Int := ma <<< (ea - e).toNat
    let y : Int := mb <<< (eb - e).toNat
    decide ((if sa then -x else x) < (if sb then -y else y))

/-- Equality of values, with −0 equal to +0 and NaN equal to nothing (R157). -/
def numEq (a b : Num) : Bool := !numIsNan a && !numIsNan b && !numLt a b && !numLt b a

def numNegative : Num → Bool
  | .nan => false
  | .inf a => a
  | .fin a _ _ => a

/-- The smaller value; −0 is below +0 and a NaN operand gives NaN (R155). -/
def numMin (a b : Num) : Num :=
  if numIsNan a || numIsNan b then .nan
  else if numLt a b then a else if numLt b a then b else if numNegative a then a else b
def numMax (a b : Num) : Num :=
  if numIsNan a || numIsNan b then .nan
  else if numLt a b then b else if numLt b a then a else if numNegative a then b else a

/-- FP32 or BF16 operations of the vector engine and the drain: exact, then RNE once (R56). -/
def fAdd (f : FLayout) (x y : Nat) : Nat := numToF f .rne (numAdd (decodeF f x) (decodeF f y))
def fMul (f : FLayout) (x y : Nat) : Nat := numToF f .rne (numMul (decodeF f x) (decodeF f y))
def fFma (f : FLayout) (d x y : Nat) : Nat :=
  numToF f .rne (numAdd (decodeF f d) (numMul (decodeF f x) (decodeF f y)))

/-- The exact sum of a list, with FSUM's rules (R160). -/
def numSum (l : List Num) : Num :=
  match l with
  | [] => .fin false 0 0
  | x :: rest => rest.foldl numAdd x

-- Format codes (R55).
def codeFmt (c : FCode) : Option Fmt :=
  match c.toNat with
  | 0 => some .raw | 1 => some .bf16 | 2 => some .fp32 | 3 => some .e4m3 | 4 => some .e5m2 | 5 => some .mxfp8
  | 6 => some .mxfp4 | 7 => some .qn4 | 8 => some .qn4s | 9 => some .mxs | 10 => some .zm8 | 11 => some .zm16
  | 12 => some .int8 | 13 => some .int4 | _ => none

def fmtCode : Fmt → FCode
  | .raw => 0 | .bf16 => 1 | .fp32 => 2 | .e4m3 => 3 | .e5m2 => 4 | .mxfp8 => 5 | .mxfp4 => 6 | .qn4 => 7
  | .qn4s => 8 | .mxs => 9 | .zm8 => 10 | .zm16 => 11 | .int8 => 12 | .int4 => 13

/-- Allowed in a pad entry (R55). -/
def padFmt (c : FCode) : Bool := decide (c.toNat ≤ 4) || (decide (10 ≤ c.toNat) && decide (c.toNat ≤ 13))

/-- Allowed in a page entry (R55). -/
def pageFmt (c : FCode) : Bool := decide (c.toNat ≤ 13)

/-- Allowed as a tile tag, as the format of WSTRM's and STT's objects (R55). -/
def tileFmt (c : FCode) : Bool := decide (c.toNat ≤ 6) || c == 12 || c == 13

/-- The ZM codes. -/
def isZm (c : FCode) : Bool := c == 10 || c == 11

/-- Element bits; RAW, ZM and scale pages count bytes (R140, R143). -/
def widthOf (c : FCode) : Nat :=
  match c.toNat with
  | 1 => 16 | 2 => 32 | 6 => 4 | 7 => 4 | 13 => 4 | _ => 8

/-- Expanded element width of a ZM slot in bytes. -/
def zmWidth (c : FCode) : Nat := if c == 11 then 2 else 1

/-- The float layout of a format, if it is a float format. -/
def layoutOf (c : FCode) : Option FLayout :=
  match c.toNat with
  | 1 => some bf16 | 2 => some fp32 | 3 => some e4m3 | 4 => some e5m2 | _ => none

/-- QN4 levels times 256 (R51). -/
def qn4Level (c : Nat) : Int :=
  nth [-256, -184, -136, -100, -70, -44, -21, 0, 19, 39, 61, 86, 116, 154, 200, 256] c 0

/-- The exact value of a QN4 code with block scale `sc` and FP32 superscale `sup` (R51). -/
def qn4Num (c sc sup : Nat) : Num :=
  let q := qn4Level c
  match decodeF fp32 sup with
  | .nan => .nan
  | .inf neg => if q == 0 || sc == 0 then .nan else .inf (neg != decide (q < 0))
  | .fin neg m e =>
    if q == 0 then .fin false 0 0 else .fin (neg != decide (q < 0)) (q.natAbs * sc * m) (e - 8)

/-- QN4_DECODE (R51). -/
def qn4Decode (c sc sup : Nat) : Nat := numToF bf16 .rne (qn4Num c sc sup)

/-- An element times its E8M0 scale (R50). -/
def mxNum (f : FLayout) (x sc : Nat) : Num :=
  if sc % 256 == 255 then .nan
  else
    match decodeF f x with
    | .nan => .nan
    | .inf neg => .inf neg
    | .fin neg m e => .fin neg m (e + (sc % 256 : Nat) - 127)

/-- The exact value of a float or signed-integer element of a tile or object format (R48). -/
def elemNum (c : FCode) (x : Nat) : Num :=
  match layoutOf c with
  | some f => decodeF f x
  | none => numOfInt (signedOf (widthOf c) x)

/-- Conversion of an exact value to an output format of R62: a float format, INT8 or INT4 (R58). -/
def convertOut (c : FCode) (n : Num) : Nat :=
  match layoutOf c with
  | some f => numToF f .rne n
  | none =>
    let w := widthOf c
    wrapInt w (numToInt .rne (-((pow2 (w - 1) : Nat) : Int)) ((pow2 (w - 1) : Nat) - 1) n)

/-- The elements of a ZM chunk that are not zero (R54). -/
def zmNonzero (w : Nat) (x : Nat) : List Nat :=
  (List.range (512 / w)).filter (fun i => elemAt x (8 * w) i != 0)

/-- A chunk's slot contents and raw bit (R54): bytes past the packed elements keep `old`. -/
def zmPack (w : Nat) (x old : Nat) : Nat × Bool :=
  let nz := zmNonzero w x
  let maskBytes := 64 / w
  if 512 - maskBytes < nz.length * w then (x % pow2 4096, true)
  else
    let mask := nz.foldl (fun acc i => acc + pow2 i) 0
    let body := packList (8 * w) (nz.map (elemAt x (8 * w)))
    let k := 8 * (maskBytes + nz.length * w)
    (mask + (body <<< (8 * maskBytes)) + ((old >>> k) <<< k) % pow2 4096, false)

/-- The 512 bytes that a reader of a ZM slot sees (R54). -/
def zmExpand (w : Nat) (x : Nat) (raw : Bool) : Nat :=
  if raw then x
  else
    let maskBytes := 64 / w
    ((List.range (512 / w)).foldl (fun (acc : Nat × Nat) i =>
      if x.testBit i then (acc.1 + (elemAt (x >>> (8 * maskBytes)) (8 * w) acc.2 <<< (8 * w * i)), acc.2 + 1) else acc) (0, 0)).1

/-- ALIGN (R59): the unit's exponent and the signed magnitudes. -/
def alignBlock (v : List Num) (w : Nat) : Int × List Int :=
  let tops := v.filterMap (fun n => match n with
    | .fin _ m e => if m == 0 then none else some ((Nat.log2 m : Int) + e)
    | .nan | .inf _ => none)
  match tops with
  | [] => (0, v.map (fun _ => 0))
  | t :: rest =>
    let u := rest.foldl (fun a b => if a < b then b else a) t - w + 1
    (u, v.map (fun n => match n with
      | .fin neg m e =>
        let mag : Int := if u ≤ e then m <<< (e - u).toNat else m >>> (u - e).toNat
        if neg then -mag else mag
      | .nan | .inf _ => 0))

/-- The block product p of R60, from exact A values (already scaled) with `wa` magnitude bits and exact B values. -/
def blockProduct (a b : List Num) (wa : Nat) : Num :=
  let prods := (a.zip b).map (fun p => numMul p.1 p.2)
  let infs := prods.filterMap (fun n => match n with
    | .inf neg => some neg
    | .nan | .fin .. => none)
  if a.any numIsNan || b.any numIsNan || prods.any numIsNan || (infs.contains true && infs.contains false) then .nan
  else
    match infs with
    | neg :: _ => .inf neg
    | [] =>
      let (ua, ma) := alignBlock a wa
      let (ub, mb) := alignBlock b 15
      let sum := (ma.zip mb).foldl (fun acc p => acc + p.1 * p.2) (0 : Int)
      .fin (decide (sum < 0)) sum.natAbs (ua + ub)

/-- KEEP (R63). -/
def keepTest (seed row col : W32) (thresh : Nat) : Bool :=
  let x0 := seed ^^^ (((row &&& 0xFFFF) <<< 16) ||| (col &&& 0xFFFF))
  let x1 := (x0 ^^^ (x0 >>> 15)) * 0x2C1B3C6D
  let x2 := (x1 ^^^ (x1 >>> 12)) * 0x297A2D39
  let x3 := x2 ^^^ (x2 >>> 15)
  decide (thresh ≤ (x3 >>> 16).toNat)

/-- CRC-32C (R197): reflected, initial value and final xor all ones. -/
def crc32c (l : List Byte) : W32 :=
  let step (c : W32) (b : Byte) : W32 :=
    (List.range 8).foldl (fun x _ => if x.getLsbD 0 then (x >>> 1) ^^^ 0x82F63B78 else x >>> 1)
      (c ^^^ b.setWidth 32)
  (l.foldl step 0xFFFFFFFF) ^^^ 0xFFFFFFFF

end Sys2Proof.Machine
end

