-- ==== Sys2Proof/Machine/Seat.lean ====
section
/-! DEFINITION. A seat's engines, retire horizon, coupling queues, logs and rollback (R27-R34, R283, R284), and the places
of a seat and of the seat at hand in the package. -/

namespace Sys2Proof.Machine

/-- How a word's meaning ends without executing: a word fault, a wait, or a wait that leaves a trace (a lease request). -/
inductive Stop where
  | fault (f : FaultInfo)
  | wait (w : Wait)
  | waitIn (w : Wait) (s : State)

abbrev Run (α : Type) := Except Stop α

def raise {α : Type} (code : Byte) (addr : Dword) (aux : Byte) : Run α := .error (.fault { code, addr, aux })
def await {α : Type} (w : Wait) : Run α := .error (.wait w)

/-- `await w` unless `c`. -/
def needs (c : Bool) (w : Wait) : Run Unit := if c then .ok () else .error (.wait w)

/-- The fault unless `c`. -/
def check (c : Bool) (code : Byte) (addr : Dword) (aux : Byte) : Run Unit :=
  if c then .ok () else .error (.fault { code, addr, aux })

-- Fault codes (R276).
namespace FC
def illegal : Byte := 0x01
def reserved : Byte := 0x02
def privilege : Byte := 0x03
def notPresent : Byte := 0x04
def rights : Byte := 0x05
def objBounds : Byte := 0x06
def objRights : Byte := 0x07
def align : Byte := 0x08
def format : Byte := 0x09
def seam : Byte := 0x0A
def pad : Byte := 0x0B
def bank : Byte := 0x0C
def noLease : Byte := 0x0D
def operand : Byte := 0x0E
def key : Byte := 0x0F
def soft : Byte := 0x10
def watchdog : Byte := 0x11
def codeGone : Byte := 0x12
def cancelled : Byte := 0x13
def trap : Byte := 0x14
def fetch : Byte := 0x15
def partition : Byte := 0x16
end FC

/-- The engine's number (R65). -/
def engNum : Eng → Nat
  | .s => 0 | .a => 1 | .v => 2 | .m => 3 | .w => 4 | .c => 5

def engines : List Eng := [.s, .a, .v, .m, .w, .c]

def Seat.eng (t : Seat) : Eng → Engine
  | .s => t.engS | .a => t.engA | .v => t.engV | .m => t.engM | .w => t.engW | .c => t.engC

def Seat.setEng (t : Seat) (e : Eng) (x : Engine) : Seat :=
  match e with
  | .s => { t with engS := x } | .a => { t with engA := x } | .v => { t with engV := x }
  | .m => { t with engM := x } | .w => { t with engW := x } | .c => { t with engC := x }

def Seat.mapEng (t : Seat) (e : Eng) (f : Engine → Engine) : Seat := t.setEng e (f (t.eng e))

/-- The lower of two LSNs. -/
def lsnMin (a b : Lsn) : Lsn := if lsnLt b a then b else a

/-- The lowest of some LSNs, if there are any. -/
def lowest (h : Option Lsn) (l : Lsn) : Option Lsn :=
  match h with
  | none => some l
  | some k => some (lsnMin k l)

/-- The retire horizon (R30): the lowest LSN of a next word over the engines whose NOTIFY has not executed, and of the acquires
that are predicted and have not been served (R152). Every other word that has been issued and has not resolved is the engine's
next word in this model (log 9). -/
def Seat.horizon (t : Seat) : Option Lsn :=
  (t.preds.map (fun p => p.lsn)).foldl lowest
    (((engines.filter (fun e => !(t.eng e).done)).map (fun e => (t.eng e).lsn)).foldl lowest none)

/-- H is above the LSN. -/
def Seat.passed (t : Seat) (l : Lsn) : Bool :=
  match t.horizon with
  | none => true
  | some h => lsnLt l h

/-- The LSN of an engine's next word is H. -/
def Seat.atH (t : Seat) (e : Eng) : Bool := t.horizon == some (t.eng e).lsn

/-- The copy engine has issued every word below the LSN: the copies that come before it in the program have begun (R22,
R88, R136, R240). -/
def Seat.copiesBegun (t : Seat) (l : Lsn) : Bool := t.engC.done || !lsnLt t.engC.lsn l

-- Coupling queues (R28).
/-- The entries that H has not freed. -/
def qLive {α : Type} (t : Seat) (q : List (Item α)) : List (Item α) :=
  q.filter (fun i => match i.taken with
    | some l => !t.passed l
    | none => true)

/-- The next entry to be taken. -/
def qHead {α : Type} (q : List (Item α)) : Option (Item α) := q.find? (fun i => i.taken.isNone)

/-- The entries not yet taken. -/
def qAvail {α : Type} (q : List (Item α)) : List (Item α) := q.filter (fun i => i.taken.isNone)

/-- A tentative pop by the word at `l` of an engine. -/
def qTake {α : Type} (q : List (Item α)) (l : Lsn) (e : Eng := .s) : List (Item α) :=
  mapFirst (fun i => i.taken.isNone) (fun i => { i with taken := some l, taker := e }) q

/-- Rollback of a queue to `f` (R28, R283): entries made at or above `f` go, and tentative pops at or above `g` end. -/
def qRollTo {α : Type} (f g : Lsn) (q : List (Item α)) : List (Item α) :=
  (q.filter (fun i => lsnLt i.lsn f)).map (fun i => match i.taken with
    | some l => if lsnLt l g then i else { i with taken := none }
    | none => i)

/-- Words of an engine that share the LSN `f` of a rollback go back with it: those of the engines that log or run free, of the faulting one, and of one
whose next word has that LSN, too, so that what they took from others' words at `f` is taken again (R28, R284, R310; log 138). -/
def Seat.rollsOwn (t : Seat) (f : Lsn) (who : Option Eng) : Eng → Bool
  | .s | .a | .v => true
  | e => who == some e || ((t.eng e).lsn == f && !(t.eng e).done)

/-- Rollback to `f` of a queue that several engines fill and empty: what a word at `f` did stays done where its engine keeps the word, as `own` does not
say (R283, R284). -/
def qRoll {α : Type} (f : Lsn) (own : Eng → Bool) (q : List (Item α)) : List (Item α) :=
  let done (l : Lsn) (e : Eng) : Bool := lsnLt l f || (l == f && !own e)
  (q.filter (fun i => done i.lsn i.maker)).map (fun i => match i.taken with
    | some l => if done l i.taker then i else { i with taken := none }
    | none => i)

/-- A matrix command in flight reads the row (R175, R176). -/
def MCmd.reads (c : MCmd) (k : Fin 8) (r : Fin 32) : Bool := c.tile == k && c.pairs.any (fun p => p.1 == r.val)

/-- A tile row as H leaves it: a tentative last read that H has passed empties it, once the matrix commands that read it have
done so (R27, R175). -/
def Seat.rowNow (t : Seat) (k : Fin 8) (r : Fin 32) : Row :=
  let x := t.tiles[k].rows[r]
  match x.taken with
  | some l => if t.passed l && !t.mq.any (fun c => c.reads k r) then {} else x
  | none => x

/-- A row that the reader at LSN `l` may read: full, and no last read below `l` is to empty it (R27), which may be one of a matrix
command in flight (R175). -/
def Seat.rowFull (t : Seat) (l : Lsn) (k : Fin 8) (r : Fin 32) : Bool :=
  let x := t.rowNow k r
  x.full && (match x.taken with
    | some m => lsnLt l m
    | none => true) && !t.mq.any (fun c => c.lr && c.reads k r)

-- Logs (R31, R32).
def Seat.liveLog (t : Seat) (l : List LogEntry) : List LogEntry := l.filter (fun x => !t.passed x.lsn)

def Seat.logOf (t : Seat) : Eng → List LogEntry
  | .s => t.slagS | .v => t.slagV | .a => t.logA | .m | .w | .c => []

/-- Whether the engine's log has `n` more free entries; the matrix, write-back and copy engines log nothing. -/
def Seat.logRoom (t : Seat) (e : Eng) (n : Nat) : Bool :=
  match e with
  | .s | .v | .a => decide ((t.liveLog (t.logOf e)).length + n ≤ 64)
  | .m | .w | .c => true

/-- The register that a log entry restores. -/
def Undo.reg : Undo → Option Damage
  | .sreg r _ _ => some (.sreg r)
  | .vreg r _ _ => some (.vreg r)
  | .pred r _ _ => some (.pred r)
  | .xreg e r _ _ => some (.xreg e r)
  | .loopc .. | .bases .. | .row .. | .tag .. | .lane .. | .nothing => none

/-- Logs an old container under the LSN of the engine's next word, with its damaged mark (R289). -/
def Seat.pushLog (t : Seat) (e : Eng) (u : Undo) : Seat :=
  let x : LogEntry := { undo := u, lsn := (t.eng e).lsn, ord := t.logNo, was := match u.reg with
    | some d => t.damage.contains d
    | none => false }
  match e with
  | .s => { t with slagS := x :: t.liveLog t.slagS, logNo := t.logNo + 1 }
  | .v => { t with slagV := x :: t.liveLog t.slagV, logNo := t.logNo + 1 }
  | .a => { t with logA := x :: t.liveLog t.logA, logNo := t.logNo + 1 }
  | .m | .w | .c => t

def Tile.setRow (x : Tile) (r : Fin 32) (v : Row) : Tile := { x with rows := x.rows.set r v }

def Seat.setRow (t : Seat) (k : Fin 8) (r : Fin 32) (v : Row) : Seat :=
  { t with tiles := t.tiles.set k (t.tiles[k].setRow r v) }

/-- Restores a container from a log entry. -/
def Undo.apply (t : Seat) : Undo → Seat
  | .sreg r v k => { t with s := t.s.set r.toNat v r.isLt, st := t.st.set r.toNat k r.isLt }
  | .vreg r v k => { t with v := t.v.set r v, vt := t.vt.set r k }
  | .pred r v k => { t with p := t.p.set r v, pt := t.pt.set r k }
  | .xreg e r v k => t.mapEng e (fun x => { x with x := x.x.set r v, xt := x.xt.set r k })
  | .loopc e r v => t.mapEng e (fun x => { x with lc := x.lc.set r v })
  | .bases e v p => t.mapEng e (fun x => { x with rbv := v, rbp := p })
  | .row k r old => t.setRow k r old
  | .tag k f => { t with tiles := t.tiles.set k { t.tiles[k] with tag := f } }
  | .lane _ old => { t with lanes := old.foldl (fun m c => Memory.write m c.1 c.2) t.lanes }
  | .nothing => t

/-- A container restored from a log entry, with the mark that it had, or that the entry's own damage gives it (R288, R289). -/
def LogEntry.restore (t : Seat) (x : LogEntry) : Seat :=
  let u := (match x.undo with
    | .row k r old => Undo.row k r { old with bad := old.bad || x.bad }
    | y => y).apply t
  match x.undo.reg with
  | some d => { u with damage := (if x.was || x.bad then [d] else []) ++ u.damage.filter (· != d) }
  | none => u

def insertLog (x : LogEntry) : List LogEntry → List LogEntry
  | [] => [x]
  | y :: rest => if y.ord ≤ x.ord then x :: y :: rest else y :: insertLog x rest

/-- The three logs in one order, newest first (R283). -/
def Seat.allLogs (t : Seat) : List LogEntry := (t.slagS ++ t.slagV ++ t.logA).foldr insertLog []

/-- The logs restored newest first, down to `f`. -/
def undoLogs (t : Seat) (f : Lsn) : Seat :=
  t.allLogs.foldl (fun t x => if lsnLt x.lsn f then t else x.restore t) t

/-- An engine rolled back to `f` (R284): its oldest word at or above `f` that H has not passed becomes its next word. Where
`own` does not hold, words that share `f` stay executed, and so do their pops. -/
def Engine.roll (x : Engine) (f : Lsn) (own : Bool) : Engine :=
  let g := if own then f else f + 1
  let x := { x with held := none, wait := none, remote := .idle, xq := qRollTo f g x.xq, dq := qRollTo f g x.dq }
  match (x.issued.filter (fun w => !lsnLt w.2 g)).getLast? with
  | none => x
  | some w => { x with pc := w.1, lsn := w.2, done := false, issued := x.issued.filter (fun w => lsnLt w.2 g) }

/-- A tile row rolled back to `f`: rows filled at or above `f` empty, tentative last reads there end, but for one of a word at `f` that its
engine keeps (R283, R284). -/
def Seat.rollRow (t : Seat) (f : Lsn) (own : Eng → Bool) (k : Fin 8) (i : Fin 32) : Row :=
  let old := t.tiles[k].rows[i]
  let r := if old.full && !lsnLt old.lsn f then {} else t.rowNow k i
  match old.taken with
  | some l => if lsnLt l f || (l == f && !own old.taker) then r else { r with taken := none }
  | none => r

/-- ROLLBACK(f) of R283 without the fault record, for a fault of engine `who`, or for a squash of reads (R150). -/
def Seat.roll (t : Seat) (f : Lsn) (who : Option Eng := none) : Seat :=
  let own := t.rollsOwn f who
  let t := { t with
    tiles := Vector.ofFn (fun k : Fin 8 => { t.tiles[k] with rows := Vector.ofFn (t.rollRow f own k) }) }
  let t := undoLogs t f
  let kept (l : List LogEntry) : List LogEntry := l.filter (fun x => lsnLt x.lsn f)
  { t with
    slagS := kept t.slagS, slagV := kept t.slagV, logA := kept t.logA
    ports := vmap (qRoll f own) t.ports, ev := vmap (qRoll f own) t.ev
    rlog := t.rlog.filter (fun r => lsnLt r.lsn f)
    preds := t.preds.filter (fun r => lsnLt r.lsn f)
    gens := (t.gens.filter (fun g => lsnLt g.lsn f)).map (fun g => match g.stopped with
      | some l => if lsnLt l f then g else { g with stopped := none }
      | none => g)
    drain := t.drain.filter (fun d => lsnLt d.lsn f)
    engS := t.engS.roll f true, engA := t.engA.roll f true, engV := t.engV.roll f true
    engM := t.engM.roll f (own .m), engW := t.engW.roll f (own .w)
    engC := t.engC.roll f (own .c) }

-- Places (R220, R12).
def cellOf (id : SeatId) : Nat := id.toNat / 2
def clusOf (id : SeatId) : Nat := id.toNat / 8
def dieOf (id : SeatId) : Nat := id.toNat / 512
def sideOf (id : SeatId) : Nat := id.toNat % 2

/-- A seat number that names a seat: cluster 0-39 of its die. -/
def seatExists (id : SeatId) : Bool := decide (clusOf id % 64 < 40)

def State.cluster (s : State) (c : Nat) : Cluster := (s.clusters.find? (fun x => x.ix == c)).getD { ix := c }
def State.setCluster (s : State) (c : Cluster) : State :=
  { s with clusters := putWhere (fun x => x.ix == c.ix) c s.clusters }
def State.anvil (s : State) (c : Nat) : Anvil := (s.cluster c).anvil
def State.setAnvil (s : State) (c : Nat) (a : Anvil) : State := s.setCluster { s.cluster c with anvil := a }
def State.cell (s : State) (c : Nat) : CellRec := (s.cells.find? (fun x => x.ix == c)).getD { ix := c }
def State.setCell (s : State) (c : CellRec) : State := { s with cells := putWhere (fun x => x.ix == c.ix) c s.cells }

/-- The cluster of the seat at hand. -/
def State.here (s : State) : Nat := clusOf s.seat.id

def State.part (s : State) (p : Fin 32) : Part := (s.parts.find? (fun x => x.id == p)).getD { id := p }
def State.setPart (s : State) (p : Part) : State := { s with parts := putWhere (fun x => x.id == p.id) p s.parts }
def State.ctx (s : State) (vf proc : Nat) : Ctx :=
  (s.ctxs.find? (fun x => x.vf == vf && x.proc == proc)).getD { vf, proc }
def State.setCtx (s : State) (c : Ctx) : State :=
  { s with ctxs := putWhere (fun x => x.vf == c.vf && x.proc == c.proc) c s.ctxs }
/-- The context and the partition of the unit at hand. -/
def State.myCtx (s : State) : Ctx := s.ctx s.seat.unit.vf s.seat.unit.proc
def State.myPart (s : State) : Part := s.part s.seat.unit.part
def State.vf (s : State) (v : Nat) : Vf := (s.vfs.find? (fun x => x.vf == v)).getD { vf := v }
def State.setVf (s : State) (v : Vf) : State := { s with vfs := putWhere (fun x => x.vf == v.vf) v s.vfs }
/-- The partition that holds a cluster: partition 0 unless a hard partition holds it (R243). -/
def State.partOf (s : State) (c : Nat) : Fin 32 := ((s.owned.find? (fun x => x.1 == c)).map Prod.snd).getD 0
def State.image (s : State) (h : W32) : Option Image := s.images.find? (fun x => x.img.handle == h)

def State.onSeat (s : State) (f : Seat → Seat) : State := { s with seat := f s.seat }
def State.onEng (s : State) (e : Eng) (f : Engine → Engine) : State := { s with seat := s.seat.mapEng e f }

/-- The seat with number `id` at hand: the others keep every seat that is not vacant. -/
def State.select (s : State) (id : SeatId) : State :=
  if s.seat.id == id then s
  else
    let rest := if s.seat.status == .vacant then s.others else s.seat :: s.others
    { s with
      seat := (rest.find? (fun t => t.id == id)).getD { id := id }
      others := rest.filter (fun t => t.id != id) }

/-- Every seat that is not vacant. -/
def State.seats (s : State) : List Seat := if s.seat.status == .vacant then s.others else s.seat :: s.others

/-- A change to every seat. -/
def State.mapSeats (s : State) (f : Seat → Seat) : State := { s with seat := f s.seat, others := s.others.map f }

/-- A free value and the counter advanced (log 2). -/
def State.pick (s : State) : Nat × State := (Config.free s.nonce, { s with nonce := s.nonce + 1 })

-- Registers of the seat at hand.
/-- Whether an atomic's result for the register is still on its way (R114). -/
def Seat.pendingS (t : Seat) (r : BitVec 6) : Bool := t.atoms.any (fun a => a.dst == r && r != 0)

/-- Reads s register `r` with its taint (R97, R289): s0 reads as zero with an empty taint set. -/
def Seat.rdS (t : Seat) (r : BitVec 6) : Run (Dword × Taint) :=
  if r == 0 then .ok (0, 0)
  else if t.pendingS r then await .atomic
  else if t.damage.contains (.sreg r) then raise FC.soft 0 1
  else .ok (t.s[r.toNat]'r.isLt, t.st[r.toNat]'r.isLt)

/-- Writes s register `d` and its taint through the slag log; s0 discards both (R32, R97). -/
def Seat.wrS (t : Seat) (d : BitVec 6) (v : Dword) (k : Taint) : Seat :=
  if d == 0 then t
  else
    let u := t.pushLog .s (.sreg d (t.s[d.toNat]'d.isLt) (t.st[d.toNat]'d.isLt))
    { u with
      s := u.s.set d.toNat v d.isLt, st := u.st.set d.toNat k d.isLt
      damage := u.damage.filter (· != .sreg d) }

/-- Reads local register `r` of engine `e` (R90, R289). -/
def Seat.rdX (t : Seat) (e : Eng) (r : BitVec 4) : Run (Dword × Taint) :=
  if t.damage.contains (.xreg e r.toFin) then raise FC.soft 0 1
  else .ok ((t.eng e).x[r.toNat]'r.isLt, (t.eng e).xt[r.toNat]'r.isLt)

/-- A field that names an x register: its low four bits (R68). -/
def Seat.rdXf (t : Seat) (e : Eng) (r : BitVec 6) : Run (Dword × Taint) := t.rdX e (r.setWidth 4)

/-- Writes local register `d` of engine `e`, through the engine's log (R31, R32). -/
def Seat.wrX (t : Seat) (e : Eng) (d : BitVec 4) (v : Dword) (k : Taint) : Seat :=
  let u := t.pushLog e (.xreg e d.toFin ((t.eng e).x[d.toNat]'d.isLt) ((t.eng e).xt[d.toNat]'d.isLt))
  let u := u.mapEng e (fun x => { x with x := x.x.set d.toNat v d.isLt, xt := x.xt.set d.toNat k d.isLt })
  { u with damage := u.damage.filter (· != .xreg e d.toFin) }

/-- Writes loop counter `n` of engine `e` (R86). -/
def Seat.wrLc (t : Seat) (e : Eng) (n : BitVec 2) (v : W32) : Seat :=
  let u := t.pushLog e (.loopc e n.toFin ((t.eng e).lc[n.toNat]'n.isLt))
  u.mapEng e (fun x => { x with lc := x.lc.set n.toNat v n.isLt })

/-- The rotation of R71, logged. -/
def Seat.rotate (t : Seat) (e : Eng) : Seat :=
  let u := t.pushLog e (.bases e (t.eng e).rbv (t.eng e).rbp)
  u.mapEng e (fun x => { x with rbv := x.rbv - 1, rbp := x.rbp - 1 })

/-- The tags that some container of the seat holds (R119): registers, those that an atomic is about to write among them, predicates, port entries, tile
rows, transfer entries, spill shadows and log entries. Forks hold none (R235). -/
def Seat.heldTags (t : Seat) : Taint :=
  let orAll (l : List Taint) : Taint := l.foldl (· ||| ·) 0
  let undoT (u : Undo) : Taint := match u with
    | .sreg _ _ k | .vreg _ _ k | .pred _ _ k | .xreg _ _ _ k => k
    | .row _ _ old => old.taint
    | .loopc .. | .bases .. | .tag .. | .lane .. | .nothing => 0
  orAll t.st.toList ||| orAll t.vt.toList ||| orAll t.pt.toList ||| orAll t.shadow.toList
    ||| orAll (engines.map (fun e => orAll (t.eng e).xt.toList ||| orAll ((qLive t (t.eng e).xq).map (fun i => i.val.2))))
    ||| orAll (List.ofFn (fun k : Fin 8 => orAll (List.ofFn (fun r : Fin 32 => (t.rowNow k r).taint))))
    ||| orAll (t.ports.toList.map (fun q => orAll ((qLive t q).map (fun i => i.val.taint))))
    ||| orAll ((t.liveLog t.slagS ++ t.liveLog t.slagV ++ t.liveLog t.logA).map (fun x => undoT x.undo))
    ||| orAll (t.atoms.map (fun a => a.taint))

/-- The tags held by the accumulator banks of the seat (R183). -/
def bankTags (a : Anvil) (id : SeatId) : Taint :=
  a.banks.toList.foldl (fun acc b => if b.owner == some id then acc ||| b.taint.toList.foldl (· ||| ·) 0 else acc) 0

/-- A free tag (R119), as a taint set of one tag: the lowest. R110 says only that the acquire takes one free tag (DESIGN CHOICE, log 122). -/
def State.freeTag (s : State) : Option Taint :=
  let held := s.seat.heldTags ||| bankTags (s.anvil s.here) s.seat.id
  ((List.range 16).find? (fun i => !held.getLsbD i)).map (fun i => (1 : Taint) <<< i)

end Sys2Proof.Machine
end

