-- ==== Sys2Proof/Machine/Memory.lean ====
section
/-! DEFINITION. Memory as units reach it: locations, page tables and pad translation (R123-R131), caches and line formats
(R132-R135), the range scoreboard (R136), what a read returns (R109, R229-R234), and publication (R226).
A location is a number: the node that owns it times 2^52, plus the address there. -/

namespace Sys2Proof.Machine

abbrev M := StateT State (Except Stop)

def liftRun {α : Type} (r : Run α) : M α := fun s =>
  match r with
  | .ok a => .ok (a, s)
  | .error e => .error e
def mFault {α : Type} (code : Byte) (addr : Dword) (aux : Byte) : M α := fun _ => .error (.fault { code, addr, aux })
def mWait {α : Type} (w : Wait) : M α := fun _ => .error (.wait w)
def mCheck (c : Bool) (code : Byte) (addr : Dword) (aux : Byte) : M Unit := liftRun (check c code addr aux)
def mNeeds (c : Bool) (w : Wait) : M Unit := liftRun (needs c w)
def mSeat : M Seat := fun s => .ok (s.seat, s)
def mModSeat (f : Seat → Seat) : M Unit := fun s => .ok ((), s.onSeat f)
def mMod (f : State → State) : M Unit := fun s => .ok ((), f s)
/-- A free value (log 2). -/
def mPick : M Nat := fun s => .ok s.pick

/-- `f` along a list, in order. -/
def mEach {α : Type} (l : List α) (f : α → M Unit) : M Unit :=
  match l with
  | [] => pure ()
  | x :: rest => do f x; mEach rest f
def mMap {α β : Type} (l : List α) (f : α → M β) : M (List β) :=
  match l with
  | [] => pure []
  | x :: rest => do
    let y ← f x
    let ys ← mMap rest f
    pure (y :: ys)

-- Locations.
def spaceSize : Nat := pow2 52
def hostHome : Nat := 0x3FF
def homeKey (home pa : Nat) : Nat := home * spaceSize + pa
/-- A byte of host memory by its bus address; page entries reach only the first 2^52 of them. -/
def hostKey (addr : Nat) : Nat := if addr < spaceSize then homeKey hostHome addr else 0x20000 * spaceSize + addr
def windowKey (clus off : Nat) : Nat := (0x400 + clus) * spaceSize + off
def nearKey (cell off : Nat) : Nat := (0x800 + cell) * spaceSize + off
def nodeOf (key : Nat) : Nat := key / spaceSize
def isWindow (key : Nat) : Bool := decide (0x400 ≤ nodeOf key) && decide (nodeOf key < 0x800)
def isNear (key : Nat) : Bool := decide (0x800 ≤ nodeOf key) && decide (nodeOf key < 0x10000)
/-- The place of a ZM slot's raw bit (R54), beside all nodes. -/
def rawKey (key : Nat) : Nat := 0x10000 * spaceSize + key / 512
def isRaw (key : Nat) : Bool := decide (0x10000 ≤ nodeOf key) && decide (nodeOf key < 0x20000)
/-- The location with whose line a location goes: a raw bit goes with its slot's (R54). -/
def lineKey (key : Nat) : Nat := if isRaw key then (key - 0x10000 * spaceSize) * 512 else key
/-- The line of a location. -/
def lineOf (key : Nat) : Nat := lineKey key / 128

/-- A byte where it is at home. -/
def State.home (s : State) (k : Nat) : Byte := Memory.read s.mem k
def State.homeBytes (s : State) (k n : Nat) : List Byte := (List.range n).map (fun i => s.home (k + i))
/-- A double word where it is at home: the device reads page tables and object tables so (R128, R220). -/
def State.homeDword (s : State) (k : Nat) : Dword := wordOf 64 (s.homeBytes k 8)

/-- What an access does (R131, R278). -/
inductive Acc where
  | read | write | rmw | clean | fetch
  deriving DecidableEq, Repr

def Acc.kind : Acc → Nat
  | .read => 0 | .write => 1 | .rmw => 1 | .clean => 1 | .fetch => 2

-- Page entries (R129, R130).
def pteHome (e : Dword) : Nat := (e.extractLsb' 18 10).toNat
def pteKeyId (e : Dword) : BitVec 7 := e.extractLsb' 11 7
def pteCp (e : Dword) : Nat := (e.extractLsb' 9 2).toNat
def pteFmt (e : Dword) : FCode := e.extractLsb' 5 4
def ptePpn (e : Dword) : Nat := (e.extractLsb' 28 36).toNat
/-- The first location that an entry names: PPN × 64 KiB at HOME. -/
def pteBase (e : Dword) : Nat := homeKey (pteHome e) (ptePpn e * 65536)

def homeValid (h : Nat) : Bool := decide (h < 4) || (decide (8 ≤ h) && decide (h < 1016) && decide (h % 8 < 4)) || h == hostHome
def homeRemote (h : Nat) : Bool := decide (8 ≤ h) && decide (h < 1016)
/-- The device backs the location (R130). -/
def backed (key : Nat) : Bool :=
  let pa := key % spaceSize
  nodeOf key == hostHome || decide (pa < 0x3000000000) || (decide (0x3FFE000000 ≤ pa) && decide (pa < 0x4000000000))
def isDiePad (key : Nat) : Bool := nodeOf key != hostHome && decide (0x3FFE000000 ≤ key % spaceSize)

/-- Whether an entry at a level of the walk is a leaf (R128). -/
def pteLeaf (e : Dword) (lvl : Nat) : Bool := lvl == 2 || (lvl == 1 && e.getLsbD 4)

/-- A present entry whose reserved bits and values R129 accepts, at a level of the walk. -/
def pteValid (e : Dword) (lvl : Nat) : Bool :=
  homeValid (pteHome e) &&
  (if pteLeaf e lvl then
    pteCp e != 3 && pageFmt (pteFmt e) && (lvl == 2 || ptePpn e % 8192 == 0)
   else e.extractLsb' 1 17 == 0)

/-- Damage that a read of a location meets (R288), and the structure that FAUX names (R278): its cell's L1 serves no coherent read, and where the
unit's own bytes that are not published cover the location, they are what it reads. -/
def State.markAt (s : State) (key : Nat) (coherent : Bool := false) (own : Bool := false) : Option Byte :=
  (s.badMem.find? (fun m => decide (m.lo ≤ key) && decide (key < m.lo + m.n) && (match m.cell with
    | none => !own
    | some c => !coherent && c == cellOf s.seat.id))).map (fun m => m.kind)

/-- The first damage that a read of `n` locations from `key` on meets at their home. -/
def State.markIn (s : State) (key n : Nat) : Option Byte := (List.range n).findSome? (fun i => s.markAt (key + i) true)

/-- The page walk (R128, R129): the leaf and its level; `way` tells whether the home of an entry can be reached. An entry
that is damaged can not be read (R288, R289). -/
def walkBy (way : Nat → Run Unit) (s : State) (base va : Dword) (acc : Acc) : Run (Dword × Nat) := do
  let entry (node : Nat) (ix lvl : Nat) : Run Dword := do
    let k := node + 8 * ix
    check (backed k) FC.notPresent va 3
    way (nodeOf k)
    match s.markIn k 8 with
    | some x => raise FC.soft va x
    | none => pure ()
    let e := s.homeDword k
    check (e.getLsbD 0) FC.notPresent va (BitVec.ofNat 8 (0x10 + 4 * acc.kind + lvl))
    check (pteValid e lvl) FC.notPresent va 2
    pure e
  let e0 ← entry (pteBase base) (va.extractLsb' 42 13).toNat 0
  let e1 ← entry (pteBase e0) (va.extractLsb' 29 13).toNat 1
  if e1.getLsbD 4 then pure (e1, 1)
  else
    let e2 ← entry (pteBase e1) (va.extractLsb' 16 13).toNat 2
    pure (e2, 2)

/-- The page walk as the Hearth and the device make it. -/
def walk (s : State) (base va : Dword) (acc : Acc) : Run (Dword × Nat) := walkBy (fun _ => .ok ()) s base va acc

/-- The location of `va` under a leaf. -/
def leafKey (leaf : Dword) (lvl : Nat) (va : Dword) : Nat :=
  pteBase leaf + (if lvl == 1 then va.toNat % pow2 29 else va.toNat % 65536)

/-- The format of `va` under a leaf: inside a 512 MiB page the scale pages are implied by position (R52, R53). -/
def leafFmt (leaf : Dword) (lvl : Nat) (va : Dword) : FCode :=
  let f := pteFmt leaf
  let k := (va.toNat / 65536) % 32
  if lvl == 2 then f
  else if f == 7 && k == 31 then 8
  else if f == 5 && k == 31 then 9
  else if f == 6 && k % 16 == 15 then 9
  else f

/-- Rights, key and backing of a leaf (R130, R131). -/
def leafCheck (s : State) (part : Fin 32) (leaf : Dword) (lvl : Nat) (va : Dword) (acc : Acc) : Run Unit := do
  let key := leafKey leaf lvl va
  check (backed key) FC.notPresent va 3
  let rd := leaf.getLsbD 1
  let wr := leaf.getLsbD 2
  match acc with
  | .read => check rd FC.rights va 0
  | .write | .clean => check wr FC.rights va 1
  | .rmw => check (rd && wr) FC.rights va 2
  | .fetch => check (leaf.getLsbD 3) FC.fetch va 3
  check (!isDiePad key || (s.part part).padPages.contains (key / 65536)) FC.rights va 4
  check ((s.part part).keys.contains (pteKeyId leaf)) FC.key va ((pteKeyId leaf).setWidth 8)

/-- A die link that has failed (R9, R10, R288). Links are numbered by the compute die that they leave in ring direction (0) or tie
to its I/O die (2); the way between the two I/O dies is link 0 of die 4. -/
def linkDead (s : State) (die l : Nat) : Bool := s.links.contains (die, l)

/-- No way from a compute die to an I/O die is whole: its own link, and for the other I/O die the way between the two (R9, R10). -/
def ioDown (s : State) (die io : Nat) : Bool := linkDead s die 2 || (4 + die / 2 != io && linkDead s 4 0)

/-- A port that a partition's packets for remote packages may take: its table holds the tag, and the way to its I/O die is whole (R10,
R263). R10 puts 24 of the 48 ports on each I/O die: here ports 0-23 on die 4 and 24-47 on die 5 (DESIGN CHOICE, log 39: R10 does not number them). -/
def portOpen (s : State) (die : Nat) (tag : Half) (k : Nat) : Bool :=
  ((s.ports[k]?).getD {}).allowed.contains tag && !ioDown s die (4 + k / 24)

/-- The way to a home crosses a die link that has failed (R9, R10, R288). Neighbours of the ring have one way, their link, dies
that face each other two; the host port is on die 4. A remote package is reached through any port that holds the tag, and its way is
closed when every such port's is (DESIGN CHOICE, log 39: the spec names no route). -/
def linkDown (s : State) (die home : Nat) (tag : Half) : Bool :=
  let ring (d : Nat) := linkDead s (d % 4) 0
  if home < 4 then
    let k := (home + 4 - die) % 4
    if k == 0 then false
    else if k == 1 then ring die
    else if k == 3 then ring home
    else (ring die || ring (die + 1)) && (ring home || ring (home + 1))
  else if home == hostHome then ioDown s die 4
  else (List.range 48).any (fun k => ((s.ports[k]?).getD {}).allowed.contains tag) && !(List.range 48).any (portOpen s die tag)

/-- A request of the unit at hand to a home is let through: no link on its way has failed (R288), and a port holds the partition's tag (R263). -/
def wayTo (s : State) (va : Dword) (home : Nat) : Run Unit := do
  let tag := (s.part s.seat.unit.part).tag
  check (!linkDown s (dieOf s.seat.id) home tag) FC.soft va 8
  check (!homeRemote home || s.ports.toList.any (fun p => p.allowed.contains tag)) FC.partition va 1

-- Page-table walkers (R303).
/-- A walk that waits for a walker or has one: its partition, page and arrival, and whether its word is at H. -/
structure WalkReq where
  seat : SeatId
  part : Fin 32
  page : Nat
  ord  : Nat
  held : Bool
  atH  : Bool
  deriving DecidableEq, Repr

/-- The walks of a seat's words. -/
def Seat.walks (t : Seat) : List WalkReq :=
  engines.filterMap (fun e => match (t.eng e).wait with
    | some (.walker page ord held) => some ⟨t.id, t.unit.part, page, ord, held, t.atH e⟩
    | _ => none)

/-- The walks of a die, whose seats run. -/
def State.walks (s : State) (die : Nat) : List WalkReq :=
  (s.seats.filter (fun t => dieOf t.id == die && t.status == .running)).flatMap Seat.walks

/-- Walkers of a die that a partition holds. -/
def walkersHeld (l : List WalkReq) (p : Fin 32) : Nat := (l.filter (fun w => w.held && w.part == p)).length

/-- The arrival of a partition's oldest walk that waits. -/
def firstWalk (l : List WalkReq) (p : Fin 32) (ord : Nat) : Nat :=
  (l.filter (fun w => !w.held && w.part == p)).foldl (fun n w => Nat.min n w.ord) ord

/-- Walk `a` takes a free walker before `b`: partitions below their minimum first, then in arrival order, each by its oldest walk; within a
partition a walk for a word at H goes first (R303; log 105). -/
def walkBefore (s : State) (l : List WalkReq) (a b : WalkReq) : Bool :=
  let below (w : WalkReq) : Bool := decide (walkersHeld l w.part < (s.part w.part).walkMin)
  if a.part == b.part then if a.atH != b.atH then a.atH else decide (a.ord < b.ord)
  else if below a != below b then below a
  else decide (firstWalk l a.part a.ord < firstWalk l b.part b.ord)

/-- The walk may take one of the 512 walkers of the die now: its partition is below its maximum, and no other that might comes
before it (R303). -/
def mayWalk (s : State) (die : Nat) (me : WalkReq) : Bool :=
  let l := s.walks die
  let open_ (w : WalkReq) : Bool := decide (walkersHeld l w.part < (s.part w.part).walkMax)
  decide ((l.filter (fun w => w.held)).length < 512) && open_ me
    && !l.any (fun w => !w.held && !(w.seat == me.seat && w.page == me.page) && open_ w && walkBefore s l w me)

/-- A walk of a page by the seat at hand: it takes a walker when it may, and keeps it for a free time (a fetch's ends at once), so that the
word waits (R303; log 105). -/
def walkGate (va : Dword) (acc : Acc) : M Unit := do
  let s ← get
  let page := va.toNat / 65536
  let die := dieOf s.seat.id
  let hold (ord : Nat) (held : Bool) : M Unit := fun s => .error (.waitIn (.walker page ord held) { s with nonce := s.nonce + 1 })
  let go (me : WalkReq) : M Unit :=
    if mayWalk s die me then
      if acc == .fetch then pure ()
      else do
        let n ← mPick
        if n % 2 == 0 then pure () else hold me.ord true
    else hold me.ord false
  if s.seat.forced then pure ()
  else match s.seat.walks.find? (fun w => w.page == page) with
  | some w => if w.held then pure () else go w
  | none => go ⟨s.seat.id, s.seat.unit.part, page, s.nonce, false, false⟩

/-- A translation through page tables for the unit at hand, by the cell's cached entry or by a walk (R131, R224, R311): where
a cached entry and the walk differ, either serves. -/
def translatePage (va : Dword) (acc : Acc) : M Loc := do
  let s ← get
  let u := s.seat.unit
  mCheck (va.extractLsb' 54 10 == 0) FC.notPresent va 1
  let c := s.ctx u.vf u.proc
  let cell := cellOf s.seat.id
  let mine (e : TlbEntry) : Bool :=
    e.cell == cell && e.part == u.part && e.vf == u.vf && e.proc == u.proc &&
    e.page / (if e.lvl == 1 then 8192 else 1) == va.toNat / 65536 / (if e.lvl == 1 then 8192 else 1)
  let fresh := walkBy (wayTo s va) s c.ptbase va acc
  let use (r : Dword × Nat) : M (Dword × Nat) := do
    walkGate va acc
    let e : TlbEntry := { cell, part := u.part, vf := u.vf, proc := u.proc, page := va.toNat / 65536, leaf := r.1, lvl := r.2 }
    mMod (fun s => { s with tlb := e :: s.tlb.filter (fun e => !mine e) })
    pure r
  let (leaf, lvl) ← (match s.tlb.find? mine, fresh with
    | none, .ok r => use r
    | none, .error e => do
      walkGate va acc
      fun _ => .error e
    | some e, .ok r =>
      if e.leaf == r.1 && e.lvl == r.2 then pure r
      else do
        let n ← mPick
        if n % 2 == 0 then pure (e.leaf, e.lvl) else use r
    | some e, .error f => do
      let n ← mPick
      if n % 2 == 0 then pure (e.leaf, e.lvl) else fun _ => .error f)
  liftRun (leafCheck s u.part leaf lvl va acc)
  let key := leafKey leaf lvl va
  let cp := pteCp leaf
  let home := pteHome leaf
  liftRun (wayTo s va home)
  let cached := !isDiePad key && cp != 2
  pure { key, fmt := leafFmt leaf lvl va, kid := pteKeyId leaf, l1 := cached && cp == 0, l2 := cached && decide (home < 4),
         page := if lvl == 1 then pow2 29 else 65536 }

/-- The pad entry of a block of a cell (R125). -/
def padEntry (s : State) (cell block : Nat) : Dword := (((s.cell cell).pads.find? (fun p => p.1 == block)).map Prod.snd).getD 0
def padV (e : Dword) : Bool := e.getLsbD 0
def padSp (e : Dword) : Bool := e.getLsbD 1
def padFmtOf (e : Dword) : FCode := e.extractLsb' 2 4
def padSeat (e : Dword) : Nat := (e.extractLsb' 6 2).toNat
def padLoc (e : Dword) : Nat := (e.extractLsb' 14 50).toNat

/-- The key identities that a context of a VF may have (R260): a locked VF's own, else those of its partition's set that no VF has taken. -/
def State.contextKeys (s : State) (vf : Nat) : List (BitVec 7) :=
  match (s.vf vf).key with
  | some k => [k]
  | none => (s.part (s.vf vf).part).keys.filter (fun k => !s.vfs.any (fun v => v.key == some k))

/-- A context's key identity (R260): that of a VF which is not locked is the one that the Hearth has programmed at the physical function's request
(log 124). -/
def State.contextKey (s : State) (vf : Nat) : BitVec 7 :=
  match s.contextKeys vf with
  | [k] => k
  | l => nth l (Config.vfKey vf % l.length) 0

/-- The key identity of the owner of a seat's spilled blocks (R125, R261). -/
def padKeyId (s : State) (cell side : Nat) : BitVec 7 :=
  match s.seats.find? (fun t => t.id == BitVec.ofNat 11 (2 * cell + side)) with
  | some t => s.contextKey t.unit.vf
  | none => 0

/-- Where a byte of a pad block lies: near pad, or HBM of the cell's own die (R125). -/
def padKey (cell : Nat) (e : Dword) (off : Nat) : Nat :=
  if padSp e then homeKey (cell / 256) (padLoc e * 16384 + off % 16384) else nearKey cell (padLoc e * 16384 + off % 16384)

/-- Pad translation by a cell's table for one of its seats (R126, check 1). A spilled block whose LOC lies beyond the die's HBM is not
backed (R130; log 100). -/
def padTranslate (s : State) (cell side off : Nat) (va : Dword) : Run Loc := do
  check (decide (off < 0x800000)) FC.pad va 2
  if 0x600000 ≤ off then
    pure { key := windowKey (cell / 4) (off - 0x600000), pad := some off, page := 0x80000 }
  else
    let e := padEntry s cell (off / 16384)
    check (padV e) FC.pad va 0
    check (padSeat e == side + 1) FC.pad va 1
    check (!padSp e || decide (padLoc e * 16384 < 0x3000000000)) FC.notPresent va 3
    pure { key := padKey cell e off, fmt := padFmtOf e, l2 := padSp e, pad := some off, kid := if padSp e then padKeyId s cell side else 0 }

/-- A pad-space address (R128). -/
def isPadSpace (va : Dword) : Bool := va.extractLsb' 41 23 == BitVec.allOnes 23
def padOffset (va : Dword) : Nat := va.toNat % pow2 41

/-- The scoreboard lets an access of `n` bytes at a pad-space offset go (R136). -/
def rangeFree (t : Seat) (off n : Nat) (store : Bool) : Bool :=
  !t.ranges.any (fun r => (r.dst || store) && decide (r.lo < off + n) && decide (off < r.hi))

/-- Translation of one address, with the scoreboard for `n` bytes (R126, R128, R131, R136). A store through a ZM entry fails
unless a whole slot is copied (R54, R126); FAUX then names no needed format (DESIGN CHOICE, log 112: R278 gives none). -/
def translate (va : Dword) (n : Nat) (acc : Acc) (zmOk : Bool) : M Loc := do
  let s ← get
  let l ← (if isPadSpace va then do
      mCheck (acc != .fetch) FC.fetch va 4
      let l ← liftRun (padTranslate s (cellOf s.seat.id) (sideOf s.seat.id) (padOffset va) va)
      mNeeds (rangeFree s.seat (padOffset va) n (acc == .write || acc == .rmw)) .range
      pure l
    else translatePage va acc)
  mCheck (zmOk || !(isZm l.fmt && (acc == .write || acc == .rmw))) FC.format va (l.fmt.setWidth 8)
  pure l

/-- The locations of `n` bytes at `va`, cut where pages and pad blocks may meet: each piece with its first address and
length. The fuel is the number of pieces. -/
def locateFuel (fuel : Nat) (va : Dword) (n : Nat) (acc : Acc) (zmOk : Bool) : M (List (Loc × Dword × Nat)) := do
  match fuel with
  | 0 => pure []
  | fuel + 1 =>
    if n == 0 then pure []
    else
      let k := Nat.min n (16384 - va.toNat % 16384)
      let l ← translate va k acc zmOk
      let rest ← locateFuel fuel (va + BitVec.ofNat 64 k) (n - k) acc zmOk
      pure ((l, va, k) :: rest)

def locate (va : Dword) (n : Nat) (acc : Acc) (zmOk : Bool := false) : M (List (Loc × Dword × Nat)) :=
  locateFuel (n / 16384 + 2) va n acc zmOk

-- What a read returns.
/-- How a read is served: coherently at the home or from the phase (R108, R151, R234), whether it skips the alias check
(R150), whether it belongs to a fork, which later stores of the unit may reach (R240), whether it may allocate (R133), and whether it reads a pad or a
window, which has one current value for all (R125, R127). -/
structure View where
  coherent : Bool := false
  nx       : Bool := false
  fork     : Bool := false
  alloc    : Bool := true
  bank     : Bool := false
  deriving DecidableEq, Repr

/-- The view of a read at a translated location. -/
def View.at (v : View) (l : Loc) : View := { v with bank := v.bank || l.pad.isSome }

def reachNum : Reach → Nat
  | .cell => 0 | .cluster => 1 | .die => 2 | .package => 3 | .system => 4

/-- A publication's reach takes in the reader (R225). -/
def reaches (t : Seat) (p : Pub) : Bool :=
  let c := cellOf t.id
  match p.reach with
  | .cell => p.cell == c
  | .cluster => p.cell / 4 == c / 4
  | .die => p.cell / 256 == c / 256
  | .package | .system => true

/-- A publication reaches the reader, and precedes the view point that governs its plain loads (R225, R227, R229): the
publication was made no later than the view point (log 10). A coherent read is its own view point (R230, R234). -/
def binds (t : Seat) (coherent : Bool) (p : Past) : Bool :=
  p.pubs.any (fun q =>
    reaches t q && (coherent || decide (q.seq ≤ Nat.max t.vpAny (if 1 ≤ reachNum q.reach then t.vpClus else 0))))

/-- The unit on the other seat of the cell of the seat at hand. -/
def State.twin (s : State) : Option Nat := (s.others.find? (fun t => cellOf t.id == cellOf s.seat.id)).map (fun t => t.unit.uid)

/-- A write that the reader never finds: a spill of another unit (R113), and what a unit has stored on the other seat of the
cell and not published, or has stored on a seat of this cell (R233). -/
def hidden (t : Seat) (twin : Option Nat) (p : Past) : Bool :=
  p.spill || (p.early && (p.cell == cellOf t.id || twin == some p.uid))

/-- The values of a location that a read at LSN `l` may find, from the newest to the one that its view point fixes, and whether
that one is the unit's own store. Writes of the reader's own unit that are not below its LSN are not seen; a fork sees those at its own LSN,
which are its own, and may see later ones (R229, R232, R240). -/
def visible (t : Seat) (twin : Option Nat) (l : Lsn) (v : View) (now : Byte) : List Past → List Byte × Bool
  | [] => ([now], false)
  | p :: rest =>
    let older := visible t twin l v p.old rest
    if p.uid == t.unit.uid then
      if (if v.fork then !lsnLt l p.lsn else lsnLt p.lsn l) then ([now], true) else if v.fork then (now :: older.1, older.2) else older
    else if binds t v.coherent p then ([now], false)
    else if hidden t twin p then older
    else (now :: older.1, older.2)

/-- A store of the unit that has not been published to a location: its LSN, value and bits. -/
abbrev OwnByte := Lsn × Byte × Byte

def insertOwn (x : OwnByte) : List OwnByte → List OwnByte
  | [] => [x]
  | y :: rest => if lsnLt y.1 x.1 then y :: insertOwn x rest else x :: y :: rest

/-- What the stores of the unit at LSNs with `p` have for a location and have not published, in LSN order (R33, R109, R112). -/
def Seat.ownBytes (t : Seat) (p : Lsn → Bool) (key : Nat) : List (Byte × Byte) :=
  ((((t.unpub.filter (fun u => u.byte.key == key && p u.lsn)).map (fun u => ((u.lsn, u.byte.val, u.byte.mask) : OwnByte)))
    ++ (t.gsb.filter (fun g => p g.lsn)).flatMap (fun g =>
      (g.bytes.filter (fun b => b.key == key)).map (fun b => ((g.lsn, b.val, b.mask) : OwnByte)))).foldr insertOwn []).map Prod.snd

/-- What a byte holds before and after each of some stores. -/
def afterEach (x : Byte) : List (Byte × Byte) → List Byte
  | [] => [x]
  | p :: rest => x :: afterEach (mergeByte x p.1 p.2) rest

/-- The candidates for one byte. Where the newest write that the view point fixes is the unit's own, it is the only one (R229); a
byte of a window or a pad, near or spilled, has its current value (R125, R127). -/
def candidates (s : State) (l : Lsn) (v : View) (key : Nat) : List Byte :=
  let found := visible s.seat s.twin l v (s.home key) (s.hist.filter (fun p => p.key == key))
  let base := if v.bank || isWindow key || isNear key then found.1.take 1 else if found.2 && !v.fork then found.1.reverse.take 1 else found.1
  let own := s.seat.ownBytes (fun x => lsnLt x l) key
  let top := base.map (fun b => own.foldl (fun x p => mergeByte x p.1 p.2) b)
  if v.fork then top.flatMap (fun b => afterEach b (s.seat.ownBytes (fun x => lsnLt l x) key)) else top

/-- One of the candidates: a free choice when there is more than one (R229). -/
def choose (l : List Byte) : M Byte :=
  match l.eraseDups with
  | [] => pure 0
  | [b] => pure b
  | b :: rest => do
    let n ← mPick
    pure (nth (b :: rest) (n % (rest.length + 1)) b)

/-- The LSNs of the unit's stores to some locations. -/
def ownLsns (s : State) (keys : List Nat) : List Lsn :=
  ((s.seat.unpub.filter (fun u => keys.contains u.byte.key)).map (fun u => u.lsn)
    ++ (s.seat.gsb.filter (fun g => g.bytes.any (fun b => keys.contains b.key))).map (fun g => g.lsn)
    ++ (s.hist.filter (fun p => p.uid == s.seat.unit.uid && keys.contains p.key)).map (fun p => p.lsn)).eraseDups

/-- The LSN as of which an element is read: the reader's, or, for a read that skips the alias check, a free one among those at
which the unit's stores to the element begin and end (R150, R232): the element as a whole is as it was before or after each. -/
def readAs (v : View) (l : Lsn) (keys : List Nat) : M Lsn := do
  let s ← get
  match ownLsns s keys with
  | [] => pure l
  | x :: rest =>
    if !v.nx then pure l
    else do
      let n ← mPick
      let top := rest.foldl (fun a b => if lsnLt a b then b else a) x
      pure (nth (x :: rest) (n % (rest.length + 2)) (top + 1))

-- Keys (R261).
/-- Memory that is encrypted: HBM, remote packages and the host's, but no die pad (R261). -/
def isEncrypted (key : Nat) : Bool := (decide (nodeOf key < 4) && !isDiePad key) || homeRemote (nodeOf key) || nodeOf key == hostHome

/-- A key identity with the generation of its key (R260, R261). -/
def State.label (s : State) (kid : BitVec 7) : Nat := kid.toNat + 128 * ((s.keyGens.find? (fun g => g.1 == kid.toNat)).map Prod.snd).getD 0

/-- The key under which a location's line was last written, where it is another than the one that `kid` now stands for. The device's own
accesses have identity 0 here and no key of their own; a line that nothing has written reads alike under every key (log 5). -/
def State.foreign (s : State) (kid : BitVec 7) (key : Nat) : Option Nat :=
  if kid == 0 || !isEncrypted key then none
  else ((s.labels.find? (fun x => x.1 == key / 128)).map Prod.snd).filter (fun l => l != s.label kid)

/-- The label of lines that hold slice words: they are ciphertext but for the instruction cache's fill (R262). -/
def State.codeLabel (s : State) (kid : BitVec 7) : Nat := s.label kid + pow2 64

/-- A byte `x` of a location as a fill of the instruction cache under `kid` finds it (R132, R262). -/
def State.underCode (s : State) (kid : BitVec 7) (key : Nat) (x : Byte) : Byte :=
  match if isEncrypted key then (s.labels.find? (fun x => x.1 == key / 128)).map Prod.snd else none with
  | none => x
  | some l =>
    if l == s.codeLabel kid then x
    else byteOf (BitVec.ofNat 128 (Config.decipher l (s.codeLabel kid) (key / 16) (natOfBytes (s.homeBytes (key / 16 * 16) 16)))) (key % 16)

/-- A byte `x` of a location as an access under `kid` finds it. -/
def State.underKey (s : State) (kid : BitVec 7) (key : Nat) (x : Byte) : Byte :=
  match s.foreign kid key with
  | none => x
  | some l => byteOf (BitVec.ofNat 128 (Config.decipher l (s.label kid) (key / 16) (natOfBytes (s.homeBytes (key / 16 * 16) 16)))) (key % 16)

/-- A line before a write under `kid`: it holds what that key makes of it, and is that key's from then on. -/
def rekey (s : State) (kid : BitVec 7) (key : Nat) : State :=
  if kid == 0 || !isEncrypted key then s
  else
    let line := key / 128
    let mem := match s.foreign kid key with
      | none => s.mem
      | some _ => (List.range 128).foldl (fun m i => Memory.write m (128 * line + i) (s.underKey kid (128 * line + i) (s.home (128 * line + i)))) s.mem
    { s with mem, labels := putWhere (fun x => x.1 == line) (line, s.label kid) s.labels }

-- Token buckets (R254).
/-- A context's RATE and DEPTH. -/
def bucketRate (c : Ctx) : Nat := 1 + Config.bucketRate c.vf c.proc % 255
def bucketDepth (c : Ctx) : Nat := bucketRate c + Config.bucketDepth c.vf c.proc % (4096 - bucketRate c)

/-- How far a context's bucket at a port lies below its DEPTH. -/
def Ctx.spent (c : Ctx) (port : Nat) : Nat := ((c.levels.find? (fun l => l.1 == port)).map Prod.snd).getD 0
def Ctx.spend (c : Ctx) (port : Nat) : Ctx :=
  { c with levels := (port, c.spent port + 1) :: c.levels.filter (fun l => l.1 != port) }
/-- LEVEL is not 0; DEPTH is never 0. -/
def Ctx.hasToken (c : Ctx) (port : Nat) : Bool := c.spent port == 0 || decide (c.spent port < bucketDepth c)

/-- A request of the context waits at the port. -/
def portWanted (s : State) (c : Ctx) (port : Nat) : Bool :=
  s.seats.any (fun t => t.unit.vf == c.vf && t.unit.proc == c.proc && t.lines.any (fun r => r.port == port && !r.got))

/-- The context that lends a token (R254): of the same hard partition, with tokens and no request waiting at the port, the highest LEVEL, and
among equals the lowest number. -/
def lender (s : State) (me : Ctx) (port : Nat) : Option Ctx :=
  if me.part == 0 then none
  else
    let level (c : Ctx) : Nat := bucketDepth c - c.spent port
    let num (c : Ctx) : Nat := c.vf * 256 + c.proc
    (s.ctxs.filter (fun c => c.part == me.part && num c != num me && c.hasToken port && !portWanted s c port)).foldl (fun b c => match b with
      | none => some c
      | some x => if level x < level c || (level x == level c && num c < num x) then some c else some x) none

/-- The unit at hand takes a token for a line at a port, its context's own or one that it borrows; none where there is none. -/
def takeToken (s : State) (port : Nat) : Option State :=
  let me := s.myCtx
  if me.hasToken port then some (s.setCtx (me.spend port))
  else (lender s me port).map (fun c => s.setCtx (c.spend port))

/-- The ways of an L2 slice that a partition's fills may take (R253): a hard partition's mask, and for partition 0 those of no
hard partition. -/
def waysOf (s : State) (die slice : Nat) (part : Fin 32) : BitVec 16 :=
  let here := s.ways.filter (fun w => w.1 == die && w.2.1 == slice)
  if part == 0 then ~~~(here.foldl (fun (m : BitVec 16) w => m ||| w.2.2.2) 0)
  else ((here.find? (fun w => w.2.2.1 == part.val)).map (fun w => w.2.2.2)).getD 0

/-- The slice and set of an L2 line, or the set of an L1 line (R11, R132): 48 slices of 1,024 sets, and 128 sets. -/
def lineSet (holder line : Nat) : Nat × Nat :=
  let n := Config.cacheSet holder line
  if holder < 1024 then (0, n % 128) else (n % 48, n / 48 % 1024)

/-- The ways of its set that a line of a partition may take. -/
def lineWays (s : State) (holder line : Nat) (part : Fin 32) : Nat :=
  if holder < 1024 then 20
  else ((List.range 16).filter (fun i => (waysOf s (holder - 1024) (lineSet holder line).1 part).getLsbD i)).length

/-- A line leaves a cache: what an L2 held newer than the home memory goes there (R132, R253), and the damage of a line that has nothing newer
goes with it (R288). -/
def evictLine (s : State) (t : LineTag) : State :=
  { s with
    lineTags := s.lineTags.erase t
    badMem := s.badMem.filter (fun m => !(m.lo / 128 == t.line && !s.dirty.any (fun d => lineOf d.key == t.line)
      && (if t.holder < 1024 then m.cell == some t.holder else m.kind == 3)))
    dirty := if t.holder < 1024 then s.dirty else s.dirty.filter (fun d => lineOf d.key != t.line) }

/-- A line enters a cache, in the filling partition's ways (R132, R253): where they are full, a line of its own leaves, and where
the set is full with lines of partitions that have lost ways, one of those; which one is free. A partition without a way in the
slice allocates nothing. -/
def fillLine (s : State) (t : LineTag) : State :=
  let ways := lineWays s t.holder t.line t.part
  let set := s.lineTags.filter (fun x => x.holder == t.holder && lineSet x.holder x.line == lineSet t.holder t.line)
  let own := set.filter (fun x => x.part == t.part)
  let all := if t.holder < 1024 then 20 else 16
  let others := set.filter (fun x => decide (lineWays s x.holder x.line x.part
    < (set.filter (fun y => y.part == x.part)).length))
  let victims := if ways ≤ own.length then own else if all ≤ set.length then others else []
  if ways == 0 then s
  else
    let s := if victims.isEmpty then s else
      let (n, s) := s.pick
      evictLine s (nth victims (n % victims.length) t)
    { s with lineTags := t :: s.lineTags }

/-- The line that a cache holds for a partition and a key identity (R253). -/
def lineIn (s : State) (holder line : Nat) (part : Fin 32) (kid : BitVec 7) : Option LineTag :=
  s.lineTags.find? (fun t => t.holder == holder && t.line == line && t.part == part && t.kid == kid)

/-- The L2 slice port of a line (R254). -/
def slicePort (holder line : Nat) : Nat := 48 * (holder - 1024) + (lineSet holder line).1

/-- The unit at hand takes a token that its context owes where it has none to take (log 123). -/
def oweToken (s : State) (port : Nat) : State := (takeToken s port).getD (s.setCtx (s.myCtx.spend port))

/-- The word or fork at LSN `w` moves a line through an L2 slice port: it waits for a token (R254). -/
def lineToken (w : Lsn) (holder line : Nat) : M Unit := fun s =>
  let port := slicePort holder line
  let now (got : Bool) (s : State) : State := s.onSeat (fun t => { t with
    lines := ⟨w, line, port, got⟩ :: t.lines.filter (fun r => !(r.lsn == w && r.line == line)) })
  if s.seat.lines.any (fun r => r.lsn == w && r.line == line && r.got) then .ok ((), s)
  else if s.seat.forced then .ok ((), oweToken s port)
  else match takeToken s port with
    | some s' => .ok ((), now true s')
    | none => .error (.waitIn .bucket (now false s))

/-- The lines of an L2 that some bytes go through. -/
def portLines (bytes : List WByte) : List Nat := ((bytes.filter (fun b => b.l2)).map (fun b => lineOf b.key)).eraseDups

/-- The unit's own bytes go to their homes for the word or event at LSN `w` once their lines have tokens (R254). -/
def lineTokens (w : Lsn) (bytes : List WByte) : M Unit :=
  mEach (portLines bytes) (fun line => lineToken w (1024 + nodeOf (128 * line)) line)

/-- The lines through which bytes go home without a wait take tokens that the context then owes, but for those that have one (R254; log 123). -/
def chargeLines (bytes : List WByte) (s : State) : State :=
  (portLines bytes).foldl (fun s line =>
    if s.seat.lines.any (fun r => r.line == line && r.got) then s
    else oweToken s (slicePort (1024 + nodeOf (128 * line)) line)) s

/-- Checks and records the formats of the lines of `n` bytes (R134) for the word or fork at LSN `w`: a line with another tag either has left
the cache or refuses the access. No sync access is served from an L1 (R132); every line that comes from an L2 takes a token (R254). -/
def lineCheck (w : Lsn) (l : Loc) (va : Dword) (n : Nat) (alloc check_ : Bool) (coherent : Bool := false) : M Unit := do
  let s ← get
  let part := s.seat.unit.part
  let near (s : State) (x : Nat) : Bool := l.l1 && !coherent && (lineIn s (cellOf s.seat.id) x part l.kid).isSome
  let holders := (if l.l1 && !coherent then [cellOf s.seat.id] else []) ++ (if l.l2 then [1024 + nodeOf l.key] else [])
  let lines := (List.range ((l.key % 128 + n + 127) / 128)).map (fun i => l.key / 128 + i)
  mEach (if l.l2 then lines.filter (fun x => !near s x) else []) (lineToken w (1024 + nodeOf l.key))
  mEach (holders.flatMap (fun h => lines.map (fun x => (h, x)))) (fun (h, x) => do
    let s ← get
    let fill (s : State) : State := if alloc then fillLine s ⟨h, x, l.fmt, part, l.kid⟩ else s
    match lineIn s h x part l.kid with
    | some t =>
      if t.fmt != l.fmt && check_ then do
        let k ← mPick
        mCheck (k % 2 == 0) FC.format va (l.fmt.setWidth 8 ||| (t.fmt.setWidth 8 <<< 4))
        mMod (fun s => fill (evictLine s t))
      else pure ()
    | none => mMod fill)

/-- The unit's own bytes below `l` that are not published cover the whole location. -/
def ownCovers (t : Seat) (l : Lsn) (key : Nat) : Bool := (t.ownBytes (fun x => lsnLt x l) key).foldl (fun (m : Byte) p => m ||| p.2) 0 == 0xFF

/-- An atomic of the unit below `l` has been issued for one of the locations and has not landed: the read waits for its result
(R109, R114, R232). -/
def atomPending (t : Seat) (l : Lsn) (key n : Nat) : Bool :=
  t.atoms.any (fun a => lsnLt a.lsn l && decide (a.key < key + n) && decide (key < a.key + (if a.wide then 8 else 4)))

/-- Reads the stored bytes at successive locations under a key identity, with damage (R261, R288, R289). -/
def readRaw (l : Lsn) (v : View) (kid : BitVec 7) (key n : Nat) (va : Dword) : M (List Byte) := do
  let t ← mSeat
  mNeeds (!atomPending t l key n) .atomic
  mMap (List.range n) (fun i => do
    let s ← get
    match s.markAt (key + i) v.coherent (ownCovers s.seat l (key + i)) with
    | some k => mFault FC.soft (va + BitVec.ofNat 64 i) k
    | none => do
      let x ← choose (candidates s l v (key + i))
      pure (s.underKey kid (key + i) x))

/-- Reads the bytes of one located piece, expanding a ZM slot (R54). -/
def readPiece (l : Lsn) (v : View) (loc : Loc) (va : Dword) (n : Nat) : M (List Byte) := do
  lineCheck l loc va n v.alloc true v.coherent
  if isZm loc.fmt then
    let first := loc.key % 512
    let slots := (first + n + 511) / 512
    let bytes ← mMap (List.range slots) (fun i => do
      let base := loc.key - first + 512 * i
      let raw ← readRaw l (v.at loc) loc.kid base 512 (va - BitVec.ofNat 64 first + BitVec.ofNat 64 (512 * i))
      let s ← get
      let bit ← choose (candidates s l (v.at loc) (rawKey base))
      pure (bytesOf (BitVec.ofNat 4096 (zmExpand (zmWidth loc.fmt) (natOfBytes raw) (bit != 0))) 512))
    pure ((bytes.flatten.drop first).take n)
  else readRaw l (v.at loc) loc.kid loc.key n va

/-- The contexts as they were, but for the levels of their buckets, which tokens taken meanwhile have lowered (R254). -/
def keepLevels (s s' : State) : State :=
  { s with ctxs := s'.ctxs.map (fun c => { s.ctx c.vf c.proc with levels := c.levels }) }

/-- The state in which a word of engine `e` waits: what it has asked for stays. A walk that waits for a walker, or holds one, an access
to a remote package and one that waits for tokens keep nothing else. -/
def waitState (e : Eng) (s s' : State) (w : Wait) : State :=
  match w with
  | .walker .. => { s with nonce := s'.nonce }
  | .remote => s.onEng e (fun x => { x with remote := (s'.seat.eng e).remote })
  | .bucket => (keepLevels s s').onSeat (fun t => { t with lines := s'.seat.lines })
  | _ => s'

/-- What an action gives, with nothing changed yet. -/
def peek {α : Type} (m : M α) : M α := fun s =>
  match m s with
  | .ok (a, _) => .ok (a, s)
  | .error e => .error e

/-- The location's home is beyond the package (R226, R236). -/
def farHome (key : Nat) : Bool := homeRemote (nodeOf key) || nodeOf key == hostHome

/-- A word that reaches memory beyond the package, first at `far`, asks, waits for the response, and executes when it is answered
(R263, R317). -/
def askGate (e : Eng) (far : Option Dword) : M Unit := fun s =>
  match far with
  | none => .ok ((), s)
  | some va =>
    match (s.seat.eng e).remote with
    | .answered => .ok ((), s)
    | .asked _ _ => .error (.wait .remote)
    | .idle => .error (.waitIn .remote (s.onEng e (fun x => { x with remote := .asked s.seat.cycles.toNat va })))

/-- A read of engine `e`'s word asks over the fabric or the host port (R263, R317). -/
def remoteGate (e : Eng) (pieces : List (Loc × Dword × Nat)) : M Unit :=
  askGate e ((pieces.find? (fun p => farHome p.1.key)).map (fun p => p.2.1))

/-- A write of engine `e`'s word to a remote package waits for its response; one to the host's memory is posted (R263; log 38). -/
def writeGate (e : Eng) (pieces : List (Loc × Dword × Nat)) : M Unit :=
  askGate e ((pieces.find? (fun p => homeRemote (nodeOf p.1.key))).map (fun p => p.2.1))

/-- A read of `n` bytes by engine `e` at LSN `l`: the bytes and the formats of the pieces. -/
def load (e : Eng) (l : Lsn) (v : View) (va : Dword) (n : Nat) : M (List Byte × List FCode) := do
  let pieces ← locate va n .read
  remoteGate e pieces
  let bytes ← mMap pieces (fun (p, a, k) => readPiece l v p a k)
  pure (bytes.flatten, pieces.map (fun p => p.1.fmt))

/-- Notes a read of the access engine, or a scalar load below a store that has not executed, in the run-ahead log (R150). One that
skips the alias check is listed for the squash of R118 alone. -/
def noteRead (l : Lsn) (pieces : List (Loc × Dword × Nat)) (nx : Bool := false) : M Unit :=
  mModSeat (fun t =>
    if t.passed l then t
    else { t with rlog := ⟨l, pieces.flatMap (fun (p, _, k) => (List.range k).map (fun i => p.key + i)), nx⟩ ::
      t.rlog.filter (fun r => !t.passed r.lsn) })

-- Writes.
/-- The location lies in a pad block (R125). -/
def Loc.inBlock (l : Loc) : Bool :=
  match l.pad with
  | some o => decide (o < 0x600000)
  | none => false

/-- The bytes of a located range with the values to be written. -/
def wbytes (pieces : List (Loc × Dword × Nat)) (bytes : List Byte) : List WByte :=
  (pieces.foldl (fun (acc : List WByte × List Byte) (p : Loc × Dword × Nat) =>
    (acc.1 ++ ((List.range p.2.2).zip acc.2).map (fun x =>
      { key := p.1.key + x.1, val := x.2, l2 := p.1.l2, l1 := p.1.l1, fmt := p.1.fmt, kid := p.1.kid
        pad := p.1.inBlock }),
     acc.2.drop p.2.2)) ([], bytes)).1

/-- The lowest LSN of a run-ahead read that meets one of the locations, above the store's LSN (R150). -/
def aliasOf (t : Seat) (l : Lsn) (keys : List Nat) : Option Lsn :=
  ((t.rlog.filter (fun r => !r.nx && lsnLt l r.lsn && r.keys.any keys.contains)).map (fun r => r.lsn)).foldl lowest none

/-- The seat rolled back to the first run-ahead read that a store at `l` meets (R33, R150; log 11). -/
def squashAlias (t : Seat) (l : Lsn) (keys : List Nat) : Seat :=
  match aliasOf t l keys with
  | some f => t.roll f
  | none => t

/-- Captures a store in the gated store buffer and squashes the run-ahead reads that it meets (R33, R150; log 11). -/
def capture (e : Eng) (l : Lsn) (cls : StClass) (bytes : List WByte) (sys : Bool := false) (spill : Bool := false) : M Unit :=
  mModSeat (fun t =>
    let t := squashAlias t l (bytes.map (fun b => b.key))
    { t with gsb := t.gsb ++ [{ lsn := l, cls, bytes, sys, eng := e, spill }] })

/-- The lines that a write goes through take its translation's format, unless they hold one (R132, R134). -/
def fillAt (holder : Nat) (part : Fin 32) (s : State) (b : WByte) : State :=
  match lineIn s holder (lineOf b.key) part b.kid with
  | some _ => s
  | none => fillLine s ⟨holder, lineOf b.key, b.fmt, part, b.kid⟩

/-- A location written where it is at home, with its place in the order of writes (R230) and the publication that brings it there,
none for a byte that comes early (R226). -/
def homeWrite (s : State) (u : UByte) (uid : Nat) (reach : Option Reach) (id : SeatId) (part : Fin 32)
    (vf : Nat := if uid == 0 then 0 else s.seat.unit.vf) : State :=
  let b := u.byte
  let s := rekey s b.kid b.key
  let old := s.home b.key
  let holder := 1024 + nodeOf (lineKey b.key)
  let s := if b.l2 && !b.bypass then fillAt holder part s b else s
  let held := b.l2 && !b.bypass && (lineIn s holder (lineOf b.key) part b.kid).isSome
  let d : Dirty := ⟨b.key, ((s.dirty.find? (fun d => d.key == b.key)).map (fun d => d.back)).getD old, id, part, vf⟩
  let rest := s.dirty.filter (fun d => d.key != b.key)
  { s with
    mem := Memory.write s.mem b.key (mergeByte old b.val b.mask)
    hist := { key := b.key, old, mask := b.mask, seq := s.seqNo + 1, uid, lsn := u.lsn, cell := cellOf id, spill := u.spill, tok := u.tok, copy := u.copy
              pubs := match reach with
                | some r => [⟨r, cellOf id, s.seqNo + 1⟩]
                | none => [] } :: s.hist
    seqNo := s.seqNo + 1
    dirty := if held then d :: rest else rest }

/-- Damage of a cell's L1, or of a location's home, ends where all that is marked has been written again there (R288). -/
def clearDamage (s : State) (bytes : List WByte) (cell : Option Nat := none) : State :=
  { s with badMem := (s.badMem.map (fun m => if m.cell == cell then { m with
      left := m.left.filter (fun k => !bytes.any (fun b => b.key == k && b.mask == 0xFF)) } else m)).filter (fun m => !m.left.isEmpty) }

/-- The bits of a location that a unit's own writes at higher LSNs have set at its home: they stand (R112). -/
def laterMask (s : State) (uid : Nat) (u : UByte) : Byte :=
  (s.hist.filter (fun p => p.key == u.byte.key && p.uid == uid && lsnLt u.lsn p.lsn)).foldl (fun m p => m ||| p.mask) 0

/-- An unpublished byte of a seat's unit goes to its home, but for what later stores of the unit to the location have set there first (R112, R232). -/
def publishFor (t : Seat) (reach : Option Reach) (s : State) (u : UByte) : State :=
  let m := u.byte.mask &&& ~~~laterMask s t.unit.uid u
  if m == 0 then s
  else homeWrite s { u with byte := { u.byte with mask := m } } t.unit.uid reach t.id t.unit.part t.unit.vf

def publishByte (reach : Option Reach) (s : State) (u : UByte) : State := publishFor s.seat reach s u

/-- Bytes of the unit written at their homes at LSN `l`. -/
def writeHome (s : State) (bytes : List WByte) (l : Lsn) (reach : Reach) : State :=
  clearDamage (bytes.foldl (fun s b => publishByte (some reach) s { byte := b, lsn := l }) (chargeLines bytes s)) bytes

/-- The result of a read and write of the unit at a location's home (R114, R204): it takes its place in the location's order as it comes (R230, R241),
whatever the LSNs of the unit's writes before it. -/
def writeUpdate (s : State) (bytes : List WByte) (l : Lsn) : State :=
  clearDamage (bytes.foldl (fun s b => homeWrite s { byte := b, lsn := l } s.seat.unit.uid (some .system) s.seat.id s.seat.unit.part)
    (chargeLines bytes s)) bytes

/-- The unpublished bytes that satisfy `p` go to their homes in order; older bytes of the same locations go with them. Damage that they had in the L1 does
not go home with them (R288; DESIGN CHOICE, log 144). -/
def publishThose (s : State) (reach : Option Reach) (p : UByte → Bool) : State :=
  let out := s.seat.unpub.filter p
  let s := clearDamage (out.foldl (publishByte reach) (chargeLines (out.map (fun u => u.byte)) s)) (out.map (fun u => u.byte))
  s.onSeat (fun t => { t with unpub := t.unpub.filter (fun u => !p u &&
    !out.any (fun w => w.byte.key == u.byte.key && lsnLt u.lsn w.lsn && (u.byte.mask &&& ~~~w.byte.mask) == 0)) })

/-- Writes of the unit that are at home get one more publication (R226). -/
def widen (s : State) (reach : Reach) (p : Past → Bool) : State :=
  { s with
    hist := s.hist.map (fun (x : Past) =>
      if x.uid == s.seat.unit.uid && !x.spill && p x then { x with pubs := x.pubs ++ [⟨reach, cellOf s.seat.id, s.seqNo + 1⟩] } else x)
    seqNo := s.seqNo + 1 }

/-- Stores below `l`, or all. -/
def coversLsn (l : Option Lsn) (x : Lsn) : Bool := match l with
  | some f => lsnLt x f
  | none => true

/-- An unpublished byte that a publication of the stores below `l` takes home. -/
def covered (l : Option Lsn) (u : UByte) : Bool := coversLsn l u.lsn && u.tok.isNone && !u.spill

/-- Publication of the stores of the unit below `l` (or all of them) with a reach (R226, R118): unpublished bytes go to
their homes, and those that are there are published again from the unit's present cell. What a copy that has not been joined wrote
is not covered (R239), and a spill never is (R113). -/
def publish (s : State) (l : Option Lsn) (reach : Reach) : State :=
  publishThose (widen s reach (fun p => coversLsn l p.lsn && p.tok.isNone)) (some reach) (covered l)

/-- The lines of what a publication covers have tokens for the word or event at LSN `w` (R254). -/
def mPublishTokens (w : Lsn) (l : Option Lsn) : M Unit := do
  let t ← mSeat
  lineTokens w ((t.unpub.filter (covered l)).map (fun u => u.byte))

/-- A word or event at LSN `w` publishes once the lines of the bytes have tokens (R254). -/
def mPublish (w : Lsn) (l : Option Lsn) (reach : Reach) : M Unit := do
  mPublishTokens w l
  mMod (fun s => publish s l reach)

/-- Publication at PACKAGE scope of the bytes that copies of the unit have written and `p` admits (R272, R274, R313). -/
def publishCopies (s : State) (p : Nat → Bool := fun _ => true) : State :=
  publishThose (widen s .package (fun x => x.copy && p x.key)) (some .package) (fun u => u.copy && p u.byte.key)

/-- A unit's own bytes below `l` at locations that a sync store, an atomic or a reducing copy is about to touch are at
home first (R112, R232). -/
def settleOwn (s : State) (l : Lsn) (keys : List Nat) : State :=
  publishThose s none (fun u => lsnLt u.lsn l && keys.contains u.byte.key)

/-- The unpublished bytes of the cell's other seat go to their home, still unpublished (R116), through their lines' ports (R254). -/
def settleOther (keys : List Nat) (s : State) : State :=
  let c := cellOf s.seat.id
  s.others.foldl (fun s t =>
    if cellOf t.id == c then
      let out := t.unpub.filter (fun u => keys.contains u.byte.key)
      let bytes := out.map (fun u => u.byte)
      let s := clearDamage (out.foldl (publishFor t none) (chargeLines bytes s)) bytes
      { s with others := s.others.map (fun x => if x.id == t.id then
        { x with unpub := x.unpub.filter (fun u => !keys.contains u.byte.key) } else x) }
    else s) s

/-- Every dirty copy of the bytes is written back to the home memory (R116, R133). -/
def cleanLine (keys : List Nat) (s : State) : State :=
  let s := settleOther keys (publishThose s none (fun u => keys.contains u.byte.key))
  { s with dirty := s.dirty.filter (fun d => !keys.contains d.key) }

/-- The locations of a line, and the raw bit that it carries on a ZM page (R54). -/
def lineBytes (line : Nat) : List Nat := rawKey (128 * line) :: (List.range 128).map (fun i => 128 * line + i)

/-- A byte of the seat's own pad, near or spilled: both behave alike (R125). -/
def WByte.inPad (b : WByte) : Bool := isNear b.key || b.pad

/-- What a plain store's line does in the cell's L1 as its bytes leave the buffer (R111, R133): a plain one allocates it; `by`
writes a line that is present back, and invalidates it. -/
def touchLine (cls : StClass) (s : State) (b : WByte) : State :=
  let h := cellOf s.seat.id
  match cls with
  | .bypass =>
    match lineIn s h (lineOf b.key) s.seat.unit.part b.kid with
    | some t => evictLine (cleanLine (lineBytes (lineOf b.key)) s) t
    | none => s
  | .plain => if b.l1 then fillAt h s.seat.unit.part s b else s
  | .na | .sy | .syRel => s

/-- A byte as a store of its class keeps it: a `by` store's goes past every cache (R133), though through the port of its home (R254). -/
def keptByte (cls : StClass) (b : WByte) : WByte := if cls == .bypass then { b with bypass := true } else b

/-- The bytes of some lines that the seats of the cell have not published. -/
def lineDirty (s : State) (lines : List Nat) : List WByte :=
  ((s.seat :: s.others.filter (fun t => cellOf t.id == cellOf s.seat.id)).flatMap (fun t => t.unpub.map (fun u => u.byte))).filter
    (fun b => lines.contains (lineOf b.key))

/-- What goes to its home at once as bytes of a plain class are written: those of the seat's pad, and what the lines of a `by` store hold that the L1
has (R111, R127, R133). -/
def homeNow (s : State) (cls : StClass) (bytes : List WByte) : List WByte :=
  bytes.filter (fun b => b.inPad) ++ (match cls with
    | .bypass =>
      let hit := bytes.filter (fun b => !b.inPad && (lineIn s (cellOf s.seat.id) (lineOf b.key) s.seat.unit.part b.kid).isSome)
      hit ++ lineDirty s (hit.map (fun b => lineOf b.key))
    | .plain | .na | .sy | .syRel => [])

/-- A store leaves the buffer (R33, R111, R127): plain bytes become unpublished bytes of the seat, or go to its own pad; sync
bytes go to their home, a release after a publication of everything below it. -/
def leaveBuffer (s : State) (g : GStore) : State :=
  let keys := g.bytes.map (fun b => b.key)
  match g.cls with
  | .plain | .na | .bypass =>
    let far := g.bytes.filter (fun b => !b.inPad)
    let s := writeHome s (g.bytes.filter (fun b => b.inPad)) g.lsn .cell
    let out : List UByte := far.map (fun b => { byte := keptByte g.cls b, lsn := g.lsn, spill := g.spill })
    let s := clearDamage (s.onSeat (fun t => { t with unpub := t.unpub ++ out })) far (some (cellOf s.seat.id))
    far.foldl (touchLine g.cls) s
  | .sy => writeHome (settleOwn s g.lsn keys) g.bytes g.lsn .system
  | .syRel => writeHome (settleOwn (publish s (some g.lsn) (if g.sys then .system else .package)) g.lsn keys) g.bytes g.lsn .system

/-- A word of engine `e` at LSN `l` that releases beyond the package publishes what is below it, and then waits, as `w` says, for the
acknowledgement of the fabric or the host port (R236). -/
def ackGate (e : Eng) (l : Lsn) (w : Wait) : M Unit := do
  let t ← mSeat
  match (t.eng e).remote with
  | .answered => pure ()
  | .asked _ _ => mWait w
  | .idle => do
    mPublish l (some l) .system
    fun s => .error (.waitIn w (s.onEng e (fun x => { x with remote := .asked s.seat.cycles.toNat 0 })))

/-- A write of engine `e`'s word waits for the response of a remote package (R263); a release waits, too, for the acknowledgement of
what it publishes, after its unit's older stores have left the buffer (R236). -/
def storeGate (e : Eng) (l : Lsn) (release : Bool) (pieces : List (Loc × Dword × Nat)) : M Unit := do
  if release && pieces.any (fun p => farHome p.1.key) then do
    let t ← mSeat
    mNeeds (!t.gsb.any (fun g => lsnLt g.lsn l)) .buffer
    ackGate e l .fence
  else writeGate e pieces

/-- The view point that refreshes every plain load of the seat (R227). -/
def refresh (s : State) : State := s.onSeat (fun t => { t with vpAny := s.seqNo })

/-- The access engine's first read above `l`, a predicted acquire among them, is issued again, in the new phase (R118, R150, R152). -/
def squashReads (t : Seat) (l : Lsn) : Seat :=
  match ((t.rlog.map (fun r => r.lsn) ++ t.preds.map (fun p => p.lsn)).filter (fun x => lsnLt l x)).foldl lowest none with
  | some f => t.roll f
  | none => t

/-- A device write to a location, which no unit makes. -/
def deviceWrite (s : State) (key : Nat) (val : Byte) (reach : Reach) (part : Fin 32) (l2 : Bool := false) (kid : BitVec 7 := 0) : State :=
  let b : WByte := { key, val, l2, kid }
  clearDamage (homeWrite s { byte := b, lsn := 0 } 0 (some reach) 0 part) [b]

/-- A device write to host memory at a bus address, published at SYSTEM scope (R237, R247). -/
def hostWrite (s : State) (addr : Nat) (bytes : List Byte) : State :=
  ((List.range bytes.length).zip bytes).foldl (fun s x =>
    deviceWrite s (hostKey (addr + x.1)) x.2 .system 0) s

/-- A double word's bytes, in order. -/
def dwords (l : List Dword) : List Byte := l.flatMap (fun d => bytesOf d 8)

/-- An interrupt to the Hearth. -/
def State.irq (s : State) (i : HearthIrq) : State := { s with irqs := s.irqs ++ [i] }

/-- A request dropped at a port counts there, and the first drop after a read interrupts the Hearth (R263, R305). -/
def countDrop (s : State) (port : Nat) : State :=
  let k : Fin 48 := Fin.ofNat 48 port
  let p := s.ports[k]
  let s := { s with ports := s.ports.set k { p with drops := if p.drops == 0xFFFFFFFF then p.drops else p.drops + 1, armed := false } }
  if p.armed then s.irq (.drop k.val) else s

/-- A failure that is a request dropped at its sending port counts there (R263); which port it would have taken is free. -/
def noteDrop (f : FaultInfo) (s : State) : State :=
  if f.code == FC.partition && f.aux == 1 && !f.psn then
    let (n, s) := s.pick
    countDrop s (n % 48)
  else s

/-- No cell keeps a translation of the context's for a page that a word has found absent, so that the word's next try walks (R311). -/
def forgetPage (va : Dword) (s : State) : State :=
  let u := s.seat.unit
  let mine (e : TlbEntry) : Bool := e.part == u.part && e.vf == u.vf && e.proc == u.proc
    && e.page / (if e.lvl == 1 then 8192 else 1) == va.toNat / 65536 / (if e.lvl == 1 then 8192 else 1)
  { s with tlb := s.tlb.filter (fun e => !mine e) }

/-- The page that a failure has found absent is forgotten (R311). -/
def forgetFault (f : FaultInfo) (s : State) : State := if f.code == FC.notPresent then forgetPage (f.page.getD f.addr) s else s

/-- The object entry that the unit at hand finds at an index (R137, R138): the cell's cached entry or the table's, which must be in reach (R263)
and not damaged (R289). -/
def objectAt (ix : Nat) : M (List Dword) := do
  let s ← get
  let u := s.seat.unit
  let cell := cellOf s.seat.id
  let at_ := pteBase (s.ctx u.vf u.proc).objbase + 64 * ix
  let way : Run Unit := do
    wayTo s (BitVec.ofNat 64 ix) (nodeOf (pteBase (s.ctx u.vf u.proc).objbase))
    match s.markIn at_ 64 with
    | some x => raise FC.soft (BitVec.ofNat 64 ix) x
    | none => pure ()
  let fresh := (List.range 8).map (fun i => s.homeDword (at_ + 8 * i))
  match s.objs.find? (fun o => o.cell == cell && o.part == u.part && o.vf == u.vf && o.proc == u.proc && o.ix == ix) with
  | none => do
    liftRun way
    mMod (fun s => { s with objs := ⟨cell, u.part, u.vf, u.proc, ix, fresh⟩ :: s.objs })
    pure fresh
  | some o =>
    if o.obj == fresh then pure fresh
    else do
      let n ← mPick
      if n % 2 == 0 then pure o.obj
      else do
        liftRun way
        pure fresh

-- Object entries (R137).
def obD (o : List Dword) (i : Nat) : Dword := nth o i 0
def obBase (o : List Dword) : Dword := BitVec.signExtend 64 ((obD o 0).extractLsb' 0 55)
def obExt (o : List Dword) (i : Nat) : Nat := ((obD o (1 + i / 2)).extractLsb' (32 * (i % 2)) 32).toNat
def obStr (o : List Dword) (i : Nat) : Dword := BitVec.signExtend 64 ((obD o (3 + i / 2)).extractLsb' (32 * (i % 2)) 32)
def obLimit (o : List Dword) : Nat := ((obD o 5).extractLsb' 0 55).toNat
def obV (o : List Dword) : Bool := (obD o 6).getLsbD 15
def obDims (o : List Dword) : Nat := ((obD o 6).extractLsb' 8 2).toNat + 1
def obWr (o : List Dword) : Bool := (obD o 6).getLsbD 5
def obRd (o : List Dword) : Bool := (obD o 6).getLsbD 4
def obFmt (o : List Dword) : FCode := (obD o 6).extractLsb' 0 4

/-- The object that a register names: check 1 of R138. -/
def objectRef (x : Dword) : M (List Dword) := do
  mCheck (decide (x.toNat < 65536)) FC.objBounds x 1
  let o ← objectAt x.toNat
  mCheck (obV o) FC.objBounds x 1
  pure o

/-- Checks 2 and 3 of R138 for the `n` bytes of an element at `va`. -/
def elementCheck (o : List Dword) (va : Dword) (n : Nat) (write : Bool) : Run Unit := do
  let d := (va - obBase o).toNat
  check (decide (d + n ≤ obLimit o)) FC.objBounds va 0
  check (if write then obWr o else obRd o) FC.objRights va 0

/-- Check 4's format step of R138: the translation carries the format that the access needs. -/
def formatCheck (need have_ : FCode) (va : Dword) : Run Unit :=
  check (have_ == need) FC.format va (have_.setWidth 8 ||| (need.setWidth 8 <<< 4))

end Sys2Proof.Machine
end

