-- ==== Sys2Proof/Machine/Copies.lean ====
section
/-! DEFINITION. Copies: spans and conversions (R198, R199), what a copy moves (R200, R240), tokens (R192), and loads by a
unit while a copy is in flight. -/

namespace Sys2Proof.Machine

/-- The faulting word, which OPERAND_CLASS puts into FADDR (R278). -/
def wordAddr (s : State) (e : Eng) : Dword := (s.seat.eng e).word.setWidth 64

/-- OPERAND_CLASS unless `c`. -/
def mOperand (e : Eng) (c : Bool) : M Unit := fun s =>
  if c then .ok ((), s) else .error (.fault { code := FC.operand, addr := wordAddr s e })

/-- The conversion that a copy makes: none, to a format, or through a table (R195, R199). -/
inductive Conv where
  | none | to (f : FCode) | table (t : Fin 4)
  deriving DecidableEq, Repr

/-- Bytes of the decode block of a source format (R199). -/
def blockBytes (f : FCode) (c : Conv) : Nat :=
  match c with
  | .none | .table _ => 1
  | .to _ => if f == 7 || f == 5 then 32 else if f == 6 then 16 else widthOf f / 8

/-- A conversion that R199's table lists for the source format. "Any 8-bit format or RAW" is read as RAW, E4M3, E5M2 and INT8: the
formats whose element is a byte by itself, without a scale or a compressed slot (DESIGN CHOICE, log 101). -/
def convListed (f : FCode) (c : Conv) : Bool :=
  match c with
  | .none => true
  | .to t =>
    if f == 7 || f == 5 || f == 6 then t == 1 || t == 2
    else (layoutOf f).isSome && (layoutOf t).isSome
  | .table _ => f == 0 || f == 3 || f == 4 || f == 12

/-- Destination bytes for `n` source bytes. -/
def convBytes (f : FCode) (c : Conv) (n : Nat) : Nat :=
  match c with
  | .none => n
  | .to t => n * 8 / widthOf f * widthOf t / 8
  | .table _ => 2 * n

/-- The format that the destination needs (R278). -/
def convNeed (f : FCode) (c : Conv) : FCode :=
  match c with
  | .none | .table _ => f
  | .to t => t

/-- The formats that the destination may carry (R199). -/
def destOk (f : FCode) (c : Conv) (d : FCode) : Bool :=
  match c with
  | .none => if isZm f then d == f else d == f || d == 0
  | .to t => d == t
  | .table _ => d == 1 || d == 0

/-- The group of a source format with scales: bytes, code-page mask, scales per page (R52). -/
def groupOf (f : FCode) : Nat × Nat × Nat := if f == 6 then (pow2 20, 15, 4096) else (pow2 21, 31, 2048)

/-- The formats with scales (R50-R53). -/
def hasScales (f : FCode) : Bool := f == 5 || f == 6 || f == 7

/-- A byte, or a word of `n` bytes, of a scale page, translated: it must carry the scale-page code (R53). -/
def locateScale (f : FCode) (va : Dword) (n : Nat) : M (List (Loc × Dword × Nat)) := do
  let pieces ← locate va n .read
  mEach pieces (fun (p, a, _) => liftRun (formatCheck (if f == 7 then 8 else 9) p.fmt a))
  pure pieces

/-- Where the scale pages under which a span was checked have an address (R201). -/
def heldAt (held : List (Dword × Loc)) (va : Dword) : Option Loc :=
  (held.find? (fun h => h.1.toNat == va.toNat / 65536 * 65536)).map (fun h => { h.2 with key := h.2.key + va.toNat % 65536 })

/-- A scale is read; a word of the unit notes it in the run-ahead log, as it does the element (R150, R232). -/
def readScale (l : Lsn) (v : View) (f : FCode) (va : Dword) (n : Nat) (held : List (Dword × Loc)) : M Nat := do
  let pieces ← (match heldAt held va with
    | some p => pure [(p, va, n)]
    | none => locateScale f va n)
  let m ← readAs v l (pieces.flatMap (fun (p, _, k) => (List.range k).map (fun i => p.key + i)))
  let bytes ← mMap pieces (fun (p, a, k) => readPiece m v p a k)
  if v.fork then pure () else noteRead l pieces v.nx
  pure (natOfBytes bytes.flatten)

/-- The addresses of the block scale and of the superscale of the block that holds `va` (R52). -/
def scalePlaces (f : FCode) (va : Dword) : Dword × Dword :=
  let (group, _, per) := groupOf f
  let base := va.toNat - va.toNat % group
  let k := va.toNat % group / 65536
  let page := if f == 6 then 15 else 31
  let j := va.toNat % 65536 / (if f == 6 then 16 else 32)
  let sp := base + page * 65536
  (BitVec.ofNat 64 (sp + per * k + j), BitVec.ofNat 64 (sp + 63488 + 32 * k + 4 * (j / 256)))

/-- Block scale and superscale of the block that holds `va` (R50-R53), by the scale pages that are held or by translation. -/
def scalesAt (l : Lsn) (v : View) (f : FCode) (va : Dword) (held : List (Dword × Loc) := []) : M (Nat × Nat) := do
  let at_ := scalePlaces f va
  let sc ← readScale l v f at_.1 1 held
  if f == 7 then do
    let sup ← readScale l v f at_.2 4 held
    pure (sc, sup)
  else pure (sc, 0)

/-- An action whose fault names another address than that at which it failed. -/
def mAt {α : Type} (va : Dword) (m : M α) : M α := fun s =>
  match m s with
  | .error (.fault f) => .error (.fault { f with addr := va, page := some (f.page.getD f.addr) })
  | r => r

/-- The scale pages of `n` source bytes at `va`, one for each code page, are translated and checked (R52, R53, R201); FADDR of a
failure is the span's first address. Answers the pages. -/
def checkScales (f : FCode) (va : Dword) (n : Nat) : M (List (Dword × Loc)) :=
  if hasScales f then do
    let l ← mMap (List.range ((va.toNat % 65536 + n + 65535) / 65536)) (fun i => do
      let a : Dword := if i == 0 then va else BitVec.ofNat 64 (va.toNat / 65536 * 65536 + 65536 * i)
      let at_ := (scalePlaces f a).1
      let pieces ← mAt va (locateScale f at_ 1)
      pure (pieces.map (fun p => ((BitVec.ofNat 64 (at_.toNat / 65536 * 65536) : Dword), { p.1 with key := p.1.key - at_.toNat % 65536 }))))
    pure l.flatten
  else pure []

/-- One element converted (R199). -/
def convElem (f t : FCode) (x sc sup : Nat) : Nat :=
  let tl := (layoutOf t).getD fp32
  if f == 7 then numToF tl .rne (qn4Num x sc sup)
  else if f == 5 then numToF tl .rne (mxNum e4m3 x sc)
  else if f == 6 then numToF tl .rne (mxNum e2m1 x sc)
  else numToF tl .rne (decodeF ((layoutOf f).getD fp32) x)

/-- Source bytes at `va` converted, block by block. -/
def convBlocks (l : Lsn) (v : View) (f t : FCode) (va : Dword) (bytes : List Byte) (held : List (Dword × Loc)) : M (List Byte) := do
  let bb := blockBytes f (.to t)
  let parts ← mMap (List.range (bytes.length / bb)) (fun i => do
    let a := va + BitVec.ofNat 64 (bb * i)
    let x := natOfBytes ((bytes.drop (bb * i)).take bb)
    let (sc, sup) ← (if hasScales f then scalesAt l v f a held else pure (0, 0))
    let n := bb * 8 / widthOf f
    pure (bytesOf (BitVec.ofNat 2048 (packList (widthOf t)
      ((List.range n).map (fun e => convElem f t (elemAt x (widthOf f) e) sc sup)))) (n * widthOf t / 8)))
  pure parts.flatten

/-- The destination pieces of one decode block that crosses a page of the destination: pieces of unlike format are a seam (R198,
R278). -/
def checkSeam (sva : Dword) (dst : List (Loc × Dword × Nat)) : M Unit :=
  match dst with
  | [] => pure ()
  | (p, _, _) :: rest =>
    match rest.find? (fun q => q.1.fmt != p.fmt) with
    | some q => mFault FC.seam sva (p.fmt.setWidth 8 ||| (q.1.fmt.setWidth 8 <<< 4))
    | none => pure ()

/-- The first span of `n` source bytes from `sva` to `dva` (R198), translated and checked with R199's formats. `src`
translates a source address. FADDR of OPERAND_CLASS is the span's first address (R201). Inside a 512 MiB page a span takes the format of its first
address, and does not end at a scale page implied by position (R53; DESIGN CHOICE, log 140). -/
def spanAt (c : Conv) (src : Dword → Nat → M Loc) (sva dva : Dword) (n : Nat) : M Span := do
  let sl ← src sva n
  let bb := blockBytes sl.fmt c
  mCheck (convListed sl.fmt c) FC.operand sva 0
  mCheck (sva.toNat % bb == 0) FC.align sva 0
  mCheck (n % bb == 0) FC.operand sva 0
  let zm := isZm sl.fmt
  if zm then
    mCheck (sva.toNat % 512 == 0 && n % 512 == 0 && dva.toNat % 512 == 0) FC.format dva (sl.fmt.setWidth 8)
  let dl ← translate dva (convBytes sl.fmt c n) .write zm
  mCheck (destOk sl.fmt c dl.fmt) FC.format dva
    (dl.fmt.setWidth 8 ||| ((convNeed sl.fmt c).setWidth 8 <<< 4))
  let inSrc := Nat.min n (sl.page - sva.toNat % sl.page)
  let toDst := dl.page - dva.toNat % dl.page
  let fit := if convBytes sl.fmt c inSrc ≤ toDst then inSrc
    else (toDst * inSrc / convBytes sl.fmt c inSrc) / bb * bb
  let k := if fit == 0 then bb else fit
  let dst ← locate dva (convBytes sl.fmt c k) .write zm
  checkSeam sva dst
  let scales ← (match c with
    | .to _ => checkScales sl.fmt sva k
    | .none | .table _ => pure [])
  pure ⟨sl, sva, k, dst, scales⟩

/-- Spans of `n` source bytes, each on its own, in order (R198). The fuel bounds the spans: each has a byte. -/
def spansFuel (fuel : Nat) (c : Conv) (src : Dword → Nat → M Loc) (sva dva : Dword) (n : Nat) :
    M (List Span) := do
  match fuel with
  | 0 => pure []
  | fuel + 1 =>
    if n == 0 then pure []
    else
      let sp ← spanAt c src sva dva n
      let rest ← spansFuel fuel c src (sva + BitVec.ofNat 64 sp.n) (dva + BitVec.ofNat 64 (convBytes sp.src.fmt c sp.n)) (n - sp.n)
      pure (sp :: rest)

def spans (c : Conv) (src : Dword → Nat → M Loc) (sva dva : Dword) (n : Nat) : M (List Span) :=
  spansFuel n c src sva dva n

/-- The stored bytes of a span's source, through the lines that hold them (R134, R200). -/
def spanRaw (l : Lsn) (v : View) (sp : Span) : M (List Byte) := do
  lineCheck l sp.src sp.sva sp.n v.alloc true v.coherent
  readRaw l (v.at sp.src) sp.src.kid sp.src.key sp.n sp.sva

/-- The source bytes of a span and the bytes that it writes (R199, R200): read as a plain stream reads, and, when the source address is tainted,
coherently; a raw ZM slot moves with its raw bit (R54). -/
def spanBytes (l : Lsn) (v : View) (c : Conv) (sp : Span) : M (List Byte × List WByte) := do
  let raw ← spanRaw l v sp
  match c with
  | .none => do
    let body := wbytes sp.dst raw
    if isZm sp.src.fmt then do
      let bits ← mMap (List.range (sp.n / 512)) (fun i => do
        let s ← get
        let b ← choose (candidates s l (v.at sp.src) (rawKey (sp.src.key + 512 * i)))
        let w := nth body (512 * i) { key := 0, val := 0 }
        pure ({ w with key := rawKey w.key, val := b } : WByte))
      pure (raw, body ++ bits)
    else pure (raw, body)
  | .to t => do
    let out ← convBlocks l v sp.src.fmt t sp.sva raw sp.scales
    pure (raw, wbytes sp.dst out)
  | .table t => do
    let s ← get
    pure (raw, wbytes sp.dst (raw.flatMap (fun b => bytesOf (BitVec.ofNat 16 (elemAt s.seat.ctab[t].toNat 16 b.toNat)) 2)))

/-- How a copy reads its source (R200, R234, R240). -/
def forkView (taint : Taint) (alloc : Bool := true) : View := { coherent := taint != 0, fork := true, alloc }

/-- Bytes written by a copy: to the seat's own pad at once, elsewhere as unpublished bytes of the unit, at the copy's LSN (R200, R239), with the
class of the record's destination (R133, R196). The lines of the destination are not checked against the formats that they carry (DESIGN CHOICE,
log 132: R134 names the source's). -/
def copyWrite (l : Lsn) (tok : Fin 8) (cls : StClass) (bytes : List WByte) : M Unit :=
  mMod (fun s =>
    let s := s.onSeat (fun t => squashAlias t l (bytes.map (fun b => b.key)))
    let all : List UByte := (bytes.map (keptByte cls)).map (fun b => { byte := b, lsn := l, tok := some tok, copy := true })
    let pad := all.filter (fun u => u.byte.inPad)
    let far := all.filter (fun u => !u.byte.inPad)
    let s := clearDamage (pad.foldl (publishByte (some .cell)) s) (pad.map (fun u => u.byte))
    let s := clearDamage (s.onSeat (fun t => { t with unpub := t.unpub ++ far })) (far.map (fun u => u.byte)) (some (cellOf s.seat.id))
    match cls with
    | .bypass => (bytes.filter (fun b => !b.inPad)).foldl (touchLine .bypass) s
    | .plain | .na | .sy | .syRel => s)

/-- The conversion that the copy word of a copy names. -/
def Copy.convOf (c : Copy) : Conv :=
  match c.kind with
  | .plain => if c.conv == 0 then .none else .to c.conv
  | .chain | .halo | .reduce => .none

/-- The job that a scope lies in (R246), or none. The fuel bounds the depth of the tree. -/
def jobOf (p : Part) : Nat → BitVec 12 → Option (BitVec 12)
  | 0, _ => none
  | k + 1, n =>
    match p.scopes.find? (fun x => x.num == n) with
    | none => none
    | some x => if x.kind == .job then some n else if n == 0 then none else jobOf p k x.parent

/-- The unit on a seat belongs to the job of the unit at hand; a seat without a unit has no job (R203). -/
def sameJob (s : State) (id : SeatId) : Bool :=
  match s.seats.find? (fun t => t.id == id) with
  | none => true
  | some t => t.unit.part == s.seat.unit.part
      && jobOf s.myPart 4096 t.unit.scope == jobOf s.myPart 4096 s.seat.unit.scope

/-- A byte of a neighbour's pad (R203): the operand's SEAT and CELL, and the pad offset. -/
def haloSource (op : Dword) (va : Dword) : M Loc := do
  let s ← get
  let cell := cellOf s.seat.id / 4 * 4 + (op.extractLsb' 24 2).toNat
  let side := (op.extractLsb' 26 1).toNat
  let off := va.toNat % pow2 24
  let at_ : Dword := 0xFFFFFE0000000000 ||| BitVec.ofNat 64 off
  mCheck (decide (off < 0x600000)) FC.pad at_ 0
  let l ← liftRun (padTranslate s cell side off at_)
  mCheck (sameJob s (BitVec.ofNat 11 (2 * cell + side))) FC.partition at_ 3
  pure l

/-- The source location of a copy of the unit at hand: a memory or pad address, or the neighbour's pad (R203). -/
def copySource (c : Copy) (va : Dword) (n : Nat) : M Loc :=
  match c.kind with
  | .halo => haloSource c.src va
  | .chain | .plain | .reduce => translate va n .read true

/-- Element type of a copy with reduction (R204): BF16 or FP32. -/
def reduceFmt (c : Copy) : FCode := if c.conv.getLsbD 0 then 1 else 2

/-- Spans of a CPYR (R198, R204): both sides carry the type's format, and a host-homed destination is refused. The fuel bounds
the spans. -/
def reduceSpans (fuel : Nat) (f : FCode) (sva dva : Dword) (n : Nat) : M (List Span) := do
  match fuel with
  | 0 => pure []
  | fuel + 1 =>
    if n == 0 then pure []
    else
      let sl ← translate sva n .read true
      mCheck (sl.fmt == f) FC.format sva (sl.fmt.setWidth 8 ||| (f.setWidth 8 <<< 4))
      let dl ← translate dva n .write true
      mCheck (nodeOf dl.key != hostHome) FC.rights dva 3
      mCheck (dl.fmt == f) FC.format dva (dl.fmt.setWidth 8 ||| (f.setWidth 8 <<< 4))
      let k := Nat.min n (Nat.min (sl.page - sva.toNat % sl.page) (dl.page - dva.toNat % dl.page))
      let dst ← locate dva k .write true
      let rest ← reduceSpans fuel f (sva + BitVec.ofNat 64 k) (dva + BitVec.ofNat 64 k) (n - k)
      pure (⟨sl, sva, k, dst, []⟩ :: rest)

/-- Locations that are read at their home at LSN `l` are not damaged, where the unit's own bytes do not cover them (R288-R290). -/
def mSound (l : Lsn) (key n : Nat) (va : Dword) : M Unit := fun s =>
  match (List.range n).findSome? (fun i => (s.markAt (key + i) true (ownCovers s.seat l (key + i))).map (fun k => (i, k))) with
  | some (i, k) => .error (.fault { code := FC.soft, addr := va + BitVec.ofNat 64 i, aux := k })
  | none => .ok ((), s)

/-- The elements of one span of a CPYR: RNE(dst + src), each at its home (R204). -/
def reduceBytes (l : Lsn) (taint : Taint) (f : FCode) (sp : Span) : M (List WByte) := do
  let w := widthOf f / 8
  let raw ← spanRaw l (forkView taint) sp
  mEach sp.dst (fun (p, a, k) => lineCheck l p a k true true true)
  mEach sp.dst (fun (p, a, k) => mSound l p.key k a)
  let s ← get
  let keys := (wbytes sp.dst raw)
  let old := keys.map (fun b => s.underKey b.kid b.key (s.home b.key))
  let lay := (layoutOf f).getD fp32
  let out := (List.range (sp.n / w)).flatMap (fun i =>
    bytesOf (BitVec.ofNat 32 (fAdd lay (natOfBytes ((old.drop (w * i)).take w)) (natOfBytes ((raw.drop (w * i)).take w)))) w)
  pure ((keys.zip out).map (fun p => { p.1 with val := p.2 }))

/-- The bytes of a span of any copy but a chain's. -/
def copySpan (c : Copy) (sp : Span) : M (List WByte) :=
  match c.kind with
  | .reduce => reduceBytes c.lsn c.taint (reduceFmt c) sp
  | .chain | .plain | .halo => do
    let r ← spanBytes c.lsn (forkView c.taint) c.convOf sp
    pure r.2

/-- One credit in units of a 65,536th of a seat-cycle and a 3,300th of a byte (R256). -/
def creditUnits : Nat := 3300 * 65536

/-- A charge to a context's budget account: whole credits leave the balance, fractions carry over (R256). -/
def charge (vf proc n : Nat) (s : State) : State :=
  let c := s.ctx vf proc
  let total := c.frac + n
  let bal : Int := c.bal - (total / creditUnits : Nat)
  s.setCtx { c with bal := if bal < -((pow2 31 : Nat) : Int) then -((pow2 31 : Nat) : Int) else bal, frac := total % creditUnits }

/-- Bytes moved by a copy of the unit at hand (R256). -/
def chargeBytes (n : Nat) (s : State) : State := charge s.seat.unit.vf s.seat.unit.proc (3300 * n) s

/-- The bytes of a copy that are still to be written. -/
def Copy.unmoved (c : Copy) (l : List WByte) : List WByte := l.filter (fun b => !c.moved.any (fun m => m.1 == b.key))

/-- Bytes that a copy writes (R200), a chain's with its record's class (R196); the elements of a reduction are coherent at once (R204). -/
def forkWrite (c : Copy) (bytes : List WByte) (cls : StClass := .plain) : M Unit :=
  match c.kind with
  | .reduce => mMod (fun s => writeUpdate s bytes c.lsn)
  | .chain | .plain | .halo => copyWrite c.lsn c.tok cls bytes

/-- The lines of what goes home as a copy writes have tokens (R254). -/
def forkTokens (c : Copy) (bytes : List WByte) (cls : StClass := .plain) : M Unit := do
  let s ← get
  lineTokens c.lsn (match c.kind with
    | .reduce => bytes
    | .chain | .plain | .halo => homeNow s cls bytes)

/-- A reduction's destination is at home before its elements are read there (R204, R232). -/
def settleDst (c : Copy) (sp : Span) : M Unit :=
  match c.kind with
  | .reduce => mMod (fun s => settleOwn s c.lsn (sp.dst.flatMap (fun (p, _, k) => (List.range k).map (fun i => p.key + i))))
  | .chain | .plain | .halo => pure ()

/-- A span asks over the fabric or the host port: its source lies beyond the package, or its destination on a remote one (R263, R317; writes to
the host's memory are posted, log 38). -/
def spanRemote (sp : Span) : Bool := farHome sp.src.key || sp.dst.any (fun d => homeRemote (nodeOf d.1.key))

/-- A remote span waits for the response of its package, or fails without one (R263, R304). -/
def spanGate (c : Copy) (sp : Span) : M Unit :=
  if c.resp || !spanRemote sp then pure ()
  else if c.late then mFault FC.partition sp.sva 2
  else mWait .remote

/-- One span moved, a remote one once the response has come (R263). -/
def moveSpan (c : Copy) (sp : Span) : M Unit := do
  spanGate c sp
  settleDst c sp
  let b ← copySpan c sp
  forkTokens c (c.unmoved b)
  forkWrite c (c.unmoved b)
  mMod (chargeBytes sp.n)

/-- What an action gives, or the fault that it meets: the state is kept as it was before a failing action, but for the translations of a page that was
found absent (R311). A wait stays one. -/
def tryRun {α : Type} (m : M α) : M (Except FaultInfo α) := fun s =>
  match m s with
  | .ok (a, s') => .ok (.ok a, s')
  | .error (.fault f) => .ok (.error f, forgetFault f s)
  | .error (.wait w) => .error (.wait w)
  | .error (.waitIn w t) => .error (.waitIn w t)

/-- Destination bytes of spans. -/
def spansOut (l : List Span) : Nat := l.foldl (fun n sp => n + sp.dst.foldl (fun m p => m + p.2.2) 0) 0

/-- The spans of what is left of a copy, translated and checked now (R198, R199, R203, R204). -/
def copyPlan (c : Copy) : M (List Span) :=
  let n := c.len - c.off
  let sva := c.src + BitVec.ofNat 64 c.off
  let dva := c.dst + BitVec.ofNat 64 c.doff
  match c.kind with
  | .reduce => reduceSpans n (reduceFmt c) sva dva n
  | .chain | .plain | .halo => spans c.convOf (copySource c) sva dva n

/-- The spans of a copy that are still to be moved: those checked at its word, or, after a resume, those translated and
checked now (R296). -/
def copySpans (c : Copy) : M (List Span) :=
  if c.spans.isEmpty then do
    let s ← get
    mModSeat (fun t => { t with ranges := [] })
    let l ← copyPlan c
    mModSeat (fun t => { t with ranges := s.seat.ranges })
    pure l
  else pure c.spans

/-- Moves spans in order up to the first that fails; answers the bytes moved and the status. -/
def moveAll (c : Copy) (l : List Span) : M (Nat × Byte) :=
  match l with
  | [] => pure (0, 0xFF)
  | sp :: rest => do
    let r ← tryRun (moveSpan c sp)
    match r with
    | .error f => do
      mMod (noteDrop f)
      pure (0, f.code)
    | .ok () => do
      let (n, st) ← moveAll c rest
      pure (n + sp.n, st)

/-- Whether a copy has started (R272): a CPYH when the generation that it waits for has completed. -/
def copyStarted (s : State) (c : Copy) : Bool :=
  match c.kind with
  | .halo => ((s.cluster s.here).bars[c.bar % 16]'(Nat.mod_lt _ (by decide))).gen != c.gen
  | .chain => false
  | .plain | .reduce => true

/-- The token retires with a status (R192): its range is removed and the copy ends. -/
def retireToken (tok : Fin 8) (st : Byte) (s : State) : State :=
  s.onSeat (fun t => { t with
    kstat := t.kstat.set tok st
    lines := t.lines.filter (fun r => !t.copies.any (fun c => c.tok == tok && c.lsn == r.lsn))
    ranges := t.ranges.filter (fun r => r.tok != tok)
    copies := t.copies.filter (fun c => c.tok != tok) })

/-- Runs an action that belongs to no word: where it can not go on now, it changes nothing. -/
def runAnyway (m : M Unit) (s : State) : State :=
  match m s with
  | .ok (_, s') => s'
  | .error (.fault _) | .error (.wait _) => s
  | .error (.waitIn (.walker ..) s') => { s with nonce := s'.nonce }
  | .error (.waitIn .bucket s') => (keepLevels s s').onSeat (fun t => { t with lines := s'.seat.lines })
  | .error (.waitIn _ s') => s'

/-- A started copy runs to its end (R200, R272, R201-R204). -/
def finishCopy (c : Copy) : M Unit := do
  match c.ended with
  | some st => mMod (retireToken c.tok st)
  | none =>
    let sp ← tryRun (copySpans c)
    match sp with
    | .error f => mMod (fun s => retireToken c.tok f.code (noteDrop f s))
    | .ok l => do
      let (_, st) ← moveAll c l
      mMod (retireToken c.tok st)

/-- The copy reads the pad of the seat `id` (R203). -/
def haloOf (t : Seat) (c : Copy) (id : SeatId) : Bool :=
  c.kind == .halo && c.ended.isNone && cellOf t.id / 4 * 4 + (c.src.extractLsb' 24 2).toNat == cellOf id
    && (c.src.extractLsb' 26 1).toNat == sideOf id

/-- An action whose waits for tokens and walkers pass within one event (log 123). -/
def forced (f : State → State) (s : State) : State :=
  let b := s.seat.forced
  (f (s.onSeat (fun t => { t with forced := true }))).onSeat (fun t => { t with forced := b })

/-- Halo reads of the pad of the seat at hand that are under way finish (R223, R300), with the responses that they wait for (log 115). -/
def finishHalos (s : State) : State :=
  let id := s.seat.id
  let go (s : State) (c : Copy) : State := if copyStarted s c then forced (runAnyway (finishCopy { c with resp := true })) s else s
  let near := s.others.filter (fun t => t.copies.any (fun c => haloOf t c id))
  (near.foldl (fun s t => (t.copies.filter (fun c => haloOf t c id)).foldl go (s.select t.id)) s).select id

/-- A read of pad space waits for the copies below it to enter their ranges, so that the unit sees their result (R136,
R240; log 28). -/
def padTurn (l : Lsn) (pieces : List (Loc × Dword × Nat)) : M Unit := do
  let s ← get
  mNeeds (s.seat.copiesBegun l || pieces.all (fun p => p.1.pad.isNone)) .range

-- Chains (R195-R197).
def recD (r : List Byte) (i : Nat) : Dword := wordOf 64 ((r.drop (8 * i)).take 8)
def recLen (r : List Byte) : Nat := ((recD r 3).extractLsb' 0 32).toNat
def recRows (r : List Byte) : Nat := ((recD r 3).extractLsb' 48 16).toNat
def recDone (r : List Byte) : Nat := ((recD r 6).extractLsb' 0 32).toNat
def recNext (r : List Byte) : Dword := BitVec.signExtend 64 ((recD r 0).extractLsb' 0 55)
def recSrc (r : List Byte) : Dword := BitVec.signExtend 64 ((recD r 1).extractLsb' 0 55)
def recDst (r : List Byte) : Dword := BitVec.signExtend 64 ((recD r 2).extractLsb' 0 55)
def recCv (r : List Byte) : Nat := ((recD r 5).extractLsb' 0 2).toNat
def recCvfmt (r : List Byte) : FCode := (recD r 5).extractLsb' 4 4

/-- An optional field that must be understood and is not (R196). -/
def optBad (o : W32) : Bool :=
  let kind := (o.extractLsb' 24 7).toNat
  let val := (o.extractLsb' 0 24).toNat
  o.getLsbD 31 && (decide (3 ≤ kind) || ((kind == 1 || kind == 2) && decide (3 ≤ val)))

/-- A reserved bit or value of a transfer record (R195, R196, R55). ROWS of 0, LEN × ROWS beyond its range and a DONE beyond the
record's bytes are taken as reserved values (DESIGN CHOICE, log 102: the spec names no check of DONE). -/
def recReserved (r : List Byte) : Bool :=
  (recD r 0).extractLsb' 55 8 != 0 || (recD r 0).extractLsb' 0 6 != 0 || (recD r 1).extractLsb' 55 9 != 0
  || (recD r 2).extractLsb' 55 9 != 0 || (recD r 3).extractLsb' 32 16 != 0
  || (recD r 5).extractLsb' 11 21 != 0 || (recD r 5).extractLsb' 2 2 != 0 || (recD r 6).extractLsb' 32 24 != 0
  || recRows r == 0 || decide (pow2 32 ≤ recLen r * recRows r) || decide (recLen r * recRows r < recDone r)
  || recCv r == 3 || (recCv r == 1 && ((decide (5 ≤ (recCvfmt r).toNat) && decide ((recCvfmt r).toNat ≤ 9)) || decide (14 ≤ (recCvfmt r).toNat)))
  || optBad ((recD r 7).extractLsb' 0 32) || optBad ((recD r 7).extractLsb' 32 32)

/-- The class that an optional field gives the record's destination (kind 1) or source (kind 2) (R196). Of two of one kind the first stands (DESIGN
CHOICE, log 133: R196 does not say). -/
def recHint (r : List Byte) (kind : Nat) : StClass :=
  let fits (o : W32) : Bool := (o.extractLsb' 24 7).toNat == kind && decide ((o.extractLsb' 0 24).toNat < 3)
  match [(recD r 7).extractLsb' 0 32, (recD r 7).extractLsb' 32 32].find? fits with
  | none => .plain
  | some o => if o.extractLsb' 0 24 == 0 then .plain else if o.extractLsb' 0 24 == 1 then .na else .bypass

/-- The record's conversion, or none where R199 lists no such combination. -/
def recConv (r : List Byte) : Option Conv :=
  match recCv r with
  | 0 => some .none
  | 1 => if recCvfmt r == 0 || decide (10 ≤ (recCvfmt r).toNat) then none else some (.to (recCvfmt r))
  | _ => some (.table ((recD r 5).extractLsb' 8 2).toFin)

/-- What the spans of a record have moved: the source bytes, the bytes written, and the fault of the span that failed. -/
structure Moved where
  raw : List Byte := []
  out : List WByte := []
  bad : Option FaultInfo := none
  row : Nat := 0
  left : Nat

/-- Moves `n` source bytes of a row span by span, each translated when it is reached (R197, R198), with the record's hints
(R196), up to `m` spans. The fuel bounds the spans: each has a byte. -/
def moveRun (fuel : Nat) (c : Copy) (v : Conv) (r : List Byte) (sva dva : Dword) (n m : Nat) : M Moved :=
  match fuel with
  | 0 => pure { left := m }
  | fuel + 1 =>
    if n == 0 || m == 0 then pure { left := m }
    else do
      let q ← tryRun (do
        let sp ← spanAt v (fun va n => translate va n .read true) sva dva n
        spanGate c sp
        let x ← spanBytes c.lsn (forkView c.taint (recHint r 2 == .plain)) v sp
        forkTokens c (c.unmoved x.2) (recHint r 1)
        forkWrite c (c.unmoved x.2) (recHint r 1)
        mMod (chargeBytes sp.n)
        pure (x, sp))
      match q with
      | .error f => pure { bad := some f, left := m }
      | .ok (x, sp) => do
        let k := convBytes sp.src.fmt v sp.n
        let more ← moveRun fuel c v r (sva + BitVec.ofNat 64 sp.n) (dva + BitVec.ofNat 64 k) (n - sp.n) (m - 1)
        pure { more with raw := x.1 ++ more.raw, out := x.2 ++ more.out, row := k + more.row }

/-- Where row `i` of a record begins (R195). -/
def rowSrc (r : List Byte) (i : Nat) : Dword := recSrc r + BitVec.ofNat 64 i * BitVec.signExtend 64 ((recD r 4).extractLsb' 0 32)
def rowDst (r : List Byte) (i : Nat) : Dword := recDst r + BitVec.ofNat 64 i * BitVec.signExtend 64 ((recD r 4).extractLsb' 32 32)

/-- Rows of a record, the first from source byte `off` to destination byte `doff` of the row (R195). -/
def moveRows (c : Copy) (v : Conv) (r : List Byte) (rows : List Nat) (off doff m : Nat) : M Moved :=
  match rows with
  | [] => pure { left := m }
  | i :: rest => do
    let now ← moveRun (recLen r) c v r (rowSrc r i + BitVec.ofNat 64 off) (rowDst r i + BitVec.ofNat 64 doff) (recLen r - off) m
    if now.raw.length < recLen r - off then pure { now with row := doff + now.row }
    else do
      let more ← moveRows c v r rest 0 0 now.left
      pure { more with raw := now.raw ++ more.raw, out := now.out ++ more.out }

/-- A record's bytes from DONE on, up to `m` spans (R195, R197); `doff` destination bytes of the row at DONE have been written. -/
def moveRecord (c : Copy) (v : Conv) (r : List Byte) (done doff m : Nat) : M Moved :=
  if recLen r * recRows r ≤ done then pure { left := m }
  else moveRows c v r ((List.range (recRows r)).drop (done / recLen r)) (done % recLen r) doff m

/-- The format and the page of a source address now, or those at hand where it has no translation. -/
def formatAt (va : Dword) (f : FCode) : M (FCode × Nat) := do
  let l ← tryRun (translate va 1 .read true)
  pure (match l with
    | .ok l => (l.fmt, l.page)
    | .error _ => (f, 65536))

/-- Destination bytes of the first `n` source bytes of a row, page by page: a page's format says how wide its elements are (R198, R199), and `f` that of
one that is not there. The fuel bounds the pages. -/
def rowOut (fuel : Nat) (v : Conv) (f : FCode) (sva : Dword) (n : Nat) : M Nat :=
  match fuel with
  | 0 => pure 0
  | fuel + 1 =>
    if n == 0 then pure 0
    else do
      let (g, page) ← formatAt sva f
      let k := Nat.min n (page - sva.toNat % page)
      let more ← rowOut fuel v f (sva + BitVec.ofNat 64 k) (n - k)
      pure (convBytes g v k + more)

/-- The address of source byte `done` of a record (R195). -/
def doneSrc (r : List Byte) (done : Nat) : Dword := rowSrc r (done / recLen r) + BitVec.ofNat 64 (done % recLen r)

/-- The destination bytes of the row at DONE that have been written before a record is taken up there (R195). Of a converting record they are found from
the formats that the pages of the row have now, that of the page at DONE for one that is gone (DESIGN CHOICE, log 137: the spec does not say how). -/
def doneOut (v : Conv) (r : List Byte) (done : Nat) : M Nat :=
  if recLen r == 0 || done % recLen r == 0 then pure 0
  else match v with
    | .none | .table _ => pure (convBytes 0 v (done % recLen r))
    | .to _ => do
      let (f, _) ← formatAt (doneSrc r done) 0
      rowOut (done % recLen r) v f (rowSrc r (done / recLen r)) (done % recLen r)

/-- R199 refuses the record's combination: its conversion is not listed for the format that the first byte to be moved has (DEDUCED, log 136: later
spans, each with its own format, are refused as they are reached). -/
def recRefused (v : Conv) (r : List Byte) : M Bool :=
  if recLen r * recRows r ≤ recDone r then pure false
  else match v with
    | .none => pure false
    | .to _ | .table _ => do
      let l ← tryRun (translate (doneSrc r (recDone r)) 1 .read true)
      pure (match l with
        | .ok l => !convListed l.fmt v
        | .error _ => false)

/-- Source bytes 0 to `n` − 1 of a record, read for the checksum only (R197). -/
def checksumBytes (c : Copy) (r : List Byte) (n : Nat) : M (List Byte) := do
  let len := recLen r
  let ss := BitVec.signExtend 64 ((recD r 4).extractLsb' 0 32)
  let parts ← mMap (List.range (if len == 0 then 0 else ceilDiv n len)) (fun i => do
    let k := Nat.min len (n - i * len)
    let pieces ← locate (recSrc r + BitVec.ofNat 64 i * ss) k .read
    let b ← mMap pieces (fun (p, a, m) => do
      lineCheck c.lsn p a m true true (c.taint != 0)
      readRaw c.lsn ((forkView c.taint).at p) p.kid p.key m a)
    pure b.flatten)
  pure parts.flatten

/-- A record's write-back by its channel (R197): its destination bytes are published at PACKAGE scope before the new
STATUS, DONE and OWN are seen. -/
def recordWrite (c : Copy) (a : Dword) (r : List Byte) (own : Bool) (st : Byte) (done : Nat) : M Unit := do
  let d0 := if own then recD r 0 else (recD r 0) &&& 0x7FFFFFFFFFFFFFFF
  let d6 : Dword := (st.setWidth 64 <<< 56) ||| BitVec.ofNat 64 done
  let p0 ← locate a 8 .write
  let p6 ← locate (a + 48) 8 .write
  let t ← mSeat
  lineTokens c.lsn (((t.unpub.filter (fun u => u.copy && u.lsn == c.lsn)).map (fun u => u.byte)) ++ wbytes p0 (bytesOf d0 8) ++ wbytes p6 (bytesOf d6 8))
  mMod (fun s =>
    let s := widen s .package (fun p => p.copy && p.lsn == c.lsn)
    let s := publishThose s (some .package) (fun u => u.copy && u.lsn == c.lsn)
    writeHome s (wbytes p0 (bytesOf d0 8) ++ wbytes p6 (bytesOf d6 8)) c.lsn .package)

/-- A record as its channel reads it (R197): one beyond the package once the response has come, or not at all without one (R263). -/
def recordRead (c : Copy) (a : Dword) : M (List Byte) := do
  let pieces ← locate a 64 .read
  if c.resp || !pieces.any (fun p => farHome p.1.key) then pure ()
  else if c.late then mFault FC.partition a 2
  else mWait .remote
  let b ← mMap pieces (fun (p, x, k) => readPiece c.lsn { coherent := true } p x k)
  pure b.flatten

def endCopy (c : Copy) (st : Byte) : M Unit :=
  mModSeat (fun t => { t with copies := t.copies.map (fun x => if x.tok == c.tok then { x with ended := some st } else x) })

/-- The record stops with a status: it keeps OWN, and the channel's head stays on it (R197, STOP). -/
def stopRecord (c : Copy) (a : Dword) (r : List Byte) (st : Byte) (done : Nat) : M Unit := do
  let w ← tryRun (recordWrite c a r true st done)
  match w with
  | .ok () => endCopy c st
  | .error f => do
    mMod (noteDrop f)
    endCopy c f.code

/-- The copy of a token changed. -/
def mCopy (tok : Fin 8) (f : Copy → Copy) : M Unit :=
  mModSeat (fun t => { t with copies := t.copies.map (fun x => if x.tok == tok then f x else x) })

/-- A side of a record in pad space: the offsets that its rows span (R136, R198). -/
def recSide (c : Copy) (r : List Byte) (at_ stride : Dword) (len : Nat) (dst : Bool) : List Range :=
  if isPadSpace at_ && len != 0 then
    let first : Int := padOffset at_
    let last : Int := first + (recRows r - 1 : Nat) * stride.toInt
    [⟨c.tok, (min first last).toNat, (max first last).toNat + len, dst⟩]
  else []

/-- The scoreboard's ranges of a record: one for each side in pad space (R136, R198, R240). The destination's length follows the
source's format. -/
def recRanges (c : Copy) (v : Conv) (r : List Byte) : M (List Range) := do
  let l ← tryRun (translate (recSrc r) 1 .read true)
  let f := match l with
    | .ok l => l.fmt
    | .error _ => 0
  pure (recSide c r (recSrc r) (BitVec.signExtend 64 ((recD r 4).extractLsb' 0 32)) (recLen r) false
    ++ recSide c r (recDst r) (BitVec.signExtend 64 ((recD r 4).extractLsb' 32 32)) (convBytes f v (recLen r)) true)

/-- An action of a copy, which its own ranges do not stall (R136). -/
def mPastOwn {α : Type} (tok : Fin 8) (m : M α) : M α := do
  let t ← mSeat
  let own := t.ranges.filter (fun r => r.tok == tok)
  mModSeat (fun t => { t with ranges := t.ranges.filter (fun r => r.tok != tok) })
  let x ← m
  mModSeat (fun t => { t with ranges := t.ranges ++ own })
  pure x

/-- A copy has one range for each side in pad space, which takes in all that the side has shown to need so far (R136; log 103). -/
def joinRange (l : List Range) (r : Range) : List Range :=
  match l.find? (fun x => x.dst == r.dst) with
  | none => l ++ [r]
  | some x => { x with lo := Nat.min x.lo r.lo, hi := Nat.max x.hi r.hi } :: l.filter (fun x => x.dst != r.dst)

/-- The copy's ranges take in some more once sixteen hold them, and no range of another copy meets them (R136). -/
def enterRanges (tok : Fin 8) (l : List Range) : M Unit := do
  let t ← mSeat
  let others := t.ranges.filter (fun r => r.tok != tok)
  let mine := l.foldl joinRange (t.ranges.filter (fun r => r.tok == tok))
  mNeeds (decide (others.length + mine.length ≤ 16) && mine.all (fun r => rangeFree { t with ranges := others } r.lo (r.hi - r.lo) r.dst)) .range
  mModSeat (fun t => { t with ranges := others ++ mine })

/-- A record begins, as it has been read: its ranges are entered, and are held until the token retires (R136, R240). -/
def beginRecord (c : Copy) (a : Dword) (r : List Byte) (l : List Range) (doff : Nat) : M Unit := do
  enterRanges c.tok l
  let t ← mSeat
  mCopy c.tok (fun x => { x with begun := some a, row := r, off := recDone r, doff, since := t.cycles.toNat })

/-- What an action gives, with nothing changed, and nothing waited for that time brings (log 123). -/
def foresee {α : Type} (m : M α) (s : State) : Option α :=
  match m (s.onSeat (fun t => { t with forced := true })) with
  | .ok (a, _) => some a
  | .error _ => none

/-- The ranges of the records that a chain has now, from `a` on (R136): a CPY enters them with its word. The fuel bounds the records; one met twice
ends the walk. -/
def chainRanges (c : Copy) : Nat → List Dword → Dword → State → List Range
  | 0, _, _, _ => []
  | fuel + 1, seen, a, s =>
    if a == 0 || seen.contains a then []
    else match foresee (recordRead c a) s with
      | none => []
      | some r => match recConv r with
        | none => []
        | some v =>
          if !(recD r 0).getLsbD 63 || recReserved r then []
          else (chainRanges c fuel (a :: seen) (recNext r) s).foldl joinRange ((foresee (recRanges c v r) s).getD [])

/-- Records of 64 bytes in an address space of 55 bits. -/
def maxRecords : Nat := pow2 49

/-- The ranges that a CPY enters with its word: those of its chain, as far as it can be read (R136, R240). -/
def chainHeld (c : Copy) (s : State) : List Range := chainRanges c maxRecords [] s.seat.chd[c.ch] s

/-- A NOT_PRESENT that the Hearth serves itself (R285): on a page that holds slice image words of the context, or that backs a spilled pad block. The
third kind, swapped work queues, is at no address of a unit. -/
def hearthPaged (s : State) (a : Dword) : Bool :=
  (isPadSpace a && padSp (padEntry s (cellOf s.seat.id) (padOffset a / 16384))) || s.images.any (fun i =>
    let n := i.img.slices.foldl (fun n x => n + x.words.length) 0
    i.vf == s.seat.unit.vf && i.proc == s.seat.unit.proc
    && decide (i.img.base.toNat / 65536 ≤ a.toNat / 65536) && decide (a.toNat / 65536 ≤ (i.img.base.toNat + 4 * n - 1) / 65536))

/-- A failure of a read or a span of a chain: at a page that the Hearth is to make present it waits and tries again, with `done` bytes
of its record moved, `doff` of those written of the row at hand; any other ends as `stop` says (R197, R285). -/
def failOr (c : Copy) (f : FaultInfo) (done doff : Nat) (stop : M Unit) : M Unit := do
  let s ← get
  if f.code == FC.notPresent && hearthPaged s f.addr then
    mCopy c.tok (fun x => { x with page := some f.addr, off := done, doff })
  else do
    mMod (noteDrop f)
    stop

/-- The record at hand is returned, and the channel goes on to the next (R197). -/
def nextRecord (c : Copy) (r : List Byte) : M Unit := do
  mModSeat (fun t => { t with chd := t.chd.set c.ch (recNext r), lines := t.lines.filter (fun x => x.lsn != c.lsn) })
  let t ← mSeat
  mCopy c.tok (fun x => { x with begun := none, row := [], off := 0, doff := 0, moved := [], resp := false, late := false, since := t.cycles.toNat })
  if recNext r == 0 then endCopy c 0xFF else pure ()

/-- The bytes of a record that has begun are moved, up to `m` spans, and the record is written back (R197); answers whether it is complete. -/
def runRecord (c : Copy) (a : Dword) (v : Conv) (r : List Byte) (m : Nat) : M Bool := do
  let ends (m : M Unit) : M Bool := do
    m
    pure false
  let total := recLen r * recRows r
  let cke := (recD r 5).getLsbD 10
  let pre ← tryRun (if cke then checksumBytes c r c.off else pure [])
  match pre with
  | .error f => ends (failOr c f c.off c.doff (stopRecord c a r f.code c.off))
  | .ok pre => do
    let now ← moveRecord c v r c.off c.doff m
    match now.bad with
    | some f => ends (failOr c f (c.off + now.raw.length) now.row (stopRecord c a r f.code (c.off + now.raw.length)))
    | none =>
      if c.off + now.raw.length < total then ends (mCopy c.tok (fun x => { x with off := c.off + now.raw.length, doff := now.row }))
      else if cke && crc32c (pre ++ now.raw) != (recD r 5).extractLsb' 32 32 then ends (stopRecord c a r FC.soft total)
      else do
        let w ← tryRun (recordWrite c a r false 0xFF total)
        match w with
        | .error f => ends (do
            mMod (noteDrop f)
            endCopy c f.code)
        | .ok () => pure true

/-- The record that the channel has read at its head is moved and returned, or moved by `spans` spans (R197). -/
def moveHead (c : Copy) (a : Dword) (r : List Byte) (spans : Option Nat) : M Unit :=
  match recConv r with
  | some v => do
    let done ← mPastOwn c.tok (runRecord c a v r (spans.getD (recLen r * recRows r)))
    if done then nextRecord c r else pure ()
  | none => pure ()

/-- A record that the channel has read at its head is checked, and begins (R197, R206). -/
def takeHead (c : Copy) (a : Dword) (r : List Byte) : M Unit :=
  if !(recD r 0).getLsbD 63 then endCopy c 0xFF
  else if recReserved r then stopRecord c a r FC.reserved (recDone r)
  else match recConv r with
    | none => stopRecord c a r FC.operand (recDone r)
    | some v => do
      let refused ← mPastOwn c.tok (recRefused v r)
      let t ← mSeat
      if refused then stopRecord c a r FC.operand (recDone r)
      else if t.chStop[c.ch] then do
        mModSeat (fun t => { t with chStop := t.chStop.set c.ch false })
        endCopy c 0xFE
      else do
        let doff ← mPastOwn c.tok (doneOut v r (recDone r))
        let l ← recRanges c v r
        beginRecord c a r l doff

/-- A step of a chain (R197): the record at the channel's head is read and checked and its ranges are entered, or, once it has begun, it is moved and
returned, or moved by `spans` spans. -/
def chainRecordStep (c : Copy) (spans : Option Nat := none) : M Unit := do
  let s ← get
  let a := s.seat.chd[c.ch]
  if c.page.isSome then pure ()
  else if a == 0 then endCopy c 0xFF
  else if c.begun == some a then moveHead c a c.row spans
  else do
    let r ← tryRun (mPastOwn c.tok (recordRead c a))
    match r with
    | .error f => failOr c f c.off c.doff (endCopy c f.code)
    | .ok r => takeHead c a r

/-- The rest of a cancelled chain (R212): STATUS 0x13 and OWN 0 in each record that the engine owns and has not completed,
until NEXT = 0 or OWN = 0; the number of records returned. A record that can not be read or written back ends the walk, with nothing
reported (DESIGN CHOICE, log 104: the spec does not say); remote ones are there (log 115). The fuel bounds the records that an address space can hold. -/
def cancelChain (c : Copy) (fuel : Nat) (a : Dword) : M Nat := do
  match fuel with
  | 0 => pure 0
  | fuel + 1 =>
    if a == 0 then pure 0
    else
      let r ← tryRun (recordRead { c with resp := true } a)
      match r with
      | .error f => do
        mMod (noteDrop f)
        pure 0
      | .ok r =>
        if !(recD r 0).getLsbD 63 then pure 0
        else if (recD r 6).extractLsb' 56 8 == 0xFF then cancelChain c fuel (recNext r)
        else do
          let w ← tryRun (recordWrite c a r false FC.cancelled (recDone r))
          match w with
          | .error f => do
            mMod (noteDrop f)
            pure 0
          | .ok () => do
            let m ← cancelChain c fuel (recNext r)
            pure (m + 1)

-- Reads by the unit while copies are in flight (R240).
/-- What a copy in flight would write now, with the size of its elements and their class; nothing where it can not go on. -/
def forkBytes (c : Copy) : M (List WByte × Nat × StClass) := fun s =>
  let size (v : Conv) : Nat := match v with
    | .none => 1
    | .to t => Nat.max 1 (widthOf t / 8)
    | .table _ => 2
  let plan : M (List WByte × Nat × StClass) :=
    match c.kind with
    | .chain => do
      let r ← (if c.begun.isSome then pure c.row else mPastOwn c.tok (recordRead c (s.seat.chd[c.ch])))
      match recConv r with
      | some v =>
        if (recD r 0).getLsbD 63 && !recReserved r then do
          let done := if c.begun.isSome then c.off else recDone r
          let doff ← (if c.begun.isSome then pure c.doff else mPastOwn c.tok (doneOut v r done))
          let x ← mPastOwn c.tok (moveRecord c v r done doff (recLen r * recRows r))
          pure (x.out, size v, recHint r 1)
        else pure ([], 1, .plain)
      | none => pure ([], 1, .plain)
    | .plain | .halo | .reduce => do
      let l ← copySpans c
      let parts ← mMap l (fun sp => do
        settleDst c sp
        copySpan c sp)
      pure (parts.flatten, if c.kind == .reduce then widthOf (reduceFmt c) / 8 else size c.convOf, .plain)
  match plan s with
  | .ok (x, _) => .ok (x, s)
  | .error _ => .ok (([], 1, .plain), s)

/-- The part of some bytes that is written with the one at `key`: its element, or the whole slot of a ZM page with its raw bit
(R54, R240). -/
def elementOf (l : List WByte) (size key : Nat) : List WByte :=
  let i := l.findIdx (fun b => b.key == key)
  if l.any (fun b => b.key == rawKey key) then l.filter (fun b => b.key / 512 == key / 512 || b.key == rawKey key)
  else (l.drop (i / size * size)).take size

/-- A read of the unit meets a byte that a copy below it writes (R240): it finds the copy's element written or not, as it may be. What it
finds written is written from then on. -/
def meetByte (c : Copy) (key : Nat) : M Unit := do
  let t ← mSeat
  match t.copies.find? (fun x => x.tok == c.tok && x.lsn == c.lsn) with
  | none => pure ()
  | some c =>
    if c.moved.any (fun m => m.1 == key) then pure ()
    else do
      let x ← forkBytes c
      if x.1.any (fun b => b.key == key) then do
        let n ← mPick
        if n % 2 == 0 then pure ()
        else do
          let e := elementOf x.1 x.2.1 key
          forkTokens c e x.2.2
          forkWrite c e x.2.2
          mCopy c.tok (fun y => { y with moved := y.moved ++ e.map (fun b => (b.key, b.val)) })
      else pure ()

/-- The locations at which a read may meet a copy: every byte, or the slots of a ZM page. -/
def readKeys (pieces : List (Loc × Dword × Nat)) : List Nat :=
  pieces.flatMap (fun (p, _, k) =>
    if isZm p.fmt then (List.range ((p.key % 512 + k + 511) / 512)).map (fun i => (p.key / 512 + i) * 512)
    else (List.range k).map (fun i => p.key + i))

/-- The reads of the unit at LSN `l` meet its copies in flight (R240). -/
def meetCopies (l : Lsn) (pieces : List (Loc × Dword × Nat)) : M Unit := do
  let s ← get
  mEach (s.seat.copies.filter (fun c => c.ended.isNone && lsnLt c.lsn l && (c.kind == .chain || copyStarted s c))) (fun c =>
    mEach (readKeys pieces) (meetByte c))

/-- The bytes of located pieces for the unit at LSN `l`, an element's as of one moment where the read skips the alias check. -/
def readUnit (l : Lsn) (v : View) (pieces : List (Loc × Dword × Nat)) : M (List Byte) := do
  padTurn l pieces
  meetCopies l pieces
  let m ← readAs v l (readKeys pieces)
  let bytes ← mMap pieces (fun (p, a, k) => readPiece m v p a k)
  pure bytes.flatten

/-- A read by the unit at LSN `l` for a word of engine `e`. -/
def loadUnit (e : Eng) (l : Lsn) (v : View) (va : Dword) (n : Nat) : M (List Byte × List (Loc × Dword × Nat)) := do
  let pieces ← locate va n .read
  remoteGate e pieces
  let out ← readUnit l v pieces
  pure (out, pieces)

end Sys2Proof.Machine
end

