-- ==== Sys2Proof/Machine/Work.lean ====
section
/-! DEFINITION. Work: barriers (R215-R218), the Anvil's owners (R171, R172, R177), the scope table and its counters
(R39-R41, R207-R214), cancellation (R43, R44, R273, R274, R301), reports to the host (R247, R285), and placement (R38). -/

namespace Sys2Proof.Machine

-- Barriers (R215-R218).
def Barrier.complete (b : Barrier) : Barrier :=
  { b with gen := b.gen + 1, cnt := b.exp, parts := b.parts.map (fun p => (p.1, none)) }

/-- The arrived bit with ARRGEN of a participant. -/
def Barrier.arrived (b : Barrier) (uid : Nat) : Option Half := ((b.parts.find? (fun p => p.1 == uid)).map Prod.snd).getD none

def Barrier.takes (b : Barrier) (uid : Nat) : Bool := b.parts.any (fun p => p.1 == uid)

/-- BAR.ARRIVE's change of the barrier by a unit that has not arrived (R217). -/
def Barrier.arrive (b : Barrier) (uid : Nat) : Barrier :=
  let b := { b with parts := b.parts.map (fun p => if p.1 == uid then (p.1, some b.gen) else p), cnt := b.cnt - 1 }
  if b.cnt == 0 then b.complete else b

/-- A killed participant (R218): the barrier and the number of absent arrivals. -/
def Barrier.lose (b : Barrier) (uid : Nat) : Barrier × Nat :=
  if !b.takes uid then (b, 0)
  else
    let rest := b.parts.filter (fun p => p.1 != uid)
    match b.arrived uid with
    | some _ => ({ b with parts := rest, exp := b.exp - 1 }, 0)
    | none =>
      let c := { b with parts := rest, cnt := b.cnt - 1, exp := b.exp - 1, absent := true }
      (if c.cnt == 0 then c.complete else c, 1)

/-- A participant that completes leaves the list (R218). -/
def Barrier.leave (b : Barrier) (uid : Nat) : Barrier := { b with parts := b.parts.filter (fun p => p.1 != uid) }

-- The Anvil (R171, R172, R177).
/-- Everything of the Anvil that a seat holds is released; a bank that no seat holds reads as zeros (R177). -/
def Anvil.release (a : Anvil) (id : SeatId) : Anvil :=
  { a with
    slots := vmap (fun (x : Slot) => if x.owner == some id then {} else x) a.slots
    banks := vmap (fun (b : Bank) => if b.owner == some id then {} else b) a.banks
    holder := if a.holder == some id then none else a.holder
    left := if a.holder == some id then 0 else a.left
    reqs := a.reqs.filter (· != id)
    allocs := a.allocs.filter (fun r => r.1 != id) }

/-- Every drain of the cluster that reads bank `n` as it is allocated finds its new contents, too (R181). -/
def noteBank (n : Nat) (b : Bank) (s : State) : State :=
  let c := s.here
  s.mapSeats (fun t => match t.drain with
    | some d => if clusOf t.id == c && d.num == n && d.live then { t with drain := some { d with seen := d.seen ++ [b] } } else t
    | none => t)

/-- Drains that have executed complete with what the banks held (R182). -/
def detachDrains (c : Nat) (p : Nat → Bool) (s : State) : State :=
  s.mapSeats (fun t => match t.drain with
    | some d => if clusOf t.id == c && p d.num then { t with drain := some { d with live := false } } else t
    | none => t)

/-- The next requester after the last holder, round-robin over the eight seats of the cluster (R171). -/
def Anvil.next (a : Anvil) : Option SeatId :=
  ((List.range 8).map (fun i => (a.last.toNat % 8 + 1 + i) % 8)).findSome? (fun k => a.reqs.find? (fun r => r.toNat % 8 == k))

-- The scope table.
def Part.scope (p : Part) (n : BitVec 12) : Scope := (p.scopes.find? (fun x => x.num == n)).getD { num := n }
def Part.setScope (p : Part) (x : Scope) : Part := { p with scopes := putWhere (fun y => y.num == x.num) x p.scopes }

/-- `n` lies in the subtree of `root`. The fuel bounds the depth of the tree. -/
def inSubFuel (p : Part) (root : BitVec 12) : Nat → BitVec 12 → Bool
  | 0, n => n == root
  | k + 1, n => n == root || (n != 0 && inSubFuel p root k (p.scope n).parent)

def inSub (p : Part) (root n : BitVec 12) : Bool := inSubFuel p root 4096 n

/-- A scope reference (R207). -/
def scopeRef (x : Scope) : Dword := (x.gen.setWidth 64 <<< 12) ||| x.num.setWidth 64

/-- The scope that a reference names, or none for a stale one (R207). -/
def resolveRef (p : Part) (own : BitVec 12) (x : Dword) : Option Scope :=
  if x == 0 then some (p.scope own)
  else
    let sc := p.scope (x.extractLsb' 0 12)
    let g : BitVec 20 := x.extractLsb' 12 20
    if x.extractLsb' 32 32 != 0 || sc.state == .free || (g != 0 && g != sc.gen) then none else some sc

/-- The lowest free entry of the scope table (R209, R247). -/
def Part.freeScope (p : Part) : Option (BitVec 12) :=
  ((List.range 4096).find? (fun n => (p.scope (BitVec.ofNat 12 n)).state == .free)).map (BitVec.ofNat 12)

/-- The next generation of an entry (R207). -/
def nextGen (g : BitVec 20) : BitVec 20 := if g == 0xFFFFF then 1 else g + 1

/-- Opens a scope in a free entry; the parent's counter rises by one (R209, R246). -/
def openScope (p : Part) (n parent : BitVec 12) (x : Scope) : Part :=
  let old := p.scope n
  let p := p.setScope { x with num := n, gen := nextGen old.gen, parent, state := .opened, cancel := false, cancelled := false, counter := 0 }
  let q := p.scope parent
  p.setScope { q with counter := q.counter + 1 }

/-- The oldest QUENCH that covers a scope counts what it kills (R44, R212). -/
def Part.credit (p : Part) (n : BitVec 12) (f : Quench → Quench) : Part :=
  { p with quenches := mapFirst (fun q => inSub p q.scope n) f p.quenches }

def statusOf (x : Scope) : Byte := if x.cancelled then FC.cancelled else 0

-- What the device tells the host.
def State.msix (s : State) (vf vec : Nat) : State := { s with sent := s.sent ++ [.msix vf vec] }

/-- A fault report (R285): written at FLTBASE + 64 × (SEQ mod 64), with the VF's MSI-X vector 1. -/
def writeReport (s : State) (vf : Nat) (d0 d1 faddr d3 : Dword) (proc eng : Nat) (reply : Bool) : State :=
  let v := s.vf vf
  let d4 : Dword := BitVec.ofNat 64 (proc * pow2 40 + eng * pow2 32) ||| v.seq.setWidth 64
  let s := hostWrite s (v.fltbase.toNat + 64 * (v.seq.toNat % 64)) (dwords [d0, d1, faddr, d3, d4, 0, 0, 0])
  let s := s.setVf { v with seq := v.seq + 1, open_ := if reply then v.open_ ++ [v.seq] else v.open_ }
  s.msix vf 1

/-- The report of a unit's fault record (R285). -/
def reportUnit (s : State) (t : Seat) (code : Byte) (faddr : Dword) (reply : Bool) : State :=
  let u := t.unit
  let own := (u.gen.setWidth 64 <<< 12) ||| u.scope.setWidth 64
  let r := t.frec
  let word := code == r.fcode
  writeReport s u.vf
    (own ||| (code.setWidth 64 <<< 32) ||| ((if word then r.faux else 0).setWidth 64 <<< 40))
    (if word then (r.flsn.setWidth 64 <<< 32) ||| r.flpc.setWidth 64 else 0)
    faddr ((u.image.setWidth 64 <<< 32) ||| u.ix.setWidth 64) u.proc (if word then r.feng.toNat else 0) reply

/-- An event post by the device (R211, R301): to the resident unit, to a saved one, or nowhere. A post whose counter is at
255 waits. -/
def postTo (t : Seat) (ev : BitVec 5) : Option Seat :=
  let q := qLive t (t.ev[ev.toNat]'ev.isLt)
  if q.length < 255 then
    let l := (t.horizon.getD t.engS.lsn) - 1
    some { t with ev := t.ev.set ev.toNat (q ++ [{ val := (), lsn := l }]) ev.isLt }
  else none

def postEvent (s : State) (part : Fin 32) (uid : Nat) (ev : BitVec 5) : State :=
  let late : State :=
    let p := s.part part
    s.setPart { p with posts := p.posts ++ [⟨uid, ev⟩] }
  if s.seat.unit.uid == uid && s.seat.status != .vacant then
    match postTo s.seat ev with
    | some t => { s with seat := t }
    | none => late
  else
    match s.others.find? (fun t => t.unit.uid == uid), s.saved.find? (fun x => x.seat.unit.uid == uid) with
    | some t, _ =>
      match postTo t ev with
      | some t' => { s with others := s.others.map (fun x => if x.unit.uid == uid then t' else x) }
      | none => late
    | none, some x =>
      match postTo x.seat ev with
      | some t' => { s with saved := s.saved.map (fun y => if y.seat.unit.uid == uid then { y with seat := t' } else y) }
      | none => late
    | none, none => s

/-- Posts that waited for their counters (R301). -/
def retryPosts (s : State) (part : Fin 32) : State :=
  let l := (s.part part).posts
  l.foldl (fun s p => postEvent s part p.uid p.ev) (s.setPart { s.part part with posts := [] })

/-- The double words of an acknowledgement record (R212). -/
def ackRecord (p : Part) (x : Scope) (q : Quench) : List Dword :=
  [((statusOf x).setWidth 64 <<< 32) ||| scopeRef x,
   (q.dropped.setWidth 64 <<< 32) ||| q.killed.setWidth 64,
   (q.absent.setWidth 64 <<< 32) ||| q.landed.setWidth 64,
   p.frame.setWidth 64, 0, 0, 0, 0]

/-- A location of a context's memory as the Hearth maps it, with its key identity (R128, R261). -/
def hearthPage (s : State) (vf proc : Nat) (va : Dword) (acc : Acc) : Run (Nat × BitVec 7) := do
  let (leaf, lvl) ← walk s (s.ctx vf proc).ptbase va acc
  pure (leafKey leaf lvl va, pteKeyId leaf)

/-- A location of a context's memory as the Hearth reaches it for the context, which has the rights and the key for it (R131, R244, R261); none where it
has not, or where the address has no page (R128). -/
def hearthPlace (s : State) (part : Fin 32) (vf proc : Nat) (va : Dword) (acc : Acc) : Option (Nat × BitVec 7) :=
  match (do
    check (va.extractLsb' 54 10 == 0) FC.notPresent va 1
    let (leaf, lvl) ← walk s (s.ctx vf proc).ptbase va acc
    leafCheck s part leaf lvl va acc
    pure (leafKey leaf lvl va, pteKeyId leaf) : Run (Nat × BitVec 7)) with
  | .ok x => some x
  | .error _ => none

/-- The bytes of an image's arrays, in order (R24). -/
def imageBytes (i : SliceImage) : List Byte := i.slices.flatMap (fun x => x.words.flatMap (fun w => bytesOf w 4))

/-- A slice image's words at the addresses with `p` go to their locations, as the Hearth maps them, under its key for code (R24, R262). -/
def placeImage (s : State) (vf proc : Nat) (part : Fin 32) (i : SliceImage) (p : Nat → Bool := fun _ => true) : State :=
  let bytes := imageBytes i
  ((List.range bytes.length).zip bytes).foldl (fun s b =>
    let va := i.base + BitVec.ofNat 64 b.1
    match hearthPage s vf proc va .fetch with
    | .ok (k, kid) =>
      if p va.toNat then
        let s := deviceWrite s k b.2 .package part
        { s with labels := putWhere (fun x => x.1 == k / 128) (k / 128, s.codeLabel kid) s.labels }
      else s
    | .error _ => s) s

/-- The acknowledgement of a QUENCH whose subtree is done (R211, R301): the record, then the event. -/
def acknowledge (s : State) (part : Fin 32) (x : Scope) (q : Quench) : State :=
  let p := s.part part
  let bytes := dwords (ackRecord p x q)
  let s :=
    if x.ack == 0 then s
    else if x.hostAck then hostWrite s x.ack.toNat bytes
    else match hearthPlace s part x.vf x.proc x.ack .write with
      | some (k, kid) => ((List.range 64).zip bytes).foldl (fun s b => deviceWrite s (k + b.1) b.2 .package part false kid) s
      | none => s
  match q.issuer with
  | some (uid, ev) => postEvent s part uid ev
  | none => s

/-- Faulting units that wait for a report to be answered get theirs, oldest first (R285). -/
def sendReports (s : State) : State :=
  s.saved.foldl (fun s x =>
    let u := x.seat.unit
    let v := s.vf u.vf
    if x.unsent && decide (v.open_.length < 64) then
      let s := reportUnit s x.seat x.seat.frec.fcode x.seat.frec.faddr true
      { s with saved := s.saved.map (fun y => if y.seat.unit.uid == u.uid then { y with unsent := false, reply := some v.seq } else y) }
    else s) s

/-- A bind record changed. -/
def mapBinds (s : State) (f : Bind → Bind) : State := { s with slots := vmap (vmap f) s.slots }

/-- The completion record of a job (R247, R249, R265): written, then the queue's vector. Its grace period ends with it, unless the last tick of that has
passed (R306, R316). -/
def completeJob (s : State) (part : Fin 32) (j : Job) (status : Byte) (errix : W32) : State :=
  let p := s.part part
  let slips : Nat := p.slipcount.toNat - j.slips.toNat
  let s := hostWrite s j.record.toNat (dwords
    [(status.setWidth 64 <<< 32) ||| j.tag.setWidth 64, (BitVec.ofNat 64 slips <<< 32) ||| p.frame.setWidth 64,
     errix.setWidth 64, 0])
  let s := s.setPart (if p.firstJob then { p with firstJob := false, ctm := p.testReq } else p)
  let s := mapBinds s (fun b => if b.v && b.vf.toNat == j.vf && b.qnum.toNat == j.q then
      { b with count := 0 } else b)
  let s : State := { s with graces := s.graces.filter (fun g => !(g.part == part && g.scope == j.scope && g.left != 0)) }
  let vec := ((s.queues.find? (fun q => q.vf == j.vf && q.q == j.q)).map (fun q => q.vec.toNat)).getD 0
  { s with jobs := s.jobs.filter (fun x => !(x.scope == j.scope && x.part == part)) }.msix j.vf vec

/-- A scope becomes done (R40, R41, R211, R214): its acknowledgements, its record if it is a job's, the freeing of entries,
and its parent's counter. -/
def finishScope (s : State) (part : Fin 32) (ct : Bool) (x : Scope) : State :=
  let p : Part := (s.part part).setScope { x with state := .done }
  let p : Part := { p with scopes := p.scopes.map (fun (y : Scope) =>
    if y.parent == x.num && y.kind == .device && y.state == .done && y.num != x.num then { y with state := .free } else y) }
  let mine : List Quench := p.quenches.filter (fun q => q.scope == x.num && q.gen == x.gen)
  let s := s.setPart { p with quenches := p.quenches.filter (fun q => !(q.scope == x.num && q.gen == x.gen)) }
  let s := mine.foldl (fun s q => acknowledge s part { x with state := .done } q) s
  let s : State := match x.kind with
    | .job => match s.jobs.find? (fun j => j.scope == x.num && j.part == part) with
      | some j => completeJob s part j (statusOf x) j.errix
      | none => s
    | .root | .pass | .graph | .launch | .device => s
  let p : Part := s.part part
  let p : Part := match x.kind with
    | .job | .pass | .graph | .launch => p.setScope { p.scope x.num with state := .free }
    | .root | .device => p
  let q := p.scope x.parent
  let s := s.setPart (p.setScope { q with counter := q.counter - 1 })
  if p.ctm || ct then s.irq (.count q.num (q.counter - 1)) else s

/-- Every closed scope whose counter is zero becomes done; `ct` are the scopes of entries with CT = 1 that have been decremented, whose
paths up the tree raise interrupts (R41). The fuel is the number of scopes. -/
def settleFuel (part : Fin 32) (ct : List (BitVec 12)) : Nat → State → State
  | 0, s => s
  | k + 1, s =>
    let p := s.part part
    match p.scopes.find? (fun x => x.state == .closed && x.counter == 0 && x.num != 0) with
    | some x => settleFuel part ct k (finishScope s part (ct.any (inSub p x.num)) x)
    | none => s

def settle (s : State) (part : Fin 32) (ct : List (BitVec 12) := []) : State := settleFuel part ct ((s.part part).scopes.length + 1) s

/-- The paths of a unit's entry that raise interrupts. -/
def UnitRec.path (u : UnitRec) : List (BitVec 12) := if u.ct then [u.scope] else []

/-- One decrement of a scope's counter (R40, R41), without what follows from it. -/
def countDown (s : State) (part : Fin 32) (n : BitVec 12) (ct : Bool) : State :=
  let p := s.part part
  let x := p.scope n
  let s := s.setPart (p.setScope { x with counter := x.counter - 1 })
  if p.ctm || ct then s.irq (.count n (x.counter - 1)) else s

-- Atomics (R114).
/-- An atomic's new value, or none where it writes nothing, from the old one; both at the size (R114). -/
def amoNew (op : AmoOp) (w : Nat) (old b d : Nat) : Option Nat :=
  let sold := signedOf w old
  let sb := signedOf w b
  match op with
  | .add => some ((old + b) % pow2 w)
  | .min => some (if sold ≤ sb then old else b)
  | .max => some (if sb ≤ sold then old else b)
  | .and => some (old &&& b)
  | .or => some (old ||| b)
  | .xor => some (old ^^^ b)
  | .swp => some b
  | .cas => if old == d then some b else none

/-- A sync store, or a release (R231). -/
def storeSync : StClass → Bool
  | .sy | .syRel => true
  | .plain | .na | .bypass => false

/-- The store and an atomic below it meet: the store waits until the atomic has landed (R112, R232). -/
def meetsAtom (g : GStore) (a : Atom) : Bool :=
  lsnLt a.lsn g.lsn && (storeSync g.cls || g.bytes.any (fun b => decide (a.key ≤ b.key) && decide (b.key < a.key + (if a.wide then 8 else 4))))

/-- The bytes that go to their homes as a store leaves the buffer: a sync one's, with all that a release publishes, and those that a plain one takes
there at once. -/
def homeBytes (s : State) (g : GStore) : List WByte :=
  match g.cls with
  | .sy => g.bytes
  | .syRel => (s.seat.unpub.filter (covered (some g.lsn))).map (fun u => u.byte) ++ g.bytes
  | .plain | .na | .bypass => homeNow s g.cls g.bytes

/-- A change that takes bytes home for an event at LSN `w`, once their lines have tokens (R254). -/
def withTokens (w : Lsn) (bytes : List WByte) (f : State → State) (s : State) : State :=
  runAnyway (do
    lineTokens w bytes
    mMod (fun s => (f s).onSeat (fun t => { t with lines := t.lines.filter (fun r => r.lsn != w) }))) s

/-- The oldest store leaves the buffer, if H is above it; a sync one after the unit's older atomics, and any one after those at its
locations (R33, R112, R231). -/
def drainOne (s : State) : State :=
  match s.seat.gsb with
  | [] => s
  | g :: rest =>
    if s.seat.passed g.lsn && !s.seat.atoms.any (meetsAtom g) then
      withTokens g.lsn (homeBytes s g) (fun s => leaveBuffer (s.onSeat (fun t => { t with gsb := rest })) g) s
    else s

def drainAll (s : State) : State := s.seat.gsb.foldl (fun s _ => drainOne s) s

/-- The reach of a release of a location (R226). -/
def releaseReach (key : Nat) : Reach := if farHome key then .system else .package

/-- An atomic lands at its home (R114): the unit's older stores have left the buffer before, and a release has published them (R112,
R115); the location's new value and the old one, or none where the location has been damaged since the word issued: it then keeps what it holds
(R289; log 125). -/
def landMemory (s : State) (a : Atom) : State × Option Nat :=
  let s := forced (fun s => (s.seat.gsb.filter (fun g => lsnLt g.lsn a.lsn)).foldl (fun s _ => drainOne s) s) s
  let s := match a.ord with
    | .rel | .acqrel => publish s (some a.lsn) (releaseReach a.key)
    | .sy | .acq => s
  let n := if a.wide then 8 else 4
  let s := settleOwn s a.lsn ((List.range n).map (fun i => a.key + i))
  let old := natOfBytes ((List.range n).map (fun i => s.underKey a.kid (a.key + i) (s.home (a.key + i))))
  if (List.range n).any (fun i => (s.markAt (a.key + i) true).isSome) then (s, none)
  else match amoNew a.op (8 * n) old (a.b.toNat % pow2 (8 * n)) (a.dIn.toNat % pow2 (8 * n)) with
  | some x => (writeUpdate s ((List.range n).map (fun i =>
      { key := a.key + i, val := byteOf (BitVec.ofNat 64 x) i, l2 := a.l2, fmt := a.fmt, kid := a.kid })) a.lsn, some old)
  | none => (s, some old)

/-- The bytes that go to their homes as an atomic lands: its location's, the unit's older ones there, and what a release publishes. -/
def landBytes (t : Seat) (a : Atom) : List WByte :=
  let keys := (List.range (if a.wide then 8 else 4)).map (fun i => a.key + i)
  keys.map (fun k => { key := k, val := 0, l2 := a.l2, fmt := a.fmt, kid := a.kid })
    ++ (t.unpub.filter (fun u => (lsnLt u.lsn a.lsn && keys.contains u.byte.key) || (match a.ord with
      | .rel | .acqrel => covered (some a.lsn) u
      | .sy | .acq => false))).map (fun u => u.byte)

-- The work-queue region (R255).
/-- Entries that a VF, or every one, holds in the region. -/
def inRegion (s : State) (p : Entry → Bool) : Nat :=
  s.parts.foldl (fun n x => n + (x.entries.filter (fun e => e.phase != .placed && !e.swapped && p e)).length) 0

/-- The VF whose entries held ÷ weight is largest, the higher number among equals. -/
def heaviest (s : State) : Nat :=
  (List.range 97).foldl (fun (b v : Nat) =>
    let w (x : Nat) : Nat := 1 + Config.tenantWeight x % 255
    if inRegion s (fun e => e.unit.vf == b) * w v ≤ inRegion s (fun e => e.unit.vf == v) * w b then v else b) 0

/-- The newest entry of a VF in the region moves to HBM. -/
def swapOne (s : State) (v : Nat) : State :=
  let last := s.parts.foldl (fun n x => (x.entries.filter (fun e => e.phase != .placed && !e.swapped && e.unit.vf == v)).foldl
    (fun n e => Nat.max n e.unit.uid) n) 0
  { s with parts := s.parts.map (fun x => { x with entries := x.entries.map (fun e =>
      if e.unit.uid == last && e.phase != .placed then { e with swapped := true } else e) }) }

/-- Entries that the reserved regions of the four die pads hold (log 21). -/
def regionSize : Nat := Config.workRegion 0 + Config.workRegion 1 + Config.workRegion 2 + Config.workRegion 3

/-- While the region is over-full, entries of the heaviest tenant move out. The fuel bounds the entries to move. -/
def swapFuel : Nat → State → State
  | 0, s => s
  | k + 1, s => if inRegion s (fun _ => true) ≤ regionSize then s else swapFuel k (swapOne s (heaviest s))

def swapWork (s : State) : State := swapFuel (inRegion s (fun _ => true) - regionSize) s

-- Claims of saved units (R300).
/-- The clusters of a partition (R243). -/
def clustersOf (s : State) (part : Fin 32) : List Nat :=
  (List.range 256).filter (fun c => decide (c % 64 < 40) && s.partOf c == part)

/-- Banks and slots of a saved unit that are free in a cluster. -/
def freeFor (s : State) (x : Saved) (c : Nat) : Nat :=
  let a := s.anvil c
  (x.banks.filter (fun b => ((a.banks[b.1]?).getD {}).owner.isNone)).length
    + (x.slots.filter (fun y => ((a.slots[y.1]?).getD {}).owner.isNone)).length

/-- A saved unit that has been passed over four times gets its numbers reserved in the partition's cluster that has most of them
free (R300). -/
def reserve (s : State) (x : Saved) : State :=
  if x.banks.isEmpty && x.slots.isEmpty then s
  else
    match (clustersOf s x.seat.unit.part).foldl (fun (b : Option Nat) c => match b with
        | none => some c
        | some d => if freeFor s x d < freeFor s x c then some c else some d) none with
    | none => s
    | some c =>
      let a := s.anvil c
      s.setAnvil c { a with resv := a.resv.filter (fun r => r.1 != x.seat.unit.uid) ++
        [(x.seat.unit.uid, x.banks.map Prod.fst, x.slots.map Prod.fst)] }

-- Pad blocks (R125, R297, R300).
/-- Memory without the locations from `lo` to `hi` − 1. -/
def withoutRange (m : List Host.Cell) (lo hi : Nat) : List Host.Cell := m.filter (fun c => !(decide (lo ≤ c.1) && decide (c.1 < hi)))

/-- A pad block's bytes by offset, and, from 16,384 on, the raw bits of its 32 slots (R54, R297). -/
def blockBytesAt (s : State) (base : Nat) : List (Nat × Byte) :=
  let part (lo n at_ : Nat) : List (Nat × Byte) :=
    (s.mem.filter (fun c => decide (lo ≤ c.1) && decide (c.1 < lo + n))).map (fun c => (c.1 - lo + at_, c.2))
  part base 16384 0 ++ part (rawKey base) 32 16384

/-- Where the byte or raw bit of a block at `base` lies. -/
def blockKey (base off : Nat) : Nat := if off < 16384 then base + off else rawKey base + (off - 16384)

/-- A block of HBM of the cell's die that the Hearth gives to a spilled pad block: one that no pad entry of the die uses, nor one of a
unit that was saved there, above the program's memory (R125, R300; log 12). -/
def freeSpill (s : State) (die : Nat) : Nat :=
  let used := s.cells.flatMap (fun c => if c.ix / 256 == die then (c.pads.filter (fun p => padSp p.2)).map (fun p => padLoc p.2) else [])
    ++ s.saved.flatMap (fun x => if dieOf x.seat.id == die then (x.pads.filter (fun p => padSp p.2.1)).map (fun p => padLoc p.2.1) else [])
  (used.foldl Nat.max 0xBF0000) + 1

/-- The lines of a spilled pad block are under its owner's key (R125, R261). -/
def labelBlock (s : State) (kid : BitVec 7) (key : Nat) : State :=
  { s with labels := (List.range 128).foldl (fun l i => putWhere (fun x => x.1 == key / 128 + i) (key / 128 + i, s.label kid) l) s.labels }

/-- Marks without those on locations from `lo` to `hi` − 1 where they are at home: these have been written again, or given back (R288). -/
def unmark (lo hi : Nat) (l : List MemMark) : List MemMark :=
  (l.map (fun m => if m.cell.isNone then { m with left := m.left.filter (fun k => !(decide (lo ≤ k) && decide (k < hi))) } else m)).filter
    (fun m => !m.left.isEmpty)

/-- The damage of a pad block at `base`, by offset (R288, R289). -/
def blockMarks (s : State) (base : Nat) : List MemMark :=
  (s.badMem.filter (fun m => m.cell.isNone && decide (base ≤ m.lo) && decide (m.lo < base + 16384))).map (fun m =>
    { m with lo := m.lo - base, left := m.left.map (· - base) })

/-- Memory without a pad block and its raw bits. -/
def withoutBlock (m : List Host.Cell) (base : Nat) : List Host.Cell := withoutRange (withoutRange m base (base + 16384)) (rawKey base) (rawKey base + 32)

/-- A pad block is given back, with what it held. -/
def clearBlock (s : State) (base : Nat) : State := { s with mem := withoutBlock s.mem base, badMem := unmark base (base + 16384) s.badMem }

/-- The bytes of a saved pad block, with their damage, come into the block of entry `e` of the seat's cell; a spilled block lies under the context's
key (R125, R289). -/
def fillBlock (s : State) (e : Dword) (bytes : List (Nat × Byte)) (marks : List MemMark := []) : State :=
  let k := padKey (cellOf s.seat.id) e 0
  let s := clearBlock s k
  let s := { s with
    mem := bytes.foldl (fun m b => Memory.write m (blockKey k b.1) b.2) s.mem
    badMem := s.badMem ++ marks.map (fun m => { m with lo := k + m.lo, left := m.left.map (k + ·), kind := if padSp e then 5 else 4 }) }
  if padSp e then labelBlock s (s.contextKey s.seat.unit.vf) k else s

-- Killing (R43, R274, R301).
/-- The record at a cancelled chain's head completes, read now if it has not been (R272, R301): two steps at most. -/
def endRecord (c : Copy) (s : State) : State :=
  let now (s : State) : Option Copy := s.seat.copies.find? (fun x => x.tok == c.tok && x.lsn == c.lsn)
  let go (s : State) : State := match now s with
    | some x => if x.ended.isSome then s else runAnyway (chainRecordStep { x with page := none }) s
    | none => s
  let s := if c.begun.isSome then s else go s
  match now s with
  | some x => if x.begun.isSome then go s else s
  | none => s

/-- A copy of a dying unit (R272, R274, R301): a started one runs to its end, a CPYH whose generation has not completed is dropped, a chain is
cancelled after the record that has started, unless that has stopped it (R197); `kept` tells that it comes from a replay entry, whose record completes
first. Answers the number dropped. -/
def killCopy (kept : Bool) (r : State × Nat) (c : Copy) : State × Nat :=
  let s := r.1
  match c.kind, c.ended with
  | _, some st => (retireToken c.tok st s, r.2)
  | .chain, none =>
    let s := if kept || c.begun.isSome then endRecord c s else s
    match (s.seat.copies.find? (fun x => x.tok == c.tok)).bind (fun x => x.ended), cancelChain c maxRecords s.seat.chd[c.ch] s with
    | some st, _ => (retireToken c.tok st s, r.2)
    | none, .ok (n, s') => (retireToken c.tok FC.cancelled s', r.2 + n)
    | none, .error _ => (retireToken c.tok FC.cancelled s, r.2)
  | .halo, none =>
    if copyStarted s c then (runAnyway (finishCopy c) s, r.2)
    else (retireToken c.tok FC.cancelled s, r.2 + 1)
  | .plain, none | .reduce, none => (runAnyway (finishCopy c) s, r.2)

/-- A replay entry restarts (R296): its token is busy again, and its sides in pad space have their ranges. -/
def restart (s : State) (c : Copy) : State :=
  let s := match c.kind with
    | .chain => s.onSeat (fun t => { t with chd := t.chd.set c.ch c.src })
    | .plain | .halo | .reduce => s
  let held := match c.kind with
    | .chain => chainHeld c s
    | .plain | .halo | .reduce => if isPadSpace c.dst then [⟨c.tok, padOffset c.dst, padOffset c.dst + c.len, true⟩] else []
  s.onSeat (fun t => { t with copies := t.copies ++ [{ c with since := t.cycles.toNat }], ranges := t.ranges ++ held })

/-- Entries in ascending LSN order. -/
def insertCopy (c : Copy) : List Copy → List Copy
  | [] => [c]
  | d :: rest => if lsnLt c.lsn d.lsn then c :: d :: rest else d :: insertCopy c rest

/-- The replay entries of the seat at hand restart in ascending LSN order (R296). -/
def restartAll (s : State) : State :=
  let l := (s.seat.replay.foldl (fun l c => insertCopy c l) []).map (fun c => { c with page := none })
  l.foldl restart (s.onSeat (fun t => { t with replay := [] }))

/-- Every copy of a dying unit, its replay entries among them: what a quiescence has stopped, or a saved context holds (R301). -/
def killCopies (s : State) : State × Nat :=
  let r := s.seat.copies.foldl (killCopy false) (s, 0)
  let s := restartAll r.1
  s.seat.copies.foldl (killCopy true) (s, r.2)

/-- The atomics of a dying unit land (R43, R114); their results are gone. -/
def landAll (s : State) : State :=
  s.seat.atoms.foldl (fun s a =>
    let s := (landMemory s a).1
    s.onSeat (fun t => { t with atoms := t.atoms.filter (fun x => x.lsn != a.lsn) })) s

/-- The steps of R274 for the unit of the seat at hand, up to the counter: what it did above H is discarded, its atomics land,
its copies end, its other unpublished bytes go, its absent arrivals are applied. Answers also the counts of R212. Waits for tokens and walkers pass
within it (log 123). -/
def dismiss (s : State) : State × (Nat × Nat × Nat) :=
  let s := s.onSeat (fun t => { t.roll (t.horizon.getD t.engS.lsn) with forced := true })
  let landed := s.seat.atoms.length
  let (s, dropped) := killCopies (landAll s)
  let s := publishCopies s
  let s := s.onSeat (fun t => { t with gsb := [], unpub := [] })
  let c := s.cluster s.here
  let uid := s.seat.unit.uid
  let lost := vmap (fun (b : Barrier) => b.lose uid) c.bars
  let absent := lost.toList.foldl (fun n x => n + x.2) 0
  (s.setCluster { c with bars := vmap Prod.fst lost }, (dropped, landed, absent))

/-- The seat at hand is free again: its Anvil state and its pad entries are released (R39, R274). -/
def vacate (s : State) (pads : Bool) : State :=
  let id := s.seat.id
  let s := detachDrains (clusOf id) (fun n => (((s.anvil (clusOf id)).banks[n]?).getD {}).owner == some id) s
  let s := s.setAnvil (clusOf id) ((s.anvil (clusOf id)).release id)
  let c := s.cell (cellOf id)
  let s := if pads then s.setCell { c with pads := c.pads.filter (fun p => padSeat p.2 != sideOf id + 1) } else s
  { s with seat := { id } }

/-- The entry of a unit is complete (R37). -/
def endEntry (s : State) (part : Fin 32) (uid : Nat) : State :=
  let p := s.part part
  s.setPart { p with entries := p.entries.filter (fun e => e.unit.uid != uid) }

/-- Counts of a killed unit go to the QUENCH that killed it (R212). -/
def creditKill (s : State) (u : UnitRec) (n : Nat × Nat × Nat) : State :=
  let p := s.part u.part
  s.setPart (p.credit u.scope (fun q => { q with
    killed := q.killed + 1, dropped := q.dropped + BitVec.ofNat 32 n.1
    landed := q.landed + BitVec.ofNat 32 n.2.1, absent := q.absent + BitVec.ofNat 32 n.2.2 }))

/-- The scope of a unit that a forced unload kills ends CANCELLED (R302). -/
def markCancelled (s : State) (u : UnitRec) : State :=
  let p := s.part u.part
  s.setPart (p.setScope { p.scope u.scope with cancelled := true })

/-- An image is named by a unit, a saved context or an entry (R302). -/
def imageNamed (s : State) (h : W32) : Bool :=
  s.seats.any (fun t => t.unit.image == h) || s.saved.any (fun x => x.seat.unit.image == h)
    || s.parts.any (fun p => p.entries.any (fun e => e.unit.image == h))

/-- An image that is being unloaded goes once nothing names it, with its lines in every instruction cache (R302). -/
def sweepImage (s : State) (h : W32) : State :=
  match s.image h with
  | none => s
  | some i =>
    if !i.unload || imageNamed s h then s
    else
      let n := i.img.slices.foldl (fun n x => n + x.words.length) 0
      { s with
        images := s.images.filter (fun x => x.img.handle != h)
        codeObjs := s.codeObjs.filter (fun o => s.images.any (fun x => x.img.handle != h && x.object == o.1))
        icache := s.icache.filter (fun l => !(l.vf == i.vf && l.proc == i.proc
          && decide (i.img.base.toNat < l.addr.toNat + 64) && decide (l.addr.toNat < i.img.base.toNat + 4 * n))) }

/-- The unit of the seat at hand is killed (R43, R274, R302). -/
def killUnit (s : State) : State :=
  let s := finishHalos s
  let u := s.seat.unit
  let why := s.seat.kill
  let t := s.seat
  let (s, n) := dismiss s
  let s := vacate s true
  let s := creditKill s u n
  let s := if why == .unload then reportUnit (markCancelled s u) t FC.codeGone (u.image.setWidth 64) false else s
  let s := endEntry s u.part u.uid
  sweepImage (settle (countDown s u.part u.scope u.ct) u.part u.path) u.image

/-- A copy of the seat at hand waits for a response from beyond the package (R263). -/
def copyAsks (s : State) (c : Copy) : Bool :=
  let waits (m : M Unit) : Bool := match m (s.onSeat (fun t => { t with forced := true })) with
    | .error (.wait .remote) => true
    | _ => false
  match c.ended, c.kind with
  | some _, _ => false
  | none, .chain => waits (chainRecordStep c)
  | none, .halo => copyStarted s c && waits (finishCopy c)
  | none, .plain | none, .reduce => waits (finishCopy c)

/-- A copy of the seat at hand that has started, or, with `kept`, a replay entry that runs to its end, can not land before a response comes from beyond
the package, or before the Hearth has made a page present (R263, R274, R285, R301). -/
def copyStuck (kept : Bool) (s : State) (c : Copy) : Bool :=
  match c.kind with
  | .chain =>
    let t := endRecord c s
    let same := kept && c.begun.isNone && t.seat.chd[c.ch] == s.seat.chd[c.ch]
    (kept || c.begun.isSome) && (match t.seat.copies.find? (fun x => x.tok == c.tok) with
      | some x => x.ended.isNone && (x.page.isSome || ((x.begun.isSome || same) && copyAsks t x))
      | none => false)
  | .plain | .halo | .reduce => copyAsks s c

/-- The kill of the unit at hand has to wait for one of its copies, once its atomics have landed. -/
def killWaits (s : State) : Bool :=
  let s := landAll (s.onSeat (fun t => { t.roll (t.horizon.getD t.engS.lsn) with forced := true }))
  let r := restartAll s
  s.seat.copies.any (copyStuck false s)
    || r.seat.copies.any (fun c => s.seat.replay.any (fun x => x.tok == c.tok) && copyStuck true r c)

/-- The steps of R274 up to the second: issue has stopped and what ran ahead is gone. Where a started copy has yet to land, the kill stays
there. -/
def killNow (s : State) : State :=
  if killWaits s then s.onSeat (fun t => { t.roll (t.horizon.getD t.engS.lsn) with status := .dying }) else killUnit s

/-- A saved unit's reservation of banks and slots ends (R300). -/
def unreserve (s : State) (uid : Nat) : State :=
  { s with clusters := s.clusters.map (fun c => { c with anvil := { c.anvil with resv := c.anvil.resv.filter (fun r => r.1 != uid) } }) }

/-- An action for the context of a saved unit, which is on no seat: the seat at hand stands among the others meanwhile. -/
def apart {α : Type} (s : State) (t : Seat) (f : State → State × α) : State × α :=
  if s.seat.status == .vacant then
    let r := f { s with seat := t }
    ({ r.1 with seat := s.seat }, r.2)
  else
    let r := f { s with seat := t, others := s.seat :: s.others }
    match r.1.others with
    | u :: rest => ({ r.1 with seat := u, others := rest }, r.2)
    | [] => ({ r.1 with seat := s.seat }, r.2)

/-- The pads of a saved unit stand in those of its old cell while the Hearth runs its copies to their ends (R301), what was in near pad in spare blocks. -/
def lendPads (x : Saved) (s : State) : State :=
  let mine (p : Nat × Dword) : Bool := x.pads.any (fun q => q.1 == p.1)
  let put (s : State) (b : Nat) (e : Dword) : State := s.setCell { s.cell (cellOf s.seat.id) with pads := (b, e) :: (s.cell (cellOf s.seat.id)).pads }
  let c := s.cell (cellOf s.seat.id)
  let s := s.setCell { c with pads := c.pads.filter (fun p => !mine p) }
  let s := (x.pads.filter (fun p => padSp p.2.1)).foldl (fun s p => put s p.1 p.2.1) s
  (x.pads.filter (fun p => !padSp p.2.1)).foldl (fun s p =>
    let e : Dword := (p.2.1 &&& 0xFD) ||| 2 ||| BitVec.ofNat 64 (freeSpill s (dieOf s.seat.id) * 16384)
    fillBlock (put s p.1 e) e p.2.2 ((x.padMarks.filter (fun m => m.1 == p.1)).map Prod.snd)) s

/-- An action of a saved unit's with its pads; the cell has its own again after it. -/
def withPads {α : Type} (x : Saved) (f : State → State × α) (s : State) : State × α :=
  let k := cellOf s.seat.id
  let t := lendPads x s
  let r := f t
  let lent := (t.cell k).pads.filter (fun p => x.pads.any (fun q => q.1 == p.1 && !padSp q.2.1))
  ((lent.map (fun p => padKey k p.2 0)).foldl clearBlock (r.1.setCell { r.1.cell k with pads := (s.cell k).pads }), r.2)

/-- A saved context is discarded without restore (R301, R302): the Hearth runs its copies with its own pads, and they have their responses (log 115). -/
def killSaved (s : State) (x : Saved) (why : KillWhy) : State :=
  let u := x.seat.unit
  let t := { x.seat with replay := x.seat.replay.map (fun c => { c with resp := true }) }
  let (s, n) := apart { s with saved := s.saved.filter (fun y => y.seat.unit.uid != u.uid) } t (withPads x dismiss)
  let s := creditKill s u n
  let s := if why == .unload then reportUnit (markCancelled s u) x.seat FC.codeGone (u.image.setWidth 64) false else s
  let v := s.vf u.vf
  let s := match x.reply with
    | some q => s.setVf { v with open_ := v.open_.filter (· != q) }
    | none => s
  countDown (endEntry (unreserve s u.uid) u.part u.uid) u.part u.scope u.ct

/-- An entry that is not placed goes (R43, R273): counted as killed. -/
def voidEntry (s : State) (part : Fin 32) (e : Entry) : State :=
  let s := endEntry s part e.unit.uid
  let p := s.part part
  let s := s.setPart (p.credit e.unit.scope (fun q => { q with killed := q.killed + 1 }))
  countDown s part e.unit.scope e.unit.ct

/-- QUENCH of a scope (R43, R44, R211, R218, R273): of one that is already done, a record with counts of zero. -/
def quenchScope (s : State) (part : Fin 32) (n : BitVec 12) (issuer : Option (Nat × BitVec 5)) : State :=
  let p := s.part part
  let x := p.scope n
  if x.state == .done || x.state == .free then acknowledge s part x { scope := n, gen := x.gen, issuer, earlier := true }
  else
    let sub (k : BitVec 12) : Bool := inSub p n k
    let p : Part := { p with
      scopes := p.scopes.map (fun (y : Scope) => if sub y.num && (y.state == .opened || y.state == .closed) then
        { y with cancel := true, cancelled := true, state := .closed } else y)
      quenches := p.quenches ++ [{ scope := n, gen := x.gen, issuer }] }
    let s := s.setPart p
    let s := { s with clusters := s.clusters.map (fun c => if s.partOf c.ix == part then
      { c with bars := vmap (fun (b : Barrier) => if b.init && sub b.domain then
        { b with broken := true, init := false, parts := [] } else b) c.bars } else c) }
    let void := p.entries.filter (fun e => e.phase != .placed && sub e.unit.scope)
    let dead := s.saved.filter (fun y => y.seat.unit.part == part && sub y.seat.unit.scope)
    let s := void.foldl (fun s e => voidEntry s part e) s
    let s := dead.foldl (fun s y => killSaved s y .quench) s
    let s := s.mapSeats (fun t => if t.status != .vacant && t.unit.part == part && sub t.unit.scope && t.kill == .no then
      { t with kill := .quench } else t)
    settle s part (void.flatMap (fun e => e.unit.path) ++ dead.flatMap (fun y => y.seat.unit.path))

-- Placement (R38).
/-- An engine at the start of its slice (R24, R29). -/
def startEngine (i : SliceImage) (e : Eng) : Engine :=
  match i.slices[engNum e]? with
  | some sl => { lsn := sl.start }
  | none => { done := true }

/-- A unit's context at its start on a seat (R97, R227). -/
def startSeat (s : State) (id : SeatId) (u : UnitRec) (i : SliceImage) : Seat :=
  { id, status := .running, unit := u, vpAny := s.seqNo, vpClus := s.seqNo
    engS := startEngine i .s, engA := startEngine i .a, engV := startEngine i .v
    engM := startEngine i .m, engW := startEngine i .w, engC := startEngine i .c }

/-- A seat that a unit of the partition may take: it exists, its cell is in service, its cluster is the partition's, and no
unit is on it (R17, R38, R244). -/
def seatFree (s : State) (part : Fin 32) (id : SeatId) : Bool :=
  seatExists id && !(s.cell (cellOf id)).retired && s.partOf (clusOf id) == part && s.seats.all (fun t => t.id != id)

end Sys2Proof.Machine
end

