-- ==== Sys2Proof/Machine/MatrixOps.lean ====
section
/-! DEFINITION. What a matrix command does to its banks: K-block by K-block (R59-R61, R174-R176, R178, R183, R290). -/

namespace Sys2Proof.Machine

/-- Element `j` of K-block `b` of a tile row, as an exact value with its block scale (R174). -/
def aElem (tag : FCode) (hi asg : Bool) (row : Nat) (b j : Nat) : Num :=
  let half := if hi then 256 else 0
  let k := 32 * b + j
  match tag.toNat with
  | 1 => decodeF bf16 (elemAt row 16 k)
  | 3 => decodeF e4m3 (elemAt row 8 (half + k))
  | 4 => decodeF e5m2 (elemAt row 8 (half + k))
  | 5 => mxNum e4m3 (elemAt row 8 k) (elemAt row 8 (256 + b))
  | 6 => mxNum e2m1 (elemAt row 4 k) (elemAt row 8 (256 + b))
  | 12 => let x := elemAt row 8 (half + k); numOfInt (if asg then signedOf 8 x else x)
  | _ => let x := elemAt row 4 (half + k); numOfInt (if asg then signedOf 4 x else x)

/-- Magnitude bits of the A alignment (R59); MXFP4's four-bit magnitudes are exact. -/
def aBits (tag : FCode) : Nat := if tag == 1 || tag == 6 then 15 else 7

def isIntTag (tag : FCode) : Bool := tag == 12 || tag == 13

/-- Element (k, n) of a slot: elements that are not listed are zero (R173). -/
def slotElem (x : Slot) (bsg : Bool) (k n : Nat) : Num :=
  match x.elems.find? (fun e => e.1 == 256 * n + k) with
  | none => .fin false 0 0
  | some (_, v) =>
    match x.ty, v with
    | .float, v => v
    | .int8, .fin _ m _ => numOfInt (if bsg then signedOf 8 m else m)
    | .int4, .fin _ m _ => numOfInt (if bsg then signedOf 4 m else m)
    | .int8, w => w
    | .int4, w => w

def numToIntExact : Num → Int
  | .fin neg m e => let x : Int := m <<< e.toNat; if neg then -x else x
  | .nan | .inf _ => 0

/-- One accumulator word after one K-block (R60, R61): `over` tells that the block overwrites. -/
def accStep (int : Bool) (wa : Nat) (fresh : Bool) (a b : List Num) (acc : Nat) : Nat :=
  if int then
    let sum := (a.zip b).foldl (fun x p => x + numToIntExact p.1 * numToIntExact p.2) (0 : Int)
    wrapInt 32 ((if fresh then 0 else (acc : Int)) + sum)
  else
    let p := blockProduct a b wa
    numToF fp32 .rne (if fresh then p else numAdd (decodeF fp32 acc) p)

/-- One K-block of one row applied to a bank row. -/
def rowStep (c : MCmd) (x : Slot) (row : Nat) (b : Nat) (acc : BitVec 8192) : BitVec 8192 :=
  let a := (List.range 32).map (aElem c.tag c.hi c.asg row b)
  BitVec.ofNat 8192 (packElems 32 256 (fun n =>
    accStep (isIntTag c.tag) (aBits c.tag) (b == 0 && !c.acc) a
      ((List.range 32).map (fun j => slotElem x c.bsg (32 * b + j) n)) (elemAt acc.toNat 32 n)))

def Anvil.setBank (a : Anvil) (n : Nat) (b : Bank) : Anvil := { a with banks := a.banks.setIfInBounds n b }

/-- The taint that a command gives the bank rows that it writes: that of all tile rows that it reads, and of an MMULG's index (R183); an
MMULG's too, though each of its pairs acts as a one-row MMUL (R176; DESIGN CHOICE, log 139). -/
def cmdTaint (c : MCmd) (t : Seat) : Taint :=
  c.pairs.foldl (fun k p => k ||| t.tiles[c.tile].rows[Fin.ofNat 32 p.1].taint) c.idxT

/-- The damage that a command gives the bank rows that it writes (R290): 6 for a slot row with a parity error among its K-blocks, 7 for a
damaged bank row that it adds to, else 0. -/
def cmdBad (c : MCmd) (a : Anvil) : Byte :=
  if (List.range c.kb).any (fun b => a.slots[c.slot].bad.contains b) then 6
  else if c.acc && c.pairs.any (fun p => (a.banks[c.bank + p.2 / 8]?.getD {}).bad[Fin.ofNat 8 p.2] != 0) then 7 else 0

/-- One step of a command (R175, R176): K-block `b` of the pair of a source row and a destination row. -/
def cmdStep (c : MCmd) (s : State) (p : (Nat × Nat) × Nat) : State :=
  let a := s.anvil s.here
  let n := c.bank + p.1.2 / 8
  let r : Fin 8 := Fin.ofNat 8 p.1.2
  let bank := a.banks[n]?.getD {}
  let row := s.seat.tiles[c.tile].rows[Fin.ofNat 32 p.1.1]
  let fresh := p.2 == 0 && !c.acc
  let t := cmdTaint c s.seat
  let bad := cmdBad c a
  let bank := { bank with
    rows := bank.rows.set r (rowStep c a.slots[c.slot] row.data.toNat p.2 bank.rows[r])
    taint := bank.taint.set r (if fresh then t else t ||| bank.taint[r])
    bad := bank.bad.set r (if bad != 0 then bad else if fresh then 0 else bank.bad[r]) }
  noteBank n bank (s.setAnvil s.here (a.setBank n bank))

/-- All steps of a command in order: rows ascending (or pairs in list order), K-blocks ascending. -/
def cmdSteps (c : MCmd) : List ((Nat × Nat) × Nat) := c.pairs.flatMap (fun p => (List.range c.kb).map (fun b => (p, b)))

/-- The steps that a command has still to make (R178). -/
def cmdLeft (c : MCmd) : List ((Nat × Nat) × Nat) := (cmdSteps c).drop (c.row * c.kb + c.blk)

/-- The rows that a command's last read empties (R27, R175). -/
def emptyRows (c : MCmd) (t : Seat) : Seat :=
  if c.lr then
    c.pairs.foldl (fun t p => t.setRow c.tile (Fin.ofNat 32 p.1) {}) t
  else t

/-- A command runs to its end and leaves the matrix queue; if it had been stopped, V is 0 again (R179, R180). -/
def finishCmd (s : State) (c : MCmd) : State :=
  let s := (cmdLeft c).foldl (cmdStep c) s
  s.onSeat (fun t => { emptyRows c t with
    mq := t.mq.filter (fun x => x.lsn != c.lsn)
    mstop := if t.mstop.lsn == c.lsn then { t.mstop with v := false } else t.mstop })

/-- A command stops at a K-block boundary after `k` more steps (R178, R293): MSTATE and the rest of the command. -/
def stopCmd (s : State) (c : MCmd) (k : Nat) : State :=
  let s := ((cmdLeft c).take k).foldl (cmdStep c) s
  let done := c.row * c.kb + c.blk + k
  let c' := { c with row := done / c.kb, blk := done % c.kb, started := false }
  s.onSeat (fun t => { t with
    mq := t.mq.map (fun x => if x.lsn == c.lsn then c' else x)
    mstop := { v := true, lsn := c.lsn, kb := BitVec.ofNat 3 c'.blk, row := BitVec.ofNat 5 c'.row } })

-- The lease (R169-R171).
/-- Commands of the seat at hand that have resolved and not started. -/
def unstarted (t : Seat) : Nat := (t.mq.filter (fun c => !c.started)).length

/-- The command at the head of the queue starts on the Anvil, and is counted, if the run has a command left (R170). -/
def startHead (s : State) : State :=
  match s.seat.mq with
  | [] => s
  | c :: rest =>
    let a := s.anvil s.here
    if !c.started && a.holder == some s.seat.id && decide (0 < a.left) then
      (s.setAnvil s.here { a with left := a.left - 1 }).onSeat (fun t => { t with mq := { c with started := true } :: rest })
    else s

/-- The seat at hand asks for the lease; a seat of a retired cell never does (R17, R171). -/
def request (s : State) : State :=
  let a := s.anvil s.here
  if a.reqs.contains s.seat.id || (s.cell (cellOf s.seat.id)).retired then s else s.setAnvil s.here { a with reqs := a.reqs ++ [s.seat.id] }

/-- The seat at hand gives the lease back. -/
def dropLease (s : State) : State :=
  let a := s.anvil s.here
  s.setAnvil s.here { a with
    holder := if a.holder == some s.seat.id then none else a.holder
    left := if a.holder == some s.seat.id then 0 else a.left
    reqs := a.reqs.filter (· != s.seat.id) }

/-- The matrix queue at a pre-emption (R293, R294): the command at its head stops at a boundary that is free within R178's
words, or has reached its end. -/
def stopMatrix (s : State) : State :=
  match s.seat.mq with
  | [] => s
  | c :: _ =>
    if !c.started then s
    else
    let (n, s) := s.pick
    let left := (cmdLeft c).length
    let k := n % (left + 1)
    if k == left then finishCmd s c else stopCmd s c k

end Sys2Proof.Machine
end

