-- ==== Sys2Proof/Machine/Streams.lean ====
section
/-! DEFINITION. Stream generators (R142-R146), gathers, and the prediction of an LDV.SY.ACQ (R152). -/

namespace Sys2Proof.Machine

/-- The extent of dimension `i` in a walk, which has one place along a dimension that is not in use (R137, R143). -/
def dimExt (o : List Dword) (i : Nat) : Nat := if i < obDims o then obExt o i else 1

/-- Elements that a walk has. -/
def walkTotal (o : List Dword) : Nat := dimExt o 0 * dimExt o 1 * dimExt o 2 * dimExt o 3

/-- The formats whose dimension 0 is packed, STR0 being ignored: 4-bit and block formats (R143, R173). -/
def packedDim0 (f : FCode) : Bool := f == 13 || f == 5 || f == 6 || f == 7

/-- The address of element i0 of a row that starts at `row`, and its nibble. -/
def elemPlace (o : List Dword) (row : Dword) (i0 : Nat) : Dword × Nat :=
  let f := obFmt o
  if packedDim0 f then
    if widthOf f == 4 then (row + BitVec.ofNat 64 (i0 / 2), i0 % 2) else (row + BitVec.ofNat 64 i0, 0)
  else (row + BitVec.ofNat 64 i0 * obStr o 0, 0)

/-- The place of element `k` of a walk, dimension 0 fastest (R143). -/
def walkPlace (o : List Dword) (off : Dword) (k : Nat) : Dword × Nat :=
  let e0 := dimExt o 0
  let e1 := dimExt o 1
  let e2 := dimExt o 2
  let row := obBase o + off + BitVec.ofNat 64 (k / e0 % e1) * obStr o 1
    + BitVec.ofNat 64 (k / e0 / e1 % e2) * obStr o 2 + BitVec.ofNat 64 (k / e0 / e1 / e2) * obStr o 3
  elemPlace o row (k % e0)

/-- Checks an element's object bound and rights, its translation and its format, in that order (R138). -/
def elemPieces (o : List Dword) (va : Dword) (write : Bool) : M (List (Loc × Dword × Nat)) := do
  let w := widthOf (obFmt o)
  let n := if w < 8 then 1 else w / 8
  liftRun (elementCheck o va n write)
  let pieces ← locate va n (if write then .write else .read)
  mEach pieces (fun (p, a, _) => liftRun (formatCheck (obFmt o) p.fmt a))
  pure pieces

/-- An element of an object as the access engine reads it (R138, R143, R150). -/
def readElem (l : Lsn) (v : View) (o : List Dword) (at_ : Dword × Nat) : M Nat := do
  let pieces ← elemPieces o at_.1 false
  let bytes ← readUnit l v pieces
  noteRead l pieces v.nx
  let x := natOfBytes bytes
  pure (if widthOf (obFmt o) < 8 then elemAt x 4 at_.2 else x)

/-- Elements in order up to the first whose check fails (R143). -/
def collect {α : Type} (f : α → M Nat) (l : List α) : M (List Nat × Option FaultInfo) :=
  match l with
  | [] => pure ([], none)
  | x :: rest => do
    let r ← tryRun (f x)
    match r with
    | .error e => pure ([], some e)
    | .ok v =>
      let (vs, e) ← collect f rest
      pure (v :: vs, e)

/-- A poisoned entry (R34, R140): the faulting address in data bytes 7:0. VCNT and FMT are 0 (DESIGN CHOICE, log 106: the spec gives
neither). -/
def poisoned (f : FaultInfo) (k : Taint) : PortEntry :=
  { data := f.addr.setWidth 4096, taint := k, vcnt := 0, psn := true, last := true, fcode := f.code, faux := f.aux }

def Seat.pushPort (t : Seat) (q : Fin 16) (x : PortEntry) (l : Lsn) (e : Eng := .a) : Seat :=
  { t with ports := t.ports.set q (qLive t t.ports[q] ++ [{ val := x, lsn := l, maker := e }]) }

/-- The format that entries of an object's stream carry: a ZM object gives RAW (R143). -/
def entryFmt (f : FCode) : FCode := if isZm f then 0 else f

/-- An entry of `xs` elements of an object. -/
def streamEntry (o : List Dword) (xs : List Nat) (k : Taint) (last prov : Bool) : PortEntry :=
  { data := BitVec.ofNat 4096 (packList (widthOf (obFmt o)) xs), taint := k, vcnt := xs.length, prov, last, fmt := entryFmt (obFmt o) }

def Seat.putGen (t : Seat) (g : Gen) : Seat :=
  { t with gens := if g.ended && !g.prov then t.gens.filter (fun x => x.lsn != g.lsn || x.port != g.port)
      else t.gens.map (fun x => if x.lsn == g.lsn && x.port == g.port then g else x) }

/-- A generator that still has entries to push, or whose entries are provisional. -/
def Gen.active (g : Gen) : Bool := g.stopped.isNone && (!g.ended || g.prov)

def Seat.portActive (t : Seat) (q : Nat) : Bool := t.gens.any (fun g => g.port == q && g.active)

/-- The failure that a poisoned entry holds (R34). -/
def PortEntry.failure (x : PortEntry) : FaultInfo := { code := if x.psn then x.fcode else 0, aux := x.faux }

/-- The generator pushes an entry and goes on, or ends; what its entry's failure dropped at a port is counted (R263). -/
def genEmit (g : Gen) (x : PortEntry) : M Unit := do
  mMod (noteDrop x.failure)
  mModSeat (fun t => { (t.pushPort (Fin.ofNat 16 g.port) x g.lsn).putGen { g with ended := x.last, remote := .idle } with
    lines := t.lines.filter (fun r => r.lsn != g.lsn) })

/-- The first of some elements that lies beyond the package (R263, R317). -/
def farElement (o : List Dword) (l : List (Dword × Nat)) : M (Option Dword) :=
  match l with
  | [] => pure none
  | x :: rest => do
    let q ← tryRun (elemPieces o x.1 false)
    match q with
    | .ok p => if p.any (fun p => farHome p.1.key) then pure (some x.1) else farElement o rest
    | .error _ => farElement o rest

/-- An entry whose elements lie beyond the package waits for the response (R263, R317). -/
def genGate (g : Gen) (l : List (Dword × Nat)) (m : M Unit) : M Unit := do
  let far ← farElement g.obj l
  match far, g.remote with
  | none, _ | some _, .answered => m
  | some va, .idle => mModSeat (fun t => t.putGen { g with remote := .asked t.cycles.toNat va })
  | some _, .asked .. => mModSeat (fun t => t.putGen g)

/-- The next entry of a walk (R143). -/
def walkPush (g : Gen) : M Unit := do
  let total := walkTotal g.obj
  let cap := 4096 / widthOf (obFmt g.obj)
  if total ≤ g.pos then mModSeat (fun t => t.putGen { g with ended := true })
  else
    let row := dimExt g.obj 0
    let k := Nat.min (Nat.min cap (total - g.pos)) (match g.kind with
      | .row => row - g.pos % row
      | .pack => cap)
    let places := (List.range k).map (fun i => walkPlace g.obj g.off (g.pos + i))
    genGate g places (do
      let (xs, f) ← collect (readElem g.lsn { coherent := g.sy || g.taint != 0, nx := g.nx } g.obj) places
      match f with
      | some e => genEmit g (poisoned e g.taint)
      | none => genEmit { g with pos := g.pos + k } (streamEntry g.obj xs g.taint (decide (total ≤ g.pos + k)) false))

/-- The indices that an index entry holds (R145). -/
def entryIndices (x : PortEntry) : List W32 :=
  (List.range (x.vcnt * widthOf x.fmt / 32)).map (fun i => x.data.extractLsb' (32 * i) 32)

/-- An indexed element of dimension 0 (R145). -/
def readIndexed (g : Gen) (x : W32 × Taint) : M Nat := do
  let at_ := elemPlace g.obj (obBase g.obj) x.1.toNat
  mCheck (decide (x.1.toNat < obExt g.obj 0)) FC.objBounds at_.1 0
  readElem g.lsn { coherent := g.sy || (g.taint ||| x.2) != 0, nx := g.nx } g.obj at_

/-- LAST on the newest entry of the generator. -/
def Seat.markLast (t : Seat) (g : Gen) : Seat :=
  let q := Fin.ofNat 16 g.port
  let mark : List (Item PortEntry) → List (Item PortEntry) := fun l =>
    (mapFirst (fun i => i.lsn == g.lsn) (fun i => { i with val := { i.val with last := true } }) l.reverse).reverse
  { t with ports := t.ports.set q (mark t.ports[q]) }

/-- Whether the indices at hand make an entry: those of one index entry of kind ROW, as many as fit of kind PACK (R145). -/
def gatherFull (g : Gen) (cap : Nat) : Bool :=
  match g.kind with
  | .row => true
  | .pack => decide (cap ≤ g.pending.length) || g.lastIn

/-- The next entry of a gather (R145). Index entries are taken one at a time, the elements of each checked before the next is taken,
so that none is popped past an element that fails; a poisoned index entry is answered, with nothing else. The fuel bounds the entries
of a port. -/
def gatherPush (fuel : Nat) (g : Gen) (ip : Fin 16) : M Unit :=
  match fuel with
  | 0 => mModSeat (fun t => t.putGen g)
  | fuel + 1 => do
    let cap := 4096 / widthOf (obFmt g.obj)
    let now := g.pending.take cap
    let more : M Unit := do
      let t ← mSeat
      match qHead t.ports[ip] with
      | none => mModSeat (fun t => t.putGen g)
      | some i =>
        mModSeat (fun t => { t with ports := t.ports.set ip (qTake t.ports[ip] g.lsn .a) })
        let out : PortEntry → M Unit := fun x =>
          genEmit { g with pending := [] } { x with taint := g.taint ||| x.taint, last := true, prov := g.prov }
        if i.val.psn then out i.val
        else if i.val.bad then out (poisoned { code := FC.soft, aux := 1 } i.val.taint)
        else
          gatherPush fuel { g with
            pending := g.pending ++ (entryIndices i.val).map (fun x => (x, i.val.taint))
            lastIn := i.val.last, prov := g.prov || i.val.prov } ip
    if now.isEmpty then
      if g.lastIn then mModSeat (fun t => (t.markLast g).putGen { g with ended := true }) else more
    else
      let k := now.foldl (fun k x => k ||| x.2) g.taint
      genGate g (now.map (fun x => elemPlace g.obj (obBase g.obj) x.1.toNat)) (do
        let (xs, f) ← collect (readIndexed g) now
        match f with
        | some e => genEmit g { poisoned e k with prov := g.prov }
        | none =>
          if gatherFull g cap then
            let rest := g.pending.drop cap
            genEmit { g with pending := rest } (streamEntry g.obj xs k (g.lastIn && rest.isEmpty) g.prov)
          else more)

/-- The generator of a port pushes its next entry, if the port has room (R142). -/
def genPush (q : Nat) : M Unit := do
  let t ← mSeat
  match t.gens.find? (fun g => g.port == q && !g.ended && g.stopped.isNone) with
  | none => pure ()
  | some g =>
    mNeeds (decide ((qLive t t.ports[Fin.ofNat 16 q]).length < 8)) .portFull
    match g.index with
    | none => walkPush g
    | some ip => gatherPush 64 g (Fin.ofNat 16 ip)

-- LDV.
/-- Located pieces cut into the page's elements, each of which a read that skips the alias check finds as of one moment (R150); a slot
of a ZM page stays whole. -/
def elemChunks (pieces : List (Loc × Dword × Nat)) : List (List (Loc × Dword × Nat)) :=
  pieces.flatMap (fun (p, a, k) =>
    let w := Nat.max 1 (widthOf (entryFmt p.fmt) / 8)
    if isZm p.fmt then [[(p, a, k)]]
    else (List.range (k / w)).map (fun i => [({ p with key := p.key + w * i }, a + BitVec.ofNat 64 (w * i), w)]))

/-- The entry that an LDV reads (R147). -/
def ldvEntry (l : Lsn) (v : View) (va : Dword) (k : Taint) : M PortEntry := do
  mCheck (va.toNat % 64 == 0) FC.align va 0
  let pieces ← locate va 512 .read
  remoteGate .a pieces
  match pieces with
  | [] => pure { data := 0 }
  | (p, _, _) :: rest =>
    mEach rest (fun (r, a, _) => mCheck (r.fmt == p.fmt) FC.format a (r.fmt.setWidth 8 ||| (p.fmt.setWidth 8 <<< 4)))
    let parts ← mMap (if v.nx then elemChunks pieces else [pieces]) (readUnit l v)
    noteRead l pieces v.nx
    let bytes := parts.flatten
    let f := entryFmt p.fmt
    pure { data := wordOf 4096 bytes, taint := k, vcnt := 4096 / widthOf f, last := true, fmt := f }

/-- An LDV's entry, or the poisoned one that holds its fault. -/
def ldvRead (l : Lsn) (v : View) (va : Dword) (k : Taint) : M PortEntry := do
  let r ← tryRun (ldvEntry l v va k)
  match r with
  | .ok x => pure x
  | .error f => do
    mMod (noteDrop f)
    pure (poisoned f k)

/-- The entries of a seat that rest on a prediction at port `q` become final, unless another prediction there stands, or go and are
made again (R152). -/
def settlePrediction (p : Predicted) (x : PortEntry) (good : Bool) (t : Seat) : Seat :=
  let q := Fin.ofNat 16 p.port
  let own : List (Item PortEntry) := t.ports[q].map (fun i =>
    if i.lsn == p.lsn && i.val.prov then
      { i with val := { x with taint := i.val.taint }, taken := if good then i.taken else none } else i)
  let left := t.preds.filter (fun y => !(y.port == p.port && y.lsn == p.lsn))
  let more := left.any (fun y => y.port == p.port)
  let t := { t with ports := t.ports.set q own, preds := left }
  (t.gens.filter (fun g => g.index == some p.port && g.prov)).foldl (fun (t : Seat) (g : Gen) =>
    let d := Fin.ofNat 16 g.port
    if good then
      if more then t
      else
        ({ t with ports := t.ports.set d (t.ports[d].map (fun (i : Item PortEntry) =>
          if i.lsn == g.lsn then { i with val := { i.val with prov := false } } else i)) }).putGen
          { g with prov := false }
    else
      let again : List (Item PortEntry) := t.ports[q].map (fun i => if i.taken == some g.lsn then { i with taken := none } else i)
      let t := { t with ports := (t.ports.set q again).set d ((t.ports.set q again)[d].filter (fun i => i.lsn != g.lsn)) }
      { t with gens := t.gens.map (fun y => if y.lsn == g.lsn && y.port == g.port then
        { g with pos := 0, pending := [], lastIn := false, ended := false, prov := false, remote := .idle } else y) }) t

/-- The acquire of a predicted LDV is served: the prediction is confirmed when the value is the predicted one and no other
agent has written anything since it was made (R152). An acquire without a tag that is served otherwise refreshes the phase, and what
the unit has read above it is read again (R110, R227). -/
def confirm (q : Nat) : M Unit := do
  let s ← get
  match s.seat.preds.find? (fun p => p.port == q) with
  | none => pure ()
  | some p =>
    let x ← ldvRead p.lsn { coherent := true } p.addr 0
    let still := !s.hist.any (fun h => decide (p.seq < h.seq) && h.uid != s.seat.unit.uid)
    let good := x.data == p.data && !x.psn && still
    mModSeat (fun t => { settlePrediction p x good t with
      lastAcq := putWhere (fun y => y.1 == p.pc) (p.pc, x.data) t.lastAcq })
    if good || p.tag then pure () else mMod (fun s => refresh (s.onSeat (fun t => squashReads t p.lsn)))

/-- Every prediction of the seat is settled. -/
def confirmAll (s : State) : State := s.seat.preds.foldl (fun s p => runAnyway (confirm p.port) s) s

end Sys2Proof.Machine
end

