-- ==== Sys2Proof/Machine/Ops.lean ====
section
/-! DEFINITION. Raising a word fault (R280, R283-R285), the return from it (R286), pre-emption and resumption (R292-R300), and
how a word executes: its place relative to H, its waits, and the edge that it leaves by (R29-R31, R103). -/

namespace Sys2Proof.Machine

-- Slices of the unit at hand (R24, R25, R67).
def State.myImage (s : State) : Option Image := s.image s.seat.unit.image

def mySlice (s : State) (e : Eng) : Slice :=
  match s.myImage with
  | some i => nth i.img.slices (engNum e) ⟨0, [], []⟩
  | none => ⟨0, [], []⟩

/-- The virtual address of word `k` of an engine's array: the arrays follow one another from the image's base (R24). -/
def sliceAddr (s : State) (e : Eng) (k : Nat) : Dword :=
  match s.myImage with
  | some i =>
    let before := (i.img.slices.take (engNum e)).foldl (fun n x => n + x.words.length) 0
    i.img.base + BitVec.ofNat 64 (4 * (before + k))
  | none => BitVec.ofNat 64 (4 * k)

/-- The side-table entry of word `k` (R25). -/
def sideAt (s : State) (e : Eng) (k : Nat) : SideEntry := nth (mySlice s e).side k ⟨0, 0, 0, false, false⟩

-- Landing.
/-- An atomic lands and its result returns to D, with its taint, in which an acquire's tag is (R110, R112, R114, R115); that of a damaged location
marks D damaged (R289; log 125). -/
def landAtom (s : State) (a : Atom) : State :=
  let (s, old) := landMemory s a
  let s := s.onSeat (fun t => { t with atoms := t.atoms.filter (fun x => x.lsn != a.lsn) })
  match old with
  | none => if a.dst == 0 then s else s.onSeat (fun t => { t with damage := .sreg a.dst :: t.damage.filter (· != .sreg a.dst) })
  | some old =>
    let v : Dword := if a.wide then BitVec.ofNat 64 old else BitVec.signExtend 64 (BitVec.ofNat 32 old)
    if a.dst == 0 then s
    else s.onSeat (fun t => { t with
      s := t.s.set a.dst.toNat v a.dst.isLt, st := t.st.set a.dst.toNat a.taint a.dst.isLt
      damage := t.damage.filter (· != .sreg a.dst) })

-- Pre-emption (R293-R298).
/-- A side of the copy, or of the record that its channel is at, lies in pad space (R293). -/
def padSided (s : State) (c : Copy) : Bool :=
  match c.kind with
  | .chain =>
    let r := if c.begun.isSome then some c.row else foresee (recordRead { c with resp := true } s.seat.chd[c.ch]) s
    (r.map (fun r => isPadSpace (recSrc r) || isPadSpace (recDst r))).getD false
  | .halo => true
  | .plain | .reduce => isPadSpace c.src || isPadSpace c.dst

/-- A record that stops part-way keeps OWN, and DONE counts what has moved (R195, R295). -/
def parkRecord (c : Copy) (s : State) : State :=
  runAnyway (if recDone c.row < c.off then recordWrite c s.seat.chd[c.ch] c.row true ((recD c.row 6).extractLsb' 56 8) c.off else pure ()) s

/-- Step 4 of R293 for one copy: a pad-side copy ends, a memory copy stops after a span, which is free, a chain on memory after a span of its record, one
of a pad, or one that CPYC has stopped, at the record's end (R206), and a CPYH that has not started moves nothing. What is left becomes a replay entry.
Responses that a copy waits for come, and waits for tokens and walkers pass, within it (log 115, log 123). -/
def quiesceCopy (s : State) (c : Copy) : State :=
  let c := { c with resp := true }
  let keep (c : Copy) (s : State) : State :=
    s.onSeat (fun t => { t with
      copies := t.copies.filter (fun x => x.tok != c.tok)
      ranges := t.ranges.filter (fun r => r.tok != c.tok)
      replay := t.replay ++ [{ c with spans := [], moved := [], begun := none, row := [], page := none, resp := false, late := false }] })
  match c.ended, c.kind with
  | some st, _ => retireToken c.tok st s
  | none, .chain =>
    let s := s.onSeat (fun t => { t with copies := t.copies.map (fun x => if x.tok == c.tok then c else x) })
    let s :=
      if c.begun.isNone then s
      else if padSided s c || s.seat.chStop[c.ch] then endRecord c s
      else
        let (n, s) := s.pick
        runAnyway (chainRecordStep { c with page := none } (some (n % 65536))) s
    match s.seat.copies.find? (fun x => x.tok == c.tok) with
    | some x => match x.ended, x.begun with
      | some st, _ => retireToken c.tok st s
      | none, none =>
        if s.seat.chStop[c.ch] then retireToken c.tok 0xFE (s.onSeat (fun t => { t with chStop := t.chStop.set c.ch false }))
        else keep { x with src := s.seat.chd[c.ch], off := 0, doff := 0 } s
      | none, some _ => keep { x with src := s.seat.chd[c.ch], off := 0, doff := 0 } (parkRecord x s)
    | none => s
  | none, .halo => if copyStarted s c then runAnyway (finishCopy c) s else keep c s
  | none, .plain | none, .reduce =>
    if padSided s c then runAnyway (finishCopy c) s
    else
      match copySpans c s with
      | .error _ => runAnyway (finishCopy c) s
      | .ok (l, s) =>
        let (n, s) := s.pick
        let now := l.take (1 + n % (l.length + 1))
        match moveAll c now s with
        | .ok ((moved, st), s) =>
          if st != 0xFF then retireToken c.tok st s
          else if c.len ≤ c.off + moved then retireToken c.tok 0xFF s
          else keep { c with off := c.off + moved, doff := c.doff + spansOut now } s
        | .error _ => keep c s

/-- Steps 1 to 4 of R293 for the seat at hand, and R313; predictions are settled, since no provisional entry is saved (R297). -/
def quiesce (s : State) : State :=
  let s := s.onSeat (fun t => { t.roll (t.horizon.getD t.engS.lsn) with forced := true })
  let s := confirmAll s
  let s := s.seat.atoms.foldl landAtom s
  let s := drainAll s
  let s := stopMatrix s
  let s := s.seat.copies.foldl quiesceCopy s
  (publishCopies s (fun k => !isWindow k)).onSeat (fun t => { t with forced := false })

/-- The seat's pad entries, each with its block and the bytes of a near-pad block (R297). -/
def savePads (s : State) : List (Nat × Dword × List (Nat × Byte)) :=
  ((s.cell (cellOf s.seat.id)).pads.filter (fun p => padSeat p.2 == sideOf s.seat.id + 1)).map (fun p =>
    (p.1, p.2, if padSp p.2 then [] else blockBytesAt s (padKey (cellOf s.seat.id) p.2 0)))

/-- The damage of the seat's near-pad blocks, by block. -/
def savePadMarks (s : State) : List (Nat × MemMark) :=
  ((s.cell (cellOf s.seat.id)).pads.filter (fun p => padSeat p.2 == sideOf s.seat.id + 1 && !padSp p.2)).flatMap (fun p =>
    (blockMarks s (padKey (cellOf s.seat.id) p.2 0)).map (fun m => (p.1, m)))

/-- The damage of the seat's unpublished bytes in the L1 of its cell. -/
def saveL1Marks (s : State) : List MemMark :=
  s.badMem.filter (fun m => m.cell == some (cellOf s.seat.id) && s.seat.unpub.any (fun u => m.left.contains u.byte.key))

/-- Step 5 of R293: the context of the quiesced seat at hand, with the times that its unit has been passed over in all (R38, R297, R299). -/
def saveSeat (s : State) (reply : Option W32) (unsent : Bool) : Saved :=
  let id := s.seat.id
  let a := s.anvil (clusOf id)
  let banks := ((List.range 64).zip a.banks.toList).filter (fun b => b.2.owner == some id)
  let slots := ((List.range 4).zip a.slots.toList).filter (fun x => x.2.owner == some id)
  let uid := s.seat.unit.uid
  { seat := { s.seat with status := .running, copies := [], ranges := [], lines := [], atKill := false }
    passed := s.seat.unit.bypass
    banks, slots, pads := savePads s, padMarks := savePadMarks s, l1Marks := saveL1Marks s, clus := clusOf id, reply, unsent
    pinClus := (s.cluster (clusOf id)).bars.toList.any (fun b => b.takes uid)
      || s.seat.unpub.any (fun u => isWindow u.byte.key) || banks.any (fun b => b.2.cell != cellOf id) }

/-- The near-pad blocks of the saved seat are free again. -/
def clearPads (s : State) : State :=
  ((s.cell (cellOf s.seat.id)).pads.filter (fun p => padSeat p.2 == sideOf s.seat.id + 1 && !padSp p.2)).foldl (fun s p =>
    clearBlock s (padKey (cellOf s.seat.id) p.2 0)) s

/-- Pre-emption of the unit of the seat at hand (R293, R301): a unit that a QUENCH covers is killed instead of saved. One that has been passed over
four times before keeps its claim on its banks and slots (R300). -/
def preempt (s : State) (reply : Option W32) (unsent : Bool) : State :=
  let s := finishHalos (quiesce s)
  if s.seat.kill != .no then killNow s
  else
    let x := saveSeat s reply unsent
    let s := vacate { clearPads s with saved := s.saved ++ [x] } true
    if 4 ≤ x.passed then reserve s x else s

-- Taking a fault.
/-- The engine whose fault is raised at H: the one with the lowest E among those that hold a fault at that LSN and the one at
hand (R280). -/
def firstFault (s : State) (e : Eng) (f : FaultInfo) : Eng × FaultInfo :=
  let l := (s.seat.eng e).lsn
  match engines.find? (fun d => d != e && decide (engNum d < engNum e) && (s.seat.eng d).lsn == l && !(s.seat.eng d).done
      && (s.seat.eng d).held.isSome) with
  | some d => (d, (s.seat.eng d).held.getD f)
  | none => (e, f)

/-- The fault record of a fault of engine `e`'s next word (R277). -/
def recordOf (t : Seat) (e : Eng) (f : FaultInfo) : FaultRecord :=
  { fcode := f.code, flsn := (t.eng e).lsn, flpc := (t.eng e).side.lpc.setWidth 32 <<< 2, faddr := f.addr
    feng := if f.psn then 1 else BitVec.ofNat 3 (engNum e), faux := f.aux }

/-- The seat when a fault is raised at its engine's next word: ROLLBACK and the record (R283). The word of a TRAP is noted: it is passed once the unit
runs again (R219). -/
def takeFault (t : Seat) (e : Eng) (f : FaultInfo) : Seat :=
  let x := t.eng e
  let r := recordOf t e f
  { t.roll x.lsn (some e) with
    frec := r
    after := if f.code == FC.trap then some (x.pc, x.lsn) else t.after }

/-- The host driver gets a report of the unit, which is saved; while 64 reports of the VF are unanswered the unit stays saved
without one (R285). -/
def forward (s : State) : State :=
  let t := s.seat
  let v := s.vf t.unit.vf
  if t.kill != .no then preempt s none false
  else if v.open_.length < 64 then
    reportUnit (preempt s (some v.seq) false) t t.frec.fcode t.frec.faddr true
  else preempt s none true

/-- A word fault is raised at H (R280, R283, R285): the seat is rolled back with its record; the Hearth serves a page of its own
and a BKPT in place, and forwards every other fault to the host driver. -/
def raiseFault (e0 : Eng) (f0 : FaultInfo) (s : State) : State :=
  let (e, f) := firstFault s e0 f0
  let s := forgetFault f (noteDrop f s)
  let s := s.onSeat (fun t => takeFault t e f)
  if (f.code == FC.notPresent && hearthPaged s f.addr) || (f.code == FC.trap && f.aux == 0x40) then
    s.onSeat (fun t => { t with status := .service })
  else forward s

/-- The unit goes on after a service, with every engine where the rollback has put it (R284, R286). -/
def goOn (t : Seat) : Seat := { t with status := .running }

-- Resumption (R296, R299, R300).
/-- The saved banks and slots are free in a cluster, and not reserved there for another unit. -/
def roomIn (s : State) (c : Nat) (x : Saved) : Bool :=
  let a := s.anvil c
  let mine (r : Nat × List Nat × List Nat) : Bool := r.1 == x.seat.unit.uid
  x.banks.all (fun b => ((a.banks[b.1]?).getD {}).owner.isNone && !a.resv.any (fun r => !mine r && r.2.1.contains b.1))
  && x.slots.all (fun y => ((a.slots[y.1]?).getD {}).owner.isNone && !a.resv.any (fun r => !mine r && r.2.2.contains y.1))

/-- The seats on which a saved unit may resume (R299). -/
def mayResume (s : State) (x : Saved) (id : SeatId) : Bool :=
  seatFree s x.seat.unit.part id && (!x.pinClus || clusOf id == x.clus) && roomIn s (clusOf id) x

/-- A near-pad block that no entry of the cell uses (R300). -/
def freeNear (s : State) (cell : Nat) : Option Nat :=
  (List.range 64).find? (fun b => !(s.cell cell).pads.any (fun p => padV p.2 && !padSp p.2 && padLoc p.2 == b))

/-- The damage of a saved block. -/
def marksOf (l : List (Nat × MemMark)) (block : Nat) : List MemMark := (l.filter (fun m => m.1 == block)).map Prod.snd

/-- A saved pad entry of a unit that left die `old`, placed again at its block number (R300): near pad if a block is free, else spilled; a
spilled block of another die is copied to this one. The damage of its bytes comes with them (R289). -/
def restorePad (old : Nat) (marks : List (Nat × MemMark)) (s : State) (p : Nat × Dword × List (Nat × Byte)) : State :=
  let id := s.seat.id
  let c := s.cell (cellOf id)
  let seat : Dword := BitVec.ofNat 64 ((sideOf id + 1) * 64)
  let base : Dword := (p.2.1 &&& 0x3D) ||| seat
  let put (e : Dword) : State := s.setCell { c with pads := putWhere (fun q => q.1 == p.1) (p.1, e) c.pads }
  let spilled : Dword := base ||| 2 ||| BitVec.ofNat 64 (freeSpill s (dieOf id) * 16384)
  if padSp p.2.1 then
    let from_ := homeKey old (padLoc p.2.1 * 16384)
    if old == dieOf id then put (p.2.1 &&& 0xFFFFFFFFFFFFFF3F ||| seat)
    else fillBlock (put spilled) spilled (blockBytesAt s from_) (blockMarks s from_)
  else
    match freeNear s (cellOf id) with
    | some b => let e := base ||| BitVec.ofNat 64 (b * 16384); fillBlock (put e) e p.2.2 (marksOf marks p.1)
    | none => fillBlock (put spilled) spilled p.2.2 (marksOf marks p.1)

/-- A unit's unpublished bytes bring the damage that they had in the L1 of the cell where it was saved (R288, R289, R298). -/
def restoreMarks (x : Saved) (s : State) : State :=
  if cellOf x.seat.id == cellOf s.seat.id then s
  else { s with badMem := s.badMem ++ x.l1Marks.map (fun m => { m with cell := some (cellOf s.seat.id) }) }

/-- The seat's cell notes the VF of the unit that comes on it (R260). -/
def noteUser (s : State) : State :=
  let c := s.cell (cellOf s.seat.id)
  s.setCell { c with users := putWhere (fun x => x.1 == sideOf s.seat.id) (sideOf s.seat.id, s.seat.unit.vf) c.users }

/-- A saved unit restored on a seat at hand (R296, R299, R300): banks whose drain owner was its cell follow it. -/
def restore (s : State) (x : Saved) : State :=
  let id := s.seat.id
  let s := unreserve { s with saved := s.saved.filter (fun y => y.seat.unit.uid != x.seat.unit.uid) } x.seat.unit.uid
  let old := cellOf x.seat.id
  let a := s.anvil (clusOf id)
  let a := x.banks.foldl (fun a b => a.setBank b.1 { b.2 with owner := some id, cell := if b.2.cell == old then cellOf id else b.2.cell }) a
  let a : Anvil := { a with
    slots := x.slots.foldl (fun v y => v.setIfInBounds y.1 { y.2 with owner := some id }) a.slots
    reqs := if x.seat.ls then a.reqs ++ [id] else a.reqs }
  let s := s.setAnvil (clusOf id) a
  let s := { s with seat := { x.seat with id, status := .running, unit := { x.seat.unit with bypass := x.passed }, mq := x.seat.mq.map (fun c => { c with back := true }) } }
  restartAll (restoreMarks x (x.pads.foldl (restorePad (dieOf x.seat.id) x.padMarks) (noteUser s)))

-- How a word executes.
/-- The edge by which a word leaves (R25, R86, R103). -/
inductive Edge where
  | fall
  | to (pc : Nat) (back : Bool)
  | last
  deriving DecidableEq, Repr

/-- An engine after a word (R29, R284): the word enters the list of those that H has not passed. -/
def Engine.leave (x : Engine) (keep : Lsn → Bool) (edge : Edge) : Engine :=
  let x := { x with
    issued := (x.pc, x.lsn) :: x.issued.filter (fun w => keep w.2), wait := none, remote := .idle }
  match edge with
  | .fall => { x with pc := x.pc + 1, lsn := x.lsn + x.side.incf.setWidth 32 }
  | .to pc _ => { x with pc, lsn := x.lsn + x.side.inct.setWidth 32 }
  | .last => { x with done := true }

/-- A backward branch is a kill point, taken or not (R42). -/
def Edge.kill : Edge → Bool
  | .fall => false
  | .to _ back => back
  | .last => false

def Seat.leave (t : Seat) (e : Eng) (edge : Edge) (kill : Bool) : Seat :=
  { t.mapEng e (fun x => x.leave (fun l => !t.passed l) edge) with
    atKill := kill, lines := t.lines.filter (fun r => r.lsn != (t.eng e).lsn) }

/-- The engine waits; nothing else changes. -/
def waiting (s : State) (e : Eng) (w : Wait) : State := s.onEng e (fun x => { x with wait := some w })

/-- No engine issues a word whose LSN is 2^30 or more above H (R29). -/
def near (t : Seat) (e : Eng) : Bool :=
  match t.horizon with
  | some h => decide (((t.eng e).lsn - h).toNat < pow2 30)
  | none => true

/-- A fault of the next word of an engine: raised when the word is at H, else held with it (R280). -/
def fail (s : State) (e : Eng) (f : FaultInfo) : State :=
  if s.seat.atH e then raiseFault e f s
  else (forgetFault f s).onEng e (fun x => { x with held := some f, wait := none })

/-- A word executes on its engine: a horizon-bound one only when H is its LSN (R31); it waits, faults, or leaves by an edge,
and `post` follows. The matrix engine issues nothing until the commands that a resume has brought back have started (R294). -/
def wordThen (e : Eng) (bound : Bool) (s : State) (m : M (Edge × Bool)) (post : State → State) :
    Host.Outcome State Fault Refusal :=
  if s.seat.status != .running then .fault .noUnit
  else if !near s.seat e then .next (waiting s e .distance)
  else if e == .m && s.seat.mq.any (fun c => c.back && !c.started) then .next (waiting s e .matrix)
  else if bound && !s.seat.atH e then .next (waiting s e .horizon)
  else
    match m s with
    | .ok ((edge, kill), s') => .next (post (s'.onSeat (fun t => t.leave e edge kill)))
    | .error (.fault f) => .next (fail s e f)
    | .error (.wait w) => .next (waiting s e w)
    | .error (.waitIn w s') => .next (waiting (waitState e s s' w) e w)

def wordBy (e : Eng) (bound : Bool) (s : State) (m : M (Edge × Bool)) : Host.Outcome State Fault Refusal :=
  wordThen e bound s m id

/-- A word that falls through. -/
def word (e : Eng) (bound : Bool) (s : State) (m : M Unit) : Host.Outcome State Fault Refusal :=
  wordBy e bound s (do m; pure (.fall, false))

/-- The scalar words of R31. -/
def logged (s : State) (m : M Unit) : Host.Outcome State Fault Refusal := word .s false s m
def atHorizon (s : State) (m : M Unit) : Host.Outcome State Fault Refusal := word .s true s m

/-- Room for `n` entries in the engine's log (R32). -/
def mRoom (e : Eng) (n : Nat) : M Unit := fun s => if s.seat.logRoom e n then .ok ((), s) else .error (.wait .log)

/-- The horizon class of a coupling word (R31, R83). -/
def couplingBound : Eng → Bool
  | .s | .a | .v => false
  | .m | .w | .c => true

/-- The target of a slice branch: a word index inside the engine's array, else FETCH (R67). -/
def branchTo (e : Eng) (off : Int) : M (Edge × Bool) := do
  let s ← get
  let t : Int := ((s.seat.eng e).pc : Int) + off
  mCheck (decide (0 ≤ t) && decide (t < ((mySlice s e).words.length : Int))) FC.fetch (sliceAddr s e 0 + BitVec.ofInt 64 (4 * t)) 1
  pure (.to t.toNat (decide (off ≤ 0)), decide (off ≤ 0))

/-- An event that is not a word: it changes the state. -/
def event (s : State) (f : State → State) : Host.Outcome State Fault Refusal := .next (f s)

-- Registers within a word.
def getS (r : BitVec 6) : M (Dword × Taint) := fun s =>
  match s.seat.rdS r with
  | .ok a => .ok (a, s)
  | .error e => .error e
def putS (d : BitVec 6) (v : Dword) (k : Taint) : M Unit := mModSeat (fun t => t.wrS d v k)
def getX (e : Eng) (r : BitVec 6) : M (Dword × Taint) := fun s =>
  match s.seat.rdXf e r with
  | .ok a => .ok (a, s)
  | .error x => .error x
def putX (e : Eng) (d : BitVec 4) (v : Dword) (k : Taint) : M Unit := mModSeat (fun t => t.wrX e d v k)
/-- The LSN of an engine's word. -/
def myLsn (e : Eng) : M Lsn := fun s => .ok ((s.seat.eng e).lsn, s)

end Sys2Proof.Machine
end

