-- ==== Sys2Proof/Machine/Flags.lean ====
section
/-! DEFINITION. Conditions. The CX96 has no flags register: a branch compares two registers (R103), a vector comparison
writes a predicate (R157), an exported branch pushes its decision as a bit (R105). -/

namespace Sys2Proof.Machine

/-- The conditions of R103. -/
def condEq (d a : Dword) : Bool := d == a
def condNe (d a : Dword) : Bool := d != a
def condLt (d a : Dword) : Bool := d.slt a
def condGe (d a : Dword) : Bool := !d.slt a
def condLtu (d a : Dword) : Bool := d.ult a
def condGeu (d a : Dword) : Bool := !d.ult a

/-- A condition as a register value (R99). -/
def boolD (b : Bool) : Dword := if b then 1 else 0

/-- Floating-point comparisons (R157): a NaN makes EQ, LT and LE false and NE true. -/
def fcond (x : FCond) (a b : Num) : Bool :=
  match x with
  | .eq => numEq a b
  | .lt => numLt a b
  | .le => numLt a b || numEq a b
  | .ne => !numEq a b

/-- Integer comparisons of the low `w` bits (R157). -/
def icond (x : ICond) (w a b : Nat) : Bool :=
  match x with
  | .eq => a == b
  | .slt => decide (signedOf w a < signedOf w b)
  | .ult => decide (a < b)
  | .ne => a != b

/-- The engines that take the bit of an exported branch: the others whose next word is no NOTIFY and whose NOTIFY has not
executed (R105). -/
def decisionTakers (s : State) : List Eng :=
  [.a, .v, .m, .w, .c].filter (fun e =>
    let x := s.seat.eng e
    !x.done && (match decodeSlice e (nth (mySlice s e).words x.pc 0) with
      | .ok (.notify _) => false
      | _ => true))

/-- Pushes the decision bit of an exported branch, or waits while a queue is full (R27, R105). -/
def pushDecision (taken : Bool) : M Unit := fun s =>
  if !s.seat.engS.side.exp then .ok ((), s)
  else
    let es := decisionTakers s
    if es.all (fun e => decide ((qLive s.seat (s.seat.eng e).dq).length < 64)) then
      .ok ((), s.onSeat (fun t => es.foldl (fun t e =>
        t.mapEng e (fun x => { x with dq := qLive t x.dq ++ [{ val := taken, lsn := t.engS.lsn }] })) t))
    else .error (.wait .queueFull)

end Sys2Proof.Machine
end

