-- ==== Sys2Proof/Machine/Operands.lean ====
section
/-! DEFINITION. Operand forms: scalar destinations and addresses (R97, R107), port operands (R70), rotating registers (R71),
predicates (R72) and vector groups (R73). -/

namespace Sys2Proof.Machine

-- Scalar operands.
/-- A scalar destination can be written: the log has room for it (R32), and no atomic's result is on its way to it (R97, R114). -/
def mDest (d : BitVec 6) : M Unit := fun s =>
  if s.seat.pendingS d then .error (.wait .atomic)
  else if d == 0 || s.seat.logRoom .s 1 then .ok ((), s)
  else .error (.wait .log)

/-- a + SEXT(I) × size (R107). -/
def offsetAddr (a : BitVec 6) (imm : BitVec 11) (size : Nat) : M (Dword × Taint) := do
  let (x, k) ← getS a
  pure (x + imm.signExtend 64 * BitVec.ofNat 64 size, k)

/-- a + b (R107). -/
def indexAddr (a b : BitVec 6) : M (Dword × Taint) := do
  let (x, kx) ← getS a
  let (y, ky) ← getS b
  pure (x + y, kx ||| ky)

def sizeBytes : Size → Nat
  | .byte => 1 | .half => 2 | .word => 4 | .dword => 8

/-- The address is a multiple of the access size (R107). -/
def mAligned (va : Dword) (n : Nat) : M Unit := mCheck (va.toNat % n == 0) FC.align va 0

-- Ports (R28, R70, R141).
/-- Pops the next entry of a port for a word of engine `e`: a provisional entry is waited for, and a poisoned one raises its
fault (R34, R141). -/
def popPort (e : Eng) (q : Fin 16) : M PortEntry := fun s =>
  let t := s.seat
  match qHead t.ports[q] with
  | none => .error (.wait .portEmpty)
  | some i =>
    if i.val.bad then .error (.fault { code := FC.soft, addr := 0, aux := 1 })
    else if i.val.prov then .error (.wait .portEmpty)
    else if i.val.psn then
      .error (.fault { code := i.val.fcode, addr := i.val.data.extractLsb' 0 64, aux := i.val.faux, psn := true })
    else .ok (i.val, s.onSeat (fun t => { t with ports := t.ports.set q (qTake t.ports[q] (t.eng e).lsn e) }))

/-- The place of a field that names a port, 48 on; any other reads as port 0 (R69). -/
def portOf (f : BitVec 6) : Fin 16 := Fin.ofNat 16 (f.toNat - 48)
def isPort (f : BitVec 6) : Bool := decide (48 ≤ f.toNat)

-- Vector groups (R71-R73, R153, R154).
/-- The physical register of a name (R71). -/
def physV (rbv : Fin 24) (n : Nat) : Fin 48 := if n < 24 then Fin.ofNat 48 n else Fin.ofNat 48 (24 + (n - 24 + rbv.val) % 24)
def physP (rbp : Fin 4) (n : Nat) : Fin 8 := if n < 4 then Fin.ofNat 8 n else Fin.ofNat 8 (4 + (n - 4 + rbp.val) % 4)

/-- A predicate's width, count and taint (R72, R289). -/
def getP (p : BitVec 3) : M (Nat × Nat × Taint) := fun s =>
  let t := s.seat
  let r := physP t.engV.rbp p.toNat
  if t.damage.contains (.pred r) then .error (.fault { code := FC.soft, addr := 0, aux := 1 })
  else .ok ((4 <<< (t.p[r].extractLsb' 13 2).toNat, (t.p[r].extractLsb' 0 13).toNat, t.pt[r]), s)

/-- Registers that `n` elements of width `w` take (R73). -/
def groupSize (n w : Nat) : Nat := ceilDiv (n * w) 4096

/-- The checks of R73 on a group. -/
def groupOk (f : BitVec 6) (g : Nat) : Bool := decide (g ≤ 6) && (isPort f || decide (f.toNat + g ≤ 48))

/-- A destination that the vector engine may write: a register, or q10-q15 (R70). -/
def destFieldOk (f : BitVec 6) : Bool := !isPort f || decide (58 ≤ f.toNat)

/-- Pops `g` entries: their data as one string, and their taints. -/
def popGroup (e : Eng) (q : Fin 16) : Nat → M (Nat × Taint)
  | 0 => pure (0, 0)
  | g + 1 => do
    let x ← popPort e q
    let (rest, k) ← popGroup e q g
    pure (x.data.toNat + (rest <<< 4096), k ||| x.taint)

/-- A group of registers as one string of bits, with its taints. -/
def regGroup (t : Seat) (n : Nat) : Nat → Run (Nat × Taint)
  | 0 => .ok (0, 0)
  | g + 1 => do
    let r := physV t.engV.rbv n
    check (!t.damage.contains (.vreg r)) FC.soft 0 1
    let (rest, k) ← regGroup t (n + 1) g
    pure (t.v[r].toNat + (rest <<< 4096), k ||| t.vt[r])

/-- A source group: ports pop one entry per register (R70). -/
def readGroup (f : BitVec 6) (g : Nat) : M (Nat × Taint) :=
  if isPort f then popGroup .v (portOf f) g
  else fun s => match regGroup s.seat f.toNat g with
    | .ok x => .ok (x, s)
    | .error e => .error e

/-- Writes vector register name `n` through the slag log (R32). -/
def Seat.wrV (t : Seat) (n : Nat) (x : Vec) (k : Taint) : Seat :=
  let r := physV t.engV.rbv n
  let u := t.pushLog .v (.vreg r t.v[r] t.vt[r])
  { u with v := u.v.set r x, vt := u.vt.set r k, damage := u.damage.filter (· != .vreg r) }

/-- Writes predicate name `n` through the slag log. -/
def Seat.wrP (t : Seat) (n : Nat) (x : BitVec 16) (k : Taint) : Seat :=
  let r := physP t.engV.rbp n
  let u := t.pushLog .v (.pred r t.p[r] t.pt[r])
  { u with p := u.p.set r x, pt := u.pt.set r k, damage := u.damage.filter (· != .pred r) }

/-- VCNT of an entry of `n` active elements of width `w`: RAW entries count bytes (R140; log 18). -/
def entryCount (f : FCode) (w n : Nat) : Nat := if f == 0 then n * w / 8 else n

/-- Pushes the `g` entries of a destination group: `n` active elements of width `w` (R154). -/
def pushGroup (q : Fin 16) (f : FCode) (w n : Nat) (bits : Nat) (k : Taint) (l : Lsn) : Nat → Nat → Seat → Seat
  | 0, _, t => t
  | g + 1, i, t =>
    let cap := 4096 / w
    let m := Nat.min cap (n - i * cap)
    let x : PortEntry := { data := BitVec.ofNat 4096 (bits >>> (4096 * i)), taint := k, vcnt := entryCount f w m, last := g == 0, fmt := f }
    pushGroup q f w n bits k l g (i + 1) { t with ports := t.ports.set q (qLive t t.ports[q] ++ [{ val := x, lsn := l, maker := .v }]) }

/-- Writes the `g` registers of a destination group. -/
def writeRegs (n : Nat) (bits : Nat) (k : Taint) : Nat → Nat → Seat → Seat
  | 0, _, t => t
  | g + 1, i, t => writeRegs n bits k g (i + 1) (t.wrV (n + i) (BitVec.ofNat 4096 (bits >>> (4096 * i))) k)

/-- The result of a vector word (R154): `n` elements of width `w` in `bits`; the other elements of D's registers are kept, or
zero where `whole`. `popped` entries of D's own port count as room (R70). -/
def writeGroup (d : BitVec 6) (f : FCode) (w n : Nat) (bits : Nat) (k : Taint) (whole : Bool) (popped : Nat) : M Unit := do
  let g := groupSize n w
  let t ← mSeat
  if isPort d then do
    mNeeds (decide ((qLive t t.ports[portOf d]).length + g ≤ 8 + popped)) .portFull
    mModSeat (fun t => pushGroup (portOf d) f w n bits k t.engV.lsn g 0 t)
  else do
    mRoom .v g
    let kept := !whole && decide (n * w < 4096 * g)
    let (old, kd) ← (if kept then readGroup d g else pure (0, 0))
    let all := if kept then bits % pow2 (n * w) + ((old >>> (n * w)) <<< (n * w)) else bits
    mModSeat (fun t => writeRegs d.toNat all (k ||| kd) g 0 t)

-- Tiles and matrix commands.
/-- A row read by a word of engine `e`: its fault if it is poisoned, SOFT_ERROR if it is damaged (R148, R289). -/
def mRow (k : Fin 8) (r : Fin 32) : M Row := fun s =>
  let x := s.seat.tiles[k].rows[r]
  if x.bad then .error (.fault { code := FC.soft, addr := 0, aux := 1 })
  else match x.psn with
    | some f => .error (.fault { f with psn := true })
    | none => .ok (x, s)

def allRows : List (Fin 32) := (List.range 32).map (fun j => Fin.ofNat 32 j)

/-- A last read of rows by an engine, which empties them once H has passed it and the matrix commands that read them have done so (R27, R28, R175). -/
def takeRows (e : Eng) (k : Fin 8) (l : Lsn) (rows : List (Fin 32)) (t : Seat) : Seat :=
  rows.foldl (fun t r => t.setRow k r { t.tiles[k].rows[r] with taken := some l, taker := e }) t

/-- An ordering point waits for the seat's matrix commands below it (R181, R217). -/
def mCommandsDone (l : Lsn) : M Unit := fun s =>
  if s.seat.mq.any (fun c => lsnLt c.lsn l) then .error (.wait .matrix) else .ok ((), s)

end Sys2Proof.Machine
end

