-- ==== Sys2Proof/Machine/Control.lean ====
section
/-! DEFINITION. Scalar branches, jumps, calls and returns (R67, R103-R105). -/

namespace Sys2Proof.Machine

/-- A conditional branch (R103): it is a kill point when its offset is not positive, and its decision is pushed where it is
exported (R42, R105). -/
def branch (cond : Dword → Dword → Bool) (d a : BitVec 6) (imm : BitVec 11) (s : State) : Host.Outcome State Fault Refusal :=
  wordBy .s false s (do
    let (x, _) ← getS d
    let (y, _) ← getS a
    let taken := cond x y
    let edge ← (if taken then branchTo .s imm.toInt else pure (.fall, decide (imm.toInt ≤ 0)))
    pushDecision taken
    pure edge)

def execBeq (d a : BitVec 6) (imm : BitVec 11) (s : State) : Host.Outcome State Fault Refusal := branch condEq d a imm s
def execBne (d a : BitVec 6) (imm : BitVec 11) (s : State) : Host.Outcome State Fault Refusal := branch condNe d a imm s
def execBlt (d a : BitVec 6) (imm : BitVec 11) (s : State) : Host.Outcome State Fault Refusal := branch condLt d a imm s
def execBge (d a : BitVec 6) (imm : BitVec 11) (s : State) : Host.Outcome State Fault Refusal := branch condGe d a imm s
def execBltu (d a : BitVec 6) (imm : BitVec 11) (s : State) : Host.Outcome State Fault Refusal := branch condLtu d a imm s
def execBgeu (d a : BitVec 6) (imm : BitVec 11) (s : State) : Host.Outcome State Fault Refusal := branch condGeu d a imm s

/-- The logical byte address of the word after the scalar word at hand (R104). -/
def logicalNext (s : State) : Dword := ((s.seat.engS.side.lpc.setWidth 64) + 1) <<< 2

def execJmp (j : BitVec 23) (s : State) : Host.Outcome State Fault Refusal := wordBy .s false s (branchTo .s j.toInt)

def execCall (j : BitVec 23) (s : State) : Host.Outcome State Fault Refusal :=
  wordBy .s false s (do
    mDest 63
    let edge ← branchTo .s j.toInt
    putS 63 (logicalNext s) 0
    pure edge)

/-- A legal target of the JR at hand: the word after a CALL, or one that a hint declares for it (R91, R104). -/
def jrTarget (s : State) (w : Nat) : Bool :=
  match s.myImage with
  | some i => i.img.targets.contains w || i.img.hintTargets.contains (s.seat.engS.side.lpc.toNat, w)
  | none => false

/-- The first word from `w` on that is no hint: hints have no effect (R23). The fuel bounds a run of hints. -/
def pastHints (hints : List Nat) : Nat → Nat → Nat
  | 0, w => w
  | n + 1, w => if hints.contains w then pastHints hints n (w + 1) else w

/-- The scalar slice word at which the logical word `w` goes on (R23, R25). -/
def scalarIndex (s : State) (w : Nat) : Option Nat :=
  let hints := (s.myImage.map (fun i => i.img.hints)).getD []
  (mySlice s .s).side.findIdx? (fun x => x.lpc.toNat == pastHints hints hints.length w)

/-- JR (R104). It is no kill point, whichever way it goes: the backward branches of R42 are those whose offset says so (DESIGN CHOICE, log 126). -/
def execJr (d a : BitVec 6) (s : State) : Host.Outcome State Fault Refusal :=
  wordBy .s false s (do
    mDest d
    let (x, _) ← getS a
    mCheck (x.extractLsb' 0 2 == 0) FC.align x 0
    mCheck (jrTarget s (x.toNat / 4)) FC.fetch x 2
    match scalarIndex s (x.toNat / 4) with
    | none => mFault FC.fetch x 2
    | some k =>
      putS d (logicalNext s) 0
      pure (.to k false, false))

end Sys2Proof.Machine
end

