-- ==== Sys2Proof/Machine/Fetch.lean ====
section
/-! DEFINITION. Fetching slice words (R67, R92, R132, R281) and placing a word to be fetched. -/

namespace Sys2Proof.Machine

/-- The 64-byte line of a slice word. -/
def codeLine (a : Dword) : Dword := a &&& 0xFFFFFFFFFFFFFFC0

/-- The 64 bytes of the line of the slice word at `a` by way of the translation, for the word at LSN `w` (R131, R132, R254, R262). FADDR of a
failure is the word's address, or that of the first damaged byte (R278). -/
def fillCode (w : Lsn) (a : Dword) : M (BitVec 512) := do
  let l ← translate a 64 .fetch false
  let k := l.key - a.toNat % 64
  if l.l2 then lineToken w (1024 + nodeOf k) (lineOf k) else pure ()
  let s ← get
  match (List.range 64).findSome? (fun i => (s.markAt (k + i)).map (fun m => (i, m))) with
  | some (i, m) => mFault FC.soft (codeLine a + BitVec.ofNat 64 i) m
  | none => pure (wordOf 512 ((List.range 64).map (fun i => s.underCode l.kid (k + i) (s.home (k + i)))))

/-- Lines of a cell's instruction cache: 64 KiB of 64 bytes each (R13, R132). -/
def icacheLines : Nat := 1024

/-- The cell's instruction cache keeps a line; where it is full, another one leaves it, which one being free (R132). -/
def keepLine (x : ICLine) (s : State) : State :=
  let same (y : ICLine) : Bool := y.cell == x.cell && y.vf == x.vf && y.proc == x.proc && y.addr == x.addr
  let others := s.icache.filter (fun y => y.cell == x.cell && !same y)
  let s := if others.length < icacheLines then s
    else
      let (n, s) := s.pick
      { s with icache := s.icache.erase (nth others (n % others.length) x) }
  { s with icache := putWhere same x s.icache }

/-- The line of the slice word at `a`: the instruction cache's, or a new one. Where they differ the line may have left the cache or not. -/
def fetchLine (w : Lsn) (a : Dword) : M (BitVec 512) := do
  let s ← get
  let u := s.seat.unit
  let c := cellOf s.seat.id
  let fill : M (BitVec 512) := do
    let x ← fillCode w a
    mMod (keepLine ⟨c, u.vf, u.proc, codeLine a, x⟩)
    pure x
  match s.icache.find? (fun y => y.cell == c && y.vf == u.vf && y.proc == u.proc && y.addr == codeLine a) with
  | none => fill
  | some y =>
    if foresee (fillCode w a) s == some y.data then pure y.data
    else do
      let n ← mPick
      if n % 2 == 0 then pure y.data else fill

/-- The next word of an engine. A path that leaves its array past the last word is FETCH, as a branch out of it is (R67; log
14). -/
def fetchWord (e : Eng) : M W32 := do
  let s ← get
  let pc := (s.seat.eng e).pc
  let a := sliceAddr s e pc
  mCheck (decide (pc < (mySlice s e).words.length)) FC.fetch a 1
  let x ← fetchLine (s.seat.eng e).lsn a
  pure (x.extractLsb' (8 * (a.toNat % 64)) 32)

/-- What a fetch gives: a word to be executed, or a state in which the engine has stopped at it. -/
inductive Fetched where
  | run (i : Instr) (s : State)
  | stop (s : State)

/-- A word at hand in its engine, with its side-table entry. -/
def atHand (e : Eng) (w : W32) (s : State) : State :=
  s.onEng e (fun x => { x with word := w, side := sideAt s e x.pc })

/-- Fetches and decodes the next word of an engine; a word that can not be fetched or decoded is a fault at it (R92, R281). -/
def fetchInstr (e : Eng) (s : State) : Fetched :=
  match fetchWord e s with
  | .error (.fault f) => .stop (fail (s.onEng e (fun x => { x with side := sideAt s e x.pc })) e f)
  | .error (.wait w) => .stop (waiting s e w)
  | .error (.waitIn w s') => .stop (waiting (waitState e s s' w) e w)
  | .ok (w, s') =>
    let s' := atHand e w s'
    match decodeSlice e w with
    | .ok i => .run i s'
    | .error .illegal => .stop (fail s' e { code := FC.illegal, addr := w.setWidth 64 })
    | .error .reserved => .stop (fail s' e { code := FC.reserved, addr := w.setWidth 64 })

/-- A held fault is raised once H is its word's LSN (R280). -/
def heldTurn (s : State) (e : Eng) (f : FaultInfo) : State := if s.seat.atH e then raiseFault e f s else s

-- Placing one word (log 13).
/-- Page entries and words written straight to memory, with no earlier value left to be read. -/
def placeBytes (s : State) (k : Nat) (bytes : List Byte) : State :=
  { s with
    mem := Memory.writeBytes s.mem k bytes
    hist := s.hist.filter (fun p => !(decide (k ≤ p.key) && decide (p.key < k + bytes.length)))
    badMem := s.badMem.filter (fun m => !(decide (k < m.lo + m.n) && decide (m.lo < k + bytes.length))) }

/-- One page table path in the first 256 KiB of die 0's HBM: the virtual page 0 at 0x40000, executable, key identity `q`. -/
def placePage (s : State) (q : BitVec 7) : State :=
  let e (n : Nat) : List Byte := bytesOf (BitVec.ofNat 64 (1 + n * pow2 28)) 8
  let leaf : List Byte := bytesOf (BitVec.ofNat 64 (9 + q.toNat * pow2 11 + 4 * pow2 28)) 8
  placeBytes (placeBytes (placeBytes s 0x10000 (e 2)) 0x20000 (e 3)) 0x30000 leaf

/-- The engine that a word names; the scalar engine for a word that names none. -/
def wordEngine (w : W32) : Eng := (engOf (fE w)).getD .s

def placeWord (s : State) (w : W32) : State :=
  let e := wordEngine w
  let u := s.seat.unit
  let q := ((s.part u.part).keys.head?).getD 1
  let s := placeBytes (placePage s q) 0x40000 (bytesOf (0 : BitVec 512) 64)
  let s := placeBytes s 0x40000 (bytesOf w 4)
  let slice (d : Eng) : Slice := if d == e then ⟨(s.seat.eng e).lsn, [w], [⟨1, 1, 0, false, false⟩]⟩ else ⟨0, [], []⟩
  let im : SliceImage := { handle := s.nextImg, base := 0, slices := engines.map slice, targets := [0], hintTargets := [] }
  let c := s.ctx u.vf u.proc
  let s := s.setCtx { c with ptbase := BitVec.ofNat 64 (pow2 28) }
  { s.onSeat (fun t => { t.mapEng e (fun x => { x with pc := 0, done := false, held := none, wait := none }) with
      status := .running, unit := { t.unit with image := s.nextImg } }) with
    images := { img := im, vf := u.vf, proc := u.proc } :: s.images
    nextImg := s.nextImg + 1
    tlb := [], icache := []
    agenda := [.engine s.seat.id e] }

end Sys2Proof.Machine
end

