-- ==== Sys2Proof/Machine/LoadStore.lean ====
section
/-! DEFINITION. Scalar loads, stores and atomics (R107-R115). -/

namespace Sys2Proof.Machine

def ldSync : LdClass → Bool
  | .sy | .syAcq => true
  | .plain | .na | .bypass => false

/-- How a load's class and the taint of its address serve it (R108, R234). -/
def ldView (c : LdClass) (k : Taint) (nx : Bool := false) : View :=
  { coherent := ldSync c || k != 0, nx, alloc := !(c == .bypass || c == .na) }

/-- A slice word that is a sync store of the write-back engine. -/
def isSyncStv (w : W32) : Bool :=
  match decodeSlice .w w with
  | .ok (.stv _ _ _ c) => storeSync c
  | _ => false

/-- A scalar sync load waits until the sync stores, releases and atomics of its unit with lower LSNs have been served: those in
the buffer and in flight, and those that the write-back engine has still to execute (R231). -/
def mServed (l : Lsn) : M Unit := do
  let s ← get
  mNeeds (!s.seat.atoms.any (fun a => lsnLt a.lsn l)) .atomic
  mNeeds (!s.seat.gsb.any (fun g => storeSync g.cls && lsnLt g.lsn l)) .buffer
  mNeeds (s.seat.engW.done || !lsnLt s.seat.engW.lsn l || !(mySlice s .w).words.any isSyncStv) .buffer

/-- An acquire's tag, or, where none is free, none and a refreshed snapshot (R110, R118). -/
def acquireTag (l : Lsn) : M Taint := fun s =>
  match s.freeTag with
  | some t => .ok (t, s)
  | none => .ok (0, refresh (s.onSeat (fun t => squashReads t l)))

/-- A scalar load of `n` bytes (R107-R110): the address, the class, and the taint that D gets besides the tag. -/
def scalarLoad (d : BitVec 6) (n : Nat) (c : LdClass) (addr : M (Dword × Taint)) (shadow : Option (BitVec 6)) (s : State) :
    Host.Outcome State Fault Refusal :=
  logged s (do
    mDest d
    let (va, k) ← addr
    mAligned va n
    let l ← myLsn .s
    if ldSync c then mServed l
    let (bytes, pieces) ← loadUnit .s l (ldView c k) va n
    noteRead l pieces
    let tag ← (if c == .syAcq then acquireTag l else pure 0)
    let t ← mSeat
    putS d (BitVec.ofNat 64 (natOfBytes bytes)) (match shadow with
      | some n => t.shadow[n.toNat]'n.isLt
      | none => k ||| tag))

/-- A scalar store of the low `n` bytes of D (R107, R111): translated and checked at H, then captured. -/
def scalarStore (d : BitVec 6) (n : Nat) (c : StClass) (addr : M (Dword × Taint)) (shadow : Option (BitVec 6)) (s : State) :
    Host.Outcome State Fault Refusal :=
  atHorizon s (do
    let (va, _) ← addr
    let (x, k) ← getS d
    mAligned va n
    let l ← myLsn .s
    let pieces ← locate va n .write
    storeGate .s l (c == .syRel) pieces
    capture .s l c (wbytes pieces (bytesOf x n)) (pieces.any (fun p => farHome p.1.key)) shadow.isSome
    match shadow with
    | some j => mModSeat (fun t => { t with shadow := t.shadow.set j.toNat k j.isLt })
    | none => pure ())

def execLdb (d a : BitVec 6) (imm : BitVec 11) (s : State) : Host.Outcome State Fault Refusal :=
  scalarLoad d 1 .plain (offsetAddr a imm 1) none s
def execLdh (d a : BitVec 6) (imm : BitVec 11) (s : State) : Host.Outcome State Fault Refusal :=
  scalarLoad d 2 .plain (offsetAddr a imm 2) none s
def execLdw (d a : BitVec 6) (imm : BitVec 11) (s : State) : Host.Outcome State Fault Refusal :=
  scalarLoad d 4 .plain (offsetAddr a imm 4) none s
def execLdd (d a : BitVec 6) (imm : BitVec 11) (s : State) : Host.Outcome State Fault Refusal :=
  scalarLoad d 8 .plain (offsetAddr a imm 8) none s
def execStb (d a : BitVec 6) (imm : BitVec 11) (s : State) : Host.Outcome State Fault Refusal :=
  scalarStore d 1 .plain (offsetAddr a imm 1) none s
def execSth (d a : BitVec 6) (imm : BitVec 11) (s : State) : Host.Outcome State Fault Refusal :=
  scalarStore d 2 .plain (offsetAddr a imm 2) none s
def execStw (d a : BitVec 6) (imm : BitVec 11) (s : State) : Host.Outcome State Fault Refusal :=
  scalarStore d 4 .plain (offsetAddr a imm 4) none s
def execStd (d a : BitVec 6) (imm : BitVec 11) (s : State) : Host.Outcome State Fault Refusal :=
  scalarStore d 8 .plain (offsetAddr a imm 8) none s
def execLdx (d a b : BitVec 6) (c : LdClass) (sz : Size) (s : State) : Host.Outcome State Fault Refusal :=
  scalarLoad d (sizeBytes sz) c (indexAddr a b) none s
def execStx (d a b : BitVec 6) (c : StClass) (sz : Size) (s : State) : Host.Outcome State Fault Refusal :=
  scalarStore d (sizeBytes sz) c (indexAddr a b) none s

/-- The address of spill slot n (R113). -/
def spillAddr (n : BitVec 6) : M (Dword × Taint) := fun s => .ok ((s.myCtx.spill + 8 * n.setWidth 64, 0), s)

def execLdxFill (d n : BitVec 6) (s : State) : Host.Outcome State Fault Refusal := scalarLoad d 8 .plain (spillAddr n) (some n) s
def execStxSpill (d n : BitVec 6) (s : State) : Host.Outcome State Fault Refusal :=
  scalarStore d 8 .plain (spillAddr n) (some n) s

/-- An atomic on a host page is a PCI Express AtomicOp: ADD, SWP or CAS (R130). -/
def hostAmo : AmoOp → Bool
  | .add | .swp | .cas => true
  | .min | .max | .and | .or | .xor => false

def amoAcquires : AmoOrd → Bool
  | .acq | .acqrel => true
  | .sy | .rel => false

def amoReleases : AmoOrd → Bool
  | .rel | .acqrel => true
  | .sy | .acq => false

/-- An atomic issues and lands on its own (R114, R115). Run-ahead reads that it meets are squashed (R150). An acquire takes its tag now; one
that finds none lands within its word, after the unit's older atomics, and refreshes the phase (R110, R118). -/
def issueAtom (a : Atom) : M Unit := do
  let keys := (List.range (if a.wide then 8 else 4)).map (fun i => a.key + i)
  mModSeat (fun t => squashAlias t a.lsn keys)
  let s ← get
  match amoAcquires a.ord, s.freeTag with
  | false, _ => mModSeat (fun t => { t with atoms := t.atoms ++ [a] })
  | true, some tag => mModSeat (fun t => { t with atoms := t.atoms ++ [{ a with taint := a.taint ||| tag }] })
  | true, none => do
    mNeeds s.seat.atoms.isEmpty .atomic
    lineTokens a.lsn (landBytes s.seat a)
    mMod (fun s => refresh ((landAtom s a).onSeat (fun t => squashReads t a.lsn)))

/-- An AMO or AMOW issues (R114, R115): translated and checked at H; one of memory beyond the package is answered from there (R263, R317). RIGHTS of an
operation that the host port has not comes after the checks of translation, before that of the format (DESIGN CHOICE, log 130: R130 and R131 give
it no place). -/
def atomic (wide : Bool) (d a b : BitVec 6) (ord : AmoOrd) (op : AmoOp) (s : State) : Host.Outcome State Fault Refusal :=
  atHorizon s (do
    let (va, ka) ← getS a
    let (x, kb) ← getS b
    let (o, kd) ← getS d
    let n := if wide then 8 else 4
    mAligned va n
    let pieces ← locate va n .rmw true
    match pieces with
    | [] => pure ()
    | (p, _, _) :: _ =>
      mCheck (nodeOf p.key != hostHome || hostAmo op) FC.rights va 3
      mCheck (p.fmt == 0 || p.fmt == 12 || p.fmt == 13) FC.format va (p.fmt.setWidth 8)
      let l ← myLsn .s
      mSound l p.key n va
      if amoReleases ord then mCommandsDone l
      storeGate .s l (amoReleases ord) pieces
      remoteGate .s pieces
      issueAtom { lsn := l, op, ord, dst := d, key := p.key, wide, b := x, dIn := o, taint := ka ||| kb ||| kd
                  l2 := p.l2, fmt := p.fmt, kid := p.kid })

def execAmo (d a b : BitVec 6) (ord : AmoOrd) (op : AmoOp) (s : State) : Host.Outcome State Fault Refusal :=
  atomic true d a b ord op s
def execAmow (d a b : BitVec 6) (ord : AmoOrd) (op : AmoOp) (s : State) : Host.Outcome State Fault Refusal :=
  atomic false d a b ord op s

end Sys2Proof.Machine
end

