-- ==== Sys2Proof/Machine/Cache.lean ====
section
/-! DEFINITION. Cache blocks and instruction prefetch (R116, R117, R282). -/

namespace Sys2Proof.Machine

/-- The 128-byte line that holds a + b, and whether it is cached at all: pad and window addresses are not (R116). -/
def lineAt (a b : BitVec 6) (acc : Acc) (zmOk : Bool) : M (Dword × List (Loc × Dword × Nat)) := do
  let (va, _) ← indexAddr a b
  let base := va &&& 0xFFFFFFFFFFFFFF80
  let pieces ← locate base 128 acc zmOk
  pure (base, pieces)

/-- Earlier stores of the unit to the line have left the buffer (R116). -/
def mLineDrained (keys : List Nat) : M Unit := fun s =>
  if s.seat.gsb.any (fun g => g.bytes.any (fun b => keys.contains b.key)) then .error (.wait .buffer) else .ok ((), s)

/-- The bytes of a cached line, and on a ZM page its slot's raw bit, which the line carries (R54, R134): one bit, which goes with any of the slot's four
lines (DESIGN CHOICE, log 141). -/
def lineKeys (pieces : List (Loc × Dword × Nat)) : List Nat :=
  (pieces.filter (fun p => p.1.pad.isNone)).flatMap (fun (p, _, k) =>
    (List.range k).map (fun i => p.key + i) ++ (if isZm p.fmt then [rawKey p.key] else []))

/-- A dirty byte of the unit's own seat and partition is lost: its home memory's byte is current again (R116). -/
def dropDirty (s : State) (d : Dirty) : State :=
  let s := homeWrite s { byte := { key := d.key, val := d.back }, lsn := s.seat.engS.lsn } s.seat.unit.uid (some .package) s.seat.id s.seat.unit.part
  { s with dirty := s.dirty.filter (fun x => x.key != d.key) }

/-- DCB.INV's effect (R116): bytes of another seat or of another partition's key are written back, and the unit's go. The line leaves the caches, and
the damage of what they held of it with it (R288). -/
def dropLine (keys : List Nat) (s : State) : State :=
  let s := settleOther keys (s.onSeat (fun t => { t with unpub := t.unpub.filter (fun u => !keys.contains u.byte.key) }))
  let mine (d : Dirty) : Bool := d.seat == s.seat.id && d.part == s.seat.unit.part
  let s := { s with dirty := s.dirty.filter (fun d => !(keys.contains d.key && !mine d)) }
  let s := (s.dirty.filter (fun d => keys.contains d.key)).foldl dropDirty s
  let gone (t : LineTag) : Bool := keys.any (fun k => k / 128 == t.line)
    && (t.holder == cellOf s.seat.id || decide (1024 ≤ t.holder))
  (s.lineTags.filter gone).foldl evictLine s

/-- An action that raises no PARTITION (R279): where its request is dropped at a port, or nothing answers it, it does nothing, and the port counts
the drop (R263). -/
def mNoPartition (m : M Unit) : M Unit := fun s =>
  match m s with
  | .error (.fault f) => if f.code == FC.partition then .ok ((), noteDrop f s) else .error (.fault f)
  | r => r

/-- A DCB word that acts on a cached line, which goes through its L2 slice port (R254). -/
def dcbWord (a b : BitVec 6) (acc : Acc) (f : List Nat → State → State) (s : State) : Host.Outcome State Fault Refusal :=
  atHorizon s (mNoPartition (do
    let (_, pieces) ← lineAt a b acc true
    let keys := lineKeys pieces
    mLineDrained keys
    let l ← myLsn .s
    mEach (pieces.filter (fun p => p.1.l2 && p.1.pad.isNone)) (fun p => lineToken l (1024 + nodeOf p.1.key) (lineOf p.1.key))
    if keys.isEmpty then pure () else mMod (f keys)))

def execDcbClean (a b : BitVec 6) (s : State) : Host.Outcome State Fault Refusal := dcbWord a b .clean cleanLine s
def execDcbInv (a b : BitVec 6) (s : State) : Host.Outcome State Fault Refusal := dcbWord a b .rmw dropLine s
def execDcbFlush (a b : BitVec 6) (s : State) : Host.Outcome State Fault Refusal :=
  dcbWord a b .clean (fun keys s => dropLine keys (cleanLine keys s)) s

/-- A hint: what it would fill is filled, and any failure or wait drops it (R116, R117, R131); a request dropped at a port counts there (R263). -/
def mHint {α : Type} (m : M α) : M Unit := fun s =>
  match m s with
  | .ok (_, s') => .ok ((), s')
  | .error (.fault f) => .ok ((), noteDrop f s)
  | .error _ => .ok ((), s)

/-- DCB.PF brings the line into the cell's L1 with its format (R116, R134); pad and window addresses are not cached. -/
def execDcbPf (a b : BitVec 6) (s : State) : Host.Outcome State Fault Refusal :=
  logged s (do
    let (va, _) ← indexAddr a b
    let base := va &&& 0xFFFFFFFFFFFFFF80
    let l ← myLsn .s
    mHint (do
      let pieces ← locate base 128 .read
      mEach (pieces.filter (fun p => p.1.pad.isNone)) (fun (p, x, k) => lineCheck l p x k true true)))

/-- DCB.ZERO is a plain store of 128 zero bytes, in pad space and the window too (R116). -/
def execDcbZero (a b : BitVec 6) (s : State) : Host.Outcome State Fault Refusal :=
  atHorizon s (mNoPartition (do
    let (_, pieces) ← lineAt a b .rmw false
    let l ← myLsn .s
    mLineDrained (pieces.flatMap (fun (p, _, k) => (List.range k).map (fun i => p.key + i)))
    capture .s l .plain (wbytes pieces (List.replicate 128 0))))

/-- The scalar slice word with a provenance (R25, R282): the first in slice order, where inserted words have the same (R26; DESIGN CHOICE, log 142). -/
def scalarWith (s : State) (lpc : Nat) : Option Nat := (mySlice s .s).side.findIdx? (fun x => x.lpc.toNat == lpc)

/-- ICPF names the scalar slice line that holds the scalar word with LPC = address ÷ 4; a hint that names none is dropped
(R117, R282). -/
def execIcpf (a : BitVec 6) (imm : BitVec 11) (s : State) : Host.Outcome State Fault Refusal :=
  logged s (do
    let (x, _) ← getS a
    let addr := x + 64 * imm.signExtend 64
    let l ← myLsn .s
    match (if addr.toNat % 4 == 0 then scalarWith s (addr.toNat / 4) else none) with
    | none => pure ()
    | some k => mHint (fetchLine l (sliceAddr s .s k)))

end Sys2Proof.Machine
end

