-- ==== Sys2Proof/Machine/Access.lean ====
section
/-! DEFINITION. The access engine's words (R142-R149, R152). -/

namespace Sys2Proof.Machine

/-- An access-engine word: free of the horizon (R31). -/
def freeWord (s : State) (m : M Unit) : Host.Outcome State Fault Refusal := word .a false s m

/-- A port that the access engine may write: q0-q9 (R70). -/
def mInPort (q : BitVec 6) : M (Fin 16) := do
  mOperand .a (decide (q.toNat ≤ 9))
  pure (Fin.ofNat 16 q.toNat)

/-- The port's generator has pushed its LAST entry or has been stopped (R142). -/
def mIdlePort (q : Fin 16) : M Unit := fun s =>
  if s.seat.portActive q.val then .error (.wait .portFull) else .ok ((), s)

/-- A format that a stream accepts, and INT4 only with an even EXT0 (R143). -/
def streamable (o : List Dword) : Bool :=
  (decide ((obFmt o).toNat ≤ 4) || isZm (obFmt o) || obFmt o == 12 || obFmt o == 13)
    && !(obFmt o == 13 && obExt o 0 % 2 == 1)

def Seat.startGen (t : Seat) (g : Gen) : Seat :=
  { t with gens := t.gens.filter (fun x => match x.stopped with
      | some l => !t.passed l
      | none => true) ++ [g] }

/-- STRM (R144). -/
def execStrm (d a b : BitVec 6) (k : StreamKind) (y n : Bool) (s : State) : Host.Outcome State Fault Refusal :=
  freeWord s (do
    let q ← mInPort d
    mIdlePort q
    let (x, ka) ← getX .a a
    let (off, kb) ← getX .a b
    let o ← objectRef x
    mOperand .a (streamable o)
    let l ← myLsn .a
    mModSeat (fun t => t.startGen { port := q.val, lsn := l, obj := o, off, kind := k, sy := y, nx := n, taint := ka ||| kb }))

/-- STRMG (R145). An index port above q9 is OPERAND_CLASS at the word (DESIGN CHOICE, log 110: R78 gives the range, and no fault). -/
def execStrmg (d a b : BitVec 6) (k : StreamKind) (y n : Bool) (s : State) : Host.Outcome State Fault Refusal :=
  freeWord s (do
    let q ← mInPort d
    let ip ← mInPort b
    mIdlePort q
    let (x, ka) ← getX .a a
    let o ← objectRef x
    mOperand .a (streamable o)
    let l ← myLsn .a
    mModSeat (fun t => t.startGen { port := q.val, lsn := l, obj := o, kind := k, sy := y, nx := n, taint := ka, index := some ip.val }))

/-- STRMC stops the port's generator where it stands (R146). -/
def execStrmc (d : BitVec 6) (s : State) : Host.Outcome State Fault Refusal :=
  freeWord s (do
    let q ← mInPort d
    let l ← myLsn .a
    mModSeat (fun t => { t with gens := t.gens.map (fun g =>
      if g.port == q.val && g.stopped.isNone && !g.ended then { g with stopped := some l } else g) }))

/-- The LDV or LDT at hand follows an NX hint (R91, R150). -/
def nxHinted (s : State) : Bool :=
  match s.myImage with
  | some i => i.img.nx.contains s.seat.engA.pc
  | none => false

/-- LDV (R147). An acquire may be predicted: a provisional entry then stands in the port until the acquire is served (R152). One whose entry is
poisoned takes a tag all the same (DESIGN CHOICE, log 109: R147 does not say). No acquire of memory beyond the package is predicted (log 31). -/
def execLdv (d a b : BitVec 6) (c : LdClass) (s : State) : Host.Outcome State Fault Refusal :=
  freeWord s (do
    let q ← mInPort d
    mIdlePort q
    mNeeds (decide ((qLive s.seat s.seat.ports[q]).length < 8)) .portFull
    let (x, ka) ← getX .a a
    let (y, kb) ← getX .a b
    let va := x + y
    let l ← myLsn .a
    let pc := s.seat.engA.pc
    let now ← get
    let here := match locate va 512 .read false now with
      | .ok (p, _) => !p.any (fun p => farHome p.1.key)
      | .error _ => false
    let n ← (if c == .syAcq && here && s.seat.lastAcq.any (fun p => p.1 == pc) then mPick else pure 0)
    if n % 2 == 1 then
      let guess := ((s.seat.lastAcq.find? (fun p => p.1 == pc)).map Prod.snd).getD 0
      let tag ← acquireTag l
      mModSeat (fun t => { t.pushPort q { data := guess, taint := ka ||| kb ||| tag, prov := true, last := true } l with
        preds := t.preds ++ [⟨q.val, l, pc, va, guess, s.seqNo, tag != 0⟩] })
    else
      let e ← ldvRead l (ldView c (ka ||| kb) (nxHinted s)) va (ka ||| kb)
      let tag ← (if c == .syAcq then acquireTag l else pure 0)
      mModSeat (fun t => { t.pushPort q { e with taint := e.taint ||| tag } l with
        lastAcq := if c == .syAcq && !e.psn then putWhere (fun p => p.1 == pc) (pc, e.data) t.lastAcq else t.lastAcq }))

-- LDT (R148, R174).
def isMx (f : FCode) : Bool := f == 5 || f == 6

/-- The data of one row of an object, from `row` on. -/
def ldtRow (l : Lsn) (v : View) (o : List Dword) (row : Dword) : M Nat := do
  let f := obFmt o
  let xs ← mMap (List.range (obExt o 0)) (fun k => readElem l v o (elemPlace o row k))
  let body := packList (widthOf f) xs
  if isMx f then
    let scales ← mMap (List.range (obExt o 0 / 32)) (fun b => do
      let (sc, _) ← scalesAt l v f (elemPlace o row (32 * b)).1
      pure sc)
    pure (body + (packList 8 scales <<< 2048))
  else pure body

def ldtOk (o : List Dword) : Bool :=
  let f := obFmt o
  tileFmt f && decide (obExt o 0 * widthOf f ≤ 4096) && (!isMx f || (decide (obExt o 0 ≤ 256) && obExt o 0 % 32 == 0))

/-- Rows 0 to n − 1 of a tile are empty (R27, R148). -/
def rowsEmpty (t : Seat) (k : Fin 8) (n : Nat) : Bool :=
  (List.range n).all (fun j => !(t.rowNow k (Fin.ofNat 32 j)).full)

/-- Row j of tile `k` filled from the object, or poisoned with the fault that its read meets (R148). -/
def ldtFill (l : Lsn) (v : View) (o : List Dword) (off : Dword) (k : Fin 8) (kt : Taint) (j : Nat) : M Unit := do
  let row := obBase o + off + BitVec.ofNat 64 j * obStr o 1
  let q ← tryRun (ldtRow l v o row)
  match q with
  | .ok _ => pure ()
  | .error f => mMod (noteDrop f)
  let e : Row := match q with
    | .ok v => { full := true, data := BitVec.ofNat 4096 v, taint := kt, lsn := l }
    | .error f => { full := true, taint := kt, psn := some f, lsn := l }
  mModSeat (fun t => t.setRow k (Fin.ofNat 32 j) e)

def rowCount (r : BitVec 2) : Nat := 8 * (r.toNat + 1)

def execLdt (d a b : BitVec 6) (r : BitVec 2) (s : State) : Host.Outcome State Fault Refusal :=
  freeWord s (do
    let k : Fin 8 := Fin.ofNat 8 d.toNat
    let n := rowCount r
    let (x, ka) ← getX .a a
    let (off, kb) ← getX .a b
    let o ← objectRef x
    mOperand .a (ldtOk o)
    mNeeds (rowsEmpty s.seat k n) .tile
    mRoom .a 1
    let l ← myLsn .a
    mModSeat (fun t =>
      let t := t.pushLog .a (.tag k t.tiles[k].tag)
      { t with tiles := t.tiles.set k { t.tiles[k] with tag := obFmt o } })
    let far ← farElement o ((List.range n).flatMap (fun j => (List.range (obExt o 0)).map (fun i =>
      elemPlace o (obBase o + off + BitVec.ofNat 64 j * obStr o 1) i)))
    askGate .a far
    let view : View := { coherent := (ka ||| kb) != 0, nx := nxHinted s }
    mEach (List.range n) (ldtFill l view o off k (ka ||| kb)))

/-- PFD acts as DCB.PF (R149). -/
def execPfd (a b : BitVec 6) (s : State) : Host.Outcome State Fault Refusal :=
  freeWord s (do
    let (x, _) ← getX .a a
    let (y, _) ← getX .a b
    let l ← myLsn .a
    mHint (do
      let pieces ← locate ((x + y) &&& 0xFFFFFFFFFFFFFF80) 128 .read
      mEach pieces (fun (p, va, k) => lineCheck l p va k true true)))

end Sys2Proof.Machine
end

