-- ==== Sys2Proof/Machine/Sys.lean ====
section
/-! DEFINITION. The SYS words (R106, R118-R121, R219-R224). -/

namespace Sys2Proof.Machine

/-- Every store of the unit below `l` has left the gated store buffer. -/
def mDrained (l : Lsn) : M Unit := fun s =>
  if s.seat.gsb.any (fun g => lsnLt g.lsn l) then .error (.wait .buffer) else .ok ((), s)

-- Taint (R118, R121).
def clearUndo : Undo → Undo
  | .sreg r v _ => .sreg r v 0
  | .vreg r v _ => .vreg r v 0
  | .pred r v _ => .pred r v 0
  | .xreg e r v _ => .xreg e r v 0
  | .loopc e r v => .loopc e r v
  | .bases e v p => .bases e v p
  | .row t r old => .row t r { old with taint := 0 }
  | .tag t f => .tag t f
  | .lane o old => .lane o old
  | .nothing => .nothing

def clearLog (l : List LogEntry) : List LogEntry := l.map (fun x => { x with undo := clearUndo x.undo })

def Engine.clearTaint (x : Engine) : Engine :=
  { x with xt := Vector.replicate 16 0, xq := x.xq.map (fun i => { i with val := (i.val.1, 0) }) }

/-- The taint set of every container of the seat is empty, and all sixteen tags are free (R118, step 4). -/
def Seat.clearTaint (t : Seat) : Seat :=
  { t with
    st := Vector.replicate 64 0, vt := Vector.replicate 48 0, pt := Vector.replicate 8 0, shadow := Vector.replicate 64 0
    tiles := vmap (fun (x : Tile) => { x with rows := vmap (fun (r : Row) => { r with taint := 0 }) x.rows }) t.tiles
    ports := vmap (fun (q : List (Item PortEntry)) => q.map (fun i => { i with val := { i.val with taint := 0 } })) t.ports
    gens := t.gens.map (fun g => { g with taint := 0, pending := g.pending.map (fun p => (p.1, 0)) })
    engS := t.engS.clearTaint, engA := t.engA.clearTaint, engV := t.engV.clearTaint
    engM := t.engM.clearTaint, engW := t.engW.clearTaint, engC := t.engC.clearTaint
    slagS := clearLog t.slagS, slagV := clearLog t.slagV, logA := clearLog t.logA
    atoms := t.atoms.map (fun a => { a with taint := 0 }), copies := t.copies.map (fun c => { c with taint := 0 })
    mq := t.mq.map (fun c => { c with idxT := 0 }) }

def clearBanks (id : SeatId) (a : Anvil) : Anvil :=
  { a with banks := vmap (fun (b : Bank) => if b.owner == some id then { b with taint := Vector.replicate 8 0 } else b) a.banks }

/-- Steps 2 to 4 of R118 for a PHASE at `l`. -/
def phaseAt (l : Lsn) (r : Reach) (s : State) : State :=
  let s := publish s (some l) r
  let s := refresh (s.onSeat (fun t => (squashReads t l).clearTaint))
  s.setAnvil s.here (clearBanks s.seat.id (s.anvil s.here))

/-- A PHASE.SYSTEM waits for the acknowledgement of what it covers beyond the package: what it publishes, and what has gone there before (R236). -/
def phaseFar (s : State) (l : Lsn) : Bool :=
  s.seat.engS.remote != .idle || s.seat.unpub.any (fun u => covered (some l) u && farHome u.byte.key)
    || s.hist.any (fun p => p.uid == s.seat.unit.uid && lsnLt p.lsn l && p.tok.isNone && !p.spill && farHome p.key)

/-- PHASE (R118, R236). -/
def execPhase (r : Reach) (s : State) : Host.Outcome State Fault Refusal :=
  atHorizon s (do
    let l ← myLsn .s
    mDrained l
    mCommandsDone l
    mNeeds (!s.seat.atoms.any (fun a => lsnLt a.lsn l)) .atomic
    if r == .system && phaseFar s l then ackGate .s l .ack else pure ()
    mPublishTokens l (some l)
    mMod (phaseAt l r))

/-- TAINT and UNTAINT write only D's taint (R121). -/
def execTaint (d a : BitVec 6) (s : State) : Host.Outcome State Fault Refusal :=
  logged s (do
    mDest d
    let (x, kd) ← getS d
    let (_, ka) ← getS a
    putS d x (kd ||| ka))

def execUntaint (d : BitVec 6) (s : State) : Host.Outcome State Fault Refusal :=
  logged s (do
    mDest d
    let (x, _) ← getS d
    putS d x 0)

/-- Stores of the marked engines below `l` are still in the buffer; the scalar engine's own bit asks for nothing (R120). -/
def fenceWaits (mask : BitVec 6) (t : Seat) (l : Lsn) : Bool :=
  t.gsb.any (fun g => g.eng != .s && mask.getLsbD (engNum g.eng) && lsnLt g.lsn l)

/-- FENCE stalls until the stores of the marked engines have left the buffer; the words below its LSN have resolved when H is
its LSN (R120). -/
def execFence (mask : BitVec 6) (s : State) : Host.Outcome State Fault Refusal :=
  atHorizon s (do
    let l ← myLsn .s
    mNeeds (!fenceWaits mask s.seat l) .buffer)

/-- The handler word that TVEC names: a label that a TARGET hint declares (R91, R219). -/
def handlerIndex (s : State) : Option Nat :=
  let v := s.seat.tvec
  let w := v.toNat / 4
  if v.toNat % 4 == 0 && (match s.myImage with
      | some i => i.img.hintTargets.any (fun p => p.2 == w)
      | none => false) then scalarIndex s w else none

/-- The next word's LSN is the successor of this one's (R29; log 16). -/
def nextLsn (t : Seat) : Seat := t.mapEng .s (fun x => { x with side := { x.side with inct := 1 } })

/-- The scalar engine's next word is a TRAP or BKPT whose fault has been answered (R219). -/
def answered (s : State) : Bool := s.seat.after == some (s.seat.engS.pc, s.seat.engS.lsn)

/-- Such a word is passed: the unit continues after it (R219, R286). -/
def passTrap : M (Edge × Bool) := do
  mModSeat (fun t => { t with after := none })
  pure (.fall, false)

/-- TRAP #code (R219). -/
def execTrap (code : BitVec 6) (s : State) : Host.Outcome State Fault Refusal :=
  wordBy .s true s (
    if answered s then passTrap
    else if s.seat.tvec == 0 || s.seat.hf then mFault FC.trap 0 (code.setWidth 8)
    else
      match handlerIndex s with
      | none => mFault FC.fetch s.seat.tvec 5
      | some k => do
        mModSeat (fun t => nextLsn { t with epc := logicalNext s, ecode := code.setWidth 8, hf := true })
        pure (.to k false, false))

/-- PRIVILEGE unless the unit is privileged (R220, R278). -/
def mPrivileged : M Unit := fun s =>
  if s.seat.unit.priv then .ok ((), s) else .error (.fault { code := FC.privilege, addr := wordAddr s .s })

/-- ERET (R219). A return address that names no scalar word of the slice is FETCH (log 16). -/
def execEret (s : State) : Host.Outcome State Fault Refusal :=
  wordBy .s true s (do
    if s.seat.hf then pure () else mPrivileged
    let e := s.seat.epc
    match (if e.toNat % 4 == 0 then scalarIndex s (e.toNat / 4) else none) with
    | none => mFault FC.fetch e 1
    | some k =>
      mModSeat (fun t => nextLsn { t with hf := false })
      pure (.to k false, false))

/-- BKPT (R219). -/
def execBkpt (s : State) : Host.Outcome State Fault Refusal :=
  wordBy .s true s (if answered s then passTrap else mFault FC.trap 0 0x40)

-- System registers (R220).
def packMstate (t : Seat) : Dword :=
  BitVec.ofBool t.mstop.v ++ BitVec.ofBool t.ls ++ t.bud ++ t.mstop.lsn ++ t.mstop.kb ++ t.mstop.row ++ (0 : BitVec 5)

def packKstat (t : Seat) : Dword := BitVec.ofNat 64 (packList 8 (t.kstat.toList.map BitVec.toNat))

def packBar (b : Barrier) : Dword :=
  (0 : BitVec 29) ++ BitVec.ofBool b.init ++ BitVec.ofBool b.broken ++ BitVec.ofBool b.absent ++ b.gen ++ b.exp ++ b.cnt

/-- The value of system register `n`, 0 for a number that R220 does not list. -/
def sysValue (s : State) (n : Nat) : Dword :=
  let t := s.seat
  let u := t.unit
  match n with
  | 0x00 => u.ix.setWidth 64
  | 0x01 => (u.gen.setWidth 64 <<< 12) ||| u.scope.setWidth 64
  | 0x02 => s.myPart.frame.setWidth 64
  | 0x03 => t.id.setWidth 64
  | 0x08 => packKstat t
  | 0x09 => packMstate t
  | 0x0A => t.chd[0] | 0x0B => t.chd[1] | 0x0C => t.chd[2] | 0x0D => t.chd[3]
  | 0x10 => t.ackbase
  | 0x11 => t.tvec
  | 0x12 => t.epc
  | 0x13 => t.ecode.setWidth 64
  | 0x14 => boolD u.priv
  | 0x18 => s.myCtx.ptbase
  | 0x19 => s.myCtx.objbase
  | 0x1A => s.myCtx.spill
  | 0x20 => t.frec.fcode.setWidth 64
  | 0x21 => t.frec.flsn.setWidth 64
  | 0x22 => t.frec.flpc.setWidth 64
  | 0x23 => t.frec.faddr
  | 0x24 => t.frec.feng.setWidth 64
  | 0x25 => t.frec.faux.setWidth 64
  | 0x60 => t.cycles
  | n => if 0x40 ≤ n ∧ n ≤ 0x4F then packBar ((s.cluster s.here).bars[n % 16]'(Nat.mod_lt _ (by decide))) else 0

/-- A number that is not listed, or a read-only one to be written, is a reserved value of the word (R92, R220). -/
def mListed (c : Bool) : M Unit := fun s => if c then .ok ((), s) else .error (.fault { code := FC.reserved, addr := wordAddr s .s })

def execSysrd (d : BitVec 6) (r : BitVec 12) (s : State) : Host.Outcome State Fault Refusal :=
  atHorizon s (do
    mListed (sysReadable r)
    mDest d
    putS d (sysValue s r.toNat) 0)

/-- PTBASE and OBJBASE hold PPN and HOME; every other bit is zero (R220). -/
def baseMask : Dword := 0xFFFFFFFFFFFC0000

/-- A register written by SYSWR. Reads of run-ahead words are issued again after a change of a protected base, which takes
effect for every later LSN (R220). -/
def sysWrite (n : Nat) (x : Dword) (l : Lsn) (s : State) : State :=
  let again (s : State) : State := s.onSeat (fun t => squashReads t l)
  match n with
  | 0x10 => s.onSeat (fun t => { t with ackbase := x })
  | 0x11 => s.onSeat (fun t => { t with tvec := x })
  | 0x12 => s.onSeat (fun t => { t with epc := x })
  | 0x18 => again (s.setCtx { s.myCtx with ptbase := x &&& baseMask })
  | 0x19 => again (s.setCtx { s.myCtx with objbase := x &&& baseMask })
  | 0x1A => again (s.setCtx { s.myCtx with spill := x })
  | _ => s

def execSyswr (d : BitVec 6) (r : BitVec 12) (s : State) : Host.Outcome State Fault Refusal :=
  atHorizon s (do
    mListed (sysWritable r)
    if 0x18 ≤ r.toNat ∧ r.toNat ≤ 0x1A then mPrivileged else pure ()
    let (x, _) ← getS d
    let l ← myLsn .s
    mMod (sysWrite r.toNat x l))

/-- ICINV at `l` (R222): the cell's lines go, and words of the seat above it that have been fetched go back, to be fetched again. -/
def dropLines (l : Lsn) (s : State) : State :=
  let c := cellOf s.seat.id
  { s.onSeat (fun t => t.roll (l + 1)) with icache := s.icache.filter (fun y => y.cell != c) }

def execIcinv (s : State) : Host.Outcome State Fault Refusal :=
  atHorizon s (do
    let l ← myLsn .s
    mMod (dropLines l))

/-- The cached translations and object entries that TLBINV drops from every cell of the partition (R138, R224): in mode 0
the object entries of the context. -/
def dropTranslations (mode : TlbMode) (va : Dword) (s : State) : State :=
  let u := s.seat.unit
  let ctx (p : Fin 32) (vf proc : Nat) : Bool := p == u.part && vf == u.vf && proc == u.proc
  let page (e : TlbEntry) : Bool :=
    e.page / (if e.lvl == 1 then 8192 else 1) == va.toNat / 65536 / (if e.lvl == 1 then 8192 else 1)
  match mode with
  | .page => { s with
      tlb := s.tlb.filter (fun e => !(ctx e.part e.vf e.proc && page e)), objs := s.objs.filter (fun o => !ctx o.part o.vf o.proc) }
  | .context => { s with
      tlb := s.tlb.filter (fun e => !ctx e.part e.vf e.proc), objs := s.objs.filter (fun o => !ctx o.part o.vf o.proc) }
  | .part => { s with
      tlb := s.tlb.filter (fun e => e.part != u.part), objs := s.objs.filter (fun o => o.part != u.part) }

/-- A span has a side, or a scale page, that was checked under page tables, on the page of `va` if there is one (R201, R224). -/
def spanUnder (va : Option Dword) (c : Copy) (sp : Span) : Bool :=
  let side (a : Dword) (l : Loc) : Bool := !isPadSpace a && (match va with
    | none => true
    | some v => a.toNat / l.page == v.toNat / l.page)
  (c.kind != .halo && side sp.sva sp.src) || sp.dst.any (fun p => side p.2.1 p.1)
    || sp.scales.any (fun h => side h.1 h.2)

/-- A copy of the partition holds a span that was checked under a translation that goes (R224). -/
def spansHeld (mode : TlbMode) (va : Dword) (s : State) : Bool :=
  let u := s.seat.unit
  s.seats.any (fun t => t.unit.part == u.part
    && (mode == .part || (t.unit.vf == u.vf && t.unit.proc == u.proc))
    && t.copies.any (fun c => c.ended.isNone && c.spans.any (spanUnder (if mode == .page then some va else none) c)))

def execTlbinv (a : BitVec 6) (mode : TlbMode) (s : State) : Host.Outcome State Fault Refusal :=
  atHorizon s (do
    mPrivileged
    let (va, _) ← getS a
    mMod (dropTranslations mode va)
    mNeeds (!spansHeld mode va s) .fence)

/-- HALT (R221): what has run ahead is taken back, and the seat stays occupied. -/
def haltSeat (s : State) : State :=
  let s := s.onSeat (fun t => { t.roll (t.horizon.getD t.engS.lsn) with status := .halted, atKill := true })
  s.irq (.halted s.seat.unit.uid)

def execHalt (s : State) : Host.Outcome State Fault Refusal :=
  wordThen .s true s (do mPrivileged; pure (.fall, false)) haltSeat

/-- A released unit of the partition waits for a seat (R221). -/
def unitWaits (s : State) : Bool := s.myPart.entries.any (fun e => e.phase == .released)

def execYield (s : State) : Host.Outcome State Fault Refusal :=
  wordThen .s true s (pure (.fall, false)) (fun s => if unitWaits s then preempt s none false else s)

/-- EXIT acts as the scalar engine's NOTIFY (R39, R221). -/
def execExit (s : State) : Host.Outcome State Fault Refusal := wordBy .s true s (pure (.last, false))

/-- XSEND (R106): the value and its taint enter the engine's transfer queue, which holds eight. -/
def execXsend (a : BitVec 6) (e : Eng) (s : State) : Host.Outcome State Fault Refusal :=
  logged s (do
    let (x, k) ← getS a
    let l ← myLsn .s
    let t ← mSeat
    mNeeds (decide ((qLive t (t.eng e).xq).length < 8)) .queueFull
    mModSeat (fun t => t.mapEng e (fun y => { y with xq := qLive t y.xq ++ [{ val := (x, k), lsn := l }] })))

/-- A value that PADMAP accepts for an entry (R125, R223). -/
def padValueOk (block v : Dword) : Bool :=
  decide (block.toNat ≤ 383) && (padSeat v == 1 || padSeat v == 2) && padFmt (padFmtOf v) && v.extractLsb' 8 6 == 0
    && (padSp v || decide (padLoc v ≤ 63))

/-- A scoreboard range, a halo read or a buffered store covers the block (R223). -/
def blockBusy (s : State) (block : Nat) : Bool :=
  let cell := cellOf s.seat.id
  let e := padEntry s cell block
  let k := padKey cell e 0
  s.seats.any (fun t =>
    (cellOf t.id == cell && (t.ranges.any (fun r => decide (r.lo < 16384 * (block + 1)) && decide (16384 * block < r.hi))
      || t.gsb.any (fun g => g.bytes.any (fun b => decide (k ≤ b.key) && decide (b.key < k + 16384)))))
    || t.copies.any (fun c => c.kind == .halo && c.ended.isNone && cellOf t.id / 4 == cell / 4
        && (c.src.extractLsb' 24 2).toNat == cell % 4
        && decide (c.src.toNat % pow2 24 < 16384 * (block + 1)) && decide (16384 * block < c.src.toNat % pow2 24 + c.len)))

def setPad (s : State) (block : Nat) (v : Dword) : State :=
  let c := s.cell (cellOf s.seat.id)
  s.setCell { c with pads := putWhere (fun p => p.1 == block) (block, v) c.pads }

def execPadmap (d a : BitVec 6) (s : State) : Host.Outcome State Fault Refusal :=
  atHorizon s (do
    mPrivileged
    let (v, _) ← getS d
    let (b, _) ← getS a
    mOperand .s (padValueOk b v)
    mNeeds (!blockBusy s b.toNat) .range
    mMod (fun s => setPad s b.toNat v))

end Sys2Proof.Machine
end

