-- ==== Sys2Proof/Machine/Task.lean ====
section
/-! DEFINITION. Tasks, scopes and cluster barriers (R207-R218). -/

namespace Sys2Proof.Machine

/-- RIGHTS of a scope or barrier word; R278 gives no FADDR and FAUX for it (log 15). -/
def mScopeRights (c : Bool) (x : Dword) : M Unit := mCheck c FC.rights (Config.rightsAddr x) (Config.rightsAux x)

/-- The scope that an operand names: stale is OPERAND_CLASS, outside the unit's subtree is RIGHTS (R207). -/
def mScope (x : Dword) : M Scope := fun s =>
  match resolveRef s.myPart s.seat.unit.scope x with
  | none => (do mOperand .s false; pure ({ num := 0 } : Scope)) s
  | some sc => (do mScopeRights (inSub s.myPart s.seat.unit.scope sc.num) x; pure sc) s

def modPart (f : Part → Part) (s : State) : State := s.setPart (f s.myPart)

-- SPAWN (R36, R208).
/-- The entry that a unit record describes, in scope `sc`. -/
def entryOf (s : State) (rec : List Byte) (sc : Scope) (im : Image) (serial : W32) : Entry :=
  let w (i : Nat) : Dword := wordOf 64 ((rec.drop (8 * i)).take 8)
  { unit :=
      { uid := s.nextUid, image := (w 2).extractLsb' 0 32, ix := (w 2).extractLsb' 32 32, scope := sc.num, gen := sc.gen
        part := s.seat.unit.part, vf := s.seat.unit.vf, proc := s.seat.unit.proc, priv := im.system, ct := (w 3).getLsbD 26
        handle := serial, release := (w 1).extractLsb' 0 32, order := s.order, pinned := s.seat.unit.pinned }
    probe := (w 0).extractLsb' 0 55, due := (w 1).extractLsb' 32 32, pv := (w 3).getLsbD 24, dv := (w 3).getLsbD 25 }

/-- REACHED(F, t) (R37). -/
def reached (f t : W32) : Bool := decide ((f - t).toNat < pow2 31)

/-- An entry that R36 refuses for its due tick. -/
def dueRefused (e : Entry) : Bool := e.dv && reached e.unit.release e.due

/-- An image that units of a context may name: loaded, and not being unloaded (R26, R302). -/
def loadedImage (s : State) (vf proc : Nat) (h : W32) : Option Image :=
  s.images.find? (fun i => i.img.handle == h && i.vf == vf && i.proc == proc && !i.unload)

def nextSerial (n : W32) : W32 := if n + 1 == 0 then 1 else n + 1

/-- The entry is queued, and its scope's counter rises (R208, step 4). -/
def queueSpawn (e : Entry) (serial : W32) (s : State) : State :=
  let p := s.myPart
  let x := p.scope e.unit.scope
  swapWork { s.setPart { (p.setScope { x with counter := x.counter + 1 }) with entries := p.entries ++ [e], serial := serial } with
    nextUid := s.nextUid + 1, order := s.order + 1 }

def execSpawn (d a b : BitVec 6) (s : State) : Host.Outcome State Fault Refusal :=
  atHorizon s (do
    mDest d
    let (va, ka) ← getS a
    let (x, _) ← getS b
    mCheck (va.toNat % 32 == 0) FC.align va 0
    let l ← myLsn .s
    mDrained l
    mPublish l (some l) .package
    let (rec, _) ← loadUnit .s l (ldView .plain ka) va 32
    let sc ← mScope x
    if sc.cancel then putS d 0 0
    else
      let s ← get
      let h : W32 := wordOf 32 ((rec.drop 16).take 4)
      match loadedImage s s.seat.unit.vf s.seat.unit.proc h with
      | none => mFault FC.codeGone (h.setWidth 64) 0
      | some im =>
        let serial := nextSerial s.myPart.serial
        let e := entryOf s rec sc im serial
        mOperand .s (sc.state == .opened && !dueRefused e)
        mMod (queueSpawn e serial)
        putS d (serial.setWidth 64) 0)

/-- SCOPEO (R209). -/
def execScopeo (d a : BitVec 6) (s : State) : Host.Outcome State Fault Refusal :=
  atHorizon s (do
    mDest d
    let (x, _) ← getS a
    let sc ← mScope x
    if sc.cancel then putS d 0 0
    else
      mOperand .s (sc.state == .opened)
      let s ← get
      match s.myPart.freeScope with
      | none => putS d 0 0
      | some n =>
        let area := if s.seat.ackbase == 0 then 0 else s.seat.ackbase + 64 * n.setWidth 64
        mMod (modPart (fun p => openScope p n sc.num { num := n, ack := area, kind := .device, vf := s.seat.unit.vf, proc := s.seat.unit.proc }))
        let s ← get
        putS d (scopeRef (s.myPart.scope n)) 0)

/-- SCOPEC (R210). The decrement of the parent that may follow raises no interrupt for a CT = 1 entry that has completed before (DESIGN CHOICE,
log 127: R41 does not say). -/
def closeScope (n : BitVec 12) (s : State) : State :=
  let part := s.seat.unit.part
  let x := (s.part part).scope n
  if x.state == .opened then settle (s.setPart ((s.part part).setScope { x with state := .closed })) part else s

def execScopec (a : BitVec 6) (s : State) : Host.Outcome State Fault Refusal :=
  atHorizon s (do
    let (x, _) ← getS a
    let sc ← mScope x
    mScopeRights (sc.kind == .device) x
    mMod (closeScope sc.num))

/-- QUENCH (R211). -/
def execQuench (e a : BitVec 6) (s : State) : Host.Outcome State Fault Refusal :=
  atHorizon s (do
    let (x, _) ← getS a
    let sc ← mScope x
    let issuer := if e == 0x20 then none else some (s.seat.unit.uid, (e.setWidth 5 : BitVec 5))
    mMod (fun s => quenchScope s s.seat.unit.part sc.num issuer))

/-- The snapshot is refreshed by a CWAIT's return, for every later plain load of the seat (R118, R213, R227). -/
def cwaitReturn (l : Lsn) (s : State) : State := refresh (s.onSeat (fun t => squashReads t l))

/-- A scope that a CWAIT on it has seen done is free (R214). -/
def freeSeen (n : BitVec 12) (p : Part) : Part :=
  let x := p.scope n
  if x.kind == .device then p.setScope { x with state := .free } else p

def execCwait (d a : BitVec 6) (s : State) : Host.Outcome State Fault Refusal :=
  atHorizon s (do
    mDest d
    let (x, _) ← getS a
    let l ← myLsn .s
    match resolveRef s.myPart s.seat.unit.scope x with
    | none =>
      mMod (cwaitReturn l)
      putS d 0xFF 0
    | some sc =>
      mScopeRights (inSub s.myPart s.seat.unit.scope sc.num) x
      mNeeds (sc.state == .done) .cwait
      mMod (modPart (freeSeen sc.num))
      mMod (cwaitReturn l)
      putS d ((statusOf sc).setWidth 64) 0)

def stateCode : ScopeState → Dword
  | .free => 0 | .opened => 1 | .closed => 2 | .done => 3

/-- CREAD (R213); for a stale reference only STATE is stated, so STATUS and COUNT are free (log 2). -/
def execCread (d a : BitVec 6) (s : State) : Host.Outcome State Fault Refusal :=
  atHorizon s (do
    mDest d
    let (x, _) ← getS a
    match resolveRef s.myPart s.seat.unit.scope x with
    | none =>
      let n ← mPick
      putS d ((if n.testBit 32 then 0x1300000000 else 0) ||| (BitVec.ofNat 32 n).setWidth 64) 0
    | some sc =>
      mScopeRights (inSub s.myPart s.seat.unit.scope sc.num) x
      putS d ((stateCode sc.state <<< 62) ||| ((statusOf sc).setWidth 64 <<< 32) ||| sc.counter.setWidth 64) 0)

-- Barriers.
def State.bar (s : State) (n : Fin 16) : Barrier := (s.cluster s.here).bars[n]
def State.setBar (s : State) (n : Fin 16) (b : Barrier) : State :=
  let c := s.cluster s.here
  s.setCluster { c with bars := c.bars.set n b }

/-- The barrier that an operand names (R215). -/
def mBarNum (a : BitVec 6) : M (Fin 16) := do
  let (x, _) ← getS a
  mOperand .s (x.extractLsb' 4 60 == 0)
  pure (x.extractLsb' 0 4).toFin

/-- The unit takes part in the barrier from its first word on it (R217). -/
def mJoin (e : Eng) (n : Fin 16) : M Barrier := do
  let s ← get
  let b := s.bar n
  let u := s.seat.unit
  mOperand e (b.init && (b.takes u.uid || decide (b.parts.length < 64)))
  mScopeRights (inSub s.myPart b.domain u.scope) (BitVec.ofNat 64 n.val)
  let b := if b.takes u.uid then b else { b with parts := b.parts ++ [(u.uid, none)] }
  mMod (fun s => s.setBar n b)
  pure b

/-- Waits in the state reached, as a participant. -/
def mWaitHere {α : Type} (w : Wait) : M α := fun s => .error (.waitIn w s)

/-- The publication of an arrival (R217, R181). -/
def mArrivalPublishes : M Unit := do
  let l ← myLsn .s
  mDrained l
  mCommandsDone l
  mPublish l (some l) .cluster

/-- BAR.INIT (R216). A stale DOMAIN is OPERAND_CLASS, as R207 has it for the words that it lists (DESIGN CHOICE, log 113: R216 gives no
fault). -/
def execBarInit (a b : BitVec 6) (s : State) : Host.Outcome State Fault Refusal :=
  atHorizon s (do
    let n ← mBarNum a
    let (x, _) ← getS b
    let cnt := (x.extractLsb' 0 16).toNat
    let old := s.bar n
    let u := s.seat.unit
    mOperand .s (x.extractLsb' 48 16 == 0 && decide (1 ≤ cnt) && decide (cnt ≤ 64)
      && old.parts.all (fun p => p.1 == u.uid) && old.cnt == old.exp)
    let dom ← mScope ((x.extractLsb' 16 32 : W32).setWidth 64)
    mScopeRights (inSub s.myPart dom.num u.scope) x
    mMod (fun s => s.setBar n { domain := dom.num, parts := [(u.uid, none)], cnt := BitVec.ofNat 8 cnt, exp := BitVec.ofNat 8 cnt
                                gen := old.gen, init := true }))

def execBarArrive (a : BitVec 6) (s : State) : Host.Outcome State Fault Refusal :=
  atHorizon s (do
    let n ← mBarNum a
    let b ← mJoin .s n
    mArrivalPublishes
    match b.arrived s.seat.unit.uid with
    | some _ => mWaitHere .barrier
    | none => mMod (fun s => s.setBar n (b.arrive s.seat.unit.uid)))

/-- The snapshot is refreshed for values published at CLUSTER scope or wider (R217, R227). -/
def barrierReturn (l : Lsn) (s : State) : State := s.onSeat (fun t => { squashReads t l with vpClus := s.seqNo, barGen := none })

/-- Waits until a generation other than `g` is current (R217). -/
def mWaitGen (n : Fin 16) (g : Half) : M Unit := do
  let s ← get
  let l ← myLsn .s
  if (s.bar n).gen != g then mMod (barrierReturn l)
  else
    mModSeat (fun t => { t with barGen := some (n, g) })
    mWaitHere .barrier

/-- The generation that this word already waits for (R217; log 17). -/
def heldGen (t : Seat) (n : Fin 16) : Option Half :=
  match t.barGen with
  | some (m, g) => if m == n then some g else none
  | none => none

def execBarWait (a : BitVec 6) (s : State) : Host.Outcome State Fault Refusal :=
  atHorizon s (do
    let n ← mBarNum a
    let b ← mJoin .s n
    match heldGen s.seat n with
    | some g => mWaitGen n g
    | none => mWaitGen n ((b.arrived s.seat.unit.uid).getD b.gen))

def execBarSync (a : BitVec 6) (s : State) : Host.Outcome State Fault Refusal :=
  atHorizon s (do
    let n ← mBarNum a
    let b ← mJoin .s n
    match heldGen s.seat n with
    | some g => mWaitGen n g
    | none =>
      mArrivalPublishes
      match b.arrived s.seat.unit.uid with
      | some _ => mWaitHere .barrier
      | none =>
        mMod (fun s => s.setBar n (b.arrive s.seat.unit.uid))
        mWaitGen n b.gen)

end Sys2Proof.Machine
end

