-- ==== Sys2Proof/Machine/DispatchEvents.lean ====
section
/-! DEFINITION. The dispatcher and the Hearth at work on seats: placement and resumption (R38, R296, R299, R300), the chip
tick (R37, R249, R254, R256, R258), slices (R251), and faults with their replies (R280, R285, R286). -/

namespace Sys2Proof.Machine

-- Bind records (R248).
/-- A bind record at a slot; an empty one at a place that is no slot. -/
def State.bind (s : State) (die slot : Nat) : Bind := (s.slots[die % 4]'(Nat.mod_lt _ (by decide)))[slot % 64]'(Nat.mod_lt _ (by decide))
def State.setBind (s : State) (die slot : Nat) (b : Bind) : State :=
  let d : Fin 4 := Fin.ofNat 4 die
  let k : Fin 64 := Fin.ofNat 64 slot
  { s with slots := s.slots.set d (s.slots[d].set k b) }

/-- The slots of the package, by die. -/
def allSlots : List (Nat × Nat) := (List.range 4).flatMap (fun d => (List.range 64).map (fun k => (d, k)))

/-- A record is a queue's. -/
def Bind.holds (b : Bind) (vf q : Nat) : Bool := b.v && b.vf.toNat == vf && b.qnum.toNat == q

/-- The first slot that holds a queue. -/
def State.slotOf (s : State) (vf q : Nat) : Option (Nat × Nat) := allSlots.find? (fun p => (s.bind p.1 p.2).holds vf q)

/-- The unit is of the job. -/
def Job.has (j : Job) (s : State) (u : UnitRec) : Bool := j.part == u.part && inSub (s.part j.part) j.scope u.scope

/-- The dispatcher of a die places the units of queues whose records its table holds, or has held while the job is open (R19, R248; log 134). -/
def dieServes (s : State) (die : Nat) (u : UnitRec) : Bool :=
  match s.jobs.find? (fun j => j.has s u) with
  | none => true
  | some j => j.dies.contains die

/-- A record of the queue has PIN = 1 (R248): one in any die's table pins its units. -/
def State.queuePinned (s : State) (vf q : Nat) : Bool := allSlots.any (fun p => (s.bind p.1 p.2).holds vf q && (s.bind p.1 p.2).pin)

-- Placement (R38).
/-- A unit that waits for a seat: a released entry, or a saved context; how often it has been passed over, whether its probe
hits and in which die, whether its context is exhausted, and whether the seat at hand can take it. -/
structure Cand where
  unit  : UnitRec
  saved : Bool
  count : Nat
  hit   : Option Nat
  poor  : Bool
  fits  : Bool
  deriving DecidableEq, Repr

/-- The die whose L2 holds the line of a probe address (R38), under the unit's partition and the page's key (R253): the probe raises no
fault. -/
def probeHit (s : State) (u : UnitRec) (va : Dword) : Option Nat :=
  if va.extractLsb' 54 10 != 0 then none
  else
    match walk s (s.ctx u.vf u.proc).ptbase va .read with
    | .error _ => none
    | .ok (leaf, lvl) =>
      let key := leafKey leaf lvl va
      if decide (nodeOf key < 4) && (lineIn s (1024 + nodeOf key) (key / 128) u.part (pteKeyId leaf)).isSome
      then some (nodeOf key) else none

/-- The shared pool's seats are the current VF's; a unit of a pinned slot keeps one that it has, but takes none out of its turn (R251). -/
def poolTurn (s : State) (u : UnitRec) : Bool := u.part != 0 || u.vf == s.curVf

/-- The die that the probe of a unit's timetable entry hits. -/
def entryHit (s : State) (e : Entry) : Option Nat := if e.pv then probeHit s e.unit (BitVec.signExtend 64 e.probe) else none

/-- Everything of a partition that waits for a seat, in no order. -/
def waitingUnits (s : State) (part : Fin 32) (id : SeatId) : List Cand :=
  let poor (u : UnitRec) : Bool := decide ((s.ctx u.vf u.proc).bal ≤ 0)
  (((s.part part).entries.filter (fun e => e.phase == .released && poolTurn s e.unit)).map (fun e =>
    { unit := e.unit, saved := false, count := e.unit.bypass, poor := poor e.unit, fits := (s.image e.unit.image).isSome
      hit := entryHit s e }))
  ++ ((s.saved.filter (fun x => x.seat.unit.part == part && x.reply.isNone && !x.unsent && poolTurn s x.seat.unit)).map (fun x =>
    { unit := x.seat.unit, saved := true, count := x.passed, poor := poor x.seat.unit, fits := mayResume s x id
      hit := ((s.part part).entries.find? (fun e => e.unit.uid == x.seat.unit.uid)).bind (entryHit s) }))

/-- Age (R38): by release tick, then launch order, then unit index. -/
def older (f : W32) (a b : UnitRec) : Bool :=
  if a.release != b.release then decide ((f - b.release).toNat < (f - a.release).toNat)
  else if a.order != b.order then decide (a.order < b.order)
  else decide (a.ix.toNat < b.ix.toNat)

/-- A unit that has been passed over four times comes first; then those of contexts that are not exhausted; among these the
ones whose probe hits (R38, R45, R256; log 22). -/
def Cand.rank (c : Cand) : Nat :=
  if 4 ≤ c.count then 0 else (if c.poor then 3 else 1) + (if c.hit.isSome then 0 else 1)

def Cand.before (f : W32) (a b : Cand) : Bool := decide (a.rank < b.rank) || (a.rank == b.rank && older f a.unit b.unit)

/-- The next unit: the oldest that has been passed over four times, before any other, where the seat can take it; where there is none, the first in the
order of R38 among those that the seat can take, one of an exhausted context only when no other waits (R45, R256). -/
def nextUnit (f : W32) (l : List Cand) : Option Cand :=
  let due := l.filter (fun c => decide (4 ≤ c.count))
  let rich := l.any (fun c => !c.poor)
  let pool := if due.isEmpty then l.filter (fun c => c.fits && (!c.poor || !rich)) else due
  (pool.foldl (fun (b : Option Cand) c => match b with
    | none => some c
    | some x => if c.before f x then some c else some x) none).filter (fun c => c.fits)

/-- A unit whose probe hits goes to its die while a seat is free there (R38). -/
def goesHere (s : State) (part : Fin 32) (id : SeatId) (c : Cand) : Bool :=
  match c.hit with
  | none => true
  | some d => dieOf id == d || !(List.range 512).any (fun k => seatFree s part (BitVec.ofNat 11 (512 * d + k)))

/-- The older units that wait count that a younger one was taken (R38, R300). -/
def passOver (s : State) (part : Fin 32) (u : UnitRec) (l : List Cand) : State :=
  let f := (s.part part).frame
  let younger (uid : Nat) : Bool := l.any (fun c => c.unit.uid == uid && uid != u.uid && older f c.unit u)
  let p := s.part part
  let s := s.setPart { p with entries := p.entries.map (fun e =>
    if younger e.unit.uid then { e with unit := { e.unit with bypass := e.unit.bypass + 1 } } else e) }
  let full := s.saved.filter (fun x => younger x.seat.unit.uid && decide (3 ≤ x.passed))
  let s : State := { s with saved := s.saved.map (fun x => if younger x.seat.unit.uid then { x with passed := x.passed + 1 } else x) }
  full.foldl reserve s

/-- The unit that the dispatcher of the die would put on the seat at hand, with all that wait for it (R19, R38). -/
def choice (s : State) : Option (Cand × List Cand) :=
  let id := s.seat.id
  let part := s.partOf (clusOf id)
  if !seatFree s part id then none
  else
    let l := (waitingUnits s part id).filter (fun c => dieServes s (dieOf id) c.unit)
    match nextUnit (s.part part).frame l with
    | none => none
    | some c => if goesHere s part id c then some (c, l) else none

/-- A released entry's unit starts on the seat at hand (R38, R97). -/
def placeUnit (s : State) (u : UnitRec) (i : Image) : State :=
  let p := s.part u.part
  noteUser { s.setPart { p with entries := p.entries.map (fun e => if e.unit.uid == u.uid then { e with phase := .placed, swapped := false } else e) } with
    seat := startSeat s s.seat.id u i.img }

/-- UNIT_PLACEMENT: the seat at hand is the one that the event names. -/
def execUnitPlacement (seat : BitVec 11) (s : State) : Host.Outcome State Fault Refusal :=
  event s (fun s =>
    let s := s.select seat
    match choice s with
    | none => s
    | some (c, l) =>
      match c.saved, s.image c.unit.image with
      | false, some i => placeUnit (passOver s c.unit.part c.unit l) c.unit i
      | false, none | true, _ => s)

/-- UNIT_RESUME (R296, R299, R300). -/
def execUnitResume (seat : BitVec 11) (s : State) : Host.Outcome State Fault Refusal :=
  event s (fun s =>
    let s := s.select seat
    match choice s with
    | none => s
    | some (c, l) =>
      match c.saved, s.saved.find? (fun x => x.seat.unit.uid == c.unit.uid) with
      | true, some x => restore (passOver s c.unit.part c.unit l) x
      | true, none | false, _ => s)

-- The chip tick (R37).
/-- An entry whose due tick F has reached (R37). -/
def overdue (p : Part) (e : Entry) : Bool := e.dv && reached p.frame e.due

/-- The entry that a slip record names: the lowest SCOPE, then the lowest UNIT (R37). -/
def slipEntry (p : Part) : Option Entry :=
  (p.entries.filter (overdue p)).foldl (fun b e => match b with
    | none => some e
    | some x =>
      if e.unit.scope.toNat < x.unit.scope.toNat || (e.unit.scope == x.unit.scope && decide (e.unit.ix.toNat < x.unit.ix.toNat))
      then some e else some x) none

/-- The lead VF of a partition: its lowest-numbered VF other than VF 0 (R257). -/
def leadVf (s : State) (part : Fin 32) : Option Nat := ((List.range 96).map (· + 1)).find? (fun v => (s.vf v).part == part)

/-- A slip record (R258): none while SLIPBASE is zero. Its TOD counts the chip tick in progress (DESIGN CHOICE, log 143). -/
def slipRecord (s : State) (part : Fin 32) (e : Entry) : State :=
  let p := s.part part
  if p.slipbase == 0 then s
  else
    let at_ := p.slipbase.toNat + 32 * (p.slipix.toNat % 64)
    let s := hostWrite s at_ (dwords
      [BitVec.ofNat 64 (part.val * pow2 32) ||| p.frame.setWidth 64, (e.unit.ix.setWidth 64 <<< 32) ||| e.unit.scope.setWidth 64,
       e.due.setWidth 64, s.tod])
    let s := s.setPart { s.part part with slipix := p.slipix + 1 }
    let s := match leadVf s part with
      | some v => s.msix v 0
      | none => s
    s.irq (.slip part.val)

/-- A dependence that still holds an entry: its scope is not done (R246). -/
def holds (p : Part) (d : BitVec 12 × BitVec 20) : Bool :=
  let x := p.scope d.1
  x.gen == d.2 && (x.state == .opened || x.state == .closed)

/-- The entry is released in this tick (R37). -/
def released (p : Part) (e : Entry) : Bool :=
  e.phase == .waiting && reached p.frame e.unit.release && !e.deps.any (holds p)

/-- The balances of a partition's contexts at a refill (R256). -/
def refill (s : State) (part : Fin 32) : State :=
  { s with ctxs := s.ctxs.map (fun c => if c.part == part then
      { c with bal := Config.allotment c.vf c.proc % pow2 31, used := 0 } else c) }

/-- One tick of a partition (R37, R256). -/
def tickPart (s : State) (part : Fin 32) : State :=
  let p := s.part part
  match slipEntry p with
  | some e =>
    let s := s.setPart { p with slipcount := if p.slipcount == 0xFFFFFFFF then p.slipcount else p.slipcount + 1, slipping := true }
    if p.slipping then s else slipRecord s part e
  | none =>
    let f := p.frame + 1
    let s := s.setPart { p with
      slipping := false, frame := f
      entries := p.entries.map (fun e => if released p e then { e with phase := .released } else e) }
    let s := if part == 0 then { s with sliceAge := s.sliceAge + 1 } else s
    if f.toNat % p.refill.toNat == 0 then refill s part else s

/-- The queue of a slot has a job that is not done (R249). -/
def slotBusy (s : State) (b : Bind) : Bool := s.jobs.any (fun j => j.vf == b.vf.toNat && j.q == b.qnum.toNat)

/-- A grace period of the slot runs (R316). -/
def inGrace (s : State) (die slot : Nat) : Bool := s.graces.any (fun g => g.die == die && g.slot == slot)

/-- A slot's watchdog at a tick (R249, R316). -/
def tickSlot (s : State) (die slot : Nat) (b : Bind) : Bind :=
  if b.v && b.wdog != 0 && !inGrace s die slot && slotBusy s b then { b with count := b.count + 1 } else b

def tickSlots (s : State) : State :=
  { s with
    slots := Vector.ofFn (fun d : Fin 4 => Vector.ofFn (fun k : Fin 64 => tickSlot s d k (s.slots[d][k])))
    graces := s.graces.map (fun g => { g with left := g.left - 1 }) }

/-- A slot's watchdog has reached WDOG (R306); a queue with records in several tables has the watchdog of the first (log 134). -/
def expired (s : State) (die slot : Nat) (b : Bind) : Bool :=
  b.v && b.wdog != 0 && decide (b.wdog.toNat ≤ b.count.toNat) && !inGrace s die slot && slotBusy s b
    && s.slotOf b.vf.toNat b.qnum.toNat == some (die, slot)

/-- The VF has admitted work in the shared pool: an entry, a resident unit or a saved one. -/
def hasWork (s : State) (v : Nat) : Bool :=
  (s.part 0).entries.any (fun e => e.unit.vf == v)
    || s.seats.any (fun t => t.unit.part == 0 && t.unit.vf == v) || s.saved.any (fun x => x.seat.unit.part == 0 && x.seat.unit.vf == v)

/-- The VF whose turn follows: the next one in VF order with admitted work. -/
def nextVf (s : State) : Nat :=
  (((List.range 97).map (fun i => (s.curVf + 1 + i) % 97)).find? (hasWork s)).getD s.curVf

/-- The current VF's slice is over: its frame ticks of partition 0 have passed, or it has no admitted work (R251). -/
def sliceOver (s : State) : Bool := !hasWork s s.curVf || decide (Config.sliceLength s.curVf ≤ s.sliceAge)

/-- Something has to happen in the present tick: a watchdog's QUENCH, the reset that follows a grace period that was not met (R316), or the turn of
another VF (R251). -/
def tickHeld (s : State) : Bool :=
  (sliceOver s && nextVf s != s.curVf) || s.graces.any (fun g => g.left == 0)
    || (List.range 4).any (fun d => (List.range 64).any (fun k => match (s.slots[d]?).bind (fun v => v[k]?) with
      | some b => expired s d k b
      | none => false))

/-- Cycles of one tick (R4). -/
def tickCycles : Nat := 64

/-- A resident unit's cycles, and their charge to its context (R220, R251, R256). -/
def tickSeats (s : State) : State :=
  let s' := s.seats.foldl (fun (s : State) t =>
    let s := charge t.unit.vf t.unit.proc (65536 * tickCycles) s
    let c := s.ctx t.unit.vf t.unit.proc
    s.setCtx { c with used := c.used + tickCycles }) s
  s'.mapSeats (fun t => if t.status == .vacant then t else { t with cycles := t.cycles + BitVec.ofNat 64 tickCycles })

/-- Token buckets at a tick (R254): RATE more, up to DEPTH. -/
def tickBuckets (s : State) : State :=
  { s with ctxs := s.ctxs.map (fun c => { c with levels := c.levels.map (fun l => (l.1, l.2 - bucketRate c)) }) }

/-- CHIP_TICK: every partition steps its frame counter or slips, once all that belongs to the tick before has happened. TOD
has risen when a slip record is written, so that it counts the tick in progress (log 143). -/
def chipTick (s : State) : State :=
  if tickHeld s then s else
  let s : State := { s with tod := s.tod + 1 }
  let s := tickSeats s
  let s := (s.parts.map (fun p => p.id)).foldl tickPart s
  let s := tickSlots s
  let s := tickBuckets s
  sendReports ((s.parts.map (fun p => p.id)).foldl retryPosts s)

def execChipTick (s : State) : Host.Outcome State Fault Refusal := event s chipTick

-- Slices of the shared pool (R251).
/-- The outgoing VF's resident units are pre-empted, but for those of pinned slots; a halted one (R292) and one that waits for the Hearth's service
(R285) keep their seats (log 76). -/
def sliceEnd (s : State) : State :=
  if !sliceOver s then s else
  let out := s.seats.filter (fun t => t.unit.part == 0 && t.unit.vf == s.curVf && !t.unit.pinned && t.status == .running)
  let id := s.seat.id
  let next := nextVf s
  let s := out.foldl (fun s t => preempt (s.select t.id) none false) s
  { s.select id with curVf := next, sliceAge := 0 }

def execSliceEnd (s : State) : Host.Outcome State Fault Refusal := event s sliceEnd

-- Faults (R280, R285, R286).
/-- A held fault whose word is at H is raised (R280). -/
def raiseHeld (s : State) : State :=
  if s.seat.status != .running then s
  else
    match engines.find? (fun e => (s.seat.eng e).held.isSome && s.seat.atH e && !(s.seat.eng e).done) with
    | none => s
    | some e => match (s.seat.eng e).held with
      | none => s
      | some f => raiseFault e f s

def execFaultRaise (s : State) : Host.Outcome State Fault Refusal := event s raiseHeld

/-- The place of a page entry of the unit at hand at a level of the walk (R128). -/
def entryPlace (s : State) (va : Dword) (lvl : Nat) : Nat :=
  let k0 := pteBase s.myCtx.ptbase + 8 * (va.extractLsb' 42 13).toNat
  let k1 := pteBase (s.homeDword k0) + 8 * (va.extractLsb' 29 13).toNat
  if lvl == 0 then k0 else if lvl == 1 then k1 else pteBase (s.homeDword k1) + 8 * (va.extractLsb' 16 13).toNat

/-- The translations of a page leave every cell of the partition (R224, R285). -/
def dropPage (s : State) (va : Dword) : State :=
  let u := s.seat.unit
  { s with tlb := s.tlb.filter (fun e => !(e.part == u.part && e.vf == u.vf && e.proc == u.proc
      && e.page / (if e.lvl == 1 then 8192 else 1) == va.toNat / 65536 / (if e.lvl == 1 then 8192 else 1))) }

/-- The Hearth may write the entry at a level of the walk to make a page of its own present: valid, with no right for units, and under
the context's key identity, under which slice words are written (R262). -/
def serviceOk (s : State) (entry : Dword) (lvl : Nat) : Bool :=
  entry.getLsbD 0 && pteValid entry lvl && entry.extractLsb' 1 2 == 0 && (!pteLeaf entry lvl || pteKeyId entry == s.contextKey s.seat.unit.vf)

/-- Bytes under an entry at a level of the walk (R128). -/
def levelSize (lvl : Nat) : Nat := if lvl == 0 then pow2 42 else if lvl == 1 then pow2 29 else 65536

/-- The entry is written, the page's translations go, and the page takes the context's slice words that lie on it (R262). -/
def servePage (entry va : Dword) (lvl : Nat) (s : State) : State :=
  let u := s.seat.unit
  let k := entryPlace s va lvl
  let s := dropPage (((List.range 8).zip (bytesOf entry 8)).foldl (fun s b => deviceWrite s (k + b.1) b.2 .package u.part) s) va
  (s.images.filter (fun i => i.vf == u.vf && i.proc == u.proc)).foldl (fun s i =>
    placeImage s u.vf u.proc u.part i.img (fun a => a / levelSize lvl == va.toNat / levelSize lvl)) s

/-- The level of the entry that keeps a page from being present: one that is not present or not valid, or that names what no memory backs
(R128-R130). -/
def absentLevel (s : State) (va : Dword) : Option Nat :=
  let k0 := entryPlace s va 0
  let k1 := entryPlace s va 1
  let k2 := entryPlace s va 2
  let bad (k lvl : Nat) : Bool := !(s.homeDword k).getLsbD 0 || !pteValid (s.homeDword k) lvl
  let leafBad (k lvl : Nat) : Bool := !backed (leafKey (s.homeDword k) lvl va)
  if !backed k0 then none
  else if bad k0 0 || !backed k1 then some 0
  else if bad k1 1 then some 1
  else if (s.homeDword k1).getLsbD 4 then (if leafBad k1 1 then some 1 else none)
  else if !backed k2 then some 1
  else if bad k2 2 || leafBad k2 2 then some 2
  else none

/-- A page of the Hearth's that the unit at hand has found absent is made present (R285): the entry that keeps it so is written, or a spilled pad block
whose place is not backed gets another one. -/
def makePresent (entry va : Dword) (go : State → State) (s : State) : State :=
  if isPadSpace va then
    let c := s.cell (cellOf s.seat.id)
    let b := padOffset va / 16384
    let e := padEntry s c.ix b
    go (s.setCell { c with pads := putWhere (fun p => p.1 == b) (b, (e &&& 0x3FFF) ||| BitVec.ofNat 64 (freeSpill s (dieOf s.seat.id) * 16384)) c.pads })
  else match absentLevel s va with
    | none => go s
    | some lvl => if serviceOk s entry lvl then go (servePage entry va lvl s) else s

/-- The Hearth's service of the unit at hand (R285): a BKPT goes on; a page of the Hearth's gets the entry that makes it
present, at the level where the walk stopped, and the unit, or the chain that waits for the page (R197), goes on. -/
def service (entry : Dword) (s : State) : State :=
  let r := s.seat.frec
  if s.seat.status == .service then
    if r.fcode == FC.trap then s.onSeat goOn
    else makePresent entry r.faddr (fun s => s.onSeat goOn) s
  else
    match s.seat.copies.findSome? (fun c => c.page) with
    | none => s
    | some va =>
      makePresent entry va (fun s => s.onSeat (fun t => { t with copies := t.copies.map (fun c => if c.page == some va then { c with page := none } else c) })) s

def execHearthPageService (entry : Dword) (s : State) : Host.Outcome State Fault Refusal := event s (service entry)

/-- A report is answered: its SEQ is open no more (R286). -/
def answerReport (s : State) (vf : Nat) (q : W32) : State :=
  let v := s.vf vf
  { s.setVf { v with open_ := v.open_.filter (· != q) } with
    saved := s.saved.map (fun x => if x.seat.unit.vf == vf && x.reply == some q then { x with reply := none } else x) }

/-- FAULT_REPLY_RESUME (R286): the unit waits for a seat; a reply that names no unanswered report is ignored. -/
def execFaultReplyResume (vf : Nat) (seq : W32) (s : State) : Host.Outcome State Fault Refusal :=
  event s (fun s => if (s.vf vf).open_.contains seq then sendReports (answerReport s vf seq) else s)

/-- FAULT_REPLY_QUENCH (R286): the scope of the unit is quenched. -/
def execFaultReplyQuench (vf : Nat) (seq : W32) (s : State) : Host.Outcome State Fault Refusal :=
  event s (fun s =>
    if (s.vf vf).open_.contains seq then
      match s.saved.find? (fun x => x.seat.unit.vf == vf && x.reply == some seq) with
      | some x => sendReports (quenchScope (answerReport s vf seq) x.seat.unit.part x.seat.unit.scope none)
      | none => sendReports (answerReport s vf seq)
    else s)

end Sys2Proof.Machine
end

