-- ==== Sys2Proof/Machine/HostEvents.lean ====
section
/-! DEFINITION. The host interface: doorbells and registers (R250, R257, R285), binding and arbitration (R248-R251), commands
(R245-R247), the watchdog and partition reset (R306, R307, R316-R318), fabric and die links (R263, R288, R305), and module
reset (R264). -/

namespace Sys2Proof.Machine

-- Queues (R245, R248, R250).
/-- The Hearth's state of a queue: what the host driver agreed on for it before its first use (log 4). -/
def State.queue (s : State) (vf q : Nat) : HostQueue :=
  (s.queues.find? (fun x => x.vf == vf && x.q == q)).getD
    { vf, q, proc := Config.queueProc vf q % 256, qbase := Config.queueBase vf q &&& 0x7FFFFFFFFFFFC0
      logn := 4 + Config.queueLogn vf q % 13, prio := Config.queuePrio vf q, wdog := Config.queueWdog vf q, vec := Config.queueVec vf q }
def State.setQueue (s : State) (x : HostQueue) : State :=
  { s with queues := putWhere (fun y => y.vf == x.vf && y.q == x.q) x s.queues }

/-- Every record of a queue changed: the tables hold the same of it (R19, R248). -/
def mapQueueBinds (s : State) (vf q : Nat) (f : Bind → Bind) : State := mapBinds s (fun b => if b.holds vf q then f b else b)

/-- HEAD and TAIL of a queue: its record's while it is bound (R250). -/
def State.heads (s : State) (vf q : Nat) : W32 × W32 :=
  match s.slotOf vf q with
  | some p => ((s.bind p.1 p.2).head, (s.bind p.1 p.2).tail)
  | none => ((s.queue vf q).head, (s.queue vf q).tail)

/-- A function that exists and may be used: VFs only once SR-IOV is offered, and none after a bring-up that has stopped (R244,
R264). -/
def State.vfOn (s : State) (vf : Nat) : Bool := decide (vf ≤ 96) && (vf == 0 || s.sriov) && s.bootFail == 0

/-- Nothing of the VF is admitted in CONFIG_LOCKED and ERROR (R260). -/
def State.admits (s : State) (vf : Nat) : Bool := (s.vf vf).tdi == .unlocked || (s.vf vf).tdi == .run

/-- The queue's bit in QERR, with the interrupt of the VF's vector 0 (R247, R250). -/
def qerr (s : State) (vf q : Nat) : State :=
  let v := s.vf vf
  (s.setVf { v with qerr := if v.qerr.contains q then v.qerr else v.qerr ++ [q] }).msix vf 0

/-- A tail in the window from HEAD (R250). -/
def inWindow (tail head : W32) (logn : Nat) : Bool := decide ((tail - head).toNat ≤ pow2 logn)

/-- A doorbell (R245, R250, R260). -/
def doorbell (s : State) (vf q : Nat) (tail : W32) : State :=
  let x := s.queue vf q
  match s.slotOf vf q with
  | some p =>
    let b := s.bind p.1 p.2
    if inWindow tail b.head b.logn.toNat then
      let s := mapQueueBinds s vf q (fun b => { b with tail })
      if s.admits vf then s else s.setQueue { x with pending := true }
    else (qerr s vf q).irq (.doorbell vf q)
  | none =>
    if inWindow tail x.head x.logn then (s.setQueue { x with tail, pending := true }).irq (.doorbell vf q)
    else (qerr s vf q).irq (.doorbell vf q)

/-- DOORBELL_WRITE (R237, R245, R250): the host's own writes to its memory that precede the doorbell come with it (log 23). -/
def execDoorbellWrite (vf q : Nat) (tail : W32) (host : List (Nat × Byte)) (s : State) : Host.Outcome State Fault Refusal :=
  event s (fun s =>
    if s.vfOn vf && decide (q < 1024) then doorbell (host.foldl (fun s b => hostWrite s b.1 [b.2]) s) vf q tail else s)

/-- QERR_CLEAR (R250): a 1 clears its bit. -/
def execQerrClear (vf reg : Nat) (mask : Dword) (s : State) : Host.Outcome State Fault Refusal :=
  event s (fun s =>
    let v := s.vf vf
    if s.vfOn vf && decide (reg < 16) then
      s.setVf { v with qerr := v.qerr.filter (fun q => !(q / 64 == reg && mask.getLsbD (q % 64))) } else s)

/-- SLIPBASE_WRITE (R257): by the lead VF for its partition, or at the physical function's request for one that it names. -/
def execSlipbaseWrite (vf part : Nat) (val : Dword) (s : State) : Host.Outcome State Fault Refusal :=
  event s (fun s =>
    let p : Fin 32 := if vf == 0 then Fin.ofNat 32 part else (s.vf vf).part
    if s.vfOn vf && ((vf == 0 && decide (part < 32)) || (vf != 0 && leadVf s p == some vf)) then
      s.setPart { s.part p with slipbase := val &&& 0xFFFFFFFFFFFFFFE0 } else s)

/-- REGISTER_WRITE (R257, R285): FLTBASE takes a value, which must be aligned, else a free aligned one (log 2); every other
register without a behaviour of its own ignores it. -/
def execRegisterWrite (vf off : Nat) (val : Dword) (s : State) : Host.Outcome State Fault Refusal :=
  event s (fun s =>
    if s.vfOn vf && off == 0x810 then
      if val.toNat % 64 == 0 then s.setVf { s.vf vf with fltbase := val }
      else
        let (n, s) := s.pick
        s.setVf { s.vf vf with fltbase := BitVec.ofNat 64 n &&& 0xFFFFFFFFFFFFFFC0 }
    else s)

-- Arbitration (R251).
def weightOf (c : Ctx) : Nat := 1 + Config.processWeight c.vf c.proc % 255

/-- Level 2 (R251, R256): the process that is served first. -/
def procBefore (a b : Ctx) : Bool :=
  let pa := decide (a.bal ≤ 0)
  let pb := decide (b.bal ≤ 0)
  if pa != pb then pb
  else if a.used * weightOf b != b.used * weightOf a then decide (a.used * weightOf b < b.used * weightOf a)
  else if a.vf != b.vf then decide (a.vf < b.vf) else decide (a.proc < b.proc)

/-- The rank of a queue before another: level 2 among processes, level 3 within one (R250, R251). -/
def queueBefore (s : State) (a b : HostQueue) : Bool :=
  if a.vf == b.vf && a.proc == b.proc then
    if a.prio != b.prio then decide (b.prio.toNat < a.prio.toNat)
    else
      let r := (s.ctx a.vf a.proc).rr
      decide ((a.q + 1024 - r) % 1024 < (b.q + 1024 - r) % 1024)
  else procBefore (s.ctx a.vf a.proc) (s.ctx b.vf b.proc)

/-- Two queues compete: those of one hard partition, or of one VF of the shared pool (R251). -/
def rivals (s : State) (a b : HostQueue) : Bool :=
  (s.vf a.vf).part == (s.vf b.vf).part && ((s.vf a.vf).part != 0 || a.vf == b.vf)

/-- No rival among `l` ranks before the queue. -/
def wins (s : State) (l : List HostQueue) (x : HostQueue) : Bool :=
  l.all (fun y => !rivals s x y || (y.vf == x.vf && y.q == x.q) || !queueBefore s y x)

-- Binding (R248, R250).
/-- A die that runs the work of a partition: it has some of its clusters. -/
def runsWork (s : State) (die : Nat) (part : Fin 32) : Bool := (List.range 40).any (fun c => s.partOf (64 * die + c) == part)

/-- A queue that waits for a slot of a die: none of the die's holds it, the die will run its work, and it has entries to be read, an open job, or a
record in another die's table (R19; log 134). -/
def wantsSlot (s : State) (die : Nat) (x : HostQueue) : Bool :=
  (List.range 64).all (fun k => !(s.bind die k).holds x.vf x.q) && runsWork s die (s.vf x.vf).part
    && ((s.slotOf x.vf x.q).isSome || x.pending || x.head != x.tail || s.jobs.any (fun j => j.vf == x.vf && j.q == x.q)) && s.admits x.vf

/-- The unbind of a slot (R250): HEAD and TAIL go to the Hearth's state of the queue, as one step. -/
def unbind (s : State) (die slot : Nat) : State :=
  let b := s.bind die slot
  if b.v then
    let x := s.queue b.vf.toNat b.qnum.toNat
    (s.setQueue { x with head := b.head, tail := b.tail }).setBind die slot {}
  else s

/-- A context begins with its allotment as its balance (R256). -/
def openCtx (s : State) (vf proc : Nat) : State :=
  if s.ctxs.any (fun c => c.vf == vf && c.proc == proc) then s
  else s.setCtx { vf, proc, part := (s.vf vf).part, bal := Config.allotment vf proc % pow2 31 }

/-- A slot's queue. -/
def boundQueue (s : State) (die slot : Nat) : HostQueue := s.queue (s.bind die slot).vf.toNat (s.bind die slot).qnum.toNat

/-- The slot can take a new queue (R250): it is free, or no slot of the die is and its queue is the lowest in rank among those
of unpinned slots. -/
def canTake (s : State) (die slot : Nat) : Bool :=
  if !(s.bind die slot).v then true
  else
    (List.range 64).all (fun k => (s.bind die k).v) && !(s.bind die slot).pin
      && (List.range 64).all (fun k => (s.bind die k).pin || k == slot || !queueBefore s (boundQueue s die slot) (boundQueue s die k))

/-- The queue is bound to a slot (R248, R250), with what another record of it holds (R19). -/
def bindQueue (s : State) (die slot : Nat) (x : HostQueue) : State :=
  let at_ := s.heads x.vf x.q
  let count := ((s.slotOf x.vf x.q).map (fun p => (s.bind p.1 p.2).count)).getD 0
  let s := unbind s die slot
  let s := openCtx s x.vf x.proc
  let s : State := { s with jobs := s.jobs.map (fun j => if j.vf == x.vf && j.q == x.q then { j with dies := die :: j.dies } else j) }
  (s.setQueue { x with pending := false, head := at_.1, tail := at_.2 }).setBind die slot
    { v := true, count, qbase := x.qbase, wdog := x.wdog, part := BitVec.ofNat 5 (s.vf x.vf).part.val, prio := x.prio
      logn := BitVec.ofNat 5 x.logn, vf := BitVec.ofNat 7 x.vf, proc := BitVec.ofNat 8 x.proc, head := at_.1, tail := at_.2
      qnum := BitVec.ofNat 10 x.q, vec := x.vec }

/-- QUEUE_BIND (R250). -/
def execQueueBind (die slot vf q : Nat) (s : State) : Host.Outcome State Fault Refusal :=
  event s (fun s =>
    let x := s.queue vf q
    if decide (die < 4) && decide (slot < 64) && wantsSlot s die x && wins s (s.queues.filter (wantsSlot s die)) x && canTake s die slot then
      bindQueue s die slot x
    else s)

-- Commands (R246, R247).
/-- The command at the head of a bound queue. -/
def headEntry (s : State) (b : Bind) : List Dword :=
  let a := b.qbase.toNat + 64 * (b.head.toNat % pow2 b.logn.toNat)
  (List.range 8).map (fun i => s.homeDword (hostKey (a + 8 * i)))

def cmdOp (d : List Dword) : Nat := ((obD d 0).extractLsb' 56 8).toNat
def cmdTag (d : List Dword) : W32 := (obD d 0).setWidth 32
def cmdDepn (d : List Dword) : Nat := ((obD d 0).extractLsb' 32 3).toNat
def cmdAddr (d : List Dword) : BitVec 55 := (obD d 1).setWidth 55
def cmdCount (d : List Dword) : Nat := ((obD d 2).setWidth 32).toNat
def cmdAck (d : List Dword) : BitVec 55 := (obD d 3).setWidth 55
def cmdDeps (d : List Dword) : List W32 :=
  ([(obD d 4).setWidth 32, (obD d 4).extractLsb' 32 32, (obD d 5).setWidth 32, (obD d 5).extractLsb' 32 32] : List W32).take (cmdDepn d)

/-- The fields that R246 fixes for every command and for its kind (log 24). -/
def cmdFields (d : List Dword) : Bool :=
  decide (1 ≤ cmdOp d) && decide (cmdOp d ≤ 5) && (obD d 0).extractLsb' 35 21 == 0 && (obD d 1).extractLsb' 55 9 == 0
    && (obD d 2).extractLsb' 32 32 == 0 && (obD d 3).extractLsb' 55 9 == 0 && obD d 6 == 0 && obD d 7 == 0
    && (cmdAck d).toNat % 64 == 0
    && (match cmdOp d with
      | 1 => (cmdAddr d).toNat % 32 == 0 && cmdCount d == 0 && cmdDepn d == 0
      | 4 => decide (1 ≤ cmdCount d) && decide (cmdCount d ≤ 65536) && decide (cmdDepn d ≤ 4)
      | _ => cmdAddr d == 0 && cmdCount d == 0 && cmdDepn d == 0)

/-- The kind of scope that a command opens. -/
def cmdKind (op : Nat) : ScopeKind :=
  match op with
  | 1 => .job | 2 => .pass | 3 => .graph | _ => .launch

/-- The nesting that R246 asks for. -/
def cmdNests (p : Part) (nest : List (BitVec 12 × BitVec 20)) (op : Nat) : Bool :=
  match nest with
  | [] => op == 1
  | x :: _ =>
    match op with
    | 2 => (p.scope x.1).kind == .job
    | 3 => (p.scope x.1).kind == .pass
    | 4 => (p.scope x.1).kind == .graph
    | 5 => true
    | _ => false

/-- HEAD passes the command, and the queue's state is kept (R247). -/
def advance (s : State) (at_ : Nat × Nat) (x : HostQueue) : State :=
  let b := s.bind at_.1 at_.2
  mapQueueBinds (s.setQueue x) b.vf.toNat b.qnum.toNat (fun b => { b with head := b.head + 1 })

/-- Levels still to be skipped after a command that is skipped (R247). -/
def skipLevels (op n : Nat) : Nat := if op == 5 then n - 1 else if 1 ≤ op && op ≤ 4 then n + 1 else n

/-- A skipped command (R247): the queue's nesting ends where the job's does. -/
def skipCommand (x : HostQueue) (op : Nat) : HostQueue :=
  let n := skipLevels op x.skip
  { x with skip := n, nest := if n == 0 then [] else x.nest }

/-- The job that a queue has open. -/
def openJob (s : State) (part : Fin 32) (x : HostQueue) : Option Job :=
  match x.nest.getLast? with
  | none => none
  | some n => s.jobs.find? (fun j => j.scope == n.1 && j.part == part && j.vf == x.vf && j.q == x.q)

def setJob (s : State) (j : Job) : State :=
  { s with jobs := s.jobs.map (fun y => if y.scope == j.scope && y.part == j.part then j else y) }

/-- A breach (R247): the open job is quenched with ERRIX, and skipping starts with the breaching command; with no open job
there is nothing to quench, and QERR tells. -/
def breach (s : State) (part : Fin 32) (at_ : Nat × Nat) (x : HostQueue) (op : Nat) : State :=
  match x.nest.getLast? with
  | none => advance (qerr s x.vf x.q) at_ x
  | some n =>
    let b := s.bind at_.1 at_.2
    let s := match openJob s part x with
      | some j => quenchScope (setJob s { j with errix := b.head - x.jobIx }) part n.1 none
      | none => s
    advance s at_ (skipCommand { x with skip := x.nest.length } op)

/-- The places of the bytes of a launch's entries, or none where the context has no translation, no right to read or no key for one (log 24). -/
def entryPlaces (s : State) (part : Fin 32) (vf proc : Nat) (va : Dword) : Option (List (Nat × BitVec 7)) :=
  let l := (List.range 32).map (fun i => hearthPlace s part vf proc (va + BitVec.ofNat 64 i) .read)
  if l.all (fun k => k.isSome) then some (l.map (fun k => k.getD (0, 0))) else none

/-- The Hearth writes SCOPE into an entry (R246). -/
def writeScope (s : State) (part : Fin 32) (places : List (Nat × BitVec 7)) (n : BitVec 12) : State :=
  let lo := nth places 24 (0, 0)
  let hi := nth places 25 (0, 0)
  let s := deviceWrite s lo.1 (n.setWidth 8) .package part false lo.2
  homeWrite s { byte := { key := hi.1, val := (n >>> 8).setWidth 8, mask := 0x0F, kid := hi.2 }, lsn := 0 } 0 (some .package) 0 part

/-- The entry that a launch's record describes (R36). -/
def launchEntry (s : State) (x : HostQueue) (part : Fin 32) (pin : Bool) (places : List (Nat × BitVec 7)) (n : BitVec 12) (g : BitVec 20)
    (deps : List (BitVec 12 × BitVec 20)) : Entry :=
  let w (i : Nat) : Dword := wordOf 64 (((places.drop (8 * i)).take 8).map (fun p => s.underKey p.2 p.1 (s.home p.1)))
  let im := s.image ((w 2).setWidth 32)
  { unit :=
      { uid := s.nextUid, image := (w 2).setWidth 32, ix := (w 2).extractLsb' 32 32, scope := n, gen := g, part, vf := x.vf
        proc := x.proc, priv := (im.map (fun i => i.system)).getD false, ct := (w 3).getLsbD 26, release := (w 1).setWidth 32
        order := s.order, pinned := pin }
    probe := (w 0).setWidth 55, due := (w 1).extractLsb' 32 32, pv := (w 3).getLsbD 24, dv := (w 3).getLsbD 25, deps }

/-- The object entries of the launched image's code object go into the context's object table (R139). -/
def writeObjects (s : State) (part : Fin 32) (x : HostQueue) (h : W32) : State :=
  match s.image h with
  | none => s
  | some i =>
    let base := pteBase (s.ctx x.vf x.proc).objbase
    (s.codeObjs.filter (fun y => y.1 == i.object)).foldl (fun s y =>
      y.2.foldl (fun s o =>
        let bytes := dwords o.2
        ((List.range bytes.length).zip bytes).foldl (fun s b =>
          deviceWrite s (base + 64 * o.1 + b.1) b.2 .package part) s) s) s

/-- The entries of a launch, written and queued in order, or none where R36 refuses one; the state has every SCOPE field
written in either case (R246). -/
def loadEntries (s : State) (x : HostQueue) (part : Fin 32) (pin : Bool) (n : BitVec 12) (g : BitVec 20)
    (deps : List (BitVec 12 × BitVec 20)) (va : Dword) : Nat → Nat → State × Option (List Entry)
  | 0, _ => (s, some [])
  | k + 1, i =>
    match entryPlaces s part x.vf x.proc (va + BitVec.ofNat 64 (32 * i)) with
    | none => (s, none)
    | some places =>
      let s := writeScope s part places n
      let e := launchEntry s x part pin places n g deps
      let (s', rest) := loadEntries { s with nextUid := s.nextUid + 1 } x part pin n g deps va k (i + 1)
      (s', match rest with
        | none => none
        | some l =>
          if dueRefused e || (loadedImage s x.vf x.proc e.unit.image).isNone then none else some (e :: l))

/-- The scopes of the launches that a LAUNCH names: the latest of the same graph under each tag, or none for an unknown
tag (R246). -/
def findDeps (j : Job) (graph : BitVec 12 × BitVec 20) (tags : List W32) : Option (List (BitVec 12 × BitVec 20)) :=
  let l := tags.map (fun t => (j.launches.find? (fun y => y.1 == t && y.2.2 == graph)).map (fun y => y.2.1))
  if l.all (fun y => y.isSome) then some (l.filterMap id) else none

/-- A command's scope opens (R246); its acknowledgement area is a bus address. -/
def openCommand (p : Part) (x : HostQueue) (n parent : BitVec 12) (op : Nat) (d : List Dword) : Part :=
  openScope p n parent { num := n, ack := (cmdAck d).setWidth 64, hostAck := true, kind := cmdKind op, tag := cmdTag d, vf := x.vf, proc := x.proc }

/-- A LAUNCH that opens its scope `n` under a graph (R36, R40, R139, R246): its scope closes when its entries are written. -/
def launchUnder (s : State) (part : Fin 32) (at_ : Nat × Nat) (x : HostQueue) (d : List Dword) (j : Job)
    (graph : BitVec 12 × BitVec 20) (n : BitVec 12) : State :=
  match findDeps j graph (cmdDeps d) with
  | none => breach s part at_ x 4
  | some deps =>
    let g := nextGen ((s.part part).scope n).gen
    let (s, r) := loadEntries s x part (s.queuePinned x.vf x.q) n g deps (BitVec.signExtend 64 (cmdAddr d)) (cmdCount d) 0
    match r with
    | none => breach s part at_ x 4
    | some l =>
      let p := openCommand (s.part part) x n graph.1 4 d
      let y := p.scope n
      let p := p.setScope { y with counter := BitVec.ofNat 32 l.length, state := .closed }
      let s := { s.setPart { p with entries := p.entries ++ l } with order := s.order + 1 }
      let s := l.foldl (fun s e => writeObjects s part x e.unit.image) s
      let s := setJob s { j with launches := (cmdTag d, (n, g), graph) :: j.launches }
      advance (swapWork s) at_ x

/-- The scope that a queue has open innermost has been cancelled: the commands up to the end of the job are skipped (R247;
log 25). -/
def nestGone (p : Part) (x : HostQueue) : Bool :=
  match x.nest with
  | [] => false
  | n :: _ => (p.scope n.1).gen != n.2 || (p.scope n.1).state != .opened

/-- An entry with a reserved operation, which the Hearth meets with any command that it reads there (R246). -/
def opReserved (op : Nat) : Bool := !(decide (1 ≤ op) && decide (op ≤ 5))

/-- The Hearth applies the command at the head of a bound queue, if its operation is `op`, or reserved (R246, R247). -/
def applyHead (s : State) (at_ : Nat × Nat) (op : Nat) : State :=
  let b := s.bind at_.1 at_.2
  let x := s.queue b.vf.toNat b.qnum.toNat
  let part : Fin 32 := (s.vf x.vf).part
  let p := s.part part
  let d := headEntry s b
  let op := if opReserved (cmdOp d) then cmdOp d else op
  if b.head == b.tail || cmdOp d != op || p.rst || !s.admits x.vf || !s.vfOn x.vf then s
  else if x.skip != 0 then advance s at_ (skipCommand x op)
  else if nestGone p x then advance s at_ (skipCommand { x with skip := x.nest.length } op)
  else if !cmdFields d || !cmdNests p x.nest op then breach s part at_ x op
  else
    match op, x.nest with
    | 5, n :: rest =>
      let q := p.scope n.1
      advance (settle (s.setPart (p.setScope { q with state := .closed })) part) at_ { x with nest := rest }
    | 1, _ =>
      match p.freeScope with
      | none => s
      | some n =>
        let q := openCommand p x n 0 1 d
        let s : State := { s.setPart q with jobs := s.jobs ++
          [{ scope := n, part, vf := x.vf, q := x.q, record := cmdAddr d, tag := cmdTag d, slips := p.slipcount
             dies := ((allSlots.filter (fun p => (s.bind p.1 p.2).holds x.vf x.q)).map Prod.fst).eraseDups }] }
        let c := s.ctx x.vf x.proc
        advance (s.setCtx { c with rr := (x.q + 1) % 1024 }) at_ { x with nest := [(n, (q.scope n).gen)], jobIx := b.head }
    | 4, g :: _ =>
      match p.freeScope, openJob s part x with
      | some n, some j => launchUnder s part at_ x d j g n
      | none, _ => s
      | some _, none => breach s part at_ x 4
    | op, parent :: _ =>
      match p.freeScope with
      | none => s
      | some n =>
        let q := openCommand p x n parent.1 op d
        advance (s.setPart q) at_ { x with nest := (n, (q.scope n).gen) :: x.nest }
    | _, [] => s

/-- The bound queues whose head is a JOB, or an entry with a reserved operation, that may be read. -/
def jobQueues (s : State) : List HostQueue :=
  (allSlots.filter (fun p =>
    let b := s.bind p.1 p.2
    b.v && b.head != b.tail && (cmdOp (headEntry s b) == 1 || opReserved (cmdOp (headEntry s b))) && s.admits b.vf.toNat)).map (fun p => boundQueue s p.1 p.2)

/-- A command of a queue, if a slot holds it. -/
def commandOf (vf q op : Nat) (s : State) : State :=
  match s.slotOf vf q with
  | some p => applyHead s p op
  | none => s

/-- JOB: by the arbitration of R251. -/
def execJob (vf q : Nat) (s : State) : Host.Outcome State Fault Refusal :=
  event s (fun s => if wins s (jobQueues s) (s.queue vf q) then commandOf vf q 1 s else s)

/-- JOB_ADMISSION (R251): the JOB of one of the queues that win in their partition or VF; which partition comes first is free. -/
def execJobAdmission (s : State) : Host.Outcome State Fault Refusal :=
  event s (fun s =>
    let l := (jobQueues s).filter (wins s (jobQueues s))
    match l with
    | [] => s
    | x :: _ =>
      let (n, s) := s.pick
      let y := nth l (n % l.length) x
      commandOf y.vf y.q 1 s)

def execPass (vf q : Nat) (s : State) : Host.Outcome State Fault Refusal := event s (commandOf vf q 2)
def execGraph (vf q : Nat) (s : State) : Host.Outcome State Fault Refusal := event s (commandOf vf q 3)
def execLaunch (vf q : Nat) (s : State) : Host.Outcome State Fault Refusal := event s (commandOf vf q 4)
def execClose (vf q : Nat) (s : State) : Host.Outcome State Fault Refusal := event s (commandOf vf q 5)

/-- WORK_QUEUE_RESTORE (R255): the oldest swapped entry moves back where there is space. -/
def restoreWork (s : State) : State :=
  if regionSize ≤ inRegion s (fun _ => true) then s
  else
    let l := s.parts.flatMap (fun p => p.entries.filter (fun e => e.swapped && e.phase != .placed))
    match l.foldl (fun (b : Option Nat) e => match b with
        | none => some e.unit.uid
        | some u => some (Nat.min u e.unit.uid)) none with
    | none => s
    | some u => { s with parts := s.parts.map (fun p => { p with entries := p.entries.map (fun e =>
        if e.unit.uid == u then { e with swapped := false } else e) }) }

def execWorkQueueRestore (die : Nat) (s : State) : Host.Outcome State Fault Refusal :=
  event s (fun s => if die < 4 then restoreWork s else s)

-- The watchdog (R249, R306, R316).
/-- The watchdog's report (R306): no reply, and every field but FCODE, SCOPE and FADDR zero. -/
def watchdogReport (s : State) (vf q : Nat) (x : Scope) : State :=
  let v := s.vf vf
  let s := hostWrite s (v.fltbase.toNat + 64 * (v.seq.toNat % 64))
    (dwords [scopeRef x ||| (FC.watchdog.setWidth 64 <<< 32), 0, BitVec.ofNat 64 q, 0, 0, 0, 0, 0])
  (s.setVf { v with seq := v.seq + 1 }).msix vf 1

/-- Ticks from a QUENCH by a watchdog to the reset (R306, R316). -/
def graceTicks : Nat := 4097

/-- A slot's watchdog has reached WDOG (R306): the queue's oldest job is quenched. -/
def expire (s : State) (die slot : Nat) : State :=
  let b := s.bind die slot
  if expired s die slot b then
    match s.jobs.find? (fun j => j.vf == b.vf.toNat && j.q == b.qnum.toNat) with
    | none => s
    | some j =>
      let x := (s.part j.part).scope j.scope
      let s : State := { s with graces := s.graces ++ [⟨die, slot, j.part, j.scope, x.gen, graceTicks⟩] }
      let s := watchdogReport (setJob s { j with errix := 0xFFFFFFFF }) j.vf j.q x
      quenchScope s j.part j.scope none
  else s

def execWatchdogExpiry (die slot : Nat) (s : State) : Host.Outcome State Fault Refusal :=
  event s (fun s => if decide (die < 4) && decide (slot < 64) then expire s die slot else s)

-- Partition reset (R307, R317, R318).
/-- What a reset leaves of a reducing copy: the elements of the spans that it had moved (R204, R307). -/
def abandonCopy (s : State) (c : Copy) : State :=
  match c.kind with
  | .reduce =>
    let (n, s) := s.pick
    runAnyway (do let _ ← moveAll c (c.spans.take (n % (c.spans.length + 1)))) s
  | .chain | .plain | .halo => s

/-- A unit is stopped at once and discarded (R307 steps 2 and 3): its atomics land, its copies and commands are abandoned, and
its unpublished bytes go. -/
def dropUnit (s : State) : State :=
  let s := s.onSeat (fun t => t.roll (t.horizon.getD t.engS.lsn))
  let s := s.seat.atoms.foldl (fun s a => (landMemory s a).1) s
  let s := s.seat.copies.foldl abandonCopy s
  vacate s true

/-- Locations from `lo` to `hi` − 1 are zero, and nothing older is seen there. -/
def zeroRange (s : State) (lo hi : Nat) : State :=
  { s with
    mem := withoutRange s.mem lo hi
    badMem := unmark lo hi s.badMem
    hist := s.hist.filter (fun p => !(decide (lo ≤ p.key) && decide (p.key < hi))) }

/-- The near pads, windows and barriers of a cluster are zero (R307 steps 3 and 4). -/
def zeroCluster (s : State) (c : Nat) : State :=
  let s := (List.range 4).foldl (fun s k => zeroRange s (nearKey (4 * c + k) 0) (nearKey (4 * c + k) (pow2 20))) s
  let s := zeroRange s (windowKey c 0) (windowKey c (pow2 21))
  if s.clusters.any (fun x => x.ix == c) then s.setCluster { s.cluster c with bars := Vector.replicate 16 {} } else s

/-- The records of the open jobs (R307 step 5, R318). -/
def endJobs (s : State) (part : Fin 32) : State :=
  (s.jobs.filter (fun j => j.part == part)).foldl (fun s j => completeJob s part j FC.cancelled 0xFFFFFFFF) s

/-- The partition's queues: unbound, with HEAD at the first entry that has not been applied and no scope open. -/
def dropQueues (s : State) (part : Fin 32) : State :=
  let s := allSlots.foldl (fun s p => if (s.bind p.1 p.2).v && (s.bind p.1 p.2).part.toNat == part.val then unbind s p.1 p.2 else s) s
  { s with queues := s.queues.map (fun x => if (s.vf x.vf).part == part then { x with nest := [], skip := 0 } else x) }

/-- A partition reset (R307, R317, R318): the registers of the map have their reset values (R257). -/
def resetPartition (s : State) (part : Fin 32) : State :=
  let id := s.seat.id
  let old := s.part part
  let s := (s.seats.filter (fun t => t.unit.part == part)).foldl (fun s t => dropUnit (s.select t.id)) s
  let s := s.select id
  let gone := s.saved.filter (fun x => x.seat.unit.part == part)
  let s : State := { s with
    saved := s.saved.filter (fun x => x.seat.unit.part != part)
    vfs := s.vfs.map (fun v => { v with open_ := v.open_.filter (fun q =>
      !gone.any (fun x => x.seat.unit.vf == v.vf && x.reply == some q)) }) }
  let s := gone.foldl (fun s x => unreserve s x.seat.unit.uid) s
  let s := (clustersOf s part).foldl zeroCluster s
  let s := old.padPages.foldl (fun s g => zeroRange s (g * 65536) ((g + 1) * 65536)) s
  let s := dropQueues (endJobs s part) part
  let s : State := { s with graces := s.graces.filter (fun g => g.part != part) }
  let s := s.setPart { s.part part with
    frame := 0, slipping := false, slipcount := 0, slipix := 0, slipbase := 0, refill := 51557, ctm := true, rst := false, firstJob := true, serial := 0
    epoch := old.epoch + 1, scopes := [{ num := 0, gen := 1, state := .opened, kind := .root }], entries := [], quenches := []
    posts := [] }
  ((List.range 96).map (· + 1)).foldl (fun s v => if (s.vf v).part == part then s.msix v 2 else s) s

/-- GRACE_PERIOD_EXPIRY (R306, R316): a grace period of the partition has ended, and its scope was not done in time. -/
def graceOver (s : State) (part : Fin 32) : Bool := s.graces.any (fun g => g.part == part && g.left == 0)

def execGracePeriodExpiry (part : Nat) (s : State) : Host.Outcome State Fault Refusal :=
  event s (fun s => if decide (part < 32) && graceOver s (Fin.ofNat 32 part) then resetPartition s (Fin.ofNat 32 part) else s)

-- Fabric and die links (R263, R288, R305, R317).
/-- What waits for a response at the seat at hand: an engine's word, a generator, or a copy. -/
inductive Asker where
  | engine (e : Eng) | gen (g : Gen) | copy (tok : Fin 8)

/-- Something has been asked and not answered. -/
def Remote.open (r : Remote) : Bool :=
  match r with
  | .asked _ _ => true
  | .idle | .answered => false

def askers (s : State) : List Asker :=
  ((engines.filter (fun e => (s.seat.eng e).remote.open)).map Asker.engine)
    ++ ((s.seat.gens.filter (fun g => g.remote.open)).map Asker.gen)
    ++ (((s.seat.copies.filter (fun c => !c.resp && copyAsks s c)) ++ (s.seat.replay.filter (fun c => !c.resp && s.seat.status == .dying))).map
      (fun c => Asker.copy c.tok))

/-- A response reaches one of those that wait for one; which one is free where there are several. -/
def answerRemote (s : State) : State :=
  let go (a : Asker) (s : State) : State := match a with
    | .engine e => s.onEng e (fun x => { x with remote := .answered })
    | .gen g => s.onSeat (fun t => t.putGen { g with remote := .answered })
    | .copy k =>
      let f (c : Copy) : Copy := if c.tok == k then { c with resp := true } else c
      s.onSeat (fun t => { t with copies := t.copies.map f, replay := t.replay.map f })
  match askers s with
  | [] => s
  | [a] => go a s
  | a :: rest =>
    let (n, s) := s.pick
    go (nth (a :: rest) (n % (rest.length + 1)) a) s

/-- A response dropped at the host port counts there (R317). -/
def countHostDrop (s : State) : State := { s with hostDrops := if s.hostDrops == 0xFFFFFFFF then s.hostDrops else s.hostDrops + 1 }

/-- A packet that is no request: a response, or the acknowledgement of writes, of a partition's epoch. One of an earlier epoch is dropped and
counted at the port that receives it (R317). -/
def receiveResponse (port : Nat) (tag : BitVec 16) (epoch : Nat) (s : State) : State :=
  match s.parts.find? (fun p => p.tag == tag) with
  | none => s
  | some p =>
    if epoch != p.epoch then (if port < 48 then countDrop s port else countHostDrop s)
    else if s.seat.status != .vacant && s.seat.unit.part == p.id then answerRemote s
    else s

/-- The partition of a packet, and the key identity under which it finds a line of the partition's: that of what the line holds (R253, R261). -/
def packetOwner (s : State) (tag : BitVec 16) (key : Nat) : Fin 32 × BitVec 7 :=
  match s.parts.find? (fun p => p.tag == tag) with
  | none => (0, 0)
  | some p =>
    let k : BitVec 7 := match s.labels.find? (fun x => x.1 == key / 128) with
      | some l => BitVec.ofNat 7 (l.2 % 128)
      | none => p.keys.headD 0
    (p.id, if p.keys.contains k then k else 0)

/-- FABRIC_PACKET_RECEIVE (R236, R263, R317): a packet whose tag the port does not allow is dropped and counted. A write of another package
goes to its home on this one; any other packet is a response for the seat at hand. Port 48 is the host port, which has no table. -/
def execFabricPacketReceive (port : Nat) (tag : BitVec 16) (epoch : Nat) (write : Option (Nat × List Byte)) (s : State) :
    Host.Outcome State Fault Refusal :=
  event s (fun s =>
    if 49 ≤ port then s
    else if decide (port < 48) && !(s.ports[port % 48]'(Nat.mod_lt _ (by decide))).allowed.contains tag then countDrop s port
    else
      match write with
      | some (k, bytes) =>
        if decide (port < 48) && decide (nodeOf k < 4) then
          ((List.range bytes.length).zip bytes).foldl (fun s b =>
            let o := packetOwner s tag (k + b.1)
            deviceWrite s (k + b.1) b.2 .system o.1 (!isDiePad k) o.2) s
        else s
      | none => receiveResponse port tag epoch s)

/-- Cycles without a response after which an access fails (R263). -/
def responseLimit : Nat := pow2 20

/-- An engine's access that has had no response in time (R263). A PHASE that waits for an acknowledgement raises no fault (R279). -/
def lateEngine (t : Seat) : Option (Eng × Dword) :=
  engines.findSome? (fun e => match (t.eng e).remote with
    | .asked at_ va => if decide (at_ + responseLimit ≤ t.cycles.toNat) && (t.eng e).wait != some .ack then some (e, va) else none
    | .idle | .answered => none)

/-- A generator whose entry has had no response in time. -/
def lateGen (t : Seat) : Option (Gen × Dword) :=
  t.gens.findSome? (fun g => match g.remote with
    | .asked at_ va => if at_ + responseLimit ≤ t.cycles.toNat then some (g, va) else none
    | .idle | .answered => none)

/-- A copy that ends at one of its remote spans, which one being free: the spans before it are done (R201, R304). -/
def lateCopy (c : Copy) : M Unit := do
  let l ← copySpans c
  let at_ := (List.range l.length).filter (fun i => (l[i]?.map spanRemote).getD false)
  let n ← mPick
  match at_[n % at_.length]? with
  | none => pure ()
  | some i => do
    let (_, st) ← moveAll { c with resp := true } (l.take i)
    mMod (retireToken c.tok (if st == 0xFF then FC.partition else st))

/-- RESPONSE_TIMEOUT (R263, R304): the word of the access faults with PARTITION, a generator's entry is poisoned with it, or the copy ends with it in
its token and record. -/
def execResponseTimeout (s : State) : Host.Outcome State Fault Refusal :=
  event s (fun s =>
    match lateEngine s.seat, lateGen s.seat with
    | some (e, va), _ => fail (s.onEng e (fun x => { x with remote := .idle })) e { code := FC.partition, addr := va, aux := 2 }
    | none, some (g, va) => runAnyway (genEmit { g with pending := [] }
        { poisoned { code := FC.partition, addr := va, aux := 2 } (g.pending.foldl (fun k x => k ||| x.2) g.taint) with prov := g.prov }) s
    | none, none =>
      match s.seat.copies.find? (fun c => decide (c.since + responseLimit ≤ s.seat.cycles.toNat) && copyAsks s c) with
      | some c => runAnyway (if c.kind == .chain then chainRecordStep { c with late := true } else lateCopy c) s
      | none => s)

/-- DIE_LINK_RETRY_EXHAUSTED (R9, R288): the link is reported, and accesses across it fail. Link 1 of a die is link 0 of the
die before it in the ring. The way between the I/O dies is link 0 of die 4 (R10). -/
def execDieLinkRetryExhausted (die link : Nat) (s : State) : Host.Outcome State Fault Refusal :=
  event s (fun s =>
    if (decide (die < 4) && decide (link < 3)) || (die == 4 && link == 0) then
      let x := if link == 1 then ((die + 3) % 4, 0) else (die, link)
      ({ s with links := if s.links.contains x then s.links else s.links ++ [x] } : State).irq (.link die link)
    else s)

/-- DROP_COUNTER_READ (R305): the physical function reads the counter, and the next drop interrupts the Hearth. -/
def execDropCounterRead (port : Nat) (s : State) : Host.Outcome State Fault Refusal :=
  event s (fun s =>
    if port < 48 then
      let k : Fin 48 := Fin.ofNat 48 port
      { s with ports := s.ports.set k { s.ports[k] with armed := true }, sent := s.sent ++ [.drops port s.ports[k].drops] }
    else s)

-- Module reset (R264).
/-- A location on this module: its HBM and die pads, pads and windows. -/
def onModule (key : Nat) : Bool :=
  let k := lineKey key
  decide (nodeOf k < 4) || isWindow k || isNear k

/-- MODULE_RESET (R264): the sequence to its end, with the cells that the self-test finds bad retired, or up to the step that fails; then the code
stands in the physical function's status register and no VF is enabled. The module's memory is zeroed by step 4; the host's and other packages' is
not touched: what lies there encrypted was written under keys that are gone (R261). -/
def moduleReset (run : BringUp) (s : State) : State :=
  let lost : List (Nat × Nat) := s.labels.map (fun l => (l.1, l.2 + pow2 96))
  let fresh : State := { State.reset with
    agenda := s.agenda, nonce := s.nonce, mem := s.mem.filter (fun c => !onModule c.1), labels := lost.filter (fun l => !onModule (128 * l.1)) }
  let up : State := { fresh with cells := ((run.bad.filter (fun c => decide (c < 1024) && decide (c / 4 % 64 < 40))).eraseDups).map (fun c => { ix := c, retired := true }) }
  match run.failAt with
  | none => up
  | some k =>
    if decide (1 ≤ k) && decide (k ≤ 6) then
      { fresh with parts := [], sriov := false, bootFail := k, mem := if k ≤ 4 then s.mem else fresh.mem
                   labels := if k ≤ 4 then lost else fresh.labels }
    else up

def execModuleReset (run : BringUp) (s : State) : Host.Outcome State Fault Refusal := event s (moduleReset run)

end Sys2Proof.Machine
end

