-- ==== Sys2Proof/Machine/Scalar.lean ====
section
/-! DEFINITION. Scalar arithmetic, immediates and constants (R98-R102), with the taint of R122. -/

namespace Sys2Proof.Machine

/-- ALU sD, sA, sB (R99). -/
def alu (f : Dword → Dword → Dword) (d a b : BitVec 6) (s : State) : Host.Outcome State Fault Refusal :=
  logged s (do
    mDest d
    let (x, kx) ← getS a
    let (y, ky) ← getS b
    putS d (f x y) (kx ||| ky))

/-- A word with one register operand (R99, R101). -/
def alu1 (f : Dword → Dword) (d a : BitVec 6) (s : State) : Host.Outcome State Fault Refusal :=
  logged s (do
    mDest d
    let (x, k) ← getS a
    putS d (f x) k)

def imm11 (i : BitVec 11) : Dword := i.signExtend 64
def amount (b : Dword) : Nat := (b.extractLsb' 0 6).toNat

def execAdd (d a b : BitVec 6) (s : State) : Host.Outcome State Fault Refusal := alu (· + ·) d a b s
def execSub (d a b : BitVec 6) (s : State) : Host.Outcome State Fault Refusal := alu (· - ·) d a b s
def execAnd (d a b : BitVec 6) (s : State) : Host.Outcome State Fault Refusal := alu (· &&& ·) d a b s
def execOr (d a b : BitVec 6) (s : State) : Host.Outcome State Fault Refusal := alu (· ||| ·) d a b s
def execXor (d a b : BitVec 6) (s : State) : Host.Outcome State Fault Refusal := alu (· ^^^ ·) d a b s
def execAndn (d a b : BitVec 6) (s : State) : Host.Outcome State Fault Refusal := alu (fun x y => x &&& ~~~y) d a b s
def execShl (d a b : BitVec 6) (s : State) : Host.Outcome State Fault Refusal := alu (fun x y => x <<< amount y) d a b s
def execShr (d a b : BitVec 6) (s : State) : Host.Outcome State Fault Refusal := alu (fun x y => x >>> amount y) d a b s
def execSar (d a b : BitVec 6) (s : State) : Host.Outcome State Fault Refusal :=
  alu (fun x y => x.sshiftRight (amount y)) d a b s
def execRot (d a b : BitVec 6) (s : State) : Host.Outcome State Fault Refusal :=
  alu (fun x y => x.rotateRight (amount y)) d a b s
def execMin (d a b : BitVec 6) (s : State) : Host.Outcome State Fault Refusal := alu (fun x y => if y.slt x then y else x) d a b s
def execMax (d a b : BitVec 6) (s : State) : Host.Outcome State Fault Refusal := alu (fun x y => if x.slt y then y else x) d a b s
def execMinu (d a b : BitVec 6) (s : State) : Host.Outcome State Fault Refusal := alu (fun x y => if y.ult x then y else x) d a b s
def execMaxu (d a b : BitVec 6) (s : State) : Host.Outcome State Fault Refusal := alu (fun x y => if x.ult y then y else x) d a b s
def execSlt (d a b : BitVec 6) (s : State) : Host.Outcome State Fault Refusal := alu (fun x y => boolD (condLt x y)) d a b s
def execSltu (d a b : BitVec 6) (s : State) : Host.Outcome State Fault Refusal := alu (fun x y => boolD (condLtu x y)) d a b s
def execSeq (d a b : BitVec 6) (s : State) : Host.Outcome State Fault Refusal := alu (fun x y => boolD (condEq x y)) d a b s
def execMul (d a b : BitVec 6) (s : State) : Host.Outcome State Fault Refusal := alu (· * ·) d a b s

/-- Bits 127:64 of the signed and of the unsigned product (R99). -/
def mulhS (x y : Dword) : Dword := (x.signExtend 128 * y.signExtend 128).extractLsb' 64 64
def mulhU (x y : Dword) : Dword := (x.setWidth 128 * y.setWidth 128).extractLsb' 64 64
def execMulh (d a b : BitVec 6) (s : State) : Host.Outcome State Fault Refusal := alu mulhS d a b s
def execMulhu (d a b : BitVec 6) (s : State) : Host.Outcome State Fault Refusal := alu mulhU d a b s

/-- Division truncates toward zero; R100 fixes division by zero and the overflow. -/
def divS (x y : Dword) : Dword := if y == 0 then -1 else BitVec.ofInt 64 (Int.tdiv x.toInt y.toInt)
def divU (x y : Dword) : Dword := if y == 0 then -1 else BitVec.ofNat 64 (x.toNat / y.toNat)
def remS (x y : Dword) : Dword := if y == 0 then x else BitVec.ofInt 64 (Int.tmod x.toInt y.toInt)
def remU (x y : Dword) : Dword := if y == 0 then x else BitVec.ofNat 64 (x.toNat % y.toNat)
def execDiv (d a b : BitVec 6) (s : State) : Host.Outcome State Fault Refusal := alu divS d a b s
def execDivu (d a b : BitVec 6) (s : State) : Host.Outcome State Fault Refusal := alu divU d a b s
def execRem (d a b : BitVec 6) (s : State) : Host.Outcome State Fault Refusal := alu remS d a b s
def execRemu (d a b : BitVec 6) (s : State) : Host.Outcome State Fault Refusal := alu remU d a b s

def clzD (x : Dword) : Dword := BitVec.ofNat 64 (clzNat 64 x.toNat)
def ffsD (x : Dword) : Dword := BitVec.ofNat 64 (ffsNat 64 x.toNat)
def popD (x : Dword) : Dword := BitVec.ofNat 64 (popNat 64 x.toNat)
/-- Bit i moves to bit 63 − i; byte i moves to byte 7 − i (R99). -/
def brevD (x : Dword) : Dword := BitVec.ofNat 64 (packElems 1 64 (fun k => elemAt x.toNat 1 (63 - k)))
def bswpD (x : Dword) : Dword := BitVec.ofNat 64 (packElems 8 8 (fun k => elemAt x.toNat 8 (7 - k)))
def execClz (d a : BitVec 6) (s : State) : Host.Outcome State Fault Refusal := alu1 clzD d a s
def execFfs (d a : BitVec 6) (s : State) : Host.Outcome State Fault Refusal := alu1 ffsD d a s
def execPopc (d a : BitVec 6) (s : State) : Host.Outcome State Fault Refusal := alu1 popD d a s
def execBrev (d a : BitVec 6) (s : State) : Host.Outcome State Fault Refusal := alu1 brevD d a s
def execBswp (d a : BitVec 6) (s : State) : Host.Outcome State Fault Refusal := alu1 bswpD d a s

/-- CSEL reads the old value of D (R99, R122). -/
def execCsel (d a b : BitVec 6) (s : State) : Host.Outcome State Fault Refusal :=
  logged s (do
    mDest d
    let (o, ko) ← getS d
    let (x, kx) ← getS a
    let (y, ky) ← getS b
    putS d (if o != 0 then x else y) (ko ||| kx ||| ky))

def addwD (x y : Dword) : Dword := ((x + y).extractLsb' 0 32 : W32).signExtend 64
def execAddw (d a b : BitVec 6) (s : State) : Host.Outcome State Fault Refusal := alu addwD d a b s

def sextD (sz : SextSize) (x : Dword) : Dword :=
  match sz with
  | .byte => (x.extractLsb' 0 8 : Byte).signExtend 64
  | .half => (x.extractLsb' 0 16 : Half).signExtend 64
  | .word => (x.extractLsb' 0 32 : W32).signExtend 64
def execSext (d a : BitVec 6) (sz : SextSize) (s : State) : Host.Outcome State Fault Refusal := alu1 (sextD sz) d a s

def execAddi (d a : BitVec 6) (imm : BitVec 11) (s : State) : Host.Outcome State Fault Refusal := alu1 (· + imm11 imm) d a s
def execAndi (d a : BitVec 6) (imm : BitVec 11) (s : State) : Host.Outcome State Fault Refusal := alu1 (· &&& imm11 imm) d a s
def execOri (d a : BitVec 6) (imm : BitVec 11) (s : State) : Host.Outcome State Fault Refusal := alu1 (· ||| imm11 imm) d a s
def execXori (d a : BitVec 6) (imm : BitVec 11) (s : State) : Host.Outcome State Fault Refusal := alu1 (· ^^^ imm11 imm) d a s
def execShli (d a n : BitVec 6) (s : State) : Host.Outcome State Fault Refusal := alu1 (· <<< n.toNat) d a s
def execShri (d a n : BitVec 6) (s : State) : Host.Outcome State Fault Refusal := alu1 (· >>> n.toNat) d a s
def execSari (d a n : BitVec 6) (s : State) : Host.Outcome State Fault Refusal := alu1 (fun x => x.sshiftRight n.toNat) d a s
def execRoti (d a n : BitVec 6) (s : State) : Host.Outcome State Fault Refusal := alu1 (fun x => x.rotateRight n.toNat) d a s
def execSlti (d a : BitVec 6) (imm : BitVec 11) (s : State) : Host.Outcome State Fault Refusal :=
  alu1 (fun x => boolD (condLt x (imm11 imm))) d a s
def execSltui (d a : BitVec 6) (imm : BitVec 11) (s : State) : Host.Outcome State Fault Refusal :=
  alu1 (fun x => boolD (condLtu x (imm11 imm))) d a s

/-- MOVW writes an empty taint set; MOVK keeps the other bits of D and its taint (R102). -/
def execMovw (d : BitVec 6) (w : BitVec 17) (s : State) : Host.Outcome State Fault Refusal :=
  logged s (do
    mDest d
    putS d (w.signExtend 64) 0)

/-- Bits `lo` + `n` − 1 to `lo` of `x` replaced by `w`. -/
def insertBits (x : Dword) (lo n : Nat) (w : Dword) : Dword :=
  let mask : Dword := BitVec.ofNat 64 ((pow2 n - 1) <<< lo)
  (x &&& ~~~mask) ||| ((w <<< lo) &&& mask)

def execMovk1 (d : BitVec 6) (w : BitVec 17) (s : State) : Host.Outcome State Fault Refusal :=
  alu1 (fun x => insertBits x 17 17 (w.setWidth 64)) d d s
def execMovk2 (d : BitVec 6) (w : BitVec 17) (s : State) : Host.Outcome State Fault Refusal :=
  alu1 (fun x => insertBits x 34 17 (w.setWidth 64)) d d s
def execMovk3 (d : BitVec 6) (w : BitVec 13) (s : State) : Host.Outcome State Fault Refusal :=
  alu1 (fun x => insertBits x 51 13 (w.setWidth 64)) d d s

end Sys2Proof.Machine
end

