-- ==== Sys2Proof/Machine/Slicing.lean ====
section
/-! DEFINITION. Slicing (R23-R26, R91, R92, R104, R105, R168, R221, R242, R266-R268, R315): what Luwyn accepts as a kernel,
and which slice images are images of it. Luwyn's choices among them are outside the spec (log 27). -/

namespace Sys2Proof.Machine

-- Words of a logical program.
/-- A hint word (R91), and its legal forms. -/
def isHint (w : W32) : Bool := fE w == 6
def isNx (w : W32) : Bool := isHint w && fOp w == 1
def isTarget (w : W32) : Bool := isHint w && fOp w == 2
def hintOk (w : W32) : Bool := (isNx w && fJ w == 0) || isTarget w

/-- The instruction of a word of a logical program. -/
def logicalOf (w : W32) : Option Instr :=
  match decode .logical w with
  | .ok i => some i
  | .error _ => none

/-- Where a word of a kernel may branch to, as a word offset, and whether it may fall through to the next word (R67, R103,
R104): a JR's targets are not among these. -/
def flowOf (k : Nat) (i : Instr) : Option Int × Bool :=
  match i with
  | .beq _ _ o | .bne _ _ o | .blt _ _ o | .bge _ _ o | .bltu _ _ o | .bgeu _ _ o => (some ((k : Int) + o.toInt), true)
  | .jmp j => (some ((k : Int) + j.toInt), false)
  | .call j => (some ((k : Int) + j.toInt), true)
  | .jr _ _ | .exit => (none, false)
  | _ => (none, true)

def inside (n : Nat) (t : Int) : Bool := decide (0 ≤ t) && decide (t < (n : Int))

/-- The word offsets after the CALLs of a kernel (R104). -/
def callReturns (ws : List W32) : List Nat :=
  ((List.range ws.length).zip ws).filterMap (fun (k, w) => match logicalOf w with
    | some (.call _) => some (k + 1)
    | _ => none)

/-- The targets that a run of TARGET hints up to word `k` declares (R91). The fuel is the length of the run. -/
def targetsBefore (ws : List W32) : Nat → Nat → List Int
  | 0, _ => []
  | fuel + 1, k =>
    match k with
    | 0 => []
    | j + 1 =>
      let w := nth ws j 0
      if isTarget w then ((j : Int) + (fJ w).toInt) :: targetsBefore ws fuel j else []

/-- The JRs of a kernel with the targets that hints declare for them (R91, R104). -/
def hintPairs (ws : List W32) : List (Nat × Nat) :=
  ((List.range ws.length).zip ws).flatMap (fun (k, w) => match logicalOf w with
    | some (.jr _ _) => (targetsBefore ws k k).map (fun t => (k, t.toNat))
    | _ => [])

/-- The word after a run of hints. -/
def afterHints : List W32 → Option W32
  | [] => none
  | w :: rest => if isTarget w then afterHints rest else some w

/-- The next access-engine instruction: coupling words of the engine (TKWAIT, NOP) are passed over (log 111). -/
def nextAccess : List W32 → Option Instr
  | [] => none
  | w :: rest => if fE w == 1 && decide ((fOp w).toNat < 0x30) then logicalOf w else nextAccess rest

/-- A hint stands before the instruction that it names (R91). -/
def hintFollowed (w : W32) (rest : List W32) : Bool :=
  if isNx w then
    match nextAccess rest with
    | some (.ldv ..) | some (.ldt ..) => true
    | _ => false
  else if isTarget w then
    match (afterHints rest).bind logicalOf with
    | some (.jr _ _) => true
    | _ => false
  else true

def hintsFollowed : List W32 → Bool
  | [] => true
  | w :: rest => hintFollowed w rest && hintsFollowed rest

/-- Words that the code of a CALL or a JR reaches, from a list of starts (R105): each is a scalar word or a hint. The fuel
bounds the words. -/
def scalarReach (ws : List W32) : Nat → List Nat → List Nat → Bool
  | 0, _, _ => true
  | fuel + 1, todo, seen =>
    match todo with
    | [] => true
    | k :: rest =>
      if seen.contains k || decide (ws.length ≤ k) then scalarReach ws fuel rest seen
      else
        let w := nth ws k 0
        if isHint w then scalarReach ws fuel ((k + 1) :: rest) (k :: seen)
        else if fE w != 0 then false
        else
          match logicalOf w with
          | none => false
          | some i =>
            let (t, fall) := flowOf k i
            scalarReach ws fuel ((match t with
              | some t => [t.toNat]
              | none => []) ++ (if fall then [k + 1] else []) ++ rest) (k :: seen)

/-- The word offsets of a kernel's hints (R23, R91). -/
def hintsAt (ws : List W32) : List Nat := (List.range ws.length).filter (fun n => isHint (nth ws n 0))

-- Paths of a logical program.
/-- The words to which a JR may go: those that hints before it declare and those after the CALLs (R26, R91, R104). -/
def jrTargets (ws : List W32) (k : Nat) : List Nat := (targetsBefore ws k k).map Int.toNat ++ callReturns ws

/-- The words that may follow word `k` in an execution: after a CALL that is its target (R22, R103, R104). -/
def succs (ws : List W32) (k : Nat) : List Nat :=
  if ws.length ≤ k then []
  else
    match logicalOf (nth ws k 0) with
    | none => [k + 1]
    | some (.jr _ _) => jrTargets ws k
    | some (.call o) => [((k : Int) + o.toInt).toNat]
    | some i =>
      let (t, fall) := flowOf k i
      (match t with
        | some t => [t.toNat]
        | none => []) ++ (if fall then [k + 1] else [])

/-- Some path meets a word judged `true` before any that is judged at all. The fuel bounds the words looked at. -/
def pathMeets (next : Nat → List Nat) (judge : Nat → Option Bool) : Nat → List Nat → List Nat → Bool
  | 0, _, _ => false
  | fuel + 1, todo, seen =>
    match todo with
    | [] => false
    | k :: rest =>
      if seen.contains k then pathMeets next judge fuel rest seen
      else
        match judge k with
        | some true => true
        | some false => pathMeets next judge fuel rest (k :: seen)
        | none => pathMeets next judge fuel (next k ++ rest) (k :: seen)

/-- Some path after word `k` of a kernel meets such a word. -/
def laterMeets (ws : List W32) (judge : Instr → Option Bool) (k : Nat) : Bool :=
  pathMeets (succs ws) (fun j => (logicalOf (nth ws j 0)).bind judge) ((ws.length + 2) * (ws.length + 2)) (succs ws k) []

/-- How many instructions stand before word `k`: hints do not count (R29). -/
def numOf (ws : List W32) (k : Nat) : Nat := ((ws.take k).filter (fun w => !isHint w)).length

-- Scalar fields.
/-- The fields of a non-scalar word that name a scalar, by lowest bit and width (R23, R66, R69). -/
def scalarFields (i : Instr) : List (Nat × Nat) :=
  match i with
  | .strm .. | .ldv .. | .ldt .. | .pfd .. | .mldb .. | .stv .. | .wstrm .. | .stt .. | .cpys .. | .cpyh .. | .cpyr .. => [(11, 6), (5, 6)]
  | .strmg .. | .vbcast .. | .pwhile .. | .cpy .. | .cvtl .. => [(11, 6)]
  | .vslide .. | .vtw .. | .vtr .. | .vlsl .. | .vlss .. => [(5, 6)]
  | .pcnt .. => [(17, 6)]
  | .dcfgRegister .. => [(0, 4)]
  | _ => []

/-- A copy word's length stands in the register after its B register (R81). -/
def hasLength (i : Instr) : Bool :=
  match i with
  | .cpys .. | .cpyh .. | .cpyr .. => true
  | _ => false

def fieldOf (w : W32) (f : Nat × Nat) : BitVec 6 := BitVec.ofNat 6 (w.toNat / pow2 f.1 % pow2 f.2)

/-- The scalars that a word names in its scalar fields. -/
def fieldRegs (i : Instr) (w : W32) : List (BitVec 6) :=
  (scalarFields i).map (fieldOf w) ++ (if hasLength i then [fieldOf w (5, 6) + 1] else [])

/-- PWHILE and PCNT write the scalar that they name (R167, R168). -/
def fieldWritten (i : Instr) : Option (BitVec 6) :=
  match i with
  | .pwhile _ _ a _ => some a
  | .pcnt d _ => some d
  | _ => none

/-- The scalars whose values a non-scalar word reads. -/
def fieldsRead (i : Instr) (w : W32) : List (BitVec 6) :=
  match i with
  | .pcnt .. => []
  | _ => fieldRegs i w

/-- The s register that a scalar word writes, or whose taint it changes (R98, R121). -/
def scalarWritten (i : Instr) : Option (BitVec 6) :=
  match i with
  | .add d _ _ | .sub d _ _ | .and d _ _ | .or d _ _ | .xor d _ _ | .andn d _ _ | .shl d _ _ | .shr d _ _ | .sar d _ _
  | .rot d _ _ | .min d _ _ | .max d _ _ | .minu d _ _ | .maxu d _ _ | .slt d _ _ | .sltu d _ _ | .seq d _ _ | .mul d _ _
  | .mulh d _ _ | .mulhu d _ _ | .div d _ _ | .divu d _ _ | .rem d _ _ | .remu d _ _ | .csel d _ _ | .addw d _ _
  | .addi d _ _ | .andi d _ _ | .ori d _ _ | .xori d _ _ | .shli d _ _ | .shri d _ _ | .sari d _ _ | .roti d _ _
  | .slti d _ _ | .sltui d _ _ | .ldb d _ _ | .ldh d _ _ | .ldw d _ _ | .ldd d _ _ | .spawn d _ _ | .sext d _ _
  | .ldx d _ _ _ _ | .amo d _ _ _ _ | .amow d _ _ _ _
  | .clz d _ | .ffs d _ | .popc d _ | .brev d _ | .bswp d _ | .movw d _ | .movk1 d _ | .movk2 d _ | .movk3 d _ | .ldxFill d _
  | .jr d _ | .taint d _ | .untaint d | .sysrd d _ | .scopeo d _ | .cwait d _ | .cread d _ => if d == 0 then none else some d
  | .call _ => some 63
  | _ => none

/-- The s registers that a scalar word reads. -/
def scalarRead (i : Instr) : List (BitVec 6) :=
  match i with
  | .add _ a b | .sub _ a b | .and _ a b | .or _ a b | .xor _ a b | .andn _ a b | .shl _ a b | .shr _ a b | .sar _ a b
  | .rot _ a b | .min _ a b | .max _ a b | .minu _ a b | .maxu _ a b | .slt _ a b | .sltu _ a b | .seq _ a b | .mul _ a b
  | .mulh _ a b | .mulhu _ a b | .div _ a b | .divu _ a b | .rem _ a b | .remu _ a b | .addw _ a b | .ldx _ a b _ _
  | .spawn _ a b | .barInit a b | .dcbClean a b | .dcbInv a b | .dcbFlush a b | .dcbPf a b | .dcbZero a b => [a, b]
  | .csel d a b | .amo d a b _ _ | .amow d a b _ _ | .stx d a b _ _ => [d, a, b]
  | .stb d a _ | .sth d a _ | .stw d a _ | .std d a _ | .beq d a _ | .bne d a _ | .blt d a _ | .bge d a _ | .bltu d a _
  | .bgeu d a _ | .taint d a | .padmap d a => [d, a]
  | .addi _ a _ | .andi _ a _ | .ori _ a _ | .xori _ a _ | .shli _ a _ | .shri _ a _ | .sari _ a _ | .roti _ a _
  | .slti _ a _ | .sltui _ a _ | .ldb _ a _ | .ldh _ a _ | .ldw _ a _ | .ldd _ a _ | .sext _ a _
  | .clz _ a | .ffs _ a | .popc _ a | .brev _ a | .bswp _ a | .jr _ a | .tlbinv a _ | .xsend a _ | .scopeo _ a | .scopec a
  | .quench _ a | .cwait _ a | .cread _ a | .barArrive a | .barWait a | .barSync a | .icpf a _ => [a]
  | .movk1 d _ | .movk2 d _ | .movk3 d _ | .stxSpill d _ | .untaint d | .syswr d _ => [d]
  | _ => []

/-- An explicit XSEND is paired with a later reading word of its engine (R23): on some path one stands before the register is
next written and before the kernel ends. -/
def xsendRead (ws : List W32) (k : Nat) (a : BitVec 6) (e : Eng) : Bool :=
  pathMeets (succs ws) (fun j => (logicalOf (nth ws j 0)).bind (fun i =>
    if i.engine == some e && (fieldRegs i (nth ws j 0)).contains a then some true
    else if scalarWritten i == some a then some false else none))
    ((ws.length + 2) * (ws.length + 2)) (succs ws k) []

/-- No word of another engine reads the register that PWHILE or PCNT wrote, before a scalar word writes it (R168). -/
def vectorKept (ws : List W32) (k : Nat) (r : BitVec 6) : Bool :=
  r == 0 || !pathMeets (succs ws) (fun j => (logicalOf (nth ws j 0)).bind (fun i =>
    if i.engine != some .v && ((scalarRead i).contains r || (fieldRegs i (nth ws j 0)).contains r) then some true
    else if scalarWritten i == some r then some false else none))
    ((ws.length + 2) * (ws.length + 2)) (succs ws k) []

-- Tile rows.
/-- The tile rows that a word reads or writes (R148, R163, R164, R175, R176, R191): the tile, how many rows from row 0, and
whether it reads them. Rows that only a run knows count as all 32 (log 117). -/
def rowUse (i : Instr) : Option (BitVec 6 × Nat × Bool) :=
  match i with
  | .ldt d _ _ r => some (d, 8 * (r.toNat + 1), false)
  | .vtw d _ _ _ => some (d, 32, false)
  | .mmul _ a _ _ m _ _ _ _ => some (a, 8 * (m.toNat + 1), true)
  | .mmulg _ a _ _ _ _ _ _ => some (a, 32, true)
  | .vtr _ a _ => some (a, 32, true)
  | .stt d _ _ r => some (d, 8 * (r.toNat + 1), true)
  | _ => none

/-- Whether some path's next access to row `r` of tile `t` after word `k` is a read, or is a write. -/
def rowNext (ws : List W32) (k : Nat) (t : BitVec 6) (r : Nat) (read : Bool) : Bool :=
  laterMeets ws (fun i => match rowUse i with
    | some (t', n, rd) => if t' == t && decide (r < n) then some (rd == read) else none
    | none => none) k

/-- The rows of a use at which paths can differ: uses end at multiples of 8 rows. -/
def rowSteps (n : Nat) : List Nat := [0, 8, 16, 24].filter (fun r => decide (r < n))

/-- The LR flag of word `k` (R26). -/
def lrOf (ws : List W32) (k : Nat) (i : Instr) : Bool :=
  match rowUse i with
  | some (t, n, true) => (rowSteps n).all (fun r => !rowNext ws k t r true)
  | _ => false

/-- A reader whose LR is 0 has no writer of its rows next to it (R26): that writer would wait for ever. -/
def rowsFlow (ws : List W32) (k : Nat) (i : Instr) : Bool :=
  match rowUse i with
  | some (t, n, true) => lrOf ws k i || (rowSteps n).all (fun r => !rowNext ws k t r false)
  | _ => true

-- What Luwyn accepts.
/-- What a word of a kernel needs beyond its encoding (R23, R26, R55, R92, R168). A DCFG.OUTFMT constant that R184 does not list is
taken here, and the drain that meets it faults: R55 does not name it among the conversion fields (DESIGN CHOICE, log 129). -/
def wordSliced (ws : List W32) (returns : List Nat) (pairs : List (Nat × Nat)) (k : Nat) (i : Instr) : Bool :=
  (match i with
    | .jr _ _ => !returns.isEmpty || pairs.any (fun p => p.1 == k)
    | .xsend a e => xsendRead ws k a e
    | .tfmt _ f => tileFmt f
    | _ => true)
  && (match (flowOf k i).1 with
    | some t => inside ws.length t && decide (numOf ws (k + 1) ≤ numOf ws t.toNat + 65535)
    | none => true)
  && (match fieldWritten i with
    | some r => vectorKept ws k r
    | none => true)
  && rowsFlow ws k i

/-- Luwyn's checks on the words of a kernel (R23, R26, R91, R92, R105, R168): legal words, hints that stand where they may,
targets inside the kernel, JRs with a target, loops of at most 65,535 instructions, explicit transfers that are read, tile rows
that are emptied before they are written again, and scalar code behind every CALL and JR. -/
def kernelOk (k : Kernel) : Bool :=
  let ws := k.words
  let at_ := (List.range ws.length).zip ws
  let returns := callReturns ws
  let pairs := hintPairs ws
  let starts := pairs.map Prod.snd ++ at_.filterMap (fun (j, w) => match logicalOf w with
    | some (.call o) => some ((j : Int) + o.toInt).toNat
    | _ => none) ++ (if at_.any (fun (_, w) => match logicalOf w with
      | some (.jr _ _) => true
      | _ => false) then returns else [])
  ws.all (fun w => if isHint w then hintOk w else (logicalOf w).isSome)
    && hintsFollowed ws
    && at_.all (fun (j, w) =>
      if isTarget w then inside ws.length ((j : Int) + (fJ w).toInt)
      else match logicalOf w with
        | some i => wordSliced ws returns pairs j i
        | none => true)
    && scalarReach ws (4 * ws.length + 4) starts []

-- Slice images.
def sliceAt (i : SliceImage) (e : Eng) : Slice := nth i.slices (engNum e) ⟨0, [], []⟩

def sliceRow (x : Slice) (n : Nat) : Option (W32 × SideEntry) :=
  if n < x.words.length then some (nth x.words n 0, nth x.side n ⟨0, 0, 0, false, false⟩) else none

def sliceInstr (e : Eng) (w : W32) : Option Instr :=
  match decodeSlice e w with
  | .ok i => some i
  | .error _ => none

/-- The bits in which the slice word of a logical word may differ from it: scalar fields and branch offsets (R23, R26, R67). -/
def freeBits (i : Instr) : W32 :=
  match i with
  | .beq .. | .bne .. | .blt .. | .bge .. | .bltu .. | .bgeu .. => 0x7FF
  | .jmp _ | .call _ => 0x7FFFFF
  | _ => BitVec.ofNat 32 ((scalarFields i).foldl (fun n f => n ||| (pow2 f.2 - 1) * pow2 f.1) 0)

/-- The slice word `w` is the one of the logical word that its LPC names. -/
def isReal (ws : List W32) (e : Eng) (w : W32) (d : SideEntry) : Bool :=
  let lw := nth ws d.lpc.toNat 0
  match logicalOf lw with
  | some i => decide (d.lpc.toNat < ws.length) && i.engine == some e && (w ||| freeBits i) == (lw ||| freeBits i)
  | none => false

-- Constants of a kernel, and the LSN at which it ends.
/-- The values of the s registers that the code itself fixes: every register is 0 at unit start (R97). Luwyn computes trip counts
and LSNs from these (log 27). -/
abbrev Consts := List (Option Dword)

def Consts.start : Consts := List.replicate 64 (some 0)
def Consts.get (c : Consts) (r : BitVec 6) : Option Dword := if r == 0 then some 0 else nth c r.toNat none
def Consts.un (c : Consts) (f : Dword → Dword) (a : BitVec 6) : Option Dword := (c.get a).map f
def Consts.bin (c : Consts) (f : Dword → Dword → Dword) (a b : BitVec 6) : Option Dword :=
  (c.get a).bind (fun x => (c.get b).map (f x))

/-- The value that scalar word `k` writes, where the code fixes it (R99-R104). -/
def Consts.result (c : Consts) (k : Nat) (i : Instr) : Option Dword :=
  match i with
  | .add _ a b => c.bin (· + ·) a b
  | .sub _ a b => c.bin (· - ·) a b
  | .and _ a b => c.bin (· &&& ·) a b
  | .or _ a b => c.bin (· ||| ·) a b
  | .xor _ a b => c.bin (· ^^^ ·) a b
  | .andn _ a b => c.bin (fun x y => x &&& ~~~y) a b
  | .shl _ a b => c.bin (fun x y => x <<< amount y) a b
  | .shr _ a b => c.bin (fun x y => x >>> amount y) a b
  | .sar _ a b => c.bin (fun x y => x.sshiftRight (amount y)) a b
  | .rot _ a b => c.bin (fun x y => x.rotateRight (amount y)) a b
  | .min _ a b => c.bin (fun x y => if y.slt x then y else x) a b
  | .max _ a b => c.bin (fun x y => if x.slt y then y else x) a b
  | .minu _ a b => c.bin (fun x y => if y.ult x then y else x) a b
  | .maxu _ a b => c.bin (fun x y => if x.ult y then y else x) a b
  | .slt _ a b => c.bin (fun x y => boolD (condLt x y)) a b
  | .sltu _ a b => c.bin (fun x y => boolD (condLtu x y)) a b
  | .seq _ a b => c.bin (fun x y => boolD (condEq x y)) a b
  | .mul _ a b => c.bin (· * ·) a b
  | .mulh _ a b => c.bin mulhS a b
  | .mulhu _ a b => c.bin mulhU a b
  | .div _ a b => c.bin divS a b
  | .divu _ a b => c.bin divU a b
  | .rem _ a b => c.bin remS a b
  | .remu _ a b => c.bin remU a b
  | .addw _ a b => c.bin addwD a b
  | .csel d a b => (c.get d).bind (fun o => if o != 0 then c.get a else c.get b)
  | .clz _ a => c.un clzD a
  | .ffs _ a => c.un ffsD a
  | .popc _ a => c.un popD a
  | .brev _ a => c.un brevD a
  | .bswp _ a => c.un bswpD a
  | .sext _ a sz => c.un (sextD sz) a
  | .addi _ a n => c.un (· + imm11 n) a
  | .andi _ a n => c.un (· &&& imm11 n) a
  | .ori _ a n => c.un (· ||| imm11 n) a
  | .xori _ a n => c.un (· ^^^ imm11 n) a
  | .shli _ a n => c.un (· <<< n.toNat) a
  | .shri _ a n => c.un (· >>> n.toNat) a
  | .sari _ a n => c.un (fun x => x.sshiftRight n.toNat) a
  | .roti _ a n => c.un (fun x => x.rotateRight n.toNat) a
  | .slti _ a n => c.un (fun x => boolD (condLt x (imm11 n))) a
  | .sltui _ a n => c.un (fun x => boolD (condLtu x (imm11 n))) a
  | .movw _ w => some (w.signExtend 64)
  | .movk1 d w => c.un (fun x => insertBits x 17 17 (w.setWidth 64)) d
  | .movk2 d w => c.un (fun x => insertBits x 34 17 (w.setWidth 64)) d
  | .movk3 d w => c.un (fun x => insertBits x 51 13 (w.setWidth 64)) d
  | .taint d _ | .untaint d => c.get d
  | .call _ | .jr _ _ => some (BitVec.ofNat 64 (4 * (k + 1)))
  | _ => none

/-- After word `k`: a scalar word writes its register, PWHILE and PCNT theirs. -/
def Consts.after (c : Consts) (k : Nat) (i : Instr) : Consts :=
  match (scalarWritten i).orElse (fun _ => fieldWritten i) with
  | some r => if r == 0 then c else c.set r.toNat (c.result k i)
  | none => c

/-- Whether a conditional branch is taken, where the code fixes it (R103). -/
def Consts.taken (c : Consts) (i : Instr) : Option Bool :=
  let on (f : Dword → Dword → Bool) (d a : BitVec 6) : Option Bool := (c.get d).bind (fun x => (c.get a).map (f x))
  match i with
  | .beq d a _ => on condEq d a
  | .bne d a _ => on condNe d a
  | .blt d a _ => on condLt d a
  | .bge d a _ => on condGe d a
  | .bltu d a _ => on condLtu d a
  | .bgeu d a _ => on condGeu d a
  | _ => some true

/-- The word numbers from `a` to `b`. -/
def upTo (a b : Nat) : List Nat := (List.range (b + 1)).filter (fun j => decide (a ≤ j))

/-- A word of `a` to `b` writes the register, or calls code that may. -/
def writtenIn (ws : List W32) (a b : Nat) (r : BitVec 6) : Bool :=
  (upTo a b).any (fun j => match logicalOf (nth ws j 0) with
    | some (.call _) | some (.jr _ _) => true
    | some i => scalarWritten i == some r || fieldWritten i == some r
    | none => false)

def Consts.forget (ws : List W32) (c : Consts) (loop : Nat × Nat) : Consts :=
  ((List.range 64).zip c).map (fun (r, v) => if writtenIn ws loop.1 loop.2 (BitVec.ofNat 6 r) then none else v)

/-- The loops of a kernel: from the target of a backward branch to the branch. -/
def loopsOf (ws : List W32) : List (Nat × Nat) :=
  (List.range ws.length).filterMap (fun k => match (logicalOf (nth ws k 0)).map (flowOf k) with
    | some (some t, _) => if decide (0 ≤ t) && decide (t ≤ k) then some (t.toNat, k) else none
    | _ => none)

/-- No word of the loop leaves it, but for a closing branch on registers that the loop does not write. -/
def endless (ws : List W32) (a b : Nat) : Bool :=
  (upTo a b).all (fun j => match logicalOf (nth ws j 0) with
    | some .exit | some (.jr _ _) | some (.call _) => false
    | some i => match (flowOf j i).1 with
      | some t => decide ((a : Int) ≤ t) && decide (t ≤ b) && (j != b || (scalarRead i).all (fun r => r == 0 || !writtenIn ws a b r))
      | none => true
    | none => true)

/-- The loops about which the branch at word `k` shows that their trip count is none that Luwyn computes: those that a branch of
unknown outcome closes or leaves, and one without end (R26, R315). -/
def uncounted (ws : List W32) (c : Consts) (k : Nat) (i : Instr) (to_ : Int) : List (Nat × Nat) :=
  match c.taken i with
  | none => (loopsOf ws).filter (fun l => decide (l.1 ≤ k) && decide (k ≤ l.2) && (k == l.2 || decide (to_ < l.1) || decide ((l.2 : Int) < to_)))
  | some b => if b && decide (0 ≤ to_) && decide (to_ ≤ k) && endless ws to_.toNat k then [(to_.toNat, k)] else []

/-- The ways on from word `k`, with the constants there, and the loops that it shows to be uncounted: what such a loop changes is open. From a JR
whose register is not fixed there is one to each of its targets (R26). -/
def waysFrom (ws : List W32) (k : Nat) (c : Consts) (i : Instr) : List (Nat × Nat) × List (Nat × Consts) :=
  let d := c.after k i
  match i with
  | .jr _ a =>
    let to_ (n : Nat) : Nat := pastHints (hintsAt ws) ws.length n
    match c.get a with
    | some x => ([], [(to_ (x.toNat / 4), d)])
    | none => ([], (jrTargets ws k).map (fun n => (to_ n, List.replicate 64 none)))
  | _ =>
    match flowOf k i with
    | (some t, fall) =>
      let un := uncounted ws c k i t
      let d := un.foldl (Consts.forget ws) d
      let cond := fall && (match i with
        | .call _ => false
        | _ => true)
      (un, (if c.taken i != some false then [(t.toNat, d)] else []) ++ (if cond && c.taken i != some true then [(k + 1, d)] else []))
    | (none, _) => ([], [(k + 1, d)])

/-- A place on a path of a kernel: the word, its LSN, and the constants. -/
structure Place where
  k : Nat
  n : Nat
  c : Consts
  deriving DecidableEq, Repr

/-- The LSN at which every path reaches EXIT, where Luwyn computes it from the code: none where a trip count is not computed (R221, R268; log 27). The
fuel bounds the words. -/
def exitFrom (ws : List W32) : Nat → List Place → List Place → Option Nat → Option Nat
  | 0, _, _, _ => none
  | fuel + 1, todo, seen, found =>
    match todo with
    | [] => found
    | p :: rest =>
      if ws.length ≤ p.k then none
      else if seen.contains p then exitFrom ws fuel rest seen found
      else if isHint (nth ws p.k 0) then exitFrom ws fuel ({ p with k := p.k + 1 } :: rest) (p :: seen) found
      else
        match logicalOf (nth ws p.k 0) with
        | none => none
        | some .exit => if found == none || found == some p.n then exitFrom ws fuel rest (p :: seen) (some p.n) else none
        | some i =>
          match waysFrom ws p.k p.c i with
          | ([], l) => exitFrom ws fuel (l.map (fun x => ⟨x.1, p.n + 1, x.2⟩) ++ rest) (p :: seen) found
          | (_ :: _, _) => none

def exitLsn (ws : List W32) : Option Nat := exitFrom ws (pow2 64) [⟨0, 0, Consts.start⟩] [] none

/-- The loops of a kernel whose trip count Luwyn does not compute (R315; log 27). The fuel bounds the words. -/
def openLoops (ws : List W32) : Nat → List (Nat × Consts) → List (Nat × Consts) → List (Nat × Nat)
  | 0, _, _ => []
  | fuel + 1, todo, seen =>
    match todo with
    | [] => []
    | p :: rest =>
      if seen.contains p || decide (ws.length ≤ p.1) then openLoops ws fuel rest seen
      else
        match logicalOf (nth ws p.1 0) with
        | none => openLoops ws fuel ((p.1 + 1, p.2) :: rest) (p :: seen)
        | some .exit => openLoops ws fuel rest (p :: seen)
        | some i =>
          let (un, l) := waysFrom ws p.1 p.2 i
          un ++ openLoops ws fuel (l ++ rest) (p :: seen)

/-- A word of the engine stands inside a loop whose trip count Luwyn does not compute (R315). -/
def holdsOpen (ws : List W32) (e : Eng) : Bool :=
  (openLoops ws (pow2 64) [(0, Consts.start)] []).any (fun l =>
    (upTo l.1 l.2).any (fun k => (logicalOf (nth ws k 0)).any (fun i => i.engine == some e)))

-- Plain stores that Luwyn may drop, merge or split.
/-- A plain scalar access: the two registers whose sum addresses it, none for a spill slot, its first byte and length from there, and for a store the
register stored. -/
structure Access where
  regs : Option (BitVec 6 × BitVec 6)
  lo   : Int
  len  : Nat
  data : Option (BitVec 6)
  deriving DecidableEq, Repr

def plainAccess (i : Instr) : Option Access :=
  let load (a : BitVec 6) (o : BitVec 11) (n : Nat) : Option Access := some ⟨some (a, 0), o.toInt * n, n, none⟩
  let store (d a : BitVec 6) (o : BitVec 11) (n : Nat) : Option Access := some ⟨some (a, 0), o.toInt * n, n, some d⟩
  match i with
  | .ldb _ a o => load a o 1
  | .ldh _ a o => load a o 2
  | .ldw _ a o => load a o 4
  | .ldd _ a o => load a o 8
  | .stb d a o => store d a o 1
  | .sth d a o => store d a o 2
  | .stw d a o => store d a o 4
  | .std d a o => store d a o 8
  | .ldx _ a b .plain sz | .ldx _ a b .na sz | .ldx _ a b .bypass sz => some ⟨some (a, b), 0, sizeBytes sz, none⟩
  | .stx d a b .plain sz | .stx d a b .na sz => some ⟨some (a, b), 0, sizeBytes sz, some d⟩
  | .ldxFill _ n => some ⟨none, 8 * n.toNat, 8, none⟩
  | .stxSpill d n => some ⟨none, 8 * n.toNat, 8, some d⟩
  | _ => none

/-- A word writes a register that addresses the access. -/
def Access.moved (x : Access) (i : Instr) : Bool :=
  let w := (scalarWritten i).orElse (fun _ => fieldWritten i)
  x.regs.any (fun r => w.any (fun w => w != 0 && (w == r.1 || w == r.2)))

/-- What word `j` means to a plain store that Luwyn would drop (R242): true where it may not be, since an ordering word, a word that may read the bytes
or move the address, a call or a way back comes first; false where it writes all the bytes again. -/
def dropJudge (ws : List W32) (x : Access) (j : Nat) : Option Bool :=
  if ws.length ≤ j then some true
  else if isHint (nth ws j 0) then none
  else
    match logicalOf (nth ws j 0) with
    | none => some true
    | some i =>
      match plainAccess i with
      | some y =>
        let same := y.regs == x.regs
        if y.data.isSome then (if same && decide (y.lo ≤ x.lo) && decide (x.lo + x.len ≤ y.lo + y.len) then some false else none)
        else if same && (decide (y.lo + y.len ≤ x.lo) || decide (x.lo + x.len ≤ y.lo)) && !x.moved i then none else some true
      | none =>
        let onward := match flowOf j i with
          | (some t, _) => decide ((j : Int) < t) && scalarWritten i == none
          | (none, fall) => fall && (i.engine == some .v || (fE (nth ws j 0) == 0 && decide ((fOp (nth ws j 0)).toNat < 0x0C)))
        if onward && !x.moved i then none else some true

/-- The plain store at word `k` is written over on every path before anything can read it, and may be left out (R242). A store of the write-back
engine takes entries, rows or accumulators with it, so none of those is (R187, R188, R191). -/
def mayDrop (ws : List W32) (k : Nat) : Bool :=
  match (logicalOf (nth ws k 0)).bind plainAccess with
  | some x => x.data.isSome && !pathMeets (succs ws) (dropJudge ws x) ((ws.length + 2) * (ws.length + 2)) (succs ws k) []
  | none => false

/-- What a plain store leaves in memory, where the code fixes its address and that is aligned: the first byte, the length and the register. -/
def storeSpan (c : Consts) (i : Instr) : Option (Nat × Nat × BitVec 6) :=
  match plainAccess i with
  | some ⟨some (a, b), lo, n, some d⟩ =>
    (c.bin (fun x y => x + y + BitVec.ofInt 64 lo) a b).bind (fun v => if v.toNat % n == 0 then some (v.toNat, n, d) else none)
  | _ => none

/-- The byte that stores in order leave at an address: its value where the code fixes it, else the register and the byte's place there. -/
def landed (c : Consts) (l : List (Nat × Nat × BitVec 6)) (a : Nat) : Option (Nat × Nat) :=
  l.foldl (fun o (b, n, r) =>
    if decide (b ≤ a) && decide (a < b + n) then
      some (match c.get r with
        | some v => (64, v.toNat / pow2 (8 * (a - b)) % 256)
        | none => (r.toNat, a - b))
    else o) none

/-- Two runs of stores leave the same bytes, and write no others. -/
def sameStores (c : Consts) (l m : List (Nat × Nat × BitVec 6)) : Bool :=
  (l ++ m).all (fun (b, n, _) => (List.range n).all (fun j => landed c l (b + j) == landed c m (b + j)))

/-- A slice word stands for the word that its LPC names, or for a run of plain stores which begins, or goes on, there (R26, R242). -/
def standsFor (ws : List W32) (e : Eng) (w : W32) (d : SideEntry) : Bool :=
  let store (i : Option Instr) : Bool := (i.bind plainAccess).any (fun x => x.data.isSome)
  isReal ws e w d || (e == .s && store (sliceInstr .s w) && decide (d.lpc.toNat < ws.length) && store (logicalOf (nth ws d.lpc.toNat 0)))

-- Walks.
/-- A transfer entry on a walk: its register, the LPC of an inserted XSEND, whether the register is unwritten since, and its value
where the code fixes it. -/
structure Transfer where
  reg   : BitVec 6
  lpc   : Option Nat
  fresh : Bool
  val   : Option Dword
  deriving DecidableEq, Repr

/-- A walk along a path of a kernel, with one engine's slice and the scalar one beside it: the word of the kernel, the words of
the two slices, how far their running LSNs are ahead of the kernel's (none where an uncounted loop that the slice does not follow
has been left), whether the engine's last increment was 1, its transfer queue, the transfers received for its next word, the s
register whose value each x register holds, its loop counters, the constants of the code, and the s registers whose value PWHILE or PCNT has left in an
x register of the vector engine (R167, R168). -/
structure Walk where
  k : Nat
  i : Nat
  j : Nat
  a : Option Int
  b : Option Int
  near : Bool
  q : List Transfer
  got : List Transfer
  x : List (Option (BitVec 6))
  lc : List (Option Nat)
  c : Consts
  old : List (BitVec 6) := []
  deriving DecidableEq, Repr

def gain (a : Option Int) (n : Int) : Option Int := a.map (fun x => x + n)
def level (a : Option Int) (n : Int) : Bool := a == some n

/-- The instructions from word `k` to the next one at which `p` holds. The fuel bounds the words. -/
def gapTo (ws : List W32) (p : Nat → Bool) : Nat → Nat → Int
  | 0, _ => 0
  | fuel + 1, k => if p k || decide (ws.length ≤ k) then 0 else (if isHint (nth ws k 0) then 0 else 1) + gapTo ws p fuel (k + 1)

/-- The next real word of a slice from word `n` on: its place, LPC and instruction, and the instruction's own word in the kernel.
Straight-line coupling words are passed over, and a branch or NOTIFY ends the search. The fuel bounds the words. -/
def nextReal (ws : List W32) (e : Eng) (sl : Slice) : Nat → Nat → Option (Nat × W32 × SideEntry)
  | 0, _ => none
  | fuel + 1, n =>
    match sliceRow sl n with
    | none => none
    | some (w, d) =>
      if standsFor ws e w d then some (n, w, d)
      else match sliceInstr e w with
        | some (.loop ..) | some (.follow ..) | some (.jmpe ..) | some (.notify _) => none
        | _ => nextReal ws e sl fuel (n + 1)

/-- How far the next real word of the scalar slice is from word `k`, or the nearer word `r` (R26). -/
def scalarGap (ws : List W32) (ss : Slice) (i k : Nat) (r : Option Nat) : Int :=
  let n := (nextReal ws .s ss (ss.words.length + 1) i).map (fun (_, _, d) => d.lpc.toNat)
  gapTo ws (fun j => n == some j || r == some j) ws.length k

/-- Word `k` of the kernel is done: an s register with a new value makes what was sent of it old. -/
def Walk.written (t : Walk) (k : Nat) (i : Instr) (r : Option (BitVec 6)) : Walk :=
  let t := { t with c := t.c.after k i }
  match r with
  | none => t
  | some r => { t with q := t.q.map (fun m => if m.reg == r then { m with fresh := false } else m)
                       x := t.x.map (fun y => if y == some r then none else y)
                       old := if r != 0 && (fieldWritten i).isSome then (if t.old.contains r then t.old else r :: t.old)
                         else t.old.filter (fun y => y != r) }

/-- The slice holds the XRECV, or the LCSET from the queue, of the XSEND that serves word `k` (R266). -/
def received (e : Eng) (sl : Slice) (k : Nat) : Bool :=
  (sl.words.zip sl.side).any (fun (w, d) => d.lpc.toNat == k && (match sliceInstr e w with
    | some (.xrecv ..) | some (.lcsetQueue ..) => true
    | _ => false))

/-- A LOOP of the slice on counter `n` stands at the logical point of word `k`. -/
def closes (e : Eng) (sl : Slice) (n : BitVec 2) (k : BitVec 30) : Bool :=
  (sl.words.zip sl.side).any (fun (w, d) => d.lpc == k && (match sliceInstr e w with
    | some (.loop _ m _) => m == n
    | _ => false))

/-- A word offset that names an instruction of the kernel. -/
def servesWord (ws : List W32) (k : Nat) : Bool := decide (k < ws.length) && !isHint (nth ws k 0)

/-- Passes the coupling words that Luwyn inserted before the next real word of the scalar slice (R26, R266): none where one may
not stand there. The fuel bounds the words. -/
def passS (ws : List W32) (e : Eng) (ss sl : Slice) : Nat → Walk → Option Walk
  | 0, t => some t
  | fuel + 1, t =>
    match sliceRow ss t.i with
    | none => some t
    | some (w, d) =>
      if standsFor ws .s w d then some t
      else if d.exp || d.lr || d.inct != 0 || !servesWord ws d.lpc.toNat then none
      else
        let t' := { t with i := t.i + 1, a := gain t.a d.incf.toNat }
        match sliceInstr .s w with
        | some (.xsend r to_) =>
          if level t.a (scalarGap ws ss t.i t.k (some d.lpc.toNat)) && r != 0 && (to_ != e || received e sl d.lpc.toNat) then
            passS ws e ss sl fuel (if to_ == e then { t' with q := t.q ++ [⟨r, some d.lpc.toNat, !t.old.contains r, t.c.get r⟩] } else t')
          else none
        | some (.evpost ..) | some (.evwait ..) | some (.nop _) =>
          if d.incf == 0 && level t.a (scalarGap ws ss t.i t.k none) then passS ws e ss sl fuel t' else none
        | _ => none

/-- The x register that a slice word writes (R90, R167, R168). -/
def xWritten (e : Eng) (w : W32) : Option (BitVec 4) :=
  match sliceInstr e w with
  | some (.xrecv _ x) | some (.xmovw _ x _) | some (.xaddi _ x _ _) | some (.xadd _ x _ _) => some x
  | some i => if (fieldWritten i).isSome then (fieldRegs i w).head?.map (fun x => x.setWidth 4) else none
  | none => none

/-- The slice words that may follow word `n`. -/
def sliceNext (e : Eng) (sl : Slice) (n : Nat) : List Nat :=
  if sl.words.length ≤ n then []
  else
    match sliceInstr e (nth sl.words n 0) with
    | some (.loop _ _ j) => [n + 1, ((n : Int) + j.toInt).toNat]
    | some (.follow _ j) => [n + 1, ((n : Int) + j.toInt).toNat]
    | some (.jmpe _ j) => [((n : Int) + j.toInt).toNat]
    | some (.notify _) => []
    | _ => [n + 1]

/-- No x register is left that no other word of the slice writes on a way to word `n` (R266). -/
def zeroGone (e : Eng) (sl : Slice) (n : Nat) : Bool :=
  (List.range 16).all (fun x => (List.range sl.words.length).any (fun m => m != n && xWritten e (nth sl.words m 0) == some (BitVec.ofNat 4 x)
    && pathMeets (sliceNext e sl) (fun j => if j == n then some true else none) ((sl.words.length + 2) * (sl.words.length + 2)) (sliceNext e sl m) []))

/-- An XRECV may take transfer `m` into x register `x` for the word `w` that it stands before (R23, R266): the word names the
register there; one inserted pair serves it, or every explicit transfer does. -/
def takes (ws : List W32) (t : Walk) (m : Transfer) (x : BitVec 4) (w : W32) (d : SideEntry) : Bool :=
  let lw := nth ws d.lpc.toNat 0
  match logicalOf lw with
  | none => false
  | some i =>
    let explicit_ := m.lpc == none
    let regs (w : W32) := if explicit_ then fieldRegs i w else fieldsRead i w
    ((regs lw).zip (regs w)).any (fun (s, y) => s == m.reg && y == x.setWidth 6)
      && (explicit_ || m.lpc == some d.lpc.toNat)
      && t.got.all (fun g => g.reg != m.reg || (explicit_ && g.lpc == none))

/-- A word reads `s` of the kernel, renamed to `x` in the slice. -/
def namesAt (ws : List W32) (s : BitVec 6) (x : BitVec 4) (w : W32) (d : SideEntry) : Bool :=
  let lw := nth ws d.lpc.toNat 0
  (logicalOf lw).any (fun i => ((fieldsRead i lw).zip (fieldsRead i w)).any (fun (r, y) => r == s && y == x.setWidth 6))

/-- Passes the coupling words that Luwyn inserted before the next real word of an engine's slice, up to a branch, a NOTIFY or
that word: transfers, loop counts, the zero of R266 and events, and of the others none, since R26 and R266 give them no reading word to serve (DEDUCED,
log 27). The fuel bounds the words. -/
def passE (ws : List W32) (e : Eng) (sl : Slice) : Nat → Walk → Option Walk
  | 0, t => some t
  | fuel + 1, t =>
    match sliceRow sl t.j with
    | none => some t
    | some (w, d) =>
      if isReal ws e w d then some t
      else
        let real := nextReal ws e sl (sl.words.length + 1) t.j
        let plain := d.incf == 0 && d.inct == 0 && !d.exp && !d.lr && servesWord ws d.lpc.toNat
        let reading := plain && real.any (fun (_, _, r) => r.lpc == d.lpc)
        let t' := { t with j := t.j + 1 }
        match sliceInstr e w with
        | some (.xrecv _ x) =>
          match t.q, real with
          | m :: q, some (_, rw, rd) =>
            if reading && takes ws t m x rw rd then
              passE ws e sl fuel { t' with q, got := m :: t.got, x := t.x.set x.toNat (if m.fresh then some m.reg else none) }
            else none
          | _, _ => none
        | some (.lcsetQueue _ n) =>
          match t.q with
          | m :: q =>
            if plain && (reading || closes e sl n d.lpc) && m.lpc == some d.lpc.toNat then
              passE ws e sl fuel { t' with q, lc := t.lc.set n.toNat (m.val.map (fun v => min v.toNat 0xFFFFFFFF)) }
            else none
          | [] => none
        | some (.lcset _ n v) =>
          if plain && (reading || closes e sl n d.lpc) then passE ws e sl fuel { t' with lc := t.lc.set n.toNat (some v.toNat) } else none
        | some (.xmovw _ x n) =>
          if reading && n == 0 && zeroGone e sl t.j && real.any (fun (_, rw, rd) => namesAt ws 0 x rw rd) then
            passE ws e sl fuel { t' with x := t.x.set x.toNat (some 0) }
          else none
        | some (.evpost ..) | some (.evwait ..) | some (.nop _) => if plain then passE ws e sl fuel t' else none
        | some (.loop ..) | some (.follow ..) | some (.jmpe ..) | some (.notify _) => some t
        | _ => none

/-- The first word from `j` on that is no inserted straight-line coupling word. The fuel bounds the words. -/
def branchAhead (ws : List W32) (e : Eng) (sl : Slice) : Nat → Nat → Option (W32 × SideEntry)
  | 0, _ => none
  | fuel + 1, j =>
    match sliceRow sl j with
    | none => none
    | some (w, d) =>
      if isReal ws e w d then some (w, d)
      else match sliceInstr e w with
        | some (.loop ..) | some (.follow ..) | some (.jmpe ..) | some (.notify _) => some (w, d)
        | _ => branchAhead ws e sl fuel (j + 1)

/-- One side of a logical branch: the path goes to word `k`, the scalar slice to word `i`. -/
def Walk.go (t : Walk) (k : Int) (i : Int) (a : Int) : Walk := { t with k := k.toNat, i := i.toNat, a := gain t.a (a - 1) }

/-- The engine takes no part in a branch: its LSN is lost where the branch leaves or closes a loop that Luwyn cannot count. -/
def Walk.past (t : Walk) (lost : Bool) : Walk := { t with b := if lost then none else gain t.b (-1) }

/-- The engine leaves its branch word by an edge. -/
def Walk.edge (t : Walk) (j : Int) (n : BitVec 16) : Walk :=
  { t with j := j.toNat, b := gain t.b ((n.toNat : Int) - 1), near := n == 1 }

/-- LOOP closes a loop with its branch: Luwyn computes the trip count, so the code fixes both the counter and the branch, and they agree (R26, R86). -/
def loopCounts (lc : Option Nat) (taken : Option Bool) : Bool :=
  match lc, taken with
  | some n, some b => decide (1 < n) == b
  | _, _ => false

/-- A conditional branch of the kernel, at hand in the scalar slice with its entry `d` and offset `o`; its target is `to_` (R26). -/
def branchWalk (ws : List W32) (e : Eng) (sl : Slice) (i : Instr) (t : Walk) (d : SideEntry) (o to_ : Int) : Option (List Walk) :=
  let un := uncounted ws t.c t.k i to_
  let known := t.c.taken i
  let t := { t with c := un.foldl (Consts.forget ws) t.c }
  let taken (t : Walk) := t.go to_ ((t.i : Int) + o) d.inct.toNat
  let falls (t : Walk) := t.go ((t.k : Int) + 1) ((t.i : Int) + 1) d.incf.toNat
  let sides (x y : Walk) : List Walk := (if known != some false then [x] else []) ++ (if known != some true then [y] else [])
  let both (t : Walk) (o : Int) (de : SideEntry) (lcT lcF : List (Option Nat)) : Option (List Walk) :=
    if level t.b 0 then
      some (sides (taken { t.edge ((t.j : Int) + o) de.inct with lc := lcT }) (falls { t.edge ((t.j : Int) + 1) de.incf with lc := lcF }))
    else none
  let skip := some (sides (taken (t.past (!un.isEmpty))) (falls (t.past (!un.isEmpty))))
  let ahead := branchAhead ws e sl (sl.words.length + 1) t.j
  match ahead.bind (fun (w, _) => sliceInstr e w), ahead with
  | some (.follow _ j), some (_, de) =>
    if de.lpc.toNat == t.k then
      (if d.exp then (passE ws e sl (sl.words.length + 1) t).bind (fun t => both t j.toInt de t.lc t.lc) else none)
    else if d.exp then none else skip
  | some (.loop _ n j), some (_, de) =>
    if de.lpc.toNat == t.k then
      (if d.exp then none
      else (passE ws e sl (sl.words.length + 1) t).bind (fun t =>
        let v := nth t.lc n.toNat none
        if loopCounts v known then both t j.toInt de (t.lc.set n.toNat (v.map (fun v => v - 1))) (t.lc.set n.toNat (some 0)) else none))
    else if d.exp then none else skip
  | some (.notify _), _ => skip
  | some _, _ => if d.exp then none else skip
  | none, _ => none

/-- A JMP of the kernel: the engine's JMPE at it, or nothing (R105). -/
def jumpWalk (ws : List W32) (e : Eng) (sl : Slice) (i : Instr) (t : Walk) (to_ : Int) : Option Walk :=
  let un := uncounted ws t.c t.k i to_
  let t := { t with c := un.foldl (Consts.forget ws) t.c }
  match branchAhead ws e sl (sl.words.length + 1) t.j with
  | none => none
  | some (w, de) =>
    match sliceInstr e w with
    | some (.jmpe _ j) =>
      if de.lpc.toNat == t.k then do
        let t ← passE ws e sl (sl.words.length + 1) t
        if level t.b 0 then some (t.edge ((t.j : Int) + j.toInt) de.inct) else none
      else some (t.past (!un.isEmpty))
    | _ => some (t.past (!un.isEmpty))

/-- At an EXIT: the engine's next word is its NOTIFY, which serves an EXIT, with an LSN that R221, R268 and R315 give it: the
EXIT's where Luwyn computes it and one INCF reaches it; else the LSN that follows the slice's last other word, or where a loop that
Luwyn cannot count holds such a word, the EXIT's on the path (DEDUCED, log 27). A slice with no other word starts where R268 says. No inserted transfer
is left over. -/
def endWalk (ws : List W32) (e : Eng) (sl : Slice) (lsn : Option Nat) (t : Walk) : Bool :=
  match passE ws e sl (sl.words.length + 1) t with
  | none => false
  | some t =>
    match sliceRow sl t.j with
    | none => false
    | some (w, d) =>
      let far := t.b.any (fun n => decide (n < -65534))
      sliceInstr e w == some (.notify e) && logicalOf (nth ws d.lpc.toNat 0) == some .exit && t.q.all (fun m => m.lpc.isNone)
        && (sl.words.length == 1
          || (match lsn with
            | some _ => level t.b 0 || (t.near && far)
            | none => t.near || (holdsOpen ws e && level t.b 0)))

/-- The run of plain stores of the kernel from word `k` on: the word after each, the store's LPC and LSN from the first, and what it leaves. The fuel
bounds the words. -/
def kernelStores (ws : List W32) (c : Consts) : Nat → Nat → Nat → List (Nat × Nat × Nat × (Nat × Nat × BitVec 6))
  | 0, _, _ => []
  | fuel + 1, k, n =>
    if isHint (nth ws k 0) then kernelStores ws c fuel (k + 1) n
    else match (logicalOf (nth ws k 0)).bind (storeSpan c) with
      | some x => (k + 1, k, n, x) :: kernelStores ws c fuel (k + 1) (n + 1)
      | none => []

/-- The run of plain stores of the scalar slice from word `i` on: the LPC of each, its increment, and what it leaves. The fuel bounds the words. -/
def sliceStores (c : Consts) (ss : Slice) : Nat → Nat → List (Nat × Nat × (Nat × Nat × BitVec 6))
  | 0, _ => []
  | fuel + 1, i =>
    match sliceRow ss i with
    | none => []
    | some (w, d) =>
      match (sliceInstr .s w).bind (storeSpan c) with
      | some x => if d.exp || d.lr || d.inct != 0 then [] else (d.lpc.toNat, d.incf.toNat, x) :: sliceStores c ss fuel (i + 1)
      | none => []

/-- The LSN after a run of stores of the slice, each at the LSN of the kernel's store that it names. -/
def storeLsns (l : List (Nat × Nat × Nat × (Nat × Nat × BitVec 6))) : List (Nat × Nat × (Nat × Nat × BitVec 6)) → Int → Option Int
  | [], n => some n
  | (lpc, inc, _) :: rest, n =>
    if l.any (fun (_, k, m, _) => k == lpc && (m : Int) == n) then storeLsns l rest (n + inc) else none

/-- Plain stores of one phase window merged or split by the scalar slice (R26, R242): where the code fixes their addresses and all are aligned, a run of
the slice's leaves the bytes that a run of the kernel's leaves (DEDUCED, log 27). -/
def Walk.mergedStores (t : Walk) (ws : List W32) (ss : Slice) : Option Walk :=
  let l := kernelStores ws t.c ws.length t.k 0
  let m := sliceStores t.c ss ss.words.length t.i
  (List.range l.length).findSome? (fun p => (List.range m.length).findSome? (fun q =>
    let ks := l.take (p + 1)
    let sw := m.take (q + 1)
    if sameStores t.c (ks.map (fun x => x.2.2.2)) (sw.map (fun x => x.2.2)) then
      match t.a.bind (storeLsns ks sw), ks.getLast? with
      | some n, some y => some { t with k := y.1, i := t.i + q + 1, a := some (n - (p + 1)), b := gain t.b (-((p : Int) + 1)) }
      | _, _ => none
    else none))

/-- The walk goes past a scalar word of the kernel. -/
def scalarWalk (ws : List W32) (e : Eng) (ss sl : Slice) (lsn : Option Nat) (i : Instr) (t : Walk) : Option (List Walk) :=
  match sliceRow ss t.i with
  | none => none
  | some (w, d) =>
    if !(isReal ws .s w d && d.lpc.toNat == t.k) then
      (if mayDrop ws t.k then some [{ t with k := t.k + 1, a := gain t.a (-1) }.past false] else (t.mergedStores ws ss).map (fun t => [t]))
    else if d.lr || !level t.a 0 then none
    else
      let on := t.go ((t.k : Int) + 1) ((t.i : Int) + 1) d.incf.toNat
      match i with
      | .beq _ _ o | .bne _ _ o | .blt _ _ o | .bge _ _ o | .bltu _ _ o | .bgeu _ _ o =>
        branchWalk ws e sl i t d (fI w).toInt ((t.k : Int) + o.toInt)
      | .jmp o =>
        if d.exp then none
        else (jumpWalk ws e sl i t ((t.k : Int) + o.toInt)).map (fun u =>
          [u.go ((t.k : Int) + o.toInt) ((t.i : Int) + (fJ w).toInt) d.inct.toNat])
      | .call o =>
        if d.exp then none
        else some [((t.past false).written t.k i (some 63)).go ((t.k : Int) + o.toInt) ((t.i : Int) + (fJ w).toInt) d.inct.toNat]
      | .jr r a =>
        if d.exp then none
        else
          let to_ := match t.c.get a with
            | some x => (jrTargets ws t.k).filter (fun n => n == x.toNat / 4)
            | none => jrTargets ws t.k
          let u := if (t.c.get a).isSome then (t.past false).written t.k i (some r)
            else { (t.past true).written t.k i (some r) with c := List.replicate 64 none }
          to_.mapM (fun (k : Nat) => (ss.side.findIdx? (fun x => x.lpc.toNat == pastHints (hintsAt ws) ws.length k)).map (fun (n : Nat) =>
            u.go k n d.inct.toNat))
      | .exit => if !d.exp && d.inct == 0 && endWalk ws e sl lsn t then some [] else none
      | .xsend r to_ =>
        if d.exp || d.inct != 0 then none
        else some [(if to_ == e then { on with q := on.q ++ [⟨r, none, true, t.c.get r⟩] } else on).past false]
      | _ => if d.exp || d.inct != 0 then none else some [(on.past false).written t.k i (scalarWritten i)]

/-- The x registers of a word hold what the s registers that it names hold (R23, R266), and no explicit transfer to it is left. -/
def renamedOk (t : Walk) (i : Instr) (lw w : W32) : Bool :=
  ((fieldsRead i lw).zip (fieldsRead i w)).all (fun (s, x) => nth t.x x.toNat none == some s)
    && (fieldRegs i lw).all (fun s => t.q.all (fun m => !(m.lpc == none && m.reg == s)))

/-- The walk goes past a word of the engine itself. -/
def engineWalk (ws : List W32) (e : Eng) (sl : Slice) (i : Instr) (t : Walk) : Option (List Walk) := do
  let t ← passE ws e sl (sl.words.length + 1) t
  let (w, d) ← sliceRow sl t.j
  if isReal ws e w d && d.lpc.toNat == t.k && level t.b 0 && d.inct == 0 && !d.exp && d.lr == lrOf ws t.k i
      && renamedOk t i (nth ws t.k 0) w then
    let t' := (t.edge ((t.j : Int) + 1) d.incf).written t.k i (fieldWritten i)
    let t' := { t' with k := t.k + 1, a := gain t.a (-1), got := [] }
    some [match fieldWritten i with
      | some r => { t' with x := t'.x.set (nth (fieldRegs i w) 0 0).toNat (if r == 0 then none else some r) }
      | none => t']
  else none

/-- One word of the kernel on a walk: none where the slices are not an image of the kernel, or where a transfer inserted for the word is left over; no
walk goes on at an EXIT, or where the path leaves the kernel (log 14). -/
def walkStep (ws : List W32) (e : Eng) (ss sl : Slice) (lsn : Option Nat) (t : Walk) : Option (List Walk) := do
  let t ← passS ws e ss sl (ss.words.length + 1) t
  if ws.length ≤ t.k then some []
  else if isHint (nth ws t.k 0) then some [{ t with k := t.k + 1 }]
  else do
    let i ← logicalOf (nth ws t.k 0)
    let l ← if i.engine == some .s then scalarWalk ws e ss sl lsn i t
      else if i.engine == some e then engineWalk ws e sl i t
      else some [{ t with k := t.k + 1, a := gain t.a (-1) }.past false |>.written t.k i (fieldWritten i)]
    if l.all (fun u => u.q.all (fun m => m.lpc != some t.k)) then some l else none

/-- Every path of the kernel is one of the two slices. Walks end: constants that an uncounted loop changes are forgotten, and a
transfer queue that grows without end in such a loop has no pairs (R23). -/
def walksOk (ws : List W32) (e : Eng) (ss sl : Slice) (lsn : Option Nat) : Nat → List Walk → List Walk → Bool
  | 0, _, _ => false
  | fuel + 1, todo, seen =>
    match todo with
    | [] => true
    | t :: rest =>
      if seen.contains t then walksOk ws e ss sl lsn fuel rest seen
      else
        match walkStep ws e ss sl lsn t with
        | none => false
        | some l => walksOk ws e ss sl lsn fuel (l ++ rest) (t :: seen)

/-- Every word has one slice word of its engine, renamed, with its LSN, and coupling stands where it may (R26, R242, R266). A slice
with no word but NOTIFY has no LSN to follow. -/
def sliceOk (ws : List W32) (im : SliceImage) (lsn : Option Nat) (e : Eng) : Bool :=
  let ss := sliceAt im .s
  let sl := sliceAt im e
  walksOk ws e ss sl lsn (pow2 64)
    [{ k := 0, i := 0, j := 0, a := some ss.start.toNat, b := some sl.start.toNat, near := false, q := [], got := []
       x := List.replicate 16 (some 0), lc := List.replicate 4 (some 0), c := Consts.start }] []

/-- An image has the shape that R24 and R25 give it, every word a legal one of its engine's slice; every slice but the scalar
one ends with its only NOTIFY, and the scalar one has none (R24, R221, R315). -/
def imageShape (i : SliceImage) : Bool :=
  i.slices.length == 6 && (engines.all (fun e =>
    let x := sliceAt i e
    let is_ := x.words.map (sliceInstr e)
    !x.words.isEmpty && x.words.length == x.side.length && is_.all Option.isSome
      && (if e == .s then is_.all (fun i => i != some (.notify .s))
        else is_.getLast? == some (some (.notify e)) && (is_.dropLast).all (fun i => i != some (.notify e)))))

-- Events (R267).
/-- A word of a kernel is horizon-bound (R31). -/
def boundWord (w : W32) (i : Instr) : Bool :=
  match i with
  | .taint .. | .untaint _ | .xsend .. | .dcbPf .. | .icpf .. => false
  | _ =>
    match i.engine with
    | some .m | some .w | some .c => true
    | some .s =>
      let op := (fOp w).toNat
      decide (op < 0x30) && (decide (0x10 ≤ op ∧ op < 0x14) || decide (0x15 ≤ op ∧ op < 0x18) || decide (0x21 ≤ op))
    | _ => false

/-- A free word that an event may serve: one of the access or vector engine, or a load (R31, R242). -/
def servedFree (i : Instr) : Bool :=
  i.engine == some .a || i.engine == some .v || (plainAccess i).isSome ||
    (match i with
    | .ldx .. => true
    | _ => false)

/-- Whether a word of a slice that an event may serve is bound: its real words that are, and NOTIFY; none for any other word (R31, R267). -/
def realBound (ws : List W32) (e : Eng) (sl : Slice) (n : Nat) : Option Bool :=
  match sliceRow sl n with
  | some (w, d) =>
    match sliceInstr e w with
    | some (.notify _) => some true
    | some i =>
      if !standsFor ws e w d then none
      else if boundWord (nth ws d.lpc.toNat 0) i then some true
      else if servedFree i then some false else none
    | none => none
  | none => none

/-- The uses of event `n` in the image: the engine, the LPC of the word that gives the use its LSN, and whether the word that the event serves before a
post, or after a wait, is horizon-bound. -/
def eventUses (ws : List W32) (im : SliceImage) (n : BitVec 5) (post : Bool) : List (Eng × Nat × Bool) :=
  engines.flatMap (fun e =>
    let sl := sliceAt im e
    let rows := List.range sl.words.length
    rows.filterMap (fun k =>
      let near := if post then (List.range k).reverse else rows.drop (k + 1)
      let use := match sliceInstr e (nth sl.words k 0) with
        | some (.evpost _ m) => m == n && post
        | some (.evwait _ m) => m == n && !post
        | _ => false
      let lsn := (rows.drop k).findSome? (fun j => (sliceRow sl j).bind (fun (w, d) =>
        if standsFor ws e w d || sliceInstr e w == some (.notify e) then some d.lpc.toNat else none))
      if use then some (e, lsn.getD 0, (near.findSome? (realBound ws e sl)).getD false) else none))

/-- A use put in LSN order before the later ones. -/
def addUse (x : Eng × Nat × Bool) : List (Eng × Nat × Bool) → List (Eng × Nat × Bool)
  | [] => [x]
  | y :: l => if x.2.1 ≤ y.2.1 then x :: y :: l else y :: addUse x l

/-- Luwyn orders no two horizon-bound words of different engines with an event (R267): the posts and waits of an event are paired in LSN order, or, where
there is not one for one, each with each. No event is waited for that is never posted. -/
def eventsOk (ws : List W32) (im : SliceImage) : Bool :=
  (List.range 32).all (fun n =>
    let uses (post : Bool) : List (Eng × Nat × Bool) := (eventUses ws im (BitVec.ofNat 5 n) post).foldr addUse []
    let ps := uses true
    let qs := uses false
    let pairs := if ps.length == qs.length then ps.zip qs else ps.flatMap (fun p => qs.map (fun q => (p, q)))
    (!ps.isEmpty || qs.isEmpty) && pairs.all (fun (p, q) => !(p.1 != q.1 && p.2.2 && q.2.2)))

/-- Slices that hold only NOTIFY start at the EXIT's LSN where Luwyn computes it, else at 0 (R29, R268). -/
def notifyStarts (im : SliceImage) (lsn : Option Nat) : Bool :=
  (engines.drop 1).all (fun e =>
    let sl := sliceAt im e
    sl.words.length != 1 || sl.start == BitVec.ofNat 32 (lsn.getD 0))

/-- The image is one that Luwyn may make of the kernel. -/
def imageOk (k : Kernel) (i : SliceImage) : Bool :=
  let lsn := exitLsn k.words
  imageShape i && eventsOk k.words i && notifyStarts i lsn && (engines.drop 1).all (sliceOk k.words i lsn)

/-- The access-engine words that follow an NX hint (R91, R150): those whose side-table entries name the hinted words. -/
def nxWords (ws : List W32) (i : SliceImage) : List Nat :=
  let hinted := ((List.range ws.length).zip ws).filterMap (fun (k, w) =>
    if isNx w then
      ((List.range ws.length).find? (fun j => decide (k < j) && fE (nth ws j 0) == 1 && decide ((fOp (nth ws j 0)).toNat < 0x30)))
    else none)
  let x := nth i.slices 1 ⟨0, [], []⟩
  (List.range x.words.length).filter (fun n =>
    hinted.contains ((nth x.side n ⟨0, 0, 0, false, false⟩).lpc.toNat) && decide ((fOp (nth x.words n 0)).toNat < 0x30))

end Sys2Proof.Machine
end

