-- ==== Sys2Proof/Machine/CodeEvents.lean ====
section
/-! DEFINITION. Code objects: the placing of a load's images (R24, R139, R262), and unloading (R302). -/

namespace Sys2Proof.Machine

/-- The pages of an image are the Hearth's alone, in memory that is encrypted, under the context's key identity: to be fetched, with no
right for units (R260-R262). A page that is not present takes its words when it is made so. -/
def codePages (s : State) (vf proc : Nat) (i : SliceImage) : Bool :=
  (List.range ((imageBytes i).length / 65536 + 2)).all (fun n =>
    let va := i.base + BitVec.ofNat 64 (65536 * n)
    decide ((imageBytes i).length + 65535 < 65536 * n) ||
      match walk s (s.ctx vf proc).ptbase va .fetch with
      | .ok (leaf, lvl) => isEncrypted (leafKey leaf lvl va) && leaf.getLsbD 3 && leaf.extractLsb' 1 2 == 0 && pteKeyId leaf == s.contextKey vf
      | .error _ => true)

/-- One kernel's image is made, with the next handle (R24, R262). -/
def addImage (vf proc : Nat) (system : Bool) (object : Nat) (s : State) (k : Kernel × SliceImage) : State :=
  let i : SliceImage := { k.2 with
    handle := s.nextImg, targets := callReturns k.1.words, hintTargets := hintPairs k.1.words, nx := nxWords k.1.words k.2
    hints := hintsAt k.1.words }
  let s := placeImage s vf proc (s.vf vf).part i
  { s with
    images := s.images ++ [{ img := i, vf, proc, system, object }]
    nextImg := s.nextImg + 1 }

/-- The tables of a context and the nodes that the Hearth writes (R128, R137, R220, R262). -/
def placeTables (s : State) (vf proc : Nat) (p : Placement) : State :=
  let s := openCtx s vf proc
  let s := s.setCtx { s.ctx vf proc with ptbase := p.ptbase, objbase := p.objbase, spill := p.spill }
  p.nodes.foldl (fun s n => ((List.range n.2.length).zip n.2).foldl (fun s b =>
    deviceWrite s (n.1 + b.1) b.2 .package (s.vf vf).part) s) s

/-- CODE_OBJECT_LOAD (R26, R92, R262): a failed tag or a check that fails refuses the load, and no image is made; else there is
one image for each kernel, and Load returns their handles. The images are Luwyn's output, and the pages the Hearth's (log 27):
nothing is loaded with others, or while no VF is enabled (R264). -/
def loadObject (vf proc : Nat) (tagOk system : Bool) (kernels : List Kernel) (images : List SliceImage) (place : Placement)
    (s : State) : State :=
  if !(decide (vf ≤ 96) && decide (proc < 256) && s.bootFail == 0) then s
  else if !(tagOk && kernels.all kernelOk) then { s with sent := s.sent ++ [.handles []] }
  else if !(kernels.length == images.length && (kernels.zip images).all (fun k => imageOk k.1 k.2)) then s
  else
    let first := s.nextImg
    let s' := placeTables s vf proc place
    if !(images.all (codePages s' vf proc)) then s
    else
      let s' := (kernels.zip images).foldl (addImage vf proc system s.nextObj) s'
      { s' with nextObj := s.nextObj + 1
                codeObjs := s'.codeObjs ++ [(s.nextObj, kernels.flatMap (fun k => k.objects))]
                sent := s.sent ++ [.handles ((List.range kernels.length).map (fun n => first + BitVec.ofNat 32 n))] }

def execCodeObjectLoad (vf proc : Nat) (tagOk system : Bool) (kernels : List Kernel) (images : List SliceImage)
    (place : Placement) (s : State) : Host.Outcome State Fault Refusal :=
  event s (loadObject vf proc tagOk system kernels images place)

/-- An image marked for unloading. -/
def markUnload (s : State) (h : W32) : State :=
  { s with images := s.images.map (fun x => if x.img.handle == h then { x with unload := true } else x) }

/-- IMAGE_UNLOAD (R302): it happens once nothing names the image. -/
def execImageUnload (handle : W32) (s : State) : Host.Outcome State Fault Refusal :=
  event s (fun s => if imageNamed s handle then s else sweepImage (markUnload s handle) handle)

/-- A forced unload (R302): entries are voided, running units are to be killed and saved contexts are discarded. -/
def forceUnload (h : W32) (s : State) : State :=
  if (s.image h).isNone then s
  else
    let s := markUnload s h
    let void (p : Part) : List Entry := p.entries.filter (fun e => e.phase != .placed && e.unit.image == h)
    let dead := s.saved.filter (fun x => x.seat.unit.image == h)
    let ct (p : Part) : List (BitVec 12) := (void p).flatMap (fun e => e.unit.path)
      ++ (dead.filter (fun x => x.seat.unit.part == p.id)).flatMap (fun x => x.seat.unit.path)
    let paths := s.parts.map (fun p => (p.id, ct p))
    let s := s.parts.foldl (fun s p => (void p).foldl (fun s e => voidEntry (markCancelled s e.unit) p.id e) s) s
    let s := dead.foldl (fun s x => killSaved s x .unload) s
    let s := s.mapSeats (fun t => if t.status != .vacant && t.unit.image == h && t.kill == .no then { t with kill := .unload } else t)
    sweepImage (paths.foldl (fun s p => settle s p.1 p.2) s) h

def execForcedUnload (handle : W32) (s : State) : Host.Outcome State Fault Refusal := event s (forceUnload handle)

end Sys2Proof.Machine
end

