-- ==== Sys2Proof/Machine/Copy.lean ====
section
/-! DEFINITION. The copy engine's words (R192-R206). -/

namespace Sys2Proof.Machine

/-- A copy-engine word: horizon-bound (R31). -/
def copyWord (s : State) (m : M Unit) : Host.Outcome State Fault Refusal := word .c true s m

def tokenBusy (t : Seat) (k : Fin 8) : Bool := t.kstat[k] == 0xFD

/-- Copies whose tokens' retirement has been seen are joined: their bytes are published with the unit's stores (R200, R239). -/
def joinTokens (p : Fin 8 → Bool) (s : State) : State :=
  let join (k : Option (Fin 8)) : Option (Fin 8) := match k with
    | some k => if p k then none else some k
    | none => none
  { s.onSeat (fun t => { t with unpub := t.unpub.map (fun u => { u with tok := join u.tok }) }) with
    hist := s.hist.map (fun x => if x.uid == s.seat.unit.uid then { x with tok := join x.tok } else x) }

/-- Waits for a token that is busy, and joins its last copy (R193, R239). -/
def mToken (k : Fin 8) : M Unit := do
  let t ← mSeat
  mNeeds (!tokenBusy t k) .token
  mMod (joinTokens (fun x => x == k))

/-- The scoreboard's ranges of a copy: one for each side in pad space (R136). A halo's source lies in another seat's pad. -/
def copyRanges (c : Copy) (out : Nat) : List Range :=
  (if isPadSpace c.src && c.kind != .halo then [⟨c.tok, padOffset c.src, padOffset c.src + c.len, false⟩] else [])
  ++ (if isPadSpace c.dst then [⟨c.tok, padOffset c.dst, padOffset c.dst + out, true⟩] else [])

/-- The copy begins: its token is busy and its ranges are held (R136, R192). -/
def mBegin (c : Copy) : M Unit := do
  let t ← mSeat
  let r := copyRanges c (spansOut c.spans)
  mNeeds (decide (t.ranges.length + r.length ≤ 16)) .range
  mModSeat (fun t => { t with kstat := t.kstat.set c.tok 0xFD, ranges := t.ranges ++ r, copies := t.copies ++ [{ c with since := t.cycles.toNat }] })

/-- The register operands of an inline copy: source with its taint, destination and length (R81). -/
def copyArgs (a b : BitVec 6) : M (Dword × Taint × Dword × Dword) := do
  let (x, k) ← getX .c a
  let (y, _) ← getX .c b
  let (n, _) ← getX .c (b + 1)
  pure (x, k, y, n)

/-- The longest inline copy: 4 MiB (R201, R203). -/
def maxCopy : Nat := pow2 22

def execCpys (d a b : BitVec 6) (c : Fmt) (s : State) : Host.Outcome State Fault Refusal :=
  copyWord s (do
    let k : Fin 8 := Fin.ofNat 8 d.toNat
    mToken k
    let (x, ka, y, n) ← copyArgs a b
    if n == 0 then mModSeat (fun t => { t with kstat := t.kstat.set k 0xFF })
    else do
      mOperand .c (decide (n.toNat ≤ maxCopy))
      let l ← myLsn .c
      let cp : Copy := { kind := .plain, tok := k, conv := fmtCode c, src := x, dst := y, len := n.toNat, lsn := l, taint := ka }
      let sp ← copyPlan cp
      mBegin { cp with spans := sp })

def execCpyr (d a b : BitVec 6) (bf : Bool) (s : State) : Host.Outcome State Fault Refusal :=
  copyWord s (do
    let k : Fin 8 := Fin.ofNat 8 d.toNat
    mToken k
    let (x, ka, y, n) ← copyArgs a b
    let w := if bf then 2 else 4
    mCheck (x.toNat % w == 0) FC.align x 0
    mCheck (y.toNat % w == 0) FC.align y 0
    mOperand .c (n.toNat % w == 0)
    let l ← myLsn .c
    let cp : Copy := { kind := .reduce, tok := k, conv := if bf then 1 else 0, src := x, dst := y, len := n.toNat, lsn := l, taint := ka }
    let sp ← copyPlan cp
    mBegin { cp with spans := sp })

/-- The destination lies in the pad that the source names: the unit's own (R203). -/
def inSourcePad (s : State) (x y : Dword) : Bool :=
  isPadSpace y && decide (padOffset y < 0x600000)
    && (x.extractLsb' 24 2).toNat == cellOf s.seat.id % 4 && (x.extractLsb' 26 1).toNat == sideOf s.seat.id

def execCpyh (d a b : BitVec 6) (n : BitVec 4) (s : State) : Host.Outcome State Fault Refusal :=
  copyWord s (do
    let k : Fin 8 := Fin.ofNat 8 d.toNat
    mToken k
    let (x, ka, y, len) ← copyArgs a b
    mOperand .c (decide (len.toNat ≤ maxCopy) && x.extractLsb' 27 37 == 0 && !inSourcePad s x y)
    let bar ← mJoin .c n.toFin
    let l ← myLsn .c
    let cp : Copy := { kind := .halo, tok := k, src := x, dst := y, len := len.toNat, bar := n.toNat, gen := bar.gen, lsn := l, taint := ka }
    let sp ← copyPlan cp
    mBegin { cp with spans := sp })

/-- A chain runs on the channel (R193, R194). -/
def chainOn (t : Seat) (ch : Fin 4) : Bool := t.copies.any (fun c => c.kind == .chain && c.ch == ch)

def execCpy (d a b : BitVec 6) (s : State) : Host.Outcome State Fault Refusal :=
  copyWord s (do
    let k : Fin 8 := Fin.ofNat 8 d.toNat
    let ch : Fin 4 := Fin.ofNat 4 b.toNat
    let (x, ka) ← getX .c a
    mCheck (x.toNat % 64 == 0) FC.align x 0
    mToken k
    let t ← mSeat
    mNeeds (!chainOn t ch) .token
    let l ← myLsn .c
    let cp : Copy := { kind := .chain, tok := k, ch, lsn := l, taint := ka, since := t.cycles.toNat }
    mModSeat (fun t => { t with kstat := t.kstat.set k 0xFD, chd := t.chd.set ch x, chStop := t.chStop.set ch false })
    let s ← get
    enterRanges k (chainHeld cp s)
    mModSeat (fun t => { t with copies := t.copies ++ [cp] }))

/-- A copy in flight may use table `t`: a chain's records name their tables as the channel reaches them (R195). -/
def tableUsed (s : Seat) : Bool := s.copies.any (fun c => c.kind == .chain && c.ended.isNone)

/-- CVTL (R205). -/
def execCvtl (d a : BitVec 6) (s : State) : Host.Outcome State Fault Refusal :=
  copyWord s (do
    let (x, ka) ← getX .c a
    mCheck (x.toNat % 64 == 0) FC.align x 0
    mNeeds (!tableUsed s.seat) .table
    let l ← myLsn .c
    let (bytes, _) ← loadUnit .c l (ldView .plain ka) x 512
    mModSeat (fun t => { t with ctab := t.ctab.set (Fin.ofNat 4 d.toNat) (wordOf 4096 bytes) }))

/-- CPYC marks the channel's chain (R206). -/
def execCpyc (b : BitVec 6) (s : State) : Host.Outcome State Fault Refusal :=
  copyWord s (do
    let ch : Fin 4 := Fin.ofNat 4 b.toNat
    if s.seat.copies.any (fun c => c.kind == .chain && c.ch == ch && c.ended.isNone) then
      mModSeat (fun t => { t with chStop := t.chStop.set ch true })
    else pure ())

end Sys2Proof.Machine
end

