-- ==== Sys2Proof/Machine/Coupling.lean ====
section
/-! DEFINITION. The shared coupling group (R83-R90). Each word takes the horizon class of its engine. -/

namespace Sys2Proof.Machine

/-- A coupling word of an engine that falls through. -/
def couplingWord (e : Eng) (s : State) (m : M Unit) : Host.Outcome State Fault Refusal := word e (couplingBound e) s m

def execNop (e : Eng) (s : State) : Host.Outcome State Fault Refusal := couplingWord e s (pure ())

-- Events (R85).
/-- A post in its place by LSN: posts to one counter apply in LSN order (R85). -/
def insertPost (i : Item Unit) : List (Item Unit) → List (Item Unit)
  | [] => [i]
  | x :: rest => if lsnLt i.lsn x.lsn then i :: x :: rest else x :: insertPost i rest

/-- A slice word that posts to event `n`. -/
def postsTo (e : Eng) (n : BitVec 5) (w : W32) : Bool :=
  match decodeSlice e w with
  | .ok (.evpost _ m) => m == n
  | _ => false

/-- A slice word that waits for event `n`. -/
def waitsFor (e : Eng) (n : BitVec 5) (w : W32) : Bool :=
  match decodeSlice e w with
  | .ok (.evwait _ m) => m == n
  | _ => false

/-- The posts to one counter, and the waits on it, apply in LSN order (R85): one at `l` is held while another engine whose slice has such words
has still to pass its LSN (log 114). -/
def eventTurn (is : Eng → W32 → Bool) (s : State) (e : Eng) (l : Lsn) : Bool :=
  engines.all (fun d => d == e || (s.seat.eng d).done || !lsnLt (s.seat.eng d).lsn l || !(mySlice s d).words.any (is d))

def execEvpost (e : Eng) (n : BitVec 5) (s : State) : Host.Outcome State Fault Refusal :=
  couplingWord e s (do
    let l ← myLsn e
    let t ← mSeat
    let q := qLive t (t.ev[n.toNat]'n.isLt)
    mNeeds (decide (q.length < 255) && eventTurn (fun d => postsTo d n) s e l) .post
    mModSeat (fun t => { t with ev := t.ev.set n.toNat (insertPost { val := (), lsn := l, maker := e } q) n.isLt }))

def execEvwait (e : Eng) (n : BitVec 5) (s : State) : Host.Outcome State Fault Refusal :=
  couplingWord e s (do
    let l ← myLsn e
    let t ← mSeat
    let q := t.ev[n.toNat]'n.isLt
    mNeeds ((qHead q).isSome && eventTurn (fun d => waitsFor d n) s e l) .event
    mModSeat (fun t => { t with ev := t.ev.set n.toNat (qTake q l e) n.isLt }))

-- Loops (R86).
def execLcset (e : Eng) (c : BitVec 2) (w : BitVec 17) (s : State) : Host.Outcome State Fault Refusal :=
  couplingWord e s (do
    mRoom e 1
    mModSeat (fun t => t.wrLc e c (w.setWidth 32)))

/-- Pops the engine's transfer queue (R27, R106). -/
def popTransfer (e : Eng) : M (Dword × Taint) := fun s =>
  match qHead (s.seat.eng e).xq with
  | none => .error (.wait .queueEmpty)
  | some i => .ok (i.val, s.onEng e (fun x => { x with xq := qTake x.xq x.lsn e }))

def execLcsetQueue (e : Eng) (c : BitVec 2) (s : State) : Host.Outcome State Fault Refusal :=
  couplingWord e s (do
    mRoom e 1
    let (x, _) ← popTransfer e
    mModSeat (fun t => t.wrLc e c (if 0xFFFFFFFF < x.toNat then 0xFFFFFFFF else x.setWidth 32)))

def execLoop (e : Eng) (c : BitVec 2) (imm : BitVec 11) (s : State) : Host.Outcome State Fault Refusal :=
  wordBy e (couplingBound e) s (do
    mRoom e 2
    let n := (s.seat.eng e).lc[c.toNat]'c.isLt
    let edge ← (if 1 < n.toNat then branchTo e imm.toInt else pure (.fall, decide (imm.toInt ≤ 0)))
    mModSeat (fun t => (t.rotate e).wrLc e c (if 1 < n.toNat then n - 1 else 0))
    pure edge)

-- Branches of a slice (R87).
/-- Pops the engine's decision queue. -/
def popDecision (e : Eng) : M Bool := fun s =>
  match qHead (s.seat.eng e).dq with
  | none => .error (.wait .decision)
  | some i => .ok (i.val, s.onEng e (fun x => { x with dq := qTake x.dq x.lsn e }))

def execFollow (e : Eng) (j : BitVec 23) (s : State) : Host.Outcome State Fault Refusal :=
  wordBy e (couplingBound e) s (do
    let taken ← popDecision e
    if taken then branchTo e j.toInt else pure (.fall, decide (j.toInt ≤ 0)))

def execJmpe (e : Eng) (j : BitVec 23) (s : State) : Host.Outcome State Fault Refusal :=
  wordBy e (couplingBound e) s (branchTo e j.toInt)

-- Tokens and completion (R39, R88, R89).
/-- TKWAIT joins the copies that come before it in the program (R22, R88; log 28). -/
def execTkwait (e : Eng) (mask : BitVec 8) (s : State) : Host.Outcome State Fault Refusal :=
  couplingWord e s (do
    let named (k : Fin 8) : Bool := mask.getLsbD k.val
    let l ← myLsn e
    let s ← get
    mNeeds (mask == 0 || s.seat.copiesBegun l) .token
    mNeeds (!((List.range 8).any (fun i => named (Fin.ofNat 8 i) && tokenBusy s.seat (Fin.ofNat 8 i)))) .token
    mMod (joinTokens named))

/-- NOTIFY is horizon-bound on every engine, and the engine's last word. -/
def execNotify (e : Eng) (s : State) : Host.Outcome State Fault Refusal := wordBy e true s (pure (.last, false))

-- The x-register words (R90).
def execXrecv (e : Eng) (d : BitVec 4) (s : State) : Host.Outcome State Fault Refusal :=
  couplingWord e s (do
    mRoom e 1
    let (x, k) ← popTransfer e
    putX e d x k)

def execXaddi (e : Eng) (d a : BitVec 4) (imm : BitVec 11) (s : State) : Host.Outcome State Fault Refusal :=
  couplingWord e s (do
    mRoom e 1
    let (x, k) ← getX e (a.setWidth 6)
    putX e d (x + imm.signExtend 64) k)

def execXmovw (e : Eng) (d : BitVec 4) (w : BitVec 17) (s : State) : Host.Outcome State Fault Refusal :=
  couplingWord e s (do
    mRoom e 1
    putX e d (w.signExtend 64) 0)

def execXadd (e : Eng) (d a b : BitVec 4) (s : State) : Host.Outcome State Fault Refusal :=
  couplingWord e s (do
    mRoom e 1
    let (x, ka) ← getX e (a.setWidth 6)
    let (y, kb) ← getX e (b.setWidth 6)
    putX e d (x + y) (ka ||| kb))

end Sys2Proof.Machine
end

