-- ==== Sys2Proof/Machine/HearthEvents.lean ====
section
/-! DEFINITION. Operations of the Hearth: clusters and the partition map (R243, R252, R253, R259, R263), cells (R17, R21), pins
and tests (R249, R265), halted units (R221), damage to its own state (R289); and the landing of an atomic (R114). -/

namespace Sys2Proof.Machine

-- The partition map (R243, R252, R253).
/-- A ring slot table that the Hearth may set: 256 entries with their reserved bits zero, at least 32 best-effort ones, and none that
partition 0 owns. -/
def ringOk (ring : List Byte) : Bool :=
  ring.length == 256 && ring.all (fun x => x.extractLsb' 5 2 == 0 && (x.getLsbD 7 || x.extractLsb' 0 5 != 0))
    && decide (32 ≤ (ring.filter (fun x => x.getLsbD 7)).length)

/-- Entries of a ring slot table that a partition owns. -/
def ringShare (ring : List Byte) (part : Nat) : Nat := (ring.filter (fun x => !x.getLsbD 7 && (x.extractLsb' 0 5).toNat == part)).length

/-- Way masks of one slice: those of hard partitions disjoint, one each and with a way, and one way left for partition 0. -/
def sliceWaysOk (ways : List (Nat × BitVec 16)) : Bool :=
  ways.all (fun w => decide (1 ≤ w.1) && decide (w.1 < 32) && w.2 != 0)
    && (List.range ways.length).all (fun i => (List.range ways.length).all (fun j =>
      i == j || ((nth ways i (0, 0)).2 &&& (nth ways j (0, 0)).2) == 0 && (nth ways i (0, 0)).1 != (nth ways j (0, 0)).1))
    && ways.foldl (fun (m : BitVec 16) w => m ||| w.2) 0 != 0xFFFF

/-- The masks of a slice among those of a die. -/
def waysAt (ways : List (Nat × Nat × BitVec 16)) (slice : Nat) : List (Nat × BitVec 16) := (ways.filter (fun w => w.1 == slice)).map Prod.snd

/-- Way masks of a die's 48 slices. -/
def waysOk (ways : List (Nat × Nat × BitVec 16)) : Bool :=
  ways.all (fun w => decide (w.1 < 48)) && (List.range 48).all (fun k => sliceWaysOk (waysAt ways k))

/-- A hard partition's share of a die: four ring entries, and a way in every slice (R252, R253). -/
def shareOk (ring : List Byte) (ways : List (Nat × Nat × BitVec 16)) (part : Nat) : Bool :=
  part == 0 || (decide (4 ≤ ringShare ring part) && (List.range 48).all (fun k => (waysAt ways k).any (fun w => w.1 == part)))

def dieRing (s : State) (die : Nat) : List Byte := (s.rings[die % 4]'(Nat.mod_lt _ (by decide))).toList
def dieWays (s : State) (die : Nat) : List (Nat × Nat × BitVec 16) := (s.ways.filter (fun w => w.1 == die)).map Prod.snd

/-- The partitions that a die serves: those with clusters on it, and those whose memory it homes, after the settings `l`. -/
def dieTenants (s : State) (die : Nat) (l : List PartSetting) : List Nat :=
  (List.range 40).map (fun c => (s.partOf (64 * die + c)).val)
    ++ (l.filter (fun x => x.homes.contains die)).map (fun x => x.part)
    ++ ((s.parts.filter (fun p => p.homes.contains die && !l.any (fun x => x.part == p.id.val))).map (fun p => p.id.val))

/-- A function may move to a partition: it is there, or nothing of it is admitted and it is not locked (R243, R260). -/
def vfMoves (s : State) (part v : Nat) : Bool :=
  (s.vf v).part.val == part || !(s.jobs.any (fun j => j.vf == v) || s.seats.any (fun t => t.unit.vf == v)
    || s.saved.any (fun y => y.seat.unit.vf == v) || (s.vf v).tdi != .unlocked)

/-- What an IDE stream covers stays in one partition: a function that moves takes every other one of its streams with it (R260). -/
def streamsMove (s : State) (x : PartSetting) (v : Nat) : Bool :=
  (s.vf v).part.val == x.part || s.ide.all (fun i => !i.vfs.contains v || i.vfs.all x.vfs.contains)

/-- One value for each of some settings, in pairs without a common member. -/
def apartAll {α : Type} [BEq α] (l : List (List α)) : Bool :=
  (List.range l.length).all (fun i => (List.range l.length).all (fun j => i == j || !(nth l i []).any (fun x => (nth l j []).contains x)))

/-- Settings of partitions: functions that move have no work left; functions, key identities and die-pad pages belong to one partition each, the
identities without the Hearth's 0 and the pages without those of the work queues; a function's identity is its partition's and no other's; and the
quotas of walkers have their bounds (R130, R243, R244, R255, R260, R261, R303). Die-pad pages are those of this package's dies (DESIGN CHOICE,
log 131: R130 does not say who assigns a remote one, so each of those is assigned to none). -/
def settingsOk (s : State) (l : List PartSetting) : Bool :=
  let other (p : Part) : Bool := !l.any (fun x => x.part == p.id.val)
  l.all (fun x => decide (x.part < 32) && decide (1 ≤ x.refill.toNat) && x.vfs.all (fun v => decide (v ≤ 96) && vfMoves s x.part v && streamsMove s x v))
    && apartAll (l.map (fun x => x.vfs))
    && l.all (fun x => !x.keys.contains 0) && apartAll (l.map (fun x => x.keys) ++ (s.parts.filter other).map (fun p => p.keys))
    && l.all (fun x => x.pads.all (fun g => decide (nodeOf (g * 65536) < 4) && isDiePad (g * 65536) && !Config.workPage g))
    && apartAll (l.map (fun x => x.pads) ++ (s.parts.filter other).map (fun p => p.padPages))
    && l.all (fun x => x.homes.all (fun d => decide (d < 4)))
    && l.all (fun x => x.vfKeys.all (fun k => x.vfs.contains k.1 && x.keys.contains k.2 && (s.vf k.1).tdi == .unlocked
      && !s.vfs.any (fun v => v.vf != k.1 && v.key == some k.2)))
    && l.all (fun x => decide (4 ≤ x.walkMin) && decide (x.walkMin ≤ x.walkMax) && decide (x.walkMax ≤ 128))
    && decide ((l.map (fun x => x.walkMin) ++ (s.parts.filter other).map (fun p => p.walkMin)).foldl (· + ·) 0 ≤ 512)

/-- A key identity gets a new key, or loses the one that it had: what was written under it stays ciphertext (R260, R261). -/
def newKey (s : State) (k : BitVec 7) : State :=
  let n := ((s.keyGens.find? (fun g => g.1 == k.toNat)).map Prod.snd).getD 0
  { s with keyGens := putWhere (fun g => g.1 == k.toNat) (k.toNat, n + 1) s.keyGens }

/-- One partition's settings (R243, R244, R257, R260, R303); bind records of its functions' queues name it (R248). -/
def setPartition (s : State) (x : PartSetting) : State :=
  let id : Fin 32 := Fin.ofNat 32 x.part
  let p := s.part id
  let scopes := if p.scopes.isEmpty then [({ num := 0, gen := 1, state := .opened, kind := .root } : Scope)] else p.scopes
  let s := s.setPart { p with
    tag := x.tag, refill := x.refill, keys := x.keys, padPages := x.pads, homes := x.homes, walkMin := x.walkMin, walkMax := x.walkMax, scopes }
  let s := x.vfs.foldl (fun s v => s.setVf { s.vf v with part := id }) s
  let s := x.vfKeys.foldl (fun s k => (newKey s k.2).setVf { (newKey s k.2).vf k.1 with key := some k.2 }) s
  let s := mapBinds s (fun b => if b.v && x.vfs.contains b.vf.toNat then { b with part := BitVec.ofNat 5 id.val } else b)
  { s with ctxs := s.ctxs.map (fun c => if x.vfs.contains c.vf then { c with part := id } else c) }

/-- A partition whose memory another die homes has its share there (R252, R253). -/
def homesOk (s : State) (die : Nat) (l : List PartSetting) : Bool :=
  l.all (fun x => x.homes.all (fun d => d == die || shareOk (dieRing s d) (dieWays s d) x.part))

/-- PARTITION_MAP_CHANGE (R243, R244, R252, R253, R259, R263): a map that the Hearth can not build is refused. -/
def changeMap (die : Nat) (ring : List Byte) (ways : List (Nat × Nat × BitVec 16)) (allowed : List (Nat × List Half))
    (parts : List PartSetting) (s : State) : State :=
  if s.bootFail == 0 && decide (die < 4) && ringOk ring && waysOk ways && (dieTenants s die parts).all (shareOk ring ways) && homesOk s die parts
      && allowed.all (fun a => decide (a.1 < 48) && decide (a.2.length ≤ 64)) && settingsOk s parts then
    let s : State := { s with
      rings := s.rings.set (Fin.ofNat 4 die) (Vector.ofFn (fun i => nth ring i.val 0x80))
      ways := s.ways.filter (fun w => w.1 != die) ++ ways.map (fun w => (die, w)) }
    let s := allowed.foldl (fun (s : State) a =>
      let k : Fin 48 := Fin.ofNat 48 a.1
      { s with ports := s.ports.set k { s.ports[k] with allowed := a.2 } }) s
    parts.foldl setPartition s
  else s

def execPartitionMapChange (die : Nat) (ring : List Byte) (ways : List (Nat × Nat × BitVec 16)) (allowed : List (Nat × List Half))
    (parts : List PartSetting) (s : State) : Host.Outcome State Fault Refusal :=
  event s (changeMap die ring ways allowed parts)

-- Clusters and cells.
/-- CLUSTER_MOVE (R243, R292): the Hearth takes the cluster's units back, and moves it once none is on it. A unit in service keeps its seat (R285), and a
halted one too (R221): DEDUCED, log 76. -/
def moveCluster (cluster part : Nat) (s : State) : State :=
  let id := s.seat.id
  let p : Fin 32 := Fin.ofNat 32 part
  if s.bootFail == 0 && decide (cluster < 256) && decide (cluster % 64 < 40) && decide (part < 32) && s.partOf cluster != p
      && shareOk (dieRing s (cluster / 64)) (dieWays s (cluster / 64)) part then
    let out := s.seats.filter (fun t => clusOf t.id == cluster && t.status == .running)
    let s := out.foldl (fun s t => preempt (s.select t.id) none false) s
    let s := s.select id
    if s.seats.any (fun t => clusOf t.id == cluster) then s
    else
      let s : State := { s with
        owned := s.owned.filter (fun x => x.1 != cluster) ++ (if part == 0 then [] else [(cluster, p)]) }
      if s.parts.any (fun x => x.id == p) then s
      else s.setPart { s.part p with scopes := [{ num := 0, gen := 1, state := .opened, kind := .root }] }
  else s

def execClusterMove (cluster part : Nat) (s : State) : Host.Outcome State Fault Refusal := event s (moveCluster cluster part)

/-- CELL_RETIREMENT (R17, R21): no unit is placed on the cell any more, and its seats ask for no lease. -/
def retireCell (cell : Nat) (s : State) : State :=
  if s.bootFail == 0 && decide (cell < 1024) && decide (cell / 4 % 64 < 40) then
    let s := s.setCell { s.cell cell with retired := true }
    let a := s.anvil (cell / 4)
    if a.reqs.any (fun r => cellOf r == cell) then s.setAnvil (cell / 4) { a with reqs := a.reqs.filter (fun r => cellOf r != cell) } else s
  else s

def execCellRetirement (cell : Nat) (s : State) : Host.Outcome State Fault Refusal := event s (retireCell cell)

/-- ATOMIC_LANDING (R114): the oldest issued atomic of the seat at hand. -/
def execAtomicLanding (s : State) : Host.Outcome State Fault Refusal :=
  event s (fun s => match s.seat.atoms with
    | [] => s
    | a :: _ => withTokens a.lsn (landBytes s.seat a) (fun s => landAtom s a) s)

/-- HALT_RESUME (R221). -/
def execHaltResume (s : State) : Host.Outcome State Fault Refusal :=
  event s (fun s => if s.seat.status == .halted then s.onSeat (fun t => { t with status := .running }) else s)

/-- HEARTH_STATE_DAMAGE (R289): the partitions that used the damaged state are reset. -/
def execHearthStateDamage (parts : List Nat) (s : State) : Host.Outcome State Fault Refusal :=
  event s (fun s => (parts.filter (fun p => decide (p < 32))).foldl (fun s p => resetPartition s (Fin.ofNat 32 p)) s)

-- Pins and tests.
/-- Units of a queue's jobs are those of a pinned slot, or not (R249, R251): of any slot that holds the queue (R248). -/
def markPinned (s : State) (b : Bind) : State :=
  let pin := s.queuePinned b.vf.toNat b.qnum.toNat
  let mine (u : UnitRec) : Bool := s.jobs.any (fun j => j.vf == b.vf.toNat && j.q == b.qnum.toNat && j.has s u)
  let mark (u : UnitRec) : UnitRec := if mine u then { u with pinned := pin } else u
  let s' : State := s.mapSeats (fun t => if t.status == .vacant then t else { t with unit := mark t.unit })
  { s' with
    saved := s.saved.map (fun x => { x with seat := { x.seat with unit := mark x.seat.unit } })
    parts := s.parts.map (fun p => { p with entries := p.entries.map (fun e => { e with unit := mark e.unit }) }) }

/-- PIN_REQUEST (R249): at most 48 slots of a die are pinned. -/
def pinSlot (die slot : Nat) (pin : Bool) (s : State) : State :=
  let b := s.bind die slot
  let others := ((List.range 64).filter (fun k => k != slot && (s.bind die k).pin)).length
  if decide (die < 4) && decide (slot < 64) && b.v && (!pin || decide (others < 48)) then
    markPinned (s.setBind die slot { b with pin }) b
  else s

def execPinRequest (die slot : Nat) (pin : Bool) (s : State) : Host.Outcome State Fault Refusal := event s (pinSlot die slot pin)

/-- TEST_REQUEST (R265): CTM while the request stands, or until the first job after a reset is done. -/
def execTestRequest (part : Nat) (on : Bool) (s : State) : Host.Outcome State Fault Refusal :=
  event s (fun s =>
    if s.bootFail == 0 && decide (part < 32) then
      let p := s.part (Fin.ofNat 32 part)
      s.setPart { p with testReq := on, ctm := on || p.firstJob }
    else s)

end Sys2Proof.Machine
end

