-- ==== Sys2Proof/Machine/Matrix.lean ====
section
/-! DEFINITION. The matrix engine's words (R169-R179). -/

namespace Sys2Proof.Machine

/-- A matrix-engine word: horizon-bound (R31). -/
def matrixWord (s : State) (m : M Unit) : Host.Outcome State Fault Refusal := word .m true s m

/-- NO_LEASE unless the seat is leased (R169, R171). -/
def mLeased : M Unit := fun s => if s.seat.ls then .ok ((), s) else .error (.fault { code := FC.noLease })

/-- A command may start: the seat holds the lease and the run has a command left that no resolved one will take. Else the word
waits, in the state `s0` with a request (R171). -/
def mStart (s0 : State) : M Unit := fun s =>
  let a := s.anvil s.here
  if a.holder == some s.seat.id then
    if unstarted s.seat < a.left then .ok ((), s) else .error (.wait .lease)
  else .error (.waitIn .lease (request s0))

/-- MLEASE (R170): a run that the seat has ends as MYIELD ends it; then the word waits for a new one. -/
def execMlease (w : BitVec 17) (s : State) : Host.Outcome State Fault Refusal :=
  matrixWord s (do
    mModSeat (fun t => { t with bud := if w == 0 then 32 else w })
    let t ← mSeat
    if t.ls then do
      mNeeds t.mq.isEmpty .matrix
      mMod (fun s => (dropLease s).onSeat (fun t => { t with ls := false }))
    else pure ()
    let s ← get
    if (s.anvil s.here).holder == some s.seat.id then mModSeat (fun t => { t with ls := true })
    else fun s => .error (.waitIn .lease (request s)))

/-- MYIELD (R171). -/
def execMyield (s : State) : Host.Outcome State Fault Refusal :=
  matrixWord s (
    if s.seat.ls then do
      mNeeds s.seat.mq.isEmpty .matrix
      mMod (fun s => (dropLease s).onSeat (fun t => { t with ls := false }))
    else pure ())

-- MLDB (R172, R173).
/-- The slot type of an object's format, or none where MLDB refuses it (R173). -/
def slotTypeOf (f : FCode) : Option SlotTy :=
  match f.toNat with
  | 1 | 2 | 3 | 4 | 5 | 6 | 7 => some .float
  | 12 => some .int8
  | 13 => some .int4
  | _ => none

/-- Elements and bytes of a block of a format with scales; 1 where there is none (R50, R51). -/
def blockLen (f : FCode) : Nat × Nat := if f == 7 then (64, 32) else if f == 5 then (32, 32) else if f == 6 then (32, 16) else (1, 1)

/-- DECODE of R173. -/
def slotNum (f : FCode) (x sc sup : Nat) : Num :=
  if f == 12 || f == 13 then .fin false x 0
  else if f == 7 then qn4Num x sc sup
  else if f == 5 then mxNum e4m3 x sc
  else if f == 6 then mxNum e2m1 x sc
  else decodeF ((layoutOf f).getD fp32) x

/-- The formats under which elements lie, up to the first that can not be reached. -/
def placeFmts (o : List Dword) (l : List (Dword × Nat)) : M (List FCode) :=
  match l with
  | [] => pure []
  | x :: rest => do
    let w := widthOf (obFmt o)
    let n := if w < 8 then 1 else w / 8
    let q ← tryRun (do
      liftRun (elementCheck o x.1 n false)
      locate x.1 n .read)
    match q with
    | .error _ => pure []
    | .ok p => do
      let more ← placeFmts o rest
      pure (p.map (fun p => p.1.fmt) ++ more)

/-- A decode block whose elements lie under unlike formats is a seam (R173, R278). -/
def blockSeam (o : List Dword) (l : List (Dword × Nat)) : M Unit := do
  let fs ← placeFmts o l
  match fs.eraseDups, l with
  | f :: g :: _, x :: _ => mFault FC.seam x.1 (f.setWidth 8 ||| (g.setWidth 8 <<< 4))
  | _, _ => pure ()

/-- The elements of one block of a column that starts at `row`, each with its own scales (R52, R173). -/
def slotBlock (l : Lsn) (v : View) (o : List Dword) (row : Dword) (b : Nat) : M (List Num) := do
  let f := obFmt o
  let n := (blockLen f).1
  let places := (List.range n).map (fun j => elemPlace o row (n * b + j))
  blockSeam o places
  mMap places (fun p => do
    let x ← readElem l v o p
    let (sc, sup) ← (if hasScales f then scalesAt l v f p.1 else pure (0, 0))
    pure (slotNum f x sc sup))

def numZero : Num → Bool
  | .fin _ m _ => m == 0
  | .nan | .inf _ => false

/-- Column `n` of a slot, without its zeros (R173). -/
def slotColumn (l : Lsn) (v : View) (o : List Dword) (off : Dword) (n : Nat) : M (List (Nat × Num)) := do
  let row := obBase o + off + BitVec.ofNat 64 n * obStr o 1
  let blocks ← mMap (List.range (obExt o 0 / (blockLen (obFmt o)).1)) (slotBlock l v o row)
  pure (((List.range 256).zip blocks.flatten).filterMap (fun p => if numZero p.2 then none else some (256 * n + p.1, p.2)))

/-- The extents and the first block that R173 accepts. -/
def mldbOk (o : List Dword) (off : Dword) : Bool :=
  let (n, bytes) := blockLen (obFmt o)
  (slotTypeOf (obFmt o)).isSome && decide (obExt o 0 ≤ 256) && decide (obExt o 1 ≤ 256) && obExt o 0 % n == 0
    && (obBase o + off).toNat % bytes == 0

/-- A slot number that is reserved for another saved unit (R300). -/
def slotReserved (a : Anvil) (uid k : Nat) : Bool := a.resv.any (fun r => r.1 != uid && r.2.2.contains k)

def execMldb (d a b : BitVec 6) (s : State) : Host.Outcome State Fault Refusal :=
  matrixWord s (do
    mLeased
    let (x, ka) ← getX .m a
    let (off, kb) ← getX .m b
    let o ← objectRef x
    mOperand .m (mldbOk o off)
    let k : Fin 4 := Fin.ofNat 4 d.toNat
    let an := s.anvil s.here
    let owner := an.slots[k].owner
    mNeeds ((owner == none || owner == some s.seat.id) && !slotReserved an s.seat.unit.uid k.val) .slot
    mNeeds (!s.seat.mq.any (fun c => c.slot == k)) .matrix
    mStart s
    let l ← myLsn .m
    let far ← farElement o ((List.range (obExt o 1)).flatMap (fun n => (List.range (obExt o 0)).map (fun k =>
      elemPlace o (obBase o + off + BitVec.ofNat 64 n * obStr o 1) k)))
    askGate .m far
    let cols ← mMap (List.range (obExt o 1)) (slotColumn l { coherent := (ka ||| kb) != 0 } o off)
    mMod (fun s =>
      let a := s.anvil s.here
      s.setAnvil s.here { a with
        left := a.left - 1
        slots := a.slots.set k { owner := some s.seat.id, ty := (slotTypeOf (obFmt o)).getD .float, elems := cols.flatten } }))

-- MMUL and MMULG (R174-R176).
def floatTag (t : FCode) : Bool := t == 1 || t == 3 || t == 4 || t == 5 || t == 6
def intSlot : SlotTy → Bool
  | .float => false
  | .int8 | .int4 => true

/-- Check 2 of R175. -/
def classOk (s : State) (tag : FCode) (slot : Fin 4) (asg bsg hi : Bool) : Bool :=
  let x := (s.anvil s.here).slots[slot]
  (floatTag tag || isIntTag tag) && !(floatTag tag && (asg || bsg)) && !(hi && (tag == 1 || tag == 5 || tag == 6))
    && (x.owner != some s.seat.id || intSlot x.ty == isIntTag tag)

/-- The slot is the seat's (R172). -/
def mSlotOwned (slot : Fin 4) : M Unit := fun s =>
  if (s.anvil s.here).slots[slot].owner == some s.seat.id then .ok ((), s)
  else .error (.fault { code := FC.bank, aux := 0x40 + BitVec.ofNat 8 slot.val })

def bankTyOf (int : Bool) : BankTy := if int then .int32 else .fp32

/-- A bank that a command of the seat may write (R175, check 3). -/
def bankOk (s : State) (acc int : Bool) (n : Nat) : Bool :=
  match (s.anvil s.here).banks[n]? with
  | none => false
  | some b => b.owner == some s.seat.id && (!acc || b.ty == .clear || b.ty == bankTyOf int)

/-- BANK_STATE at the first bank that fails (R278). -/
def mBanks (ok : State → Nat → Bool) (l : List Nat) : M Unit :=
  mEach l (fun n s => if ok s n then .ok ((), s) else .error (.fault { code := FC.bank, aux := BitVec.ofNat 8 n }))

/-- The banks named, in ascending order. -/
def banksOf (first : Nat) (pairs : List (Nat × Nat)) : List Nat :=
  (List.range (first + 33)).filter (fun n => pairs.any (fun p => first + p.2 / 8 == n))

/-- A command resolves (R175): its banks take its type, and it enters the matrix queue, which holds four (R294). -/
def resolveCmd (c : MCmd) (s : State) : State :=
  let a := s.anvil s.here
  let a := (banksOf c.bank c.pairs).foldl (fun a n => a.setBank n { (a.banks[n]?.getD {}) with ty := bankTyOf (isIntTag c.tag) }) a
  startHead ((s.setAnvil s.here a).onSeat (fun t => { t with mq := t.mq ++ [c] }))

/-- The named rows are full, none is poisoned, and the queue has room; then the lease (R171, R175, R294). -/
def mCommandReady (s0 : State) (tile : Fin 8) (rows : List Nat) : M Unit := do
  let t ← mSeat
  let l ← myLsn .m
  mNeeds (rows.all (fun r => t.rowFull l tile (Fin.ofNat 32 r))) .tile
  mEach rows (fun r => do let _ ← mRow tile (Fin.ofNat 32 r))
  mNeeds (decide (t.mq.length < 4)) .matrix
  mStart s0

def execMmul (d a : BitVec 6) (h : Bool) (k : BitVec 3) (m : BitVec 2) (y x c : Bool) (r : BitVec 2) (s : State) :
    Host.Outcome State Fault Refusal :=
  matrixWord s (do
    mLeased
    let tile : Fin 8 := Fin.ofNat 8 a.toNat
    let slot := m.toFin
    let tag := s.seat.tiles[tile].tag
    mOperand .m (classOk s tag slot x y h)
    mSlotOwned slot
    let pairs := (List.range (8 * (r.toNat + 1))).map (fun i => (i, i))
    mBanks (fun s n => bankOk s c (isIntTag tag) n) (banksOf d.toNat pairs)
    mCommandReady s tile (pairs.map Prod.fst)
    let l ← myLsn .m
    mMod (resolveCmd { lsn := l, bank := d.toNat, tile, slot, pairs, kb := k.toNat + 1, acc := c, asg := x, bsg := y, hi := h
                       tag, lr := s.seat.engM.side.lr }))

/-- Pops the entries of the index port up to the first with LAST (R176). The fuel bounds the entries of a port. -/
def popIndices (q : Fin 16) : Nat → M (List W32 × Taint)
  | 0 => mWait .portEmpty
  | n + 1 => do
    let x ← popPort .m q
    if x.last then pure (entryIndices x, x.taint)
    else do
      let (rest, k) ← popIndices q n
      pure (entryIndices x ++ rest, k ||| x.taint)

def execMmulg (d a : BitVec 6) (m : BitVec 2) (q : BitVec 4) (y x c : Bool) (k : BitVec 2) (s : State) :
    Host.Outcome State Fault Refusal :=
  matrixWord s (do
    mLeased
    let tile : Fin 8 := Fin.ofNat 8 a.toNat
    let slot := m.toFin
    let tag := s.seat.tiles[tile].tag
    mOperand .m (classOk s tag slot x y false && decide (q.toNat ≤ 9))
    let (ix, idxT) ← popIndices q.toFin 9
    mOperand .m (decide (ix.length ≤ 32) && ix.all (fun w => w.extractLsb' 13 19 == 0))
    mSlotOwned slot
    let pairs := ix.map (fun w => ((w.extractLsb' 0 5).toNat, (w.extractLsb' 5 8).toNat))
    mBanks (fun s n => bankOk s c (isIntTag tag) n) (banksOf d.toNat pairs)
    mCommandReady s tile (pairs.map Prod.fst)
    let l ← myLsn .m
    mMod (resolveCmd { lsn := l, bank := d.toNat, tile, slot, pairs, kb := pow2 k.toNat, acc := c, asg := x, bsg := y, hi := false
                       tag, idxT, lr := s.seat.engM.side.lr }))

-- Banks (R177).
/-- The banks of a run, which may not pass ab63 (R79). -/
def mRun (d : BitVec 6) (c : Nat) : M (List Nat) := do
  mCheck (decide (d.toNat + c ≤ 64)) FC.bank 0 64
  pure ((List.range c).map (fun i => d.toNat + i))

def bankOf (s : State) (n : Nat) : Bank := ((s.anvil s.here).banks[n]?).getD {}
def ownsBank (s : State) (n : Nat) : Bool := (bankOf s n).owner == some s.seat.id

/-- Requests that are waited for: older ones whose runs overlap (R177). -/
def olderAllocs (id : SeatId) (d c : Nat) : List (SeatId × Nat × Nat) → Bool
  | [] => false
  | r :: rest => if r.1 == id then false else (decide (r.2.1 < d + c) && decide (d < r.2.1 + r.2.2)) || olderAllocs id d c rest

/-- The banks can be taken: allocated to no seat, reserved for no other saved unit (R300), and no older request overlaps. -/
def banksFree (s : State) (d c : Nat) : Bool :=
  let a := s.anvil s.here
  (List.range c).all (fun i => (bankOf s (d + i)).owner.isNone
      && !a.resv.any (fun r => r.1 != s.seat.unit.uid && r.2.1.contains (d + i)))
    && !olderAllocs s.seat.id d c a.allocs

/-- The request is listed, in the order of arrival. -/
def askBanks (d c : Nat) (s : State) : State :=
  let a := s.anvil s.here
  if a.allocs.any (fun r => r.1 == s.seat.id) then s else s.setAnvil s.here { a with allocs := a.allocs ++ [(s.seat.id, d, c)] }

/-- The banks are taken: zero, clear, with the seat's cell as drain owner and no taint (R177). -/
def takeBanks (d c : Nat) (s : State) : State :=
  let a := s.anvil s.here
  let a := (List.range c).foldl (fun a i => a.setBank (d + i) { owner := some s.seat.id, cell := cellOf s.seat.id }) a
  s.setAnvil s.here { a with allocs := a.allocs.filter (fun r => r.1 != s.seat.id) }

def execAballoc (d : BitVec 6) (cnt : BitVec 11) (s : State) : Host.Outcome State Fault Refusal :=
  matrixWord s (do
    let l ← mRun d cnt.toNat
    mBanks (fun s n => !ownsBank s n) l
    if banksFree s d.toNat cnt.toNat then mMod (takeBanks d.toNat cnt.toNat)
    else fun s => .error (.waitIn .alloc (askBanks d.toNat cnt.toNat s)))

/-- A drain of the cluster that has executed has still to read one of the banks (R177, R181). -/
def drainReads (l : List Nat) (s : State) : Bool :=
  s.seats.any (fun t => clusOf t.id == s.here && (match t.drain with
    | some d => d.live && l.contains d.num
    | none => false))

/-- Commands of the seat on the banks have completed, and drains that have executed have read them (R177, R180). -/
def mBanksIdle (l : List Nat) : M Unit := fun s =>
  if s.seat.mq.any (fun c => (banksOf c.bank c.pairs).any l.contains) then .error (.wait .matrix)
  else if drainReads l s then .error (.wait .drain)
  else .ok ((), s)

def freeBanks (l : List Nat) (s : State) : State :=
  s.setAnvil s.here (l.foldl (fun a n => a.setBank n {}) (s.anvil s.here))

def execAbfree (d : BitVec 6) (cnt : BitVec 11) (s : State) : Host.Outcome State Fault Refusal :=
  matrixWord s (do
    let l ← mRun d cnt.toNat
    mBanks ownsBank l
    mBanksIdle l
    mMod (freeBanks l))

/-- The banks' drain owner is a cell of the cluster (R177). -/
def ownBanks (l : List Nat) (cell : Nat) (s : State) : State :=
  s.setAnvil s.here (l.foldl (fun a n => a.setBank n { (a.banks[n]?.getD {}) with cell := 4 * s.here + cell }) (s.anvil s.here))

def execAbown (d a b : BitVec 6) (s : State) : Host.Outcome State Fault Refusal :=
  matrixWord s (do
    let l ← mRun d (a.toNat + 1)
    mBanks ownsBank l
    mMod (ownBanks l b.toNat))

/-- MRESUME (R179): the stopped command, which heads the matrix queue, runs to its end. -/
def execMresume (s : State) : Host.Outcome State Fault Refusal :=
  matrixWord s (
    match s.seat.mq with
    | [] => pure ()
    | c :: _ =>
      if s.seat.mstop.v && c.lsn == s.seat.mstop.lsn then do
        mLeased
        if c.started then mMod (fun s => startHead (finishCmd s c))
        else do
          let a := s.anvil s.here
          if a.holder == some s.seat.id then do
            mNeeds (decide (0 < a.left)) .lease
            mMod startHead
            mMod (fun s => startHead (finishCmd s c))
          else fun s => .error (.waitIn .lease (request s))
      else pure ())

end Sys2Proof.Machine
end

