-- ==== Sys2Proof/Machine/WriteBack.lean ====
section
/-! DEFINITION. The write-back engine's words and the drain (R62, R63, R184-R191). -/

namespace Sys2Proof.Machine

/-- A write-back-engine word: horizon-bound (R31). -/
def backWord (s : State) (m : M Unit) : Host.Outcome State Fault Refusal := word .w true s m

/-- A port that the write-back engine may pop as its source: q10-q15 (R70). -/
def mOutPort (q : BitVec 6) : M (Fin 16) := do
  mOperand .w (decide (10 ≤ q.toNat) && decide (q.toNat ≤ 15))
  pure (Fin.ofNat 16 q.toNat)

/-- Bytes of an element as it is written: an INT4 or other 4-bit element by nibble (R188). -/
def elemWrite (o : List Dword) (at_ : Dword × Nat) (x : Nat) : M (List WByte) := do
  let w := widthOf (obFmt o)
  let pieces ← elemPieces o at_.1 true
  writeGate .w pieces
  if w < 8 then
    pure ((wbytes pieces [BitVec.ofNat 8 (x <<< (4 * at_.2))]).map (fun b => { b with mask := if at_.2 == 0 then 0x0F else 0xF0 }))
  else pure (wbytes pieces (bytesOf (BitVec.ofNat 32 x) (w / 8)))

-- STV (R189).
/-- Formats that STV refuses: MX, QN4 and the scale pages; ZM is refused by every plain store (R54, R189). -/
def stvRefused (f : FCode) : Bool := decide (5 ≤ f.toNat) && decide (f.toNat ≤ 11)

/-- STV (R189). FAUX of its own FORMAT_MISMATCH names no needed format (DESIGN CHOICE, log 112: R278 gives none). -/
def execStv (d a b : BitVec 6) (c : StClass) (s : State) : Host.Outcome State Fault Refusal :=
  backWord s (do
    let q ← mOutPort d
    let (x, _) ← getX .w a
    let (y, _) ← getX .w b
    let va := x + y
    let e ← peek (popPort .w q)
    mCheck (va.toNat % 64 == 0) FC.align va 0
    let n := ceilDiv (e.vcnt * widthOf e.fmt) 8
    let pieces ← locate va n .write
    mEach pieces (fun (p, at_, _) => mCheck (!stvRefused p.fmt) FC.format at_ (p.fmt.setWidth 8))
    let l ← myLsn .w
    storeGate .w l (c == .syRel) pieces
    let e ← popPort .w q
    capture .w l c (wbytes pieces (bytesOf e.data n)) (pieces.any (fun p => farHome p.1.key)))

-- WSTRM (R190).
/-- The elements of an entry at a width (R186, R190). -/
def entryElems (e : PortEntry) (w : Nat) : List Nat :=
  (List.range (e.vcnt * widthOf e.fmt / w)).map (elemAt e.data.toNat w)

/-- Writes the positions of a walk in order (R190): `have_` are the elements of the entry at hand, `last` tells that it has
LAST, `fresh` that none has been taken. -/
def walkWrite (q : Fin 16) (k : StreamKind) (o : List Dword) (off : Dword) (l : List Nat) (have_ : List Nat) (last fresh : Bool) :
    M (List WByte) :=
  match l with
  | [] => pure []
  | i :: rest => do
    let newRow := k == .row && i % dimExt o 0 == 0
    let put (x : Nat) (xs : List Nat) (last : Bool) : M (List WByte) := do
      let b ← elemWrite o (walkPlace o off i) x
      let more ← walkWrite q k o off rest xs last false
      pure (b ++ more)
    let rec next (fuel : Nat) : M (List WByte) := do
      match fuel with
      | 0 => mWait .portEmpty
      | fuel + 1 =>
        let e ← popPort .w q
        match entryElems e (widthOf (obFmt o)) with
        | x :: xs => put x xs e.last
        | [] => if e.last then pure [] else next fuel
    match have_ with
    | x :: xs => if newRow && !fresh then (if last then pure [] else next 9) else put x xs last
    | [] => if last then pure [] else next 9

def execWstrm (d a b : BitVec 6) (k : StreamKind) (s : State) : Host.Outcome State Fault Refusal :=
  backWord s (do
    let q ← mOutPort d
    let (x, _) ← getX .w a
    let (off, _) ← getX .w b
    let o ← objectRef x
    mOperand .w (tileFmt (obFmt o))
    let l ← myLsn .w
    let out ← walkWrite q k o off (List.range (walkTotal o)) [] false true
    capture .w l .plain out)

-- STT (R191).
/-- Element `i` of a row; the spec gives none past the row's 512 bytes, and its value is free (log 20). -/
def rowElem (data : Vec) (w i : Nat) : M Nat :=
  if (i + 1) * w ≤ 4096 then pure (elemAt data.toNat w i)
  else do
    let n ← mPick
    pure (n % pow2 w)

/-- The stores of row j (R191). -/
def sttRow (o : List Dword) (off : Dword) (tag : FCode) (j : Nat) (row : Row) : M (List WByte) := do
  let base := obBase o + off + BitVec.ofNat 64 j * obStr o 1
  let bytes ← mMap (List.range (obExt o 0)) (fun i => do
    let v ← rowElem row.data (widthOf tag) i
    elemWrite o (elemPlace o base i) v)
  pure bytes.flatten

def execStt (d a b : BitVec 6) (r : BitVec 2) (s : State) : Host.Outcome State Fault Refusal :=
  backWord s (do
    let k : Fin 8 := Fin.ofNat 8 d.toNat
    let rows := (List.range (8 * (r.toNat + 1))).map (fun j => Fin.ofNat 32 j)
    let (x, _) ← getX .w a
    let (off, _) ← getX .w b
    let o ← objectRef x
    let tag := s.seat.tiles[k].tag
    mOperand .w (obFmt o == tag && !(tag == 5 || tag == 6))
    let l ← myLsn .w
    mNeeds (rows.all (fun j => s.seat.rowFull l k j)) .tile
    let data ← mMap rows (mRow k)
    let out ← mMap ((List.range rows.length).zip data) (fun x => sttRow o off tag x.1 x.2)
    capture .w l .plain out.flatten
    if s.seat.engW.side.lr then mModSeat (takeRows .w k l rows) else pure ())

-- DCFG (R184, R185).
def dregBits : DReg → Nat
  | .seed | .keepscale | .outscale | .rowbase | .colbase => 32
  | .thresh => 17
  | .outfmt => 4
  | .colcount => 9
  | .dest => 16

/-- A value in a register's range. -/
def dregOk (r : DReg) (x : Nat) : Bool :=
  decide (x < pow2 (dregBits r)) &&
  match r with
  | .thresh => decide (x ≤ 65536)
  | .outfmt => decide (1 ≤ x ∧ x ≤ 4) || x == 12 || x == 13
  | .colcount => decide (1 ≤ x ∧ x ≤ 256)
  | .seed | .keepscale | .outscale | .rowbase | .colbase | .dest => true

def Dcfg.write (c : Dcfg) (r : DReg) (x : Nat) : Dcfg :=
  match r with
  | .seed => { c with seed := BitVec.ofNat 32 x }
  | .thresh => { c with thresh := BitVec.ofNat 17 x }
  | .keepscale => { c with keepscale := BitVec.ofNat 32 x }
  | .outscale => { c with outscale := BitVec.ofNat 32 x }
  | .outfmt => { c with outfmt := BitVec.ofNat 4 x }
  | .rowbase => { c with rowbase := BitVec.ofNat 32 x }
  | .colbase => { c with colbase := BitVec.ofNat 32 x }
  | .colcount => { c with colcount := BitVec.ofNat 9 x }
  | .dest => { c with dest := BitVec.ofNat 16 x }

def mDcfg (r : DReg) (x : Nat) : M Unit := do
  mOperand .w (dregOk r x)
  mModSeat (fun t => { t with dcfg := t.dcfg.write r x })

def execDcfg (r : DReg) (w : BitVec 17) (s : State) : Host.Outcome State Fault Refusal := backWord s (mDcfg r w.toNat)

def execDcfgRegister (r : DReg) (x : BitVec 4) (s : State) : Host.Outcome State Fault Refusal :=
  backWord s (do
    let (v, _) ← getX .w (x.setWidth 6)
    mDcfg r (v.toNat % pow2 (dregBits r)))

-- DRN (R62, R186-R188).
/-- RNE_FP32 of an exact value. -/
def round32 (n : Num) : Num := decodeF fp32 (numToF fp32 .rne n)

/-- A residual element as a value: integers are signed (R186). -/
def residualNum (f : FCode) (x : Nat) : Num :=
  match layoutOf f with
  | some lay => decodeF lay x
  | none => numOfInt (signedOf (widthOf f) x)

/-- The drain's steps for one element (R62): the bank word's type and bits, and the residual element's bits. -/
def drainElem (c : Dcfg) (sc dr : Bool) (int : Bool) (word : Nat) (res : Option Nat) (row col : Nat) : Nat :=
  let v : Num := if int then numOfInt (signedOf 32 word) else decodeF fp32 word
  let v := if sc then round32 (numMul v (decodeF fp32 c.outscale.toNat)) else v
  let v := if dr then
      (if keepTest c.seed (c.rowbase + BitVec.ofNat 32 row) (c.colbase + BitVec.ofNat 32 col) c.thresh.toNat then
        round32 (numMul v (decodeF fp32 c.keepscale.toNat)) else .fin false 0 0) else v
  let v := match res with
    | some r => round32 (numAdd v (round32 (residualNum c.outfmt r)))
    | none => v
  convertOut c.outfmt v

/-- A bank row as a drain reads it: each word some value that it has held since the DRN executed (R181), with the taints and the damage of
all of them. -/
def readRow (d : Drain) (r : Fin 8) : M (List Nat × Taint × Byte) := do
  let words ← mMap (List.range 256) (fun j => do
    match (d.seen.map (fun x => elemAt x.rows[r].toNat 32 j)).eraseDups with
    | [] => pure 0
    | [w] => pure w
    | l => do
      let k ← mPick
      pure (nth l (k % l.length) 0))
  pure (words, d.seen.foldl (fun k b => k ||| b.taint[r]) 0, d.seen.foldl (fun (k : Byte) b => if k == 0 then b.bad[r] else k) 0)

/-- The type by which a drain takes the words that it reads: INT32 if any of the bank's contents that it has met was (DESIGN CHOICE, log 128: R62 and
R181 do not say how a drain reads a bank whose type another seat's command changes meanwhile). -/
def Drain.isInt (d : Drain) : Bool := d.seen.any (fun b => b.ty == .int32)

/-- One row of a drain: the outputs and their taint. The residual is popped when there is one (R186). Damage names its structure
(R278, R290). -/
def drainRow (d : Drain) : M (List Nat × Taint) := do
  let t ← mSeat
  let c := t.dcfg
  let (res, k) ← (match d.res with
    | none => pure (none, (0 : Taint))
    | some q => do
      let e ← popPort .w (Fin.ofNat 16 q)
      pure (some (entryElems e (widthOf c.outfmt)), e.taint))
  let (words, kb, bad) ← readRow d (Fin.ofNat 8 d.row)
  mCheck (bad == 0) FC.soft 0 bad
  pure ((List.range c.colcount.toNat).map (fun j =>
    drainElem c d.sc d.dr d.isInt (nth words j 0) (res.map (fun l => nth l j 0)) d.row j), kb ||| k)

/-- A command writes bank `n`. -/
def MCmd.writes (c : MCmd) (n : Nat) : Bool := c.pairs.any (fun p => c.bank + p.2 / 8 == n)

/-- The commands of seat `id` go on for a free number of steps, one after another as the lease allows, while one of those that are left writes bank `n`.
A direct DRN reads in the one step of its word, so it
meets queued commands alone (DEDUCED, log 42). The fuel is the number of commands. -/
def goAhead (n : Nat) (id : SeatId) : Nat → M Unit
  | 0 => pure ()
  | fuel + 1 => do
    let s ← get
    match (s.select id).seat.mq with
    | [] => pure ()
    | c :: rest =>
      if c.started && (c :: rest).any (fun x => x.writes n) then do
        let k ← mPick
        let left := cmdLeft c
        let k := k % (left.length + 2)
        if k ≤ left.length then
          mMod (fun s =>
            let me := s.seat.id
            let u := (left.take k).foldl (cmdStep c) (s.select id)
            let done := c.row * c.kb + c.blk + k
            (u.onSeat (fun t => { t with mq := t.mq.map (fun x => if x.lsn == c.lsn then { x with row := done / c.kb, blk := done % c.kb } else x) })).select me)
        else do
          mMod (fun s => (startHead (finishCmd (s.select id) c)).select s.seat.id)
          goAhead n id fuel
      else pure ()

/-- The commands that another seat of the cluster runs on a bank go on while a drain reads the bank; the drain finds what each step
leaves (R181). -/
def othersWrite (n : Nat) : M Unit := do
  let s ← get
  match (((s.anvil s.here).banks[n]?).getD {}).owner with
  | none => pure ()
  | some id => if id == s.seat.id then pure () else goAhead n id (s.select id).seat.mq.length

/-- A drain between two of its rows: what others make of its bank meanwhile is met, too (R181, R271). -/
def drainMeets (d : Drain) : M Drain := do
  if d.live then othersWrite d.num else pure ()
  let t ← mSeat
  pure { d with seen := (t.drain.getD d).seen }

/-- A drain starts to read (R181, R186): it finds the bank as it is, and as others make it from now on. -/
def startDrain (d : Drain) : M Drain := do
  let s ← get
  let d := { d with seen := [((s.anvil s.here).banks[d.num]?).getD {}] }
  mModSeat (fun t => { t with drain := some d })
  othersWrite d.num
  let t ← mSeat
  pure (t.drain.getD d)

/-- A drain to a port pushes what it can, up to row 7 (R186, R187). The fuel is the number of rows left. -/
def pushRows : Nat → Drain → M Drain
  | 0, d => pure d
  | n + 1, d => do
    let t ← mSeat
    let q : Fin 16 := Fin.ofNat 16 d.port
    let ready := decide ((qLive t t.ports[q]).length < 8) && (match d.res with
      | none => true
      | some r => match qHead t.ports[Fin.ofNat 16 r] with
        | some i => !i.val.prov
        | none => false)
    if !ready then pure d
    else do
      let (xs, k) ← drainRow d
      let c := t.dcfg
      mModSeat (fun t => t.pushPort q
        { data := BitVec.ofNat 4096 (packList (widthOf c.outfmt) xs), taint := k, vcnt := c.colcount.toNat, last := d.row == 7, fmt := c.outfmt } d.lsn .w)
      let d ← drainMeets d
      pushRows n { d with row := d.row + 1 }

/-- A drain to a port goes on, and the word resolves when all eight entries are pushed (R187). -/
def drainGo (d : Drain) : M Unit := do
  let d ← pushRows (8 - d.row) d
  if d.row == 8 then mModSeat (fun t => { t with drain := none })
  else fun s => .error (.waitIn .drain (s.onSeat (fun t => { t with drain := some d })))

/-- A drain to a port that is under way goes on, with what others make of its bank meanwhile. -/
def drainOn (x : Drain) : M Unit := do
  if x.live then othersWrite x.num else pure ()
  let t ← mSeat
  drainGo (t.drain.getD x)

/-- The ranges of the ports and the residual rule (R80, check 1 of R186). -/
def drnPorts (d b : BitVec 6) (t : Bool) : Bool :=
  (if t then b != 0x3F && decide (b.toNat ≤ 9) else b == 0x3F) && (d == 0x3F || (decide (10 ≤ d.toNat) && decide (d.toNat ≤ 15)))

/-- Global row and column of an element. -/
def globalRow (c : Dcfg) (row : Nat) : Nat := c.rowbase.toNat + row
def globalCol (c : Dcfg) (col : Nat) : Nat := c.colbase.toNat + col

/-- The place of element (row, col) of a direct drain (R188). -/
def drainPlace (o : List Dword) (c : Dcfg) (row col : Nat) : Dword × Nat :=
  elemPlace o (obBase o + BitVec.ofNat 64 (globalRow c row) * obStr o 1) (globalCol c col)

/-- Check 2 of R186 for a drain to a port. -/
def portDrainOk (c : Dcfg) (z : Bool) : Bool := !z && decide (c.colcount.toNat * widthOf c.outfmt ≤ 4096)

/-- Check 2 of R186 for a direct drain (R188). -/
def directDrainOk (o : List Dword) (c : Dcfg) (z : Bool) : Bool :=
  if z then
    let w := widthOf c.outfmt / 8
    (c.outfmt == 3 || c.outfmt == 4 || c.outfmt == 12 || c.outfmt == 1)
      && obFmt o == (if c.outfmt == 1 then 11 else 10) && obStr o 0 == BitVec.ofNat 64 w
      && (List.range 8).all (fun r => (drainPlace o c r 0).1.toNat % 512 == 0)
  else obFmt o == c.outfmt

/-- EXT1 and EXT0 bound a direct drain's element, whatever dimensions are in use (R137, R188). -/
def mExtents (o : List Dword) (c : Dcfg) (row col : Nat) : M Unit :=
  mCheck (decide (globalRow c row < obExt o 1) && decide (globalCol c col < obExt o 0)) FC.objBounds (drainPlace o c row col).1 0

/-- The stores of one row of a direct drain. -/
def directRow (o : List Dword) (c : Dcfg) (row : Nat) (xs : List Nat) : M (List WByte) := do
  let parts ← mMap ((List.range xs.length).zip xs) (fun (j, x) => do
    mExtents o c row j
    elemWrite o (drainPlace o c row j) x)
  pure parts.flatten

/-- One chunk of a compressed drain in its slot (R54, R188): packed bytes or raw ones, and the raw bit. -/
def chunkBytes (w : Nat) (loc : Loc) (xs : List Nat) : List WByte :=
  let x := packList (8 * w) xs
  let (bits, raw) := zmPack w x 0
  let n := if raw then 512 else 64 / w + (zmNonzero w x).length * w
  let put (key : Nat) (val : Byte) : WByte := { key, val, l2 := loc.l2, l1 := loc.l1, fmt := loc.fmt, kid := loc.kid, pad := loc.inBlock }
  put (rawKey loc.key) (if raw then 1 else 0) :: (List.range n).map (fun i => put (loc.key + i) (BitVec.ofNat 8 (bits >>> (8 * i))))

/-- The stores of one row of a compressed drain (R188): every element is checked, then each chunk's slot is written. -/
def compressedRow (o : List Dword) (c : Dcfg) (row : Nat) (xs : List Nat) : M (List WByte) := do
  let w := widthOf c.outfmt / 8
  mEach (List.range xs.length) (fun j => do
    mExtents o c row j
    liftRun (elementCheck o (drainPlace o c row j).1 w true))
  let per := 512 / w
  let parts ← mMap (List.range (ceilDiv xs.length per)) (fun i => do
    let va := (drainPlace o c row (per * i)).1
    let pieces ← locate va 512 .write true
    match pieces with
    | [] => pure []
    | (p, _, _) :: _ => do
      liftRun (formatCheck (obFmt o) p.fmt va)
      writeGate .w pieces
      pure (chunkBytes w p ((xs.drop (per * i)).take per)))
  pure parts.flatten

/-- All rows of a direct drain. -/
def directRows (o : List Dword) (z : Bool) : Nat → Drain → M (List WByte)
  | 0, _ => pure []
  | n + 1, d => do
    let t ← mSeat
    let (xs, _) ← drainRow d
    let b ← (if z then compressedRow o t.dcfg d.row xs else directRow o t.dcfg d.row xs)
    let d ← drainMeets d
    let rest ← directRows o z n { d with row := d.row + 1 }
    pure (b ++ rest)

/-- Check 3 of R186, then the wait for the seat's commands on the bank (R180). -/
def mDrainable (n : Nat) : M Unit := do
  let s ← get
  let b := ((s.anvil s.here).banks[n]?).getD {}
  mCheck (b.owner.isNone || b.cell == cellOf s.seat.id) FC.bank 0 (BitVec.ofNat 8 n)
  mNeeds (!s.seat.mq.any (fun c => c.pairs.any (fun p => c.bank + p.2 / 8 == n))) .matrix

/-- Check 2 of R186 for a direct drain, as far as it can be made: the rules of R188 where the object is there, else those on OUTFMT. -/
def mDirectOk (o : Except FaultInfo (List Dword)) (c : Dcfg) (z : Bool) : M Unit :=
  match o with
  | .ok o => mOperand .w (directDrainOk o c z)
  | .error _ => mOperand .w (!z || c.outfmt == 3 || c.outfmt == 4 || c.outfmt == 12 || c.outfmt == 1)

/-- DRN (R186-R188): the checks in R186's order, then the drain; one that is under way goes on. -/
def execDrn (d a b : BitVec 6) (z t u sc : Bool) (s : State) : Host.Outcome State Fault Refusal :=
  backWord s (
    match s.seat.drain with
    | some x => drainOn x
    | none => do
      let c := s.seat.dcfg
      let l ← myLsn .w
      let dr : Drain := { lsn := l, num := a.toNat, seen := [], port := d.toNat % 16, res := if t then some b.toNat else none, sc, dr := u }
      mOperand .w (drnPorts d b t)
      if d == 0x3F then do
        let o ← tryRun (objectRef (c.dest.setWidth 64))
        mDirectOk o c z
        mDrainable a.toNat
        match o with
        | .error f => mFault f.code f.addr f.aux
        | .ok o => do
          let x ← startDrain dr
          let out ← directRows o z 8 x
          mModSeat (fun t => { t with drain := none })
          capture .w l .plain out
      else do
        mOperand .w (portDrainOk c z)
        mDrainable a.toNat
        let x ← startDrain dr
        drainGo x)

end Sys2Proof.Machine
end

