-- ==== Sys2Proof/Machine/SeatEvents.lean ====
section
/-! DEFINITION. Events of a seat and of its cluster: stores that leave the buffer, generators, the Anvil, drains, copies, and
the end of a unit. An event that does not apply to the state leaves it as it is. -/

namespace Sys2Proof.Machine

/-- GATED_STORE_DRAIN (R33, R111, R231): the oldest captured store leaves the buffer once H is above it. -/
def execGatedStoreDrain (s : State) : Host.Outcome State Fault Refusal := event s drainOne

/-- GENERATOR_PUSH (R142, R143, R145). -/
def execGeneratorPush (q : BitVec 4) (s : State) : Host.Outcome State Fault Refusal := event s (runAnyway (genPush q.toNat))

/-- PREDICTION_CONFIRM (R152). -/
def execPredictionConfirm (q : BitVec 4) (s : State) : Host.Outcome State Fault Refusal := event s (runAnyway (confirm q.toNat))

-- The Anvil (R171, R180).
/-- The Anvil of the cluster at hand grants the lease to the next requester, with its budget (R170, R171). -/
def grantLease (s : State) : State :=
  let a := s.anvil s.here
  match a.holder, a.next with
  | none, some id =>
    let s := s.select id
    startHead (s.setAnvil s.here { a with holder := some id, left := s.seat.bud.toNat, last := id, reqs := a.reqs.filter (· != id) })
  | none, none => s
  | some _, _ => s

def execLeaseGrant (s : State) : Host.Outcome State Fault Refusal := event s grantLease

/-- A run whose last counted command has completed ends (R171): the holder goes on with a fresh budget if no other seat asks,
else the lease passes, and the holder asks again if a command of its queue still has to start. -/
def endRun (s : State) : State :=
  let a := s.anvil s.here
  if a.holder == some s.seat.id && a.left == 0 && !s.seat.mq.any (fun c => c.started) then
    if a.reqs.all (fun r => r == s.seat.id) then startHead (s.setAnvil s.here { a with left := s.seat.bud.toNat })
    else
      let s := s.setAnvil s.here { a with holder := none }
      if s.seat.mq.isEmpty then s else request s
  else s

def execLeaseRunEnd (s : State) : Host.Outcome State Fault Refusal := event s endRun

/-- The command that runs on the Anvil finishes writing its banks, and the next one of the queue starts (R176, R180). -/
def commandDone (s : State) : State :=
  match s.seat.mq with
  | [] => s
  | c :: _ =>
    if c.started && (s.anvil s.here).holder == some s.seat.id then startHead (finishCmd s c) else s

def execMatrixCommandCompletion (s : State) : Host.Outcome State Fault Refusal := event s commandDone

/-- A drain to a port pushes the entries that its port has room for, and its word resolves after the eighth (R187). -/
def drainWaits (s : State) (d : Drain) : Bool := s.seat.status == .running && d.lsn == s.seat.engW.lsn && !s.seat.engW.done

def execDrainCompletion (s : State) : Host.Outcome State Fault Refusal :=
  match s.seat.drain with
  | none => .next s
  | some d => if drainWaits s d then word .w true s (drainOn d) else .next s

-- Copies (R192, R197).
/-- A channel reads, moves and writes back one record (R197). -/
def chainStep (ch : Fin 4) (s : State) : State :=
  match s.seat.copies.find? (fun c => c.kind == .chain && c.ch == ch && c.ended.isNone) with
  | none => s
  | some c => runAnyway (chainRecordStep c) s

def execChainRecord (ch : BitVec 2) (s : State) : Host.Outcome State Fault Refusal := event s (chainStep ch.toFin)

/-- A copy ends and its token retires (R192): a chain that has ended, a CPYH that has started, and any other copy. -/
def retireCopy (k : Fin 8) (s : State) : State :=
  match s.seat.copies.find? (fun c => c.tok == k) with
  | none => s
  | some c =>
    match c.kind, c.ended with
    | .chain, none => s
    | .chain, some st => retireToken k st s
    | .halo, none => if copyStarted s c then runAnyway (finishCopy c) s else s
    | .halo, some _ | .plain, _ | .reduce, _ => runAnyway (finishCopy c) s

def execCopyRetire (k : BitVec 3) (s : State) : Host.Outcome State Fault Refusal := event s (retireCopy k.toFin)

-- The end of a unit.
/-- What unit completion waits for (R39): every engine's NOTIFY, the empty buffer, and every fork, gathers among them (R22). -/
def allDone (t : Seat) : Bool :=
  t.status == .running && engines.all (fun e => (t.eng e).done) && t.gsb.isEmpty && t.atoms.isEmpty && t.mq.isEmpty
    && t.copies.isEmpty && t.drain.isNone && t.preds.isEmpty && t.gens.all (fun g => g.index.isNone || !g.active)

/-- Unit completion (R39, R40, R171, R172, R177, R218): the unit's stores are published, it leaves the barriers of its cluster,
its seat and what it holds of the Anvil are free, and its scope's counter falls. -/
def completeUnit (s : State) : State :=
  let u := s.seat.unit
  let s := publishCopies (publish s none .package)
  let c := s.cluster s.here
  let s := s.setCluster { c with bars := vmap (fun (b : Barrier) => b.leave u.uid) c.bars }
  let s := vacate s false
  settle (countDown (endEntry s u.part u.uid) u.part u.scope u.ct) u.part u.path

def execUnitCompletion (s : State) : Host.Outcome State Fault Refusal :=
  event s (fun s => if allDone s.seat then withTokens s.seat.engS.lsn (s.seat.unpub.map (fun u => u.byte)) completeUnit s else s)

/-- The seat is at a kill point (R42, R221, R287): after a backward branch, at one of the waits that R42 names, halted, or
waiting for the Hearth's service. -/
def atKillPoint (t : Seat) : Bool :=
  match t.status with
  | .vacant => false
  | .halted | .service | .dying => true
  | .running => t.atKill || engines.any (fun e => match (t.eng e).wait with
    | some w => w.killPoint
    | none => false)

/-- UNIT_KILL (R43, R274, R302). -/
def execUnitKill (s : State) : Host.Outcome State Fault Refusal :=
  event s (fun s => if s.seat.kill != .no && atKillPoint s.seat then killNow s else s)

/-- The forced check of R42: every 65,536 cycles of the unit's residency. -/
def forcedCheck (s : State) : State :=
  if s.seat.status != .vacant && decide (65536 ≤ (s.seat.cycles - s.seat.chk).toNat) then
    let s := s.onSeat (fun t => { t with chk := t.chk + 65536 })
    if s.seat.kill != .no then killNow s else s
  else s

def execForcedCheck (s : State) : Host.Outcome State Fault Refusal := event s forcedCheck

end Sys2Proof.Machine
end

