-- ==== Sys2Proof/Machine/TrustEvents.lean ====
section
/-! DEFINITION. Attestation and trusted interfaces: the SPDM responders of the six dies (R259), TDISP and IDE (R260). Digests,
signatures and keys are opaque (log 5); the codes that begin the answers and the order of requests are SPDM's (log 26). -/

namespace Sys2Proof.Machine

/-- A natural number as eight bytes. -/
def nat8 (n : Nat) : List Byte := bytesOf (BitVec.ofNat 64 n) 8

/-- Way masks of a die, by slice and partition (R253). -/
def wayBytes (s : State) (die : Nat) : List Byte :=
  (s.ways.filter (fun w => w.1 == die)).flatMap (fun w => nat8 w.2.1 ++ nat8 w.2.2.1 ++ bytesOf w.2.2.2 2)

/-- The partition map that a compute die measures: cluster ownership, ring slot table, way masks (R259). -/
def dieMap (s : State) (die : Nat) : List Byte :=
  (List.range 40).flatMap (fun c => nat8 (s.partOf (64 * die + c)).val)
    ++ (s.rings[die % 4]'(Nat.mod_lt _ (by decide))).toList ++ wayBytes s die

/-- A measurement (R259): index 5 is the partition map, of the die or of the whole package; a compute die has no index 3. -/
def measurement (s : State) (die ix : Nat) : Option (List Byte) :=
  if ix == 5 then
    some (Config.sha512 (if die < 4 then dieMap s die else (List.range 4).flatMap (dieMap s)))
  else if ix == 1 || ix == 2 || ix == 4 || (ix == 3 && decide (4 ≤ die)) then some (Config.sha512 (Config.firmware die ix))
  else none

def State.responder (s : State) (die : Nat) : Responder := s.spdm[die % 6]'(Nat.mod_lt _ (by decide))
def State.setResponder (s : State) (die : Nat) (r : Responder) : State := { s with spdm := s.spdm.set (Fin.ofNat 6 die) r }
def answer (die : Nat) (data : List Byte) (s : State) : State := { s with sent := s.sent ++ [.answer die data] }

/-- An SPDM request to a die's responder: it is answered where the responder accepts it, else with an error. Responders start in step 3 of
the bring-up (R264). -/
def spdm (die : Nat) (ok : Responder → Bool) (code : Byte) (act : State → Responder → Responder × List Byte) (s : State) : State :=
  if decide (6 ≤ die) || (s.bootFail != 0 && decide (s.bootFail < 4)) then s
  else
    let r := s.responder die
    if ok r then
      let (r', data) := act s r
      answer die (code :: data) (s.setResponder die r')
    else answer die [0x7F] s

def Responder.session (r : Responder) (sid : Nat) : Option Session := r.opened.find? (fun x => x.sid == sid)
def hasSession (sid : Nat) (ready : Bool) (r : Responder) : Bool := r.opened.any (fun x => x.sid == sid && x.ready == ready)

def execGetVersion (die : Nat) (s : State) : Host.Outcome State Fault Refusal :=
  event s (spdm die (fun _ => true) 0x04 (fun _ r => ({ r with version := true, caps := false, algs := false, script := [] }, [])))
def execGetCapabilities (die : Nat) (s : State) : Host.Outcome State Fault Refusal :=
  event s (spdm die (fun r => r.version) 0x61 (fun _ r => ({ r with caps := true }, [])))
def execNegotiateAlgorithms (die : Nat) (peer : PeerData) (s : State) : Host.Outcome State Fault Refusal :=
  event s (spdm die (fun r => r.caps) 0x63 (fun _ r => ({ r with algs := true, script := r.script ++ peer }, [])))
def execGetDigests (die : Nat) (s : State) : Host.Outcome State Fault Refusal :=
  event s (spdm die (fun r => r.algs) 0x01 (fun _ r => (r, Config.sha512 (Config.certificate die))))
def execGetCertificate (die : Nat) (s : State) : Host.Outcome State Fault Refusal :=
  event s (spdm die (fun r => r.algs) 0x02 (fun _ r => (r, Config.certificate die)))
/-- CHALLENGE: signed with the die's identity key. -/
def execChallenge (die : Nat) (nonce : PeerData) (s : State) : Host.Outcome State Fault Refusal :=
  event s (spdm die (fun r => r.algs) 0x03 (fun _ r =>
    ({ r with script := r.script ++ nonce }, Config.sign die (r.script ++ nonce))))
def execGetMeasurements (die idx : Nat) (s : State) : Host.Outcome State Fault Refusal :=
  event s (spdm die (fun r => r.algs && (measurement s die idx).isSome) 0x60 (fun s r => (r, (measurement s die idx).getD [])))
/-- KEY_EXCHANGE: a session with the secret of the exchange. -/
def execKeyExchange (die : Nat) (peer : PeerData) (s : State) : Host.Outcome State Fault Refusal :=
  event s (spdm die (fun r => r.algs) 0x64 (fun _ r =>
    let secret := Config.hkdf (Config.ecdh peer r.nextSid) die
    ({ r with opened := r.opened ++ [{ sid := r.nextSid, secret }], nextSid := r.nextSid + 1, script := r.script ++ peer },
     nat8 r.nextSid ++ Config.sign die (r.script ++ peer))))
def execFinish (die sid : Nat) (s : State) : Host.Outcome State Fault Refusal :=
  event s (spdm die (hasSession sid false) 0x65 (fun _ r =>
    ({ r with opened := r.opened.map (fun x => if x.sid == sid then { x with ready := true } else x) }, [])))
def execKeyUpdate (die sid : Nat) (s : State) : Host.Outcome State Fault Refusal :=
  event s (spdm die (hasSession sid true) 0x69 (fun _ r =>
    ({ r with opened := r.opened.map (fun x => if x.sid == sid then
      { x with gen := x.gen + 1, secret := Config.hkdf x.secret (x.gen + 1) } else x) }, [])))
def execHeartbeat (die sid : Nat) (s : State) : Host.Outcome State Fault Refusal :=
  event s (spdm die (hasSession sid true) 0x68 (fun _ r => (r, [])))
def execEndSession (die sid : Nat) (s : State) : Host.Outcome State Fault Refusal :=
  event s (spdm die (hasSession sid true) 0x6C (fun _ r => ({ r with opened := r.opened.filter (fun x => x.sid != sid) }, [])))

-- TDISP (R260).
def tdisp (vf : Nat) (ok : Bool) (s : State) : State := { s with sent := s.sent ++ [.tdisp vf ok] }

/-- The session that programmed the stream which covers the VF, among its die's open sessions. -/
def streamSecret (s : State) (vf : Nat) : Option (List Byte) :=
  (s.ide.find? (fun x => x.vfs.contains vf)).bind (fun x =>
    ((s.responder x.die).opened.find? (fun y => y.sid == x.sid && y.ready)).map (fun y => y.secret))

/-- A key identity of the partition's set that no VF holds. -/
def freeKey (s : State) (part : Fin 32) : Option (BitVec 7) :=
  (s.part part).keys.find? (fun k => !s.vfs.any (fun v => v.key == some k))

/-- A VF that TDISP governs: 1-96. -/
def isTdi (s : State) (vf : Nat) : Bool := decide (1 ≤ vf) && decide (vf ≤ 96) && s.sriov

/-- LOCK_INTERFACE_REQUEST: the VF takes a key identity, whose key comes from the session's secret and its number. -/
def lockTdi (vf : Nat) (at_ : SessionRef) (s : State) : State :=
  let v := s.vf vf
  let cover := s.ide.any (fun x => x.vfs.contains vf && x.die == at_.die && x.sid == at_.sid)
  match streamSecret s vf, freeKey s v.part with
  | some secret, some k =>
    if isTdi s vf && v.tdi == .unlocked && cover then
      tdisp vf true ((newKey s k).setVf { v with tdi := .locked, key := some k, secret := Config.hkdf secret k.toNat })
    else tdisp vf false s
  | some _, none | none, _ => tdisp vf false s

def execLockInterfaceRequest (vf : Nat) (at_ : SessionRef) (s : State) : Host.Outcome State Fault Refusal := event s (lockTdi vf at_)

def execStartInterfaceRequest (vf : Nat) (s : State) : Host.Outcome State Fault Refusal :=
  event s (fun s =>
    let v := s.vf vf
    if isTdi s vf && v.tdi == .locked then tdisp vf true (s.setVf { v with tdi := .run }) else tdisp vf false s)

/-- What the interface report of a VF that is not locked states (R260): that it runs under a key identity which the Hearth has programmed at the
physical function's request, and which one. -/
def interfaceReport (s : State) (vf : Nat) : Option (BitVec 7) := if (s.vf vf).tdi == .unlocked then some (s.contextKey vf) else none

/-- A seat's pad blocks are zeroed, near or spilled, with their raw bits (R54, R125, R260). -/
def zeroPads (cell side : Nat) (s : State) : State :=
  ((s.cell cell).pads.filter (fun p => padV p.2 && padSeat p.2 == side + 1)).foldl (fun s p =>
    let base := padKey cell p.2 0
    zeroRange (zeroRange s base (base + 16384)) (rawKey base) (rawKey base + 32)) s

/-- The VF's pad blocks are zeroed: those of the seats on which its units have last been (R260; log 46). -/
def zeroVfPads (vf : Nat) (s : State) : State :=
  s.cells.foldl (fun s c => (c.users.filter (fun u => u.2 == vf)).foldl (fun s u => zeroPads c.ix u.1 s) s) s

/-- The lines of a VF leave every L1 and L2 without a write-back, with what an L2 holds newer than their homes (R132, R260): those under its key
identity in its partition. -/
def dropVfLines (s : State) (vf : Nat) : State :=
  let gone := s.dirty.filter (fun d => d.vf == vf)
  let mine := s.lineTags.filter (fun t => t.part == (s.vf vf).part && t.kid == s.contextKey vf)
  mine.foldl evictLine { s with
    mem := gone.foldl (fun m d => Memory.write m d.key d.back) s.mem
    hist := s.hist.filter (fun p => !gone.any (fun d => d.key == p.key))
    dirty := s.dirty.filter (fun d => d.vf != vf) }

/-- The VF's key is erased, and its identity is free again (R260). -/
def eraseKey (s : State) (vf : Nat) : State :=
  let s := match (s.vf vf).key with
    | some k => newKey s k
    | none => s
  s.setVf { s.vf vf with key := none, secret := [] }

/-- What STOP_INTERFACE_REQUEST or an error does to a VF in RUN (R260): its jobs are quenched, its saved contexts dropped, its
pads zeroed, its lines dropped, and its key erased before its identity is free. -/
def stopVf (s : State) (vf : Nat) : State :=
  let id := s.seat.id
  let s := (s.jobs.filter (fun j => j.vf == vf)).foldl (fun s j => quenchScope s j.part j.scope none) s
  let left := s.saved.filter (fun x => x.seat.unit.vf == vf)
  let s := left.foldl (fun s x => killSaved s x .quench) s
  let s := zeroVfPads vf (s.mapSeats (fun t => if t.status != .vacant && t.unit.vf == vf then
    { t with unpub := t.unpub.filter (fun u => isWindow u.byte.key) } else t))
  eraseKey (dropVfLines (s.select id) vf) vf

/-- STOP_INTERFACE_REQUEST: it is accepted in every state, ERROR too. -/
def stopTdi (vf : Nat) (s : State) : State :=
  if isTdi s vf then
    let s := match (s.vf vf).tdi with
      | .run => stopVf s vf
      | .locked | .error => eraseKey s vf
      | .unlocked => s
    tdisp vf true (s.setVf { s.vf vf with tdi := .unlocked })
  else tdisp vf false s

def execStopInterfaceRequest (vf : Nat) (s : State) : Host.Outcome State Fault Refusal := event s (stopTdi vf)

/-- A request for a locked TDI outside its stream is dropped and puts the TDI in ERROR (R260). -/
def outsideStream (vf : Nat) (s : State) : State :=
  match (s.vf vf).tdi with
  | .locked => s.setVf { s.vf vf with tdi := .error }
  | .run =>
    let s := stopVf s vf
    s.setVf { s.vf vf with tdi := .error }
  | .unlocked | .error => s

def execTdiRequestOutsideStream (vf : Nat) (s : State) : Host.Outcome State Fault Refusal := event s (outsideStream vf)

/-- KEY_PROG of IDE_KM (R260): a 33rd stream, or one whose VFs belong to two partitions, is answered with an error. -/
def keyProg (stream : Nat) (at_ : SessionRef) (vfs : List Nat) (s : State) : State :=
  let other := s.ide.filter (fun x => x.stream != stream)
  let session := decide (at_.die < 6) && hasSession at_.sid true (s.responder at_.die)
  let one := match vfs with
    | [] => false
    | v :: rest => vfs.all (isTdi s) && rest.all (fun w => (s.vf w).part == (s.vf v).part)
  let ok := session && one && decide (other.length < 32)
  let s : State := if ok then { s with ide := other ++ [{ stream, die := at_.die, sid := at_.sid, vfs }] } else s
  { s with sent := s.sent ++ [.ide stream ok] }

def execKeyProg (stream : Nat) (at_ : SessionRef) (vfs : List Nat) (s : State) : Host.Outcome State Fault Refusal := event s (keyProg stream at_ vfs)

end Sys2Proof.Machine
end

