-- ==== Sys2Proof/Machine/Special.lean ====
section
/-! DEFINITION. The special functions of VSFU (R162): exact results rounded once. Reciprocals and roots are decided by integer
arithmetic; the others by bounds that are 2^-192 apart, and by a free value where both bounds do not round alike (log 6). -/

namespace Sys2Proof.Machine

/-- The largest `r` with `r * r ≤ n`, bit by bit from bit `k` − 1 down. -/
def isqrtFuel (n : Nat) : Nat → Nat → Nat
  | 0, r => r
  | k + 1, r =>
    let r' := r + pow2 k
    isqrtFuel n k (if r' * r' ≤ n then r' else r)

def isqrt (n : Nat) : Nat := isqrtFuel n (Nat.log2 n / 2 + 1) 0

/-- A value between `q × 2^e` and the next, exact where `exact`, rounded: the sticky bit stands for the rest. -/
def roundSticky (f : FLayout) (neg : Bool) (q : Nat) (exact : Bool) (e : Int) : Nat :=
  roundF f .rne neg (2 * q + (if exact then 0 else 1)) (e - 1)

/-- 1 ÷ (m × 2^e). -/
def rcpF (f : FLayout) (neg : Bool) (m : Nat) (e : Int) : Nat :=
  let k := Nat.log2 m + 64
  roundSticky f neg (pow2 k / m) (pow2 k % m == 0) (-(k : Int) - e)

/-- The root of m × 2^e. -/
def sqrtF (f : FLayout) (m : Nat) (e : Int) : Nat :=
  let odd := e % 2 != 0
  let m := (if odd then 2 * m else m) <<< 128
  let e := (if odd then e - 1 else e) - 128
  let r := isqrt m
  roundSticky f false r (r * r == m) (e / 2)

/-- 1 ÷ the root of m × 2^e. -/
def rsqrtF (f : FLayout) (m : Nat) (e : Int) : Nat :=
  let odd := e % 2 != 0
  let m := if odd then 2 * m else m
  let e := if odd then e - 1 else e
  let k := Nat.log2 m + 80
  let y := pow2 (2 * k) / m
  let r := isqrt y
  roundSticky f false r (r * r * m == pow2 (2 * k)) (-(k : Int) - e / 2)

-- Bounds: numbers scaled by 2^192.
def fxBits : Nat := 192
def fxOne : Nat := pow2 fxBits

structure Bounds where
  lo : Nat
  hi : Nat
  deriving DecidableEq, Repr

def Bounds.mul (a b : Bounds) : Bounds := ⟨(a.lo * b.lo) >>> fxBits, ((a.hi * b.hi) >>> fxBits) + 1⟩
def Bounds.divNat (a : Bounds) (k : Nat) : Bounds := ⟨a.lo / k, a.hi / k + 1⟩
def Bounds.add (a b : Bounds) : Bounds := ⟨a.lo + b.lo, a.hi + b.hi⟩

/-- Σ z^(2k+1) ÷ (2k+1) for z at most 1/3, from term `k` on: 64 terms leave less than a unit. -/
def atanhFuel (z2 : Bounds) : Nat → Nat → Bounds → Bounds
  | 0, _, _ => ⟨0, 1⟩
  | n + 1, k, p => (p.divNat (2 * k + 1)).add (atanhFuel z2 n (k + 1) (p.mul z2))

def atanhB (z : Bounds) : Bounds := atanhFuel (z.mul z) 64 0 z

/-- ln 2 = 2 × atanh(1/3). -/
def ln2B : Bounds := let x := atanhB ⟨fxOne / 3, fxOne / 3 + 1⟩; ⟨2 * x.lo, 2 * x.hi⟩

/-- Σ r^k ÷ k! for r below 1: 64 terms leave less than a unit. -/
def expFuel (r : Bounds) : Nat → Nat → Bounds → Bounds
  | 0, _, _ => ⟨0, 1⟩
  | n + 1, k, p => p.add (expFuel r n (k + 1) ((p.mul r).divNat (k + 1)))

def expB (r : Bounds) : Bounds := expFuel r 64 0 ⟨fxOne, fxOne⟩

/-- Both bounds, times 2^e, rounded: the result where they agree. -/
def roundBounds (f : FLayout) (neg : Bool) (b : Bounds) (e : Int) : Option Nat :=
  let x := roundF f .rne neg b.lo e
  if x == roundF f .rne neg b.hi e then some x else none

/-- m × 2^e scaled by 2^192, for e at least −192. -/
def toFx (m : Nat) (e : Int) : Nat := m <<< (e + fxBits).toNat

/-- 2^(± m × 2^e). -/
def exp2F (f : FLayout) (neg : Bool) (m : Nat) (e : Int) : Option Nat :=
  if 400 ≤ (m : Int) <<< e.toNat && 0 ≤ e then some (if neg then 0 else overflowF f .rne false)
  else
    let x := toFx m e
    let whole := x >>> fxBits
    if 400 ≤ whole then some (if neg then 0 else overflowF f .rne false)
    else
      let frac := x % fxOne
      if frac == 0 then some (roundF f .rne false 1 (if neg then -(whole : Int) else whole))
      else
        let (k, fr) := if neg then (-(whole : Int) - 1, fxOne - frac) else ((whole : Int), frac)
        roundBounds f false (expB (ln2B.mul ⟨fr, fr⟩)) (k - fxBits)

/-- log2 (m × 2^e). -/
def log2F (f : FLayout) (m : Nat) (e : Int) : Option Nat :=
  let top := Nat.log2 m
  let k : Int := e + top
  if m == pow2 top then some (roundF f .rne (decide (k < 0)) k.natAbs 0)
  else
    let c := m <<< (fxBits - top)
    let z : Bounds := ⟨((c - fxOne) <<< fxBits) / (c + fxOne), ((c - fxOne) <<< fxBits) / (c + fxOne) + 1⟩
    let ln := atanhB z
    let q : Bounds := ⟨(2 * ln.lo <<< fxBits) / ln2B.hi, (2 * ln.hi <<< fxBits) / ln2B.lo + 1⟩
    if 0 ≤ k then roundBounds f false ⟨(k.toNat <<< fxBits) + q.lo, (k.toNat <<< fxBits) + q.hi⟩ (-(fxBits : Int))
    else roundBounds f true ⟨(k.natAbs <<< fxBits) - q.hi, (k.natAbs <<< fxBits) - q.lo⟩ (-(fxBits : Int))

/-- e^(−t) for t scaled by 2^192: bounds of a mantissa and the count of halvings. -/
def expNeg (t : Nat) : Bounds × Nat :=
  let k := t / ln2B.lo + 1
  (expB ⟨k * ln2B.lo - t, k * ln2B.hi - t⟩, k)

/-- 1 + e^(−t) from the mantissa and the halvings. -/
def onePlus (x : Bounds × Nat) : Bounds := ⟨fxOne + (x.1.lo >>> x.2), fxOne + (x.1.hi >>> x.2) + 1⟩

def tanhF (f : FLayout) (neg : Bool) (m : Nat) (e : Int) : Option Nat :=
  let top : Int := Nat.log2 m + e
  if 7 ≤ top then some (roundF f .rne neg 1 0)
  else if top < -14 then
    -- x − x³ ÷ 2 and x
    roundBounds f neg ⟨(m <<< 600) - (m * m * m <<< (599 + 2 * e).toNat), m <<< 600⟩ (e - 600)
  else
    let x := expNeg (2 * toFx m e)
    let d := onePlus x
    let n : Bounds := ⟨fxOne - (x.1.hi >>> x.2) - 1, fxOne - (x.1.lo >>> x.2)⟩
    roundBounds f neg ⟨(n.lo <<< fxBits) / d.hi, (n.hi <<< fxBits) / d.lo + 1⟩ (-(fxBits : Int))

def sigmoidF (f : FLayout) (neg : Bool) (m : Nat) (e : Int) : Option Nat :=
  if m == 0 then some (roundF f .rne false 1 (-1))
  else
    let top : Int := Nat.log2 m + e
    if 8 ≤ top then some (if neg then 0 else roundF f .rne false 1 0)
    else
      let x := expNeg (toFx m e)
      let d := onePlus x
      if neg then roundBounds f false ⟨(x.1.lo <<< fxBits) / d.hi, (x.1.hi <<< fxBits) / d.lo + 1⟩ (-(fxBits : Int) - x.2)
      else roundBounds f false ⟨(fxOne <<< fxBits) / d.hi, (fxOne <<< fxBits) / d.lo + 1⟩ (-(fxBits : Int))

/-- The number of a function in B 2:0 (R82). -/
def sfuNum : SfuFn → Nat
  | .exp2 => 0 | .log2 => 1 | .rcp => 2 | .rsqrt => 3 | .sqrt => 4 | .tanh => 5 | .sigmoid => 6

/-- VSFU's result for one element (R162). -/
def sfu (fn : SfuFn) (f : FLayout) (x : Nat) : Nat :=
  let free (r : Option Nat) : Nat := r.getD (Config.transcendental (sfuNum fn) (f == bf16) x % pow2 (f.eb + f.fb + 1))
  let one := roundF f .rne false 1 0
  match fn, decodeF f x with
  | _, .nan => nanF f
  | .exp2, .inf neg => if neg then 0 else infF f false
  | .exp2, .fin neg m e => if m == 0 then one else free (exp2F f neg m e)
  | .log2, .inf neg => if neg then nanF f else infF f false
  | .log2, .fin neg m e => if m == 0 then infF f true else if neg then nanF f else free (log2F f m e)
  | .rcp, .inf neg => signBit f neg
  | .rcp, .fin neg m e => if m == 0 then infF f neg else rcpF f neg m e
  | .rsqrt, .inf neg => if neg then nanF f else 0
  | .rsqrt, .fin neg m e => if m == 0 then infF f neg else if neg then nanF f else rsqrtF f m e
  | .sqrt, .inf neg => if neg then nanF f else infF f false
  | .sqrt, .fin neg m e => if m == 0 then signBit f neg else if neg then nanF f else sqrtF f m e
  | .tanh, .inf neg => signBit f neg + one
  | .tanh, .fin neg m e => if m == 0 then signBit f neg else free (tanhF f neg m e)
  | .sigmoid, .inf neg => if neg then 0 else one
  | .sigmoid, .fin neg m e => free (sigmoidF f neg m e)

end Sys2Proof.Machine
end

