-- ==== Sys2Proof/Machine/Vector.lean ====
section
/-! DEFINITION. Vector arithmetic, comparisons, conversions, reductions and scans (R154-R160, R162). -/

namespace Sys2Proof.Machine

/-- A vector-engine word: logged (R31). -/
def vWord (s : State) (m : M Unit) : Host.Outcome State Fault Refusal := word .v false s m

/-- Source groups read in field order (R70). -/
def readGroups (g : Nat) (l : List (BitVec 6)) : M (List Nat × Taint) :=
  match l with
  | [] => pure ([], 0)
  | f :: rest => do
    let (x, k) ← readGroup f g
    let (xs, ks) ← readGroups g rest
    pure (x :: xs, k ||| ks)

/-- What a governed word needs: its sources, whether D is read, the widths it accepts, the width and format of its result, the
taint of an x operand, and its result as one string of `n` elements, from the width, the count and the sources (D last). -/
structure VSpec where
  srcs  : List (BitVec 6)
  readD : Bool := false
  okW   : Nat → Bool := fun _ => true
  outW  : Nat → Nat := fun w => w
  fmt   : Nat → FCode
  extra : Taint := 0

/-- The shape of R154. -/
def governed (d : BitVec 6) (p : BitVec 3) (v : VSpec) (f : Nat → Nat → List Nat → Nat) : M Unit := do
  let (w, n, kp) ← getP p
  if n == 0 then pure ()
  else
    let g := groupSize n w
    let gd := groupSize n (v.outW w)
    mOperand .v (v.okW w && v.srcs.all (fun x => groupOk x g) && destFieldOk d && groupOk d gd && (!v.readD || groupOk d g))
    let (xs, k) ← readGroups g v.srcs
    let (dv, kd) ← (if v.readD then readGroup d g else pure (0, 0))
    writeGroup d (v.fmt w) (v.outW w) n (f w n (xs ++ [dv])) (k ||| kd ||| kp ||| v.extra) false (if v.readD then g else 0)

/-- Formats of results (R154). A port entry of VMOV, VPERM, VSLIDE, VBCAST, VSEL, VFCMP or VLSL takes the integer case, RAW at widths 16 and 32
(DESIGN CHOICE, log 107: R161 and R166 give no format, and R157 none for a mask). -/
def intFmt (w : Nat) : FCode := if w == 8 then 12 else if w == 4 then 13 else 0
def floatFmt (w : Nat) : FCode := if w == 16 then 1 else 2
def floatW (w : Nat) : Bool := w == 16 || w == 32
def layW (w : Nat) : FLayout := if w == 16 then bf16 else fp32

def arg (l : List Nat) (k : Nat) : Nat := nth l k 0

/-- An element-wise word on A and B (R154). -/
def binary (float : Bool) (d a b : BitVec 6) (p : BitVec 3) (f : Nat → Nat → Nat → Nat) (s : State) :
    Host.Outcome State Fault Refusal :=
  vWord s (governed d p
    { srcs := [a, b], okW := fun w => !float || floatW w, fmt := if float then floatFmt else intFmt }
    (fun w n l => packElems w n (fun e => f w (elemAt (arg l 0) w e) (elemAt (arg l 1) w e))))

/-- An element-wise word on A (R154). -/
def unary (float : Bool) (d a : BitVec 6) (p : BitVec 3) (f : Nat → Nat → Nat) (s : State) : Host.Outcome State Fault Refusal :=
  vWord s (governed d p
    { srcs := [a], okW := fun w => !float || floatW w, fmt := if float then floatFmt else intFmt }
    (fun w n l => packElems w n (fun e => f w (elemAt (arg l 0) w e))))

/-- An element-wise word on A, B and D (R70, R154). -/
def ternary (float : Bool) (d a b : BitVec 6) (p : BitVec 3) (f : Nat → Nat → Nat → Nat → Nat) (s : State) :
    Host.Outcome State Fault Refusal :=
  vWord s (governed d p
    { srcs := [a, b], readD := true, okW := fun w => !float || floatW w, fmt := if float then floatFmt else intFmt }
    (fun w n l => packElems w n (fun e => f w (elemAt (arg l 0) w e) (elemAt (arg l 1) w e) (elemAt (arg l 2) w e))))

-- Float arithmetic (R155).
def execVfadd (d a b : BitVec 6) (p : BitVec 3) (s : State) : Host.Outcome State Fault Refusal :=
  binary true d a b p (fun w x y => fAdd (layW w) x y) s
def execVfsub (d a b : BitVec 6) (p : BitVec 3) (s : State) : Host.Outcome State Fault Refusal :=
  binary true d a b p (fun w x y => numToF (layW w) .rne (numAdd (decodeF (layW w) x) (numNeg (decodeF (layW w) y)))) s
def execVfmul (d a b : BitVec 6) (p : BitVec 3) (s : State) : Host.Outcome State Fault Refusal :=
  binary true d a b p (fun w x y => fMul (layW w) x y) s
def execVfma (d a b : BitVec 6) (p : BitVec 3) (s : State) : Host.Outcome State Fault Refusal :=
  ternary true d a b p (fun w x y o => fFma (layW w) o x y) s
def execVfmin (d a b : BitVec 6) (p : BitVec 3) (s : State) : Host.Outcome State Fault Refusal :=
  binary true d a b p (fun w x y => numToF (layW w) .rne (numMin (decodeF (layW w) x) (decodeF (layW w) y))) s
def execVfmax (d a b : BitVec 6) (p : BitVec 3) (s : State) : Host.Outcome State Fault Refusal :=
  binary true d a b p (fun w x y => numToF (layW w) .rne (numMax (decodeF (layW w) x) (decodeF (layW w) y))) s

def numAbs : Num → Num
  | .nan => .nan
  | .inf _ => .inf false
  | .fin _ m e => .fin false m e
def execVfabs (d a : BitVec 6) (p : BitVec 3) (s : State) : Host.Outcome State Fault Refusal :=
  unary true d a p (fun w x => numToF (layW w) .rne (numAbs (decodeF (layW w) x))) s
def execVfneg (d a : BitVec 6) (p : BitVec 3) (s : State) : Host.Outcome State Fault Refusal :=
  unary true d a p (fun w x => numToF (layW w) .rne (numNeg (decodeF (layW w) x))) s

-- Integer arithmetic (R156).
def loS (w : Nat) : Int := -((pow2 (w - 1) : Nat) : Int)
def hiS (w : Nat) : Int := ((pow2 (w - 1) : Nat) : Int) - 1
def hiU (w : Nat) : Int := ((pow2 w : Nat) : Int) - 1

/-- A sum or difference under an X code of VADD and VSUB. -/
def addSat (x : SatMode) (w : Nat) (a b : Nat) (sub : Bool) : Nat :=
  let f (p q : Int) : Int := if sub then p - q else p + q
  match x with
  | .wrap => wrapInt w (f a b)
  | .us => wrapInt w (clampInt 0 (hiU w) (f a b))
  | .ss => wrapInt w (clampInt (loS w) (hiS w) (f (signedOf w a) (signedOf w b)))

def execVadd (d a b : BitVec 6) (p : BitVec 3) (x : SatMode) (s : State) : Host.Outcome State Fault Refusal :=
  binary false d a b p (fun w u v => addSat x w u v false) s
def execVsub (d a b : BitVec 6) (p : BitVec 3) (x : SatMode) (s : State) : Host.Outcome State Fault Refusal :=
  binary false d a b p (fun w u v => addSat x w u v true) s

def mulHalf (x : MulHalf) (w : Nat) (a b : Nat) : Nat :=
  match x with
  | .low => (a * b) % pow2 w
  | .highSigned => wrapInt w ((signedOf w a * signedOf w b) / ((pow2 w : Nat) : Int))
  | .highUnsigned => (a * b) >>> w
def execVmul (d a b : BitVec 6) (p : BitVec 3) (x : MulHalf) (s : State) : Host.Outcome State Fault Refusal :=
  binary false d a b p (mulHalf x) s

/-- a is below b, signed or unsigned. -/
def below (sn : Bool) (w a b : Nat) : Bool := if sn then decide (signedOf w a < signedOf w b) else decide (a < b)
def execVmin (d a b : BitVec 6) (p : BitVec 3) (sn : Bool) (s : State) : Host.Outcome State Fault Refusal :=
  binary false d a b p (fun w x y => if below sn w y x then y else x) s
def execVmax (d a b : BitVec 6) (p : BitVec 3) (sn : Bool) (s : State) : Host.Outcome State Fault Refusal :=
  binary false d a b p (fun w x y => if below sn w x y then y else x) s
def execVabs (d a : BitVec 6) (p : BitVec 3) (sn : Bool) (s : State) : Host.Outcome State Fault Refusal :=
  unary false d a p (fun w x => if sn then wrapInt w (signedOf w x).natAbs else x) s
def execVand (d a b : BitVec 6) (p : BitVec 3) (s : State) : Host.Outcome State Fault Refusal :=
  binary false d a b p (fun _ x y => x &&& y) s
def execVor (d a b : BitVec 6) (p : BitVec 3) (s : State) : Host.Outcome State Fault Refusal :=
  binary false d a b p (fun _ x y => x ||| y) s
def execVxor (d a b : BitVec 6) (p : BitVec 3) (s : State) : Host.Outcome State Fault Refusal :=
  binary false d a b p (fun _ x y => x ^^^ y) s
def execVandn (d a b : BitVec 6) (p : BitVec 3) (s : State) : Host.Outcome State Fault Refusal :=
  binary false d a b p (fun w x y => x &&& (y ^^^ (pow2 w - 1))) s
def execVshl (d a b : BitVec 6) (p : BitVec 3) (s : State) : Host.Outcome State Fault Refusal :=
  binary false d a b p (fun w x y => if w ≤ y then 0 else (x <<< y) % pow2 w) s

/-- A right shift that fills with zeros or with the top bit. -/
def shrElem (h : Bool) (w x y : Nat) : Nat :=
  let k := Nat.min y w
  if h then wrapInt w (signedOf w x / ((pow2 k : Nat) : Int)) else x >>> k
def execVshr (d a b : BitVec 6) (p : BitVec 3) (h : Bool) (s : State) : Host.Outcome State Fault Refusal :=
  binary false d a b p (shrElem h) s
def execVclz (d a : BitVec 6) (p : BitVec 3) (s : State) : Host.Outcome State Fault Refusal := unary false d a p clzNat s
def execVffs (d a : BitVec 6) (p : BitVec 3) (s : State) : Host.Outcome State Fault Refusal := unary false d a p ffsNat s
def execVpopc (d a : BitVec 6) (p : BitVec 3) (s : State) : Host.Outcome State Fault Refusal := unary false d a p popNat s

-- Comparisons and selection (R157).
def maskElem (w : Nat) (c : Bool) : Nat := if c then pow2 w - 1 else 0
/-- VFCMP reads floats and writes an integer mask vector (R157), whose port entry has the integer format (DESIGN CHOICE, log 107). -/
def execVfcmp (d a b : BitVec 6) (p : BitVec 3) (x : FCond) (s : State) : Host.Outcome State Fault Refusal :=
  vWord s (governed d p { srcs := [a, b], okW := floatW, fmt := intFmt }
    (fun w n l => packElems w n (fun e =>
      maskElem w (fcond x (decodeF (layW w) (elemAt (arg l 0) w e)) (decodeF (layW w) (elemAt (arg l 1) w e))))))
def execVicmp (d a b : BitVec 6) (p : BitVec 3) (x : ICond) (s : State) : Host.Outcome State Fault Refusal :=
  binary false d a b p (fun w u v => maskElem w (icond x w u v)) s
def execVsel (d a b : BitVec 6) (p : BitVec 3) (s : State) : Host.Outcome State Fault Refusal :=
  ternary false d a b p (fun w x y o => if o.testBit (w - 1) then x else y) s

-- Conversions (R158, R159).
/-- Width of a VCVT target; INT has the source's. -/
def cvtWidth (t : Fmt) (w : Nat) : Nat :=
  match t with
  | .bf16 => 16 | .fp32 => 32 | .int4 => 4 | .raw => w
  | .e4m3 | .e5m2 | .int8 | .mxfp8 | .mxfp4 | .qn4 | .qn4s | .mxs | .zm8 | .zm16 => 8

def isIntTarget : Fmt → Bool
  | .int8 | .int4 | .raw => true
  | .bf16 | .fp32 | .e4m3 | .e5m2 | .mxfp8 | .mxfp4 | .qn4 | .qn4s | .mxs | .zm8 | .zm16 => false

/-- The combinations that R158 allows: B 5 is `g`, B 4 is `isrc`. -/
def cvtOk (g isrc : Bool) (t : Fmt) (w : Nat) : Bool :=
  match t with
  | .bf16 | .fp32 => isrc || w != 4 || !g
  | .e4m3 | .e5m2 | .int8 | .int4 => isrc || floatW w
  | .raw => !isrc && floatW w
  | .mxfp8 | .mxfp4 | .qn4 | .qn4s | .mxs | .zm8 | .zm16 => false

/-- The exact source value of VCVT. -/
def cvtSource (g isrc : Bool) (w x : Nat) : Num :=
  if isrc then numOfInt (if g then signedOf w x else x)
  else if w == 32 then decodeF fp32 x
  else if w == 16 then decodeF bf16 x
  else if w == 8 then decodeF (if g then e5m2 else e4m3) x
  else decodeF e2m1 x

/-- One element converted (R58, R158). -/
def cvtElem (g isrc : Bool) (t : Fmt) (r : Round) (w x : Nat) : Nat :=
  let v := cvtSource g isrc w x
  if isIntTarget t then
    let wt := cvtWidth t w
    wrapInt wt (if g then numToInt r (loS wt) (hiS wt) v else numToInt r 0 (hiU wt) v)
  else numToF ((layoutOf (fmtCode t)).getD fp32) r v

def execVcvt (d a : BitVec 6) (g isrc : Bool) (t : Fmt) (p : BitVec 3) (r : Round) (s : State) :
    Host.Outcome State Fault Refusal :=
  vWord s (governed d p
    { srcs := [a], okW := cvtOk g isrc t, outW := cvtWidth t, fmt := fun w => if t == .raw then intFmt w else fmtCode t }
    (fun w n l => packElems (cvtWidth t w) n (fun e => cvtElem g isrc t r w (elemAt (arg l 0) w e))))

def execVwid (d a : BitVec 6) (p : BitVec 3) (x : NumKind) (s : State) : Host.Outcome State Fault Refusal :=
  vWord s (governed d p
    { srcs := [a], outW := fun w => 2 * w, fmt := fun w => if x == .float then 2 else intFmt (2 * w)
      okW := fun w => match x with
        | .float => w == 16
        | .signed | .unsigned => w != 32 }
    (fun w n l => packElems (2 * w) n (fun e =>
      let y := elemAt (arg l 0) w e
      match x with
      | .float => numToF fp32 .rne (decodeF bf16 y)
      | .signed => wrapInt (2 * w) (signedOf w y)
      | .unsigned => y)))

def execVnar (d a : BitVec 6) (p : BitVec 3) (x : NumKind) (s : State) : Host.Outcome State Fault Refusal :=
  vWord s (governed d p
    { srcs := [a], outW := fun w => w / 2, fmt := fun w => if x == .float then 1 else intFmt (w / 2)
      okW := fun w => match x with
        | .float => w == 32
        | .signed | .unsigned => w != 4 }
    (fun w n l => packElems (w / 2) n (fun e =>
      let y := elemAt (arg l 0) w e
      match x with
      | .float => numToF bf16 .rne (decodeF fp32 y)
      | .signed => wrapInt (w / 2) (clampInt (loS (w / 2)) (hiS (w / 2)) (signedOf w y))
      | .unsigned => wrapInt (w / 2) (clampInt 0 (hiU (w / 2)) y))))

-- Reductions and scans (R160).
def elems (x w n : Nat) : List Nat := (List.range n).map (elemAt x w)

def reduce (x : RedOp) (w : Nat) (l : List Nat) : Nat :=
  match x with
  | .fsum => numToF (layW w) .rne (numSum (l.map (decodeF (layW w))))
  | .fmax =>
    match l with
    | [] => 0
    | y :: rest => numToF (layW w) .rne (rest.foldl (fun m z => numMax m (decodeF (layW w) z)) (decodeF (layW w) y))
  | .isum => l.foldl (fun m z => (m + z) % pow2 w) 0
  | .imax =>
    match l with
    | [] => 0
    | y :: rest => rest.foldl (fun m z => if below true w m z then z else m) y

def redFloat : RedOp → Bool
  | .fsum | .fmax => true
  | .isum | .imax => false

def execVred (d a : BitVec 6) (p : BitVec 3) (x : RedOp) (s : State) : Host.Outcome State Fault Refusal :=
  vWord s (do
    let (w, n, kp) ← getP p
    if n == 0 then pure ()
    else
      let g := groupSize n w
      mOperand .v ((!redFloat x || floatW w) && groupOk a g && destFieldOk d && groupOk d 1)
      let (v, k) ← readGroup a g
      let f := if redFloat x then floatFmt w else intFmt w
      let r := reduce x w (elems v w n)
      if isPort d then do
        let t ← mSeat
        mNeeds (decide ((qLive t t.ports[portOf d]).length < 8)) .portFull
        mModSeat (fun t => { t with ports := t.ports.set (portOf d) (qLive t t.ports[portOf d] ++
          [⟨{ data := BitVec.ofNat 4096 r, taint := k ||| kp, vcnt := 1, last := true, fmt := f }, t.engV.lsn, none, .v, .s⟩]) })
      else writeGroup d f w 1 r (k ||| kp) true 0)

/-- The inclusive prefix sums: `m` holds the elements so far, newest first. -/
def scanList (x : ScanOp) (w : Nat) (l : List Nat) : List Nat :=
  match x with
  | .isum => (l.foldl (fun (r : Nat × List Nat) y => let m := (r.1 + y) % pow2 w; (m, m :: r.2)) (0, [])).2.reverse
  | .fsum =>
    match l with
    | [] => []
    | y :: rest =>
      let first := decodeF (layW w) y
      let r := rest.foldl (fun (r : Num × List Num) z => let m := numAdd r.1 (decodeF (layW w) z); (m, m :: r.2)) (first, [first])
      r.2.reverse.map (numToF (layW w) .rne)

def execVscan (d a : BitVec 6) (p : BitVec 3) (x : ScanOp) (s : State) : Host.Outcome State Fault Refusal :=
  vWord s (governed d p
    { srcs := [a], okW := fun w => x == .isum || floatW w, fmt := if x == .fsum then floatFmt else intFmt }
    (fun w n l => packList w (scanList x w (elems (arg l 0) w n))))

-- Special functions (R162).
def execVsfu (d a : BitVec 6) (f : SfuFn) (p : BitVec 3) (s : State) : Host.Outcome State Fault Refusal :=
  unary true d a p (fun w x => sfu f (layW w) x) s

end Sys2Proof.Machine
end

