-- ==== Sys2Proof/Machine/VectorShape.lean ====
section
/-! DEFINITION. Moves and shuffles, tile access, lane slices and predicates (R161, R163-R168). -/

namespace Sys2Proof.Machine

-- Moves and shuffles (R161).
def execVperm (d a b : BitVec 6) (p : BitVec 3) (s : State) : Host.Outcome State Fault Refusal :=
  vWord s (governed d p { srcs := [a, b], fmt := intFmt }
    (fun w n l => packElems w n (fun e =>
      let i := elemAt (arg l 1) w e
      if i < n then elemAt (arg l 0) w i else 0)))

def execVslide (d a b : BitVec 6) (p : BitVec 3) (s : State) : Host.Outcome State Fault Refusal :=
  vWord s (do
    let (x, k) ← getX .v b
    governed d p { srcs := [a], fmt := intFmt, extra := k }
      (fun w n l => packElems w n (fun e =>
        let i : Int := e + x.toInt
        if 0 ≤ i ∧ i < n then elemAt (arg l 0) w i.toNat else 0)))

def execVbcast (d a : BitVec 6) (p : BitVec 3) (s : State) : Host.Outcome State Fault Refusal :=
  vWord s (do
    let (x, k) ← getX .v a
    governed d p { srcs := [], fmt := intFmt, extra := k } (fun w n _ => packElems w n (fun _ => x.toNat)))

def execVmov (d a : BitVec 6) (p : BitVec 3) (s : State) : Host.Outcome State Fault Refusal := unary false d a p (fun _ x => x) s

def execVmovi (d : BitVec 6) (imm : BitVec 12) (p : BitVec 3) (x : MoviKind) (s : State) : Host.Outcome State Fault Refusal :=
  vWord s (governed d p { srcs := [], okW := fun w => x == .int || floatW w, fmt := if x == .float then floatFmt else intFmt }
    (fun w n _ => packElems w n (fun _ => match x with
      | .int => wrapInt w imm.toInt
      | .float => numToF (layW w) .rne (numOfInt imm.toInt))))

-- Tiles (R163-R165).
/-- One element written to a tile of a format (R163). -/
def tileElem (tag : FCode) (w x : Nat) : Nat :=
  if tag == 0 then x
  else if tag == 12 || tag == 13 then
    let wt := widthOf tag
    wrapInt wt (clampInt (loS wt) (hiS wt) (signedOf w x))
  else convertOut tag (decodeF (layW w) x)

def tagWidth (tag : FCode) (w : Nat) : Nat := if tag == 0 then w else widthOf tag

/-- A tag that VTW accepts for a source width (R163). -/
def vtwOk (tag : FCode) (w n : Nat) : Bool :=
  (tag == 0 || tag == 12 || tag == 13 || ((layoutOf tag).isSome && floatW w)) && decide (n * tagWidth tag w ≤ 4096)

def execVtw (d a b : BitVec 6) (p : BitVec 3) (s : State) : Host.Outcome State Fault Refusal :=
  vWord s (do
    let k : Fin 8 := Fin.ofNat 8 d.toNat
    let (w, n, kp) ← getP p
    if n == 0 then pure ()
    else
      let (x, kx) ← getX .v b
      let tag := s.seat.tiles[k].tag
      let g := groupSize n w
      mOperand .v (decide (x.toNat ≤ 31) && vtwOk tag w n && groupOk a g)
      let r : Fin 32 := Fin.ofNat 32 x.toNat
      mNeeds (!(s.seat.rowNow k r).full) .tile
      mRoom .v 1
      let (v, ka) ← readGroup a g
      let data := packElems (tagWidth tag w) n (fun e => tileElem tag w (elemAt v w e))
      mModSeat (fun t =>
        (t.pushLog .v (.row k r (t.rowNow k r))).setRow k r
          { full := true, data := BitVec.ofNat 4096 data, taint := ka ||| kp ||| kx, lsn := t.engV.lsn }))

/-- VTR (R164). An entry pushed to a port carries the tile's tag as its format (DESIGN CHOICE, log 108: R164 gives none). -/
def execVtr (d a b : BitVec 6) (s : State) : Host.Outcome State Fault Refusal :=
  vWord s (do
    let k : Fin 8 := Fin.ofNat 8 a.toNat
    let (x, kx) ← getX .v b
    let tag := s.seat.tiles[k].tag
    mOperand .v (decide (x.toNat ≤ 31) && !(tag == 5 || tag == 6) && destFieldOk d)
    let l ← myLsn .v
    mNeeds (allRows.all (fun r => s.seat.rowFull l k r)) .tile
    let rows ← mMap allRows (mRow k)
    let wt := widthOf tag
    let cols := 128 / wt
    let data := packElems wt (32 * cols) (fun e =>
      elemAt ((rows[e % 32]?).getD {}).data.toNat wt (x.toNat * cols + e / 32))
    let kt := rows.foldl (fun k r => k ||| r.taint) kx
    writeGroup d tag wt (32 * cols) data kt true 0
    if s.seat.engV.side.lr then mModSeat (takeRows .v k l allRows) else pure ())

def execTfmt (d : BitVec 6) (f : BitVec 4) (s : State) : Host.Outcome State Fault Refusal :=
  vWord s (do
    let k : Fin 8 := Fin.ofNat 8 d.toNat
    mOperand .v (tileFmt f)
    mRoom .v 1
    mModSeat (fun t =>
      let t := t.pushLog .v (.tag k t.tiles[k].tag)
      { t with tiles := t.tiles.set k { t.tiles[k] with tag := f } }))

-- Lane slices (R124, R166).
/-- The lane and offset of element e. -/
def laneOf (w e : Nat) : Nat := (e * w) % 4096 / 128

/-- Checks every element's offset, lowest first (R166). -/
def laneCheck (w : Nat) (offs : List Dword) : Run Unit :=
  match offs with
  | [] => .ok ()
  | o :: rest => do
    check (o.toNat % (w / 8) == 0) FC.align o 0
    check (decide (o.toNat + w / 8 ≤ 2048)) FC.objBounds o 2
    laneCheck w rest

/-- The offsets of the active elements. -/
def laneOffsets (w n a : Nat) (x : Dword) : List Dword := (List.range n).map (fun e => x + BitVec.ofNat 64 (elemAt a w e))

/-- The place of byte `o` of lane `l` in the seat's lanes. -/
def laneKey (l o : Nat) : Nat := 2048 * l + o

/-- VLSL (R166): the entry that it pushes to a port has FMT RAW, as integers have (DESIGN CHOICE, log 107: R166 names no type). -/
def execVlsl (d a b : BitVec 6) (p : BitVec 3) (s : State) : Host.Outcome State Fault Refusal :=
  vWord s (do
    let (w, n, kp) ← getP p
    if n == 0 then pure ()
    else
      let (x, kx) ← getX .v b
      let g := groupSize n w
      mOperand .v (floatW w && groupOk a g && destFieldOk d && groupOk d g)
      let (v, ka) ← readGroup a g
      let offs := laneOffsets w n v x
      liftRun (laneCheck w offs)
      let r := packElems w n (fun e => natOfBytes ((List.range (w / 8)).map (fun i =>
        Memory.read s.seat.lanes (laneKey (laneOf w e) ((nth offs e 0).toNat + i)))))
      writeGroup d (intFmt w) w n r (ka ||| kx ||| kp) false 0)

/-- The pass over the lanes in which a VLSS stores element e: one element for each lane, in order, for each register. -/
def lanePass (w e : Nat) : Nat := e * w / 4096 * (128 / w) + e % (128 / w)

/-- The passes of a VLSS of `n` elements, at most 48: each takes a log entry (R32; log 19). -/
def lanePasses (w n : Nat) : List Nat := ((List.range n).map (lanePass w)).eraseDups

def execVlss (d a b : BitVec 6) (p : BitVec 3) (s : State) : Host.Outcome State Fault Refusal :=
  vWord s (do
    let (w, n, _) ← getP p
    if n == 0 then pure ()
    else
      let (x, _) ← getX .v b
      let g := groupSize n w
      mOperand .v (floatW w && groupOk a g && groupOk d g)
      let (v, _) ← readGroup a g
      let (o, _) ← readGroup d g
      let offs := laneOffsets w n v x
      liftRun (laneCheck w offs)
      mRoom .v (lanePasses w n).length
      mModSeat (fun t =>
        let old (p : Nat) : List (Nat × Byte) := ((List.range n).filter (fun e => lanePass w e == p)).flatMap (fun e =>
          (List.range (w / 8)).map (fun i =>
            let k := laneKey (laneOf w e) ((nth offs e 0).toNat + i)
            (k, Memory.read t.lanes k)))
        let t := (lanePasses w n).foldl (fun t p => t.pushLog .v (.lane p (old p))) t
        { t with lanes := (List.range n).foldl (fun m e =>
          Memory.writeBytes m (laneKey (laneOf w e) (nth offs e 0).toNat) (bytesOf (BitVec.ofNat 32 (elemAt o w e)) (w / 8))) t.lanes }))

-- Predicates (R167).
def widthBits : EWidth → BitVec 2
  | .w4 => 0 | .w8 => 1 | .w16 => 2 | .w32 => 3

def predValue (w : EWidth) (c : BitVec 13) : BitVec 16 := (0 : BitVec 1) ++ widthBits w ++ c

def execPset (w : EWidth) (n : BitVec 3) (c : BitVec 13) (s : State) : Host.Outcome State Fault Refusal :=
  vWord s (do
    mRoom .v 1
    mModSeat (fun t => t.wrP n.toNat (predValue w c) 0))

def execPwhile (w : EWidth) (n : BitVec 3) (a : BitVec 6) (g : BitVec 3) (s : State) : Host.Outcome State Fault Refusal :=
  vWord s (do
    mRoom .v 2
    let (x, k) ← getX .v a
    let cap := g.toNat * 4096 / (4 <<< (widthBits w).toNat)
    let c := Nat.min x.toNat cap
    mModSeat (fun t => (t.wrP n.toNat (predValue w (BitVec.ofNat 13 c)) k).wrX .v (a.setWidth 4) (x - BitVec.ofNat 64 c) k))

def execPcnt (d : BitVec 6) (n : BitVec 3) (s : State) : Host.Outcome State Fault Refusal :=
  vWord s (do
    mRoom .v 1
    let (_, c, k) ← getP n
    putX .v (d.setWidth 4) (BitVec.ofNat 64 c) k)

end Sys2Proof.Machine
end

