-- ==== Sys2Proof/Machine/Dispatch.lean ====
section
/-! DEFINITION. The meaning of each instruction and event: one arm per constructor of `Instr`. -/

namespace Sys2Proof.Machine

def exec (i : Instr) (s : State) : Host.Outcome State Fault Refusal :=
  match i with
  | .add d a b => Sys2Proof.Machine.execAdd d a b s
  | .sub d a b => Sys2Proof.Machine.execSub d a b s
  | .and d a b => Sys2Proof.Machine.execAnd d a b s
  | .or d a b => Sys2Proof.Machine.execOr d a b s
  | .xor d a b => Sys2Proof.Machine.execXor d a b s
  | .andn d a b => Sys2Proof.Machine.execAndn d a b s
  | .shl d a b => Sys2Proof.Machine.execShl d a b s
  | .shr d a b => Sys2Proof.Machine.execShr d a b s
  | .sar d a b => Sys2Proof.Machine.execSar d a b s
  | .rot d a b => Sys2Proof.Machine.execRot d a b s
  | .min d a b => Sys2Proof.Machine.execMin d a b s
  | .max d a b => Sys2Proof.Machine.execMax d a b s
  | .minu d a b => Sys2Proof.Machine.execMinu d a b s
  | .maxu d a b => Sys2Proof.Machine.execMaxu d a b s
  | .slt d a b => Sys2Proof.Machine.execSlt d a b s
  | .sltu d a b => Sys2Proof.Machine.execSltu d a b s
  | .seq d a b => Sys2Proof.Machine.execSeq d a b s
  | .mul d a b => Sys2Proof.Machine.execMul d a b s
  | .mulh d a b => Sys2Proof.Machine.execMulh d a b s
  | .mulhu d a b => Sys2Proof.Machine.execMulhu d a b s
  | .div d a b => Sys2Proof.Machine.execDiv d a b s
  | .divu d a b => Sys2Proof.Machine.execDivu d a b s
  | .rem d a b => Sys2Proof.Machine.execRem d a b s
  | .remu d a b => Sys2Proof.Machine.execRemu d a b s
  | .clz d a => Sys2Proof.Machine.execClz d a s
  | .ffs d a => Sys2Proof.Machine.execFfs d a s
  | .popc d a => Sys2Proof.Machine.execPopc d a s
  | .brev d a => Sys2Proof.Machine.execBrev d a s
  | .bswp d a => Sys2Proof.Machine.execBswp d a s
  | .csel d a b => Sys2Proof.Machine.execCsel d a b s
  | .addw d a b => Sys2Proof.Machine.execAddw d a b s
  | .sext d a sz => Sys2Proof.Machine.execSext d a sz s
  | .addi d a imm => Sys2Proof.Machine.execAddi d a imm s
  | .andi d a imm => Sys2Proof.Machine.execAndi d a imm s
  | .ori d a imm => Sys2Proof.Machine.execOri d a imm s
  | .xori d a imm => Sys2Proof.Machine.execXori d a imm s
  | .shli d a n => Sys2Proof.Machine.execShli d a n s
  | .shri d a n => Sys2Proof.Machine.execShri d a n s
  | .sari d a n => Sys2Proof.Machine.execSari d a n s
  | .roti d a n => Sys2Proof.Machine.execRoti d a n s
  | .slti d a imm => Sys2Proof.Machine.execSlti d a imm s
  | .sltui d a imm => Sys2Proof.Machine.execSltui d a imm s
  | .movw d w => Sys2Proof.Machine.execMovw d w s
  | .movk1 d w => Sys2Proof.Machine.execMovk1 d w s
  | .movk2 d w => Sys2Proof.Machine.execMovk2 d w s
  | .movk3 d w => Sys2Proof.Machine.execMovk3 d w s
  | .ldb d a imm => Sys2Proof.Machine.execLdb d a imm s
  | .ldh d a imm => Sys2Proof.Machine.execLdh d a imm s
  | .ldw d a imm => Sys2Proof.Machine.execLdw d a imm s
  | .ldd d a imm => Sys2Proof.Machine.execLdd d a imm s
  | .stb d a imm => Sys2Proof.Machine.execStb d a imm s
  | .sth d a imm => Sys2Proof.Machine.execSth d a imm s
  | .stw d a imm => Sys2Proof.Machine.execStw d a imm s
  | .std d a imm => Sys2Proof.Machine.execStd d a imm s
  | .ldx d a b c sz => Sys2Proof.Machine.execLdx d a b c sz s
  | .ldxFill d n => Sys2Proof.Machine.execLdxFill d n s
  | .stx d a b c sz => Sys2Proof.Machine.execStx d a b c sz s
  | .stxSpill d n => Sys2Proof.Machine.execStxSpill d n s
  | .amo d a b ord op => Sys2Proof.Machine.execAmo d a b ord op s
  | .amow d a b ord op => Sys2Proof.Machine.execAmow d a b ord op s
  | .beq d a imm => Sys2Proof.Machine.execBeq d a imm s
  | .bne d a imm => Sys2Proof.Machine.execBne d a imm s
  | .blt d a imm => Sys2Proof.Machine.execBlt d a imm s
  | .bge d a imm => Sys2Proof.Machine.execBge d a imm s
  | .bltu d a imm => Sys2Proof.Machine.execBltu d a imm s
  | .bgeu d a imm => Sys2Proof.Machine.execBgeu d a imm s
  | .jmp j => Sys2Proof.Machine.execJmp j s
  | .call j => Sys2Proof.Machine.execCall j s
  | .jr d a => Sys2Proof.Machine.execJr d a s
  | .phase r => Sys2Proof.Machine.execPhase r s
  | .untaint d => Sys2Proof.Machine.execUntaint d s
  | .taint d a => Sys2Proof.Machine.execTaint d a s
  | .fence mask => Sys2Proof.Machine.execFence mask s
  | .trap code => Sys2Proof.Machine.execTrap code s
  | .eret => Sys2Proof.Machine.execEret s
  | .sysrd d r => Sys2Proof.Machine.execSysrd d r s
  | .syswr d r => Sys2Proof.Machine.execSyswr d r s
  | .icinv => Sys2Proof.Machine.execIcinv s
  | .tlbinv a mode => Sys2Proof.Machine.execTlbinv a mode s
  | .halt => Sys2Proof.Machine.execHalt s
  | .bkpt => Sys2Proof.Machine.execBkpt s
  | .yield => Sys2Proof.Machine.execYield s
  | .exit => Sys2Proof.Machine.execExit s
  | .xsend a e => Sys2Proof.Machine.execXsend a e s
  | .padmap d a => Sys2Proof.Machine.execPadmap d a s
  | .spawn d a b => Sys2Proof.Machine.execSpawn d a b s
  | .scopeo d a => Sys2Proof.Machine.execScopeo d a s
  | .scopec a => Sys2Proof.Machine.execScopec a s
  | .quench e a => Sys2Proof.Machine.execQuench e a s
  | .cwait d a => Sys2Proof.Machine.execCwait d a s
  | .cread d a => Sys2Proof.Machine.execCread d a s
  | .barArrive a => Sys2Proof.Machine.execBarArrive a s
  | .barWait a => Sys2Proof.Machine.execBarWait a s
  | .barSync a => Sys2Proof.Machine.execBarSync a s
  | .barInit a b => Sys2Proof.Machine.execBarInit a b s
  | .dcbClean a b => Sys2Proof.Machine.execDcbClean a b s
  | .dcbInv a b => Sys2Proof.Machine.execDcbInv a b s
  | .dcbFlush a b => Sys2Proof.Machine.execDcbFlush a b s
  | .dcbPf a b => Sys2Proof.Machine.execDcbPf a b s
  | .dcbZero a b => Sys2Proof.Machine.execDcbZero a b s
  | .icpf a imm => Sys2Proof.Machine.execIcpf a imm s
  | .strm d a b k y n => Sys2Proof.Machine.execStrm d a b k y n s
  | .strmg d a b k y n => Sys2Proof.Machine.execStrmg d a b k y n s
  | .strmc d => Sys2Proof.Machine.execStrmc d s
  | .ldv d a b c => Sys2Proof.Machine.execLdv d a b c s
  | .ldt d a b r => Sys2Proof.Machine.execLdt d a b r s
  | .pfd a b => Sys2Proof.Machine.execPfd a b s
  | .vfadd d a b p => Sys2Proof.Machine.execVfadd d a b p s
  | .vfsub d a b p => Sys2Proof.Machine.execVfsub d a b p s
  | .vfmul d a b p => Sys2Proof.Machine.execVfmul d a b p s
  | .vfma d a b p => Sys2Proof.Machine.execVfma d a b p s
  | .vfmin d a b p => Sys2Proof.Machine.execVfmin d a b p s
  | .vfmax d a b p => Sys2Proof.Machine.execVfmax d a b p s
  | .vfabs d a p => Sys2Proof.Machine.execVfabs d a p s
  | .vfneg d a p => Sys2Proof.Machine.execVfneg d a p s
  | .vadd d a b p x => Sys2Proof.Machine.execVadd d a b p x s
  | .vsub d a b p x => Sys2Proof.Machine.execVsub d a b p x s
  | .vmul d a b p x => Sys2Proof.Machine.execVmul d a b p x s
  | .vmin d a b p sn => Sys2Proof.Machine.execVmin d a b p sn s
  | .vmax d a b p sn => Sys2Proof.Machine.execVmax d a b p sn s
  | .vabs d a p sn => Sys2Proof.Machine.execVabs d a p sn s
  | .vand d a b p => Sys2Proof.Machine.execVand d a b p s
  | .vor d a b p => Sys2Proof.Machine.execVor d a b p s
  | .vxor d a b p => Sys2Proof.Machine.execVxor d a b p s
  | .vandn d a b p => Sys2Proof.Machine.execVandn d a b p s
  | .vshl d a b p => Sys2Proof.Machine.execVshl d a b p s
  | .vshr d a b p h => Sys2Proof.Machine.execVshr d a b p h s
  | .vclz d a p => Sys2Proof.Machine.execVclz d a p s
  | .vffs d a p => Sys2Proof.Machine.execVffs d a p s
  | .vpopc d a p => Sys2Proof.Machine.execVpopc d a p s
  | .vfcmp d a b p x => Sys2Proof.Machine.execVfcmp d a b p x s
  | .vicmp d a b p x => Sys2Proof.Machine.execVicmp d a b p x s
  | .vsel d a b p => Sys2Proof.Machine.execVsel d a b p s
  | .vcvt d a g isrc t p r => Sys2Proof.Machine.execVcvt d a g isrc t p r s
  | .vwid d a p x => Sys2Proof.Machine.execVwid d a p x s
  | .vnar d a p x => Sys2Proof.Machine.execVnar d a p x s
  | .vred d a p x => Sys2Proof.Machine.execVred d a p x s
  | .vscan d a p x => Sys2Proof.Machine.execVscan d a p x s
  | .vperm d a b p => Sys2Proof.Machine.execVperm d a b p s
  | .vslide d a b p => Sys2Proof.Machine.execVslide d a b p s
  | .vbcast d a p => Sys2Proof.Machine.execVbcast d a p s
  | .vmov d a p => Sys2Proof.Machine.execVmov d a p s
  | .vmovi d imm p x => Sys2Proof.Machine.execVmovi d imm p x s
  | .vsfu d a f p => Sys2Proof.Machine.execVsfu d a f p s
  | .vtw d a b p => Sys2Proof.Machine.execVtw d a b p s
  | .vtr d a b => Sys2Proof.Machine.execVtr d a b s
  | .tfmt d f => Sys2Proof.Machine.execTfmt d f s
  | .vlsl d a b p => Sys2Proof.Machine.execVlsl d a b p s
  | .vlss d a b p => Sys2Proof.Machine.execVlss d a b p s
  | .pset w n c => Sys2Proof.Machine.execPset w n c s
  | .pwhile w n a g => Sys2Proof.Machine.execPwhile w n a g s
  | .pcnt d n => Sys2Proof.Machine.execPcnt d n s
  | .mlease w => Sys2Proof.Machine.execMlease w s
  | .myield => Sys2Proof.Machine.execMyield s
  | .mldb d a b => Sys2Proof.Machine.execMldb d a b s
  | .mmul d a h k m y x c r => Sys2Proof.Machine.execMmul d a h k m y x c r s
  | .mmulg d a m q y x c k => Sys2Proof.Machine.execMmulg d a m q y x c k s
  | .aballoc d cnt => Sys2Proof.Machine.execAballoc d cnt s
  | .abfree d cnt => Sys2Proof.Machine.execAbfree d cnt s
  | .abown d a b => Sys2Proof.Machine.execAbown d a b s
  | .mresume => Sys2Proof.Machine.execMresume s
  | .stv d a b c => Sys2Proof.Machine.execStv d a b c s
  | .wstrm d a b k => Sys2Proof.Machine.execWstrm d a b k s
  | .stt d a b r => Sys2Proof.Machine.execStt d a b r s
  | .drn d a b z t u sc => Sys2Proof.Machine.execDrn d a b z t u sc s
  | .dcfg r w => Sys2Proof.Machine.execDcfg r w s
  | .dcfgRegister r x => Sys2Proof.Machine.execDcfgRegister r x s
  | .cpy d a b => Sys2Proof.Machine.execCpy d a b s
  | .cpys d a b c => Sys2Proof.Machine.execCpys d a b c s
  | .cpyh d a b n => Sys2Proof.Machine.execCpyh d a b n s
  | .cpyr d a b bf => Sys2Proof.Machine.execCpyr d a b bf s
  | .cvtl d a => Sys2Proof.Machine.execCvtl d a s
  | .cpyc b => Sys2Proof.Machine.execCpyc b s
  | .nop e => Sys2Proof.Machine.execNop e s
  | .evpost e n => Sys2Proof.Machine.execEvpost e n s
  | .evwait e n => Sys2Proof.Machine.execEvwait e n s
  | .loop e c imm => Sys2Proof.Machine.execLoop e c imm s
  | .lcset e c w => Sys2Proof.Machine.execLcset e c w s
  | .lcsetQueue e c => Sys2Proof.Machine.execLcsetQueue e c s
  | .follow e j => Sys2Proof.Machine.execFollow e j s
  | .jmpe e j => Sys2Proof.Machine.execJmpe e j s
  | .tkwait e mask => Sys2Proof.Machine.execTkwait e mask s
  | .notify e => Sys2Proof.Machine.execNotify e s
  | .xrecv e d => Sys2Proof.Machine.execXrecv e d s
  | .xaddi e d a imm => Sys2Proof.Machine.execXaddi e d a imm s
  | .xmovw e d w => Sys2Proof.Machine.execXmovw e d w s
  | .xadd e d a b => Sys2Proof.Machine.execXadd e d a b s
  | .generatorPush q => Sys2Proof.Machine.execGeneratorPush q s
  | .predictionConfirm q => Sys2Proof.Machine.execPredictionConfirm q s
  | .chainRecord ch => Sys2Proof.Machine.execChainRecord ch s
  | .copyRetire k => Sys2Proof.Machine.execCopyRetire k s
  | .unitPlacement seat => Sys2Proof.Machine.execUnitPlacement seat s
  | .unitResume seat => Sys2Proof.Machine.execUnitResume seat s
  | .hearthPageService entry => Sys2Proof.Machine.execHearthPageService entry s
  | .faultReplyResume vf seq => Sys2Proof.Machine.execFaultReplyResume vf seq s
  | .faultReplyQuench vf seq => Sys2Proof.Machine.execFaultReplyQuench vf seq s
  | .doorbellWrite vf q tail host => Sys2Proof.Machine.execDoorbellWrite vf q tail host s
  | .qerrClear vf reg mask => Sys2Proof.Machine.execQerrClear vf reg mask s
  | .slipbaseWrite vf part val => Sys2Proof.Machine.execSlipbaseWrite vf part val s
  | .registerWrite vf off val => Sys2Proof.Machine.execRegisterWrite vf off val s
  | .queueBind die slot vf q => Sys2Proof.Machine.execQueueBind die slot vf q s
  | .job vf q => Sys2Proof.Machine.execJob vf q s
  | .pass vf q => Sys2Proof.Machine.execPass vf q s
  | .graph vf q => Sys2Proof.Machine.execGraph vf q s
  | .launch vf q => Sys2Proof.Machine.execLaunch vf q s
  | .close vf q => Sys2Proof.Machine.execClose vf q s
  | .workQueueRestore die => Sys2Proof.Machine.execWorkQueueRestore die s
  | .watchdogExpiry die slot => Sys2Proof.Machine.execWatchdogExpiry die slot s
  | .gracePeriodExpiry part => Sys2Proof.Machine.execGracePeriodExpiry part s
  | .fabricPacketReceive port tag epoch write => Sys2Proof.Machine.execFabricPacketReceive port tag epoch write s
  | .dieLinkRetryExhausted die link => Sys2Proof.Machine.execDieLinkRetryExhausted die link s
  | .dropCounterRead port => Sys2Proof.Machine.execDropCounterRead port s
  | .moduleReset run => Sys2Proof.Machine.execModuleReset run s
  | .getVersion die => Sys2Proof.Machine.execGetVersion die s
  | .getCapabilities die => Sys2Proof.Machine.execGetCapabilities die s
  | .negotiateAlgorithms die peer => Sys2Proof.Machine.execNegotiateAlgorithms die peer s
  | .getDigests die => Sys2Proof.Machine.execGetDigests die s
  | .getCertificate die => Sys2Proof.Machine.execGetCertificate die s
  | .challenge die nonce => Sys2Proof.Machine.execChallenge die nonce s
  | .getMeasurements die idx => Sys2Proof.Machine.execGetMeasurements die idx s
  | .keyExchange die peer => Sys2Proof.Machine.execKeyExchange die peer s
  | .finish die sid => Sys2Proof.Machine.execFinish die sid s
  | .keyUpdate die sid => Sys2Proof.Machine.execKeyUpdate die sid s
  | .heartbeat die sid => Sys2Proof.Machine.execHeartbeat die sid s
  | .endSession die sid => Sys2Proof.Machine.execEndSession die sid s
  | .lockInterfaceRequest vf at_ => Sys2Proof.Machine.execLockInterfaceRequest vf at_ s
  | .startInterfaceRequest vf => Sys2Proof.Machine.execStartInterfaceRequest vf s
  | .stopInterfaceRequest vf => Sys2Proof.Machine.execStopInterfaceRequest vf s
  | .keyProg stream at_ vfs => Sys2Proof.Machine.execKeyProg stream at_ vfs s
  | .tdiRequestOutsideStream vf => Sys2Proof.Machine.execTdiRequestOutsideStream vf s
  | .codeObjectLoad vf proc tagOk system kernels images place => Sys2Proof.Machine.execCodeObjectLoad vf proc tagOk system kernels images place s
  | .imageUnload handle => Sys2Proof.Machine.execImageUnload handle s
  | .forcedUnload handle => Sys2Proof.Machine.execForcedUnload handle s
  | .clusterMove cluster part => Sys2Proof.Machine.execClusterMove cluster part s
  | .partitionMapChange die ring ways allowed parts => Sys2Proof.Machine.execPartitionMapChange die ring ways allowed parts s
  | .cellRetirement cell => Sys2Proof.Machine.execCellRetirement cell s
  | .hearthStateDamage parts => Sys2Proof.Machine.execHearthStateDamage parts s
  | .pinRequest die slot pin => Sys2Proof.Machine.execPinRequest die slot pin s
  | .testRequest part on => Sys2Proof.Machine.execTestRequest part on s
  | .gatedStoreDrain => Sys2Proof.Machine.execGatedStoreDrain s
  | .leaseGrant => Sys2Proof.Machine.execLeaseGrant s
  | .leaseRunEnd => Sys2Proof.Machine.execLeaseRunEnd s
  | .matrixCommandCompletion => Sys2Proof.Machine.execMatrixCommandCompletion s
  | .drainCompletion => Sys2Proof.Machine.execDrainCompletion s
  | .unitCompletion => Sys2Proof.Machine.execUnitCompletion s
  | .unitKill => Sys2Proof.Machine.execUnitKill s
  | .forcedCheck => Sys2Proof.Machine.execForcedCheck s
  | .chipTick => Sys2Proof.Machine.execChipTick s
  | .sliceEnd => Sys2Proof.Machine.execSliceEnd s
  | .faultRaise => Sys2Proof.Machine.execFaultRaise s
  | .jobAdmission => Sys2Proof.Machine.execJobAdmission s
  | .responseTimeout => Sys2Proof.Machine.execResponseTimeout s
  | .atomicLanding => Sys2Proof.Machine.execAtomicLanding s
  | .haltResume => Sys2Proof.Machine.execHaltResume s

end Sys2Proof.Machine
end

