-- ==== Sys2Proof/Machine/Soft.lean ====
section
/-! DEFINITION. Soft errors (R288-R291): what the environment may do to the seat at hand, its cluster, its die and memory. -/

namespace Sys2Proof.Machine

/-- The `k`-th member of a list changed. -/
def changeNth {α : Type} (k : Nat) (f : α → α) (l : List α) : List α := l.modify k f

/-- How many bytes one mark covers, and where it may stand (R278, R288): the 64 bits of an L1 line of the cell, of an L2 line, of a pad, window or
die pad, or a line of HBM; 0 where the structure does not hold the location. -/
def markSize (s : State) (key : Nat) (kind : Byte) : Nat :=
  let held (h : Nat) : Bool := s.lineTags.any (fun t => t.holder == h && t.line == key / 128)
  if isWindow key || isNear key || (decide (nodeOf key < 4) && isDiePad key) then if kind == 4 then 8 else 0
  else if decide (nodeOf key < 4) then
    if kind == 5 then 128
    else if kind == 3 && held (1024 + nodeOf key) then 8
    else if kind == 2 && held (cellOf s.seat.id) then 8
    else 0
  else if farHome key && kind == 2 && held (cellOf s.seat.id) then 8
  else 0

/-- A location is marked damaged. -/
def markMem (key : Nat) (kind : Byte) (s : State) : State :=
  let n := markSize s key kind
  if n == 0 then s
  else
    let lo := key / n * n
    let m : MemMark := { lo := lo, n := n, left := (List.range n).map (fun i => lo + i), kind := kind
                         cell := if kind == 2 then some (cellOf s.seat.id) else none }
    { s with badMem := s.badMem ++ [m] }

def damageReg (d : Damage) (t : Seat) : Seat := { t with damage := if t.damage.contains d then t.damage else d :: t.damage }

/-- The log of an engine changed. -/
def changeLog (e : Eng) (f : List LogEntry → List LogEntry) (t : Seat) : Seat :=
  match e with
  | .s => { t with slagS := f t.slagS }
  | .v => { t with slagV := f t.slagV }
  | .a => { t with logA := f t.logA }
  | .m | .w | .c => t

/-- The Anvil of the cluster at hand changed. -/
def changeAnvil (f : Anvil → Anvil) (s : State) : State := s.setAnvil s.here (f (s.anvil s.here))

/-- A soft error at the seat at hand. -/
def softError (d : SoftError) (s : State) : State :=
  match d with
  | .sreg r => if r == 0 then s else s.onSeat (damageReg (.sreg r))
  | .xreg e r => s.onSeat (damageReg (.xreg e r))
  | .vreg r => s.onSeat (damageReg (.vreg r))
  | .pred r => s.onSeat (damageReg (.pred r))
  | .port q k => s.onSeat (fun t => { t with ports := t.ports.set q (changeNth k (fun i => { i with val := { i.val with bad := true } }) t.ports[q]) })
  | .row t r => s.onSeat (fun x => x.setRow t r { x.tiles[t].rows[r] with bad := true })
  | .log e k => s.onSeat (changeLog e (changeNth k (fun x => { x with bad := true })))
  | .bank n r => changeAnvil (fun a => { a with banks := a.banks.set n { a.banks[n] with bad := a.banks[n].bad.set r 7 } }) s
  | .macroRow n blk => changeAnvil (fun a => { a with slots := a.slots.set n { a.slots[n] with bad := blk.val :: a.slots[n].bad } }) s
  | .mem key kind => markMem key kind s
  | .icLine k => { s with icache := s.icache.eraseIdx k }
  | .corrected die => { s with corrected := s.corrected.set die (s.corrected[die] + 1) }
  | .wrongS r x => if r == 0 then s else s.onSeat (fun t => { t with s := t.s.set r.toNat x r.isLt })
  | .wrongX e r x => s.onEng e (fun y => { y with x := y.x.set r x })
  | .wrongV r x => s.onSeat (fun t => { t with v := t.v.set r x })
  | .wrongBank n r x => changeAnvil (fun a => { a with banks := a.banks.set n { a.banks[n] with rows := a.banks[n].rows.set r x } }) s
  | .wrongByte key x => { s with mem := Memory.write s.mem key x }

end Sys2Proof.Machine
end

