-- ==== Sys2Proof/Machine/Step.lean ====
section
/-! DEFINITION. One step of the package module: the agent that moves next moves once. -/

namespace Sys2Proof.Machine

/-- An engine's turn (R29, R42, R280, R281): nothing where its seat does not run or its NOTIFY has executed, a held fault, or
the next word of its slice. -/
def engineTurn (e : Eng) (s : State) : Host.Outcome State Fault Refusal :=
  if s.seat.status != .running || (s.seat.eng e).done then .next s
  else
    match (s.seat.eng e).held with
    | some f => .next (heldTurn s e f)
    | none =>
      match fetchInstr e s with
      | .stop s' => .next s'
      | .run i s' => exec i s'

/-- A turn: a word of a seat's engine, an event with a seat at hand, or a soft error there. An instruction word is no event of its own. -/
def runTurn (t : Turn) (s : State) : Host.Outcome State Fault Refusal :=
  match t with
  | .engine seat e => engineTurn e (s.select seat)
  | .event seat ev =>
    match ev.engine with
    | none => exec ev (s.select seat)
    | some _ => .next s
  | .soft seat d => .next (softError d (s.select seat))

/-- The next turn: the agenda's, or a free one (log 1, log 3). -/
def step (s : State) : Host.Outcome State Fault Refusal :=
  match s.agenda with
  | t :: rest => runTurn t { s with agenda := rest }
  | [] => runTurn (Config.turn s.nonce) { s with nonce := s.nonce + 1 }

/-- `s` with the instruction `w` as the only word of its engine's array in a slice image of the unit at hand, at a page
of its context, and with that engine's turn next (log 13). -/
def State.withFetchWord (s : State) (nbits w : Nat) : State := if nbits = 32 then placeWord s (BitVec.ofNat 32 w) else s

end Sys2Proof.Machine
end

