-- ==== Sys2Proof/Safety.lean ====
section
/-! DEFINITION. The terms in which statements about the machine are made: when a word may issue, what it reads and may write,
the state after it has left, what a word leaves alone, and what every state of the machine keeps. -/

namespace Sys2Proof.Machine

/-- Engine `e` may issue its next word (R29, R31, R294): the seat at hand runs a unit, the word is near H, a horizon-bound word
is at H, and the commands that a resume has brought back to the matrix engine have started. -/
structure Issues (s : State) (e : Eng) (bound : Bool) : Prop where
  running : s.seat.status = .running
  near    : near s.seat e = true
  atH     : bound = true → s.seat.atH e = true
  resumed : e = .m → (s.seat.mq.any (fun c => c.back && !c.started)) = false

/-- s register `r` reads as `x` with taint `k` (R97). -/
def Reads (s : State) (r : BitVec 6) (x : Dword) (k : Taint) : Prop := s.seat.rdS r = .ok (x, k)

/-- A field of engine `e` that names an x register reads as `x` with taint `k` (R68, R90). -/
def ReadsX (s : State) (e : Eng) (r : BitVec 6) (x : Dword) (k : Taint) : Prop := s.seat.rdXf e r = .ok (x, k)

/-- s register `d` can be written: no atomic's result is on its way to it, and the slag log has room (R32, R97, R114). -/
def CanWrite (s : State) (d : BitVec 6) : Prop := s.seat.pendingS d = false ∧ (d = 0 ∨ s.seat.logRoom .s 1 = true)

/-- An action runs: it neither faults nor waits. -/
def Does {α : Type} (m : M α) (s : State) (a : α) (s' : State) : Prop := m s = .ok (a, s')

/-- The state after a word of engine `e` has left by an edge (R25, R103). -/
def left (e : Eng) (edge : Edge) (kill : Bool) (s : State) : State := s.onSeat (fun t => t.leave e edge kill)

/-- The state after a word has left to the next word of its array. -/
def fell (e : Eng) (s : State) : State := left e .fall false s

/-- The state with s register `d` written. -/
def wrote (d : BitVec 6) (v : Dword) (k : Taint) (s : State) : State := s.onSeat (fun t => t.wrS d v k)

/-- The state with local register `d` of engine `e` written. -/
def wroteX (e : Eng) (d : BitVec 4) (v : Dword) (k : Taint) (s : State) : State := s.onSeat (fun t => t.wrX e d v k)

/-- Nothing of the package but the seat at hand has changed. -/
def OnlySeat (s t : State) : Prop := t = { s with seat := t.seat }

/-- Every byte of memory is as it was. -/
def SameMemory (s t : State) : Prop := ∀ k, t.home k = s.home k

/-- The bytes are written under the keys that their lines have, so that no line changes its key (R261). -/
def KeysKept (s : State) (l : List WByte) : Prop :=
  ∀ b ∈ l, s.foreign b.kid b.key = none ∧ ∀ c ∈ l, c.key / 128 = b.key / 128 → c.kid = b.kid

/-- Every s register and its taint is as it was, but those that `except` names. -/
def SameScalars (except : Fin 64 → Prop) (t u : Seat) : Prop := ∀ r : Fin 64, ¬ except r → u.s[r] = t.s[r] ∧ u.st[r] = t.st[r]

/-- Vector registers, predicates, tiles and lane slices are as they were. -/
def SameVectors (t u : Seat) : Prop := u.v = t.v ∧ u.vt = t.vt ∧ u.p = t.p ∧ u.pt = t.pt ∧ u.tiles = t.tiles ∧ u.lanes = t.lanes

/-- Ports, generators, event counters, stores, copies and atomics of the seat are as they were. -/
def SameQueues (t u : Seat) : Prop :=
  u.ports = t.ports ∧ u.gens = t.gens ∧ u.ev = t.ev ∧ u.gsb = t.gsb ∧ u.unpub = t.unpub ∧ u.copies = t.copies
    ∧ u.ranges = t.ranges ∧ u.atoms = t.atoms ∧ u.mq = t.mq ∧ u.drain = t.drain

/-- The special registers (R184, R192, R194, R205, R220), the matrix state (R178), the spill shadow (R113) and the exception
registers (R219, R277) are as they were. -/
def SameSpecials (t u : Seat) : Prop :=
  u.id = t.id ∧ u.status = t.status ∧ u.unit = t.unit ∧ u.kstat = t.kstat ∧ u.chd = t.chd ∧ u.chStop = t.chStop ∧ u.ctab = t.ctab
    ∧ u.dcfg = t.dcfg ∧ u.ls = t.ls ∧ u.bud = t.bud ∧ u.mstop = t.mstop ∧ u.ackbase = t.ackbase ∧ u.tvec = t.tvec ∧ u.epc = t.epc
    ∧ u.ecode = t.ecode ∧ u.hf = t.hf ∧ u.frec = t.frec ∧ u.shadow = t.shadow ∧ u.cycles = t.cycles ∧ u.kill = t.kill

/-- The local registers, loop counters, rotation bases and queues of an engine are as they were. -/
def SameLocals (x y : Engine) : Prop := y.x = x.x ∧ y.xt = x.xt ∧ y.lc = x.lc ∧ y.rbv = x.rbv ∧ y.rbp = x.rbp ∧ y.xq = x.xq ∧ y.dq = x.dq

/-- What a word of engine `e` that writes no register leaves alone: everything but its engine's place. -/
structure Quiet (e : Eng) (s t : State) : Prop where
  only     : OnlySeat s t
  memory   : SameMemory s t
  scalars  : SameScalars (fun _ => False) s.seat t.seat
  vectors  : SameVectors s.seat t.seat
  queues   : SameQueues s.seat t.seat
  specials : SameSpecials s.seat t.seat
  locals   : ∀ d, SameLocals (s.seat.eng d) (t.seat.eng d)
  engines  : ∀ d, d ≠ e → t.seat.eng d = s.seat.eng d

/-- What a word that writes s register `d` leaves alone. -/
structure WritesOnly (d : BitVec 6) (s t : State) : Prop where
  only     : OnlySeat s t
  memory   : SameMemory s t
  scalars  : SameScalars (fun r => r.val = d.toNat) s.seat t.seat
  vectors  : SameVectors s.seat t.seat
  queues   : SameQueues s.seat t.seat
  specials : SameSpecials s.seat t.seat
  locals   : ∀ e, SameLocals (s.seat.eng e) (t.seat.eng e)
  engines  : ∀ e, e ≠ .s → t.seat.eng e = s.seat.eng e

/-- The elements, of width `w`, that a write-back walk takes from the entries of its port, from the walk's place `i` on (R190): across entries,
or, by rows of `n` elements, none of an entry past the end of the row; up to the entry with LAST, or the walk's end. -/
def supplied (k : StreamKind) (n w total : Nat) : List PortEntry → Nat → List Nat
  | [], _ => []
  | e :: rest, i =>
    let xs := (List.range (e.vcnt * widthOf e.fmt / w)).map (fun j => e.data.toNat >>> (w * j) % 2 ^ w)
    let ys := (if k = .row then xs.take (n - i % n) else xs).take (total - i)
    ys ++ if e.last then [] else supplied k n w total rest (i + ys.length)

/-- What every state keeps: memory is in its canonical form. -/
def Inv (s : State) : Prop := Memory.wf s.mem

end Sys2Proof.Machine
end

