-- ==== Sys2Proof/Certificates/Slice0/Obligations.lean ====
section
/-! DEFINITION. The statements made about the machine. Each docstring names the rules of spec/ that it formalises; OBLIGATIONS.json
lists them. -/

set_option autoImplicit false

open Sys2Proof Sys2Proof.Machine

-- Encoding and stepping.

/-- R65, R66, R75, R77, R82, R83, R92: words written out from the encodings of the spec decode to the instructions that they stand
for, and in a slice a word of another engine than the array's is ILLEGAL. -/
def Obligations.ExampleWordsDecode : Prop :=
  decode .slice 0x00861810 = .ok (.addi 3 3 16) ∧ decode .slice 0x108A0106 = .ok (.sysrd 5 8)
    ∧ decode .slice 0x11064803 = .ok (.quench 3 9) ∧ decode .slice 0x41858624 = .ok (.vfma 2 48 49 1)
    ∧ decode .slice 0x598007FB = .ok (.loop .v 0 (-5)) ∧ decode .slice 0xA18420C1 = .ok (.cpyr 2 4 6 true)
    ∧ decode .slice 0x61001000 = .ok (.mldb 0 2 0) ∧ decode .slice 0x82080001 = .ok (.dcfg .outfmt 1)
    ∧ ∀ (e : Eng) (w : W32), engOf (fE w) ≠ some e → decodeSlice e w = .error .illegal

/-- R66, R68, R74-R83: in both views, decoding the word of a well-formed instruction gives the instruction back. -/
def Obligations.DecodeOfEncodeGivesTheInstruction : Prop :=
  ∀ (v : Sys2Proof.View) (i : Instr) (w : W32), i.wf v = true → encode i = some w → decode v w = .ok i

/-- R68, R92: a word that decodes is the word of the instruction it decodes to, and the instruction is well-formed: no field
of the word is dropped, and no two words stand for one instruction. -/
def Obligations.EncodeOfDecodeGivesTheWord : Prop :=
  ∀ (v : Sys2Proof.View) (w : W32) (i : Instr), decode v w = .ok i → encode i = some w ∧ i.wf v = true

/-- R24, R67, R92: an engine's turn runs the instruction that its next word decodes to, at the state in which the word and its
side-table entry are at hand; an event's turn runs the event with the named seat at hand. -/
def Obligations.StepRunsTheDecodedWord : Prop :=
  (∀ (s s' : State) (id : BitVec 11) (e : Eng) (rest : List Turn) (w : W32) (i : Instr),
    s.agenda = .engine id e :: rest →
    let s0 := State.select { s with agenda := rest } id
    s0.seat.status = .running → (s0.seat.eng e).done = false → (s0.seat.eng e).held = none →
    Does (fetchWord e) s0 w s' → decodeSlice e w = .ok i →
    step s = exec i (atHand e w s'))
  ∧ (∀ (s : State) (id : BitVec 11) (ev : Instr) (rest : List Turn),
    s.agenda = .event id ev :: rest → ev.engine = none → step s = exec ev (State.select { s with agenda := rest } id))

-- Invariants.

/-- Memory is in its canonical form at reset. The form is the model's own (log 97). -/
def Obligations.ResetMemoryIsCanonical : Prop := Inv State.reset

/-- Memory stays in its canonical form, which is the model's own (log 97): a step from any state whose memory is canonical gives one
whose memory is. -/
def Obligations.EveryStepKeepsMemoryCanonical : Prop :=
  ∀ (s t : State), Inv s → step s = .next t → Inv t

/-- A write is seen at its location and nowhere else, and keeps the canonical form; and equal contents are equal data: two
canonical memories that read alike are the same list. The form is the model's own (log 97). -/
def Obligations.MemoryReadsAsWritten : Prop :=
  (∀ (m : List Host.Cell) (k : Nat) (b : Byte), Memory.wf m →
    Memory.wf (Memory.write m k b) ∧ Memory.read (Memory.write m k b) k = b
      ∧ ∀ j, j ≠ k → Memory.read (Memory.write m k b) j = Memory.read m j)
  ∧ (∀ (m n : List Host.Cell), Memory.wf m → Memory.wf n → (∀ k, Memory.read m k = Memory.read n k) → m = n)

/-- R264: what reset leaves: memory reads as zero, no unit is on any seat, every cluster belongs to partition 0, whose frame counter
is 0 and whose root scope is open, and SR-IOV is offered. That near pads, windows and the memory of other packages and of the host
read as zero too is the model's choice (log 8). -/
def Obligations.ResetState : Prop :=
  (∀ k, State.reset.home k = 0) ∧ State.reset.seats = [] ∧ (∀ c, State.reset.partOf c = 0)
    ∧ (State.reset.part 0).frame = 0 ∧ ((State.reset.part 0).scope 0).state = .opened
    ∧ (State.reset.part 0).refill = 51557 ∧ State.reset.sriov = true ∧ State.reset.tod = 0
    ∧ (∀ d k, (State.reset.bind d k).v = false)

-- Scalar words.

/-- R98, R99, R100: for operands that can be read and a destination that can be written, each ALU word writes the table's value into D,
with the union of its operands' taints, and leaves to the next word, whatever the operands' values: quotients truncate toward zero, a
remainder takes the sign of the dividend, division by zero gives all ones and the dividend, and sums, differences and products wrap
modulo 2^64. The words with one operand read A only, and CSEL reads the old value of D as well. -/
def Obligations.AluWordsGiveTheTablesValue : Prop :=
  (∀ (s : State) (d a b : BitVec 6) (x y : Dword) (kx ky : Taint),
    Issues s .s false → CanWrite s d → Reads s a x kx → Reads s b y ky →
    let gives (i : Instr) (v : Dword) : Prop := exec i s = .next (fell .s (wrote d v (kx ||| ky) s))
    let n := y.toNat % 64
    gives (.add d a b) (BitVec.ofNat 64 (x.toNat + y.toNat)) ∧ gives (.sub d a b) (BitVec.ofInt 64 (x.toInt - y.toInt))
      ∧ gives (.and d a b) (x &&& y) ∧ gives (.or d a b) (x ||| y) ∧ gives (.xor d a b) (x ^^^ y)
      ∧ gives (.andn d a b) (x &&& ~~~y)
      ∧ gives (.shl d a b) (BitVec.ofNat 64 (x.toNat * 2 ^ n)) ∧ gives (.shr d a b) (BitVec.ofNat 64 (x.toNat / 2 ^ n))
      ∧ gives (.sar d a b) (BitVec.ofInt 64 (x.toInt / 2 ^ n)) ∧ gives (.rot d a b) ((x >>> n) ||| (x <<< (64 - n)))
      ∧ gives (.min d a b) (BitVec.ofInt 64 (min x.toInt y.toInt)) ∧ gives (.max d a b) (BitVec.ofInt 64 (max x.toInt y.toInt))
      ∧ gives (.minu d a b) (BitVec.ofNat 64 (min x.toNat y.toNat)) ∧ gives (.maxu d a b) (BitVec.ofNat 64 (max x.toNat y.toNat))
      ∧ gives (.slt d a b) (if x.toInt < y.toInt then 1 else 0) ∧ gives (.sltu d a b) (if x.toNat < y.toNat then 1 else 0)
      ∧ gives (.seq d a b) (if x = y then 1 else 0)
      ∧ gives (.mul d a b) (BitVec.ofNat 64 (x.toNat * y.toNat))
      ∧ gives (.mulh d a b) (BitVec.ofInt 64 (x.toInt * y.toInt / 2 ^ 64))
      ∧ gives (.mulhu d a b) (BitVec.ofNat 64 (x.toNat * y.toNat / 2 ^ 64))
      ∧ gives (.addw d a b) (BitVec.ofInt 64 (BitVec.ofNat 32 (x.toNat + y.toNat)).toInt))
  ∧ (∀ (s : State) (d a b : BitVec 6) (x y : Dword) (kx ky : Taint),
    Issues s .s false → CanWrite s d → Reads s a x kx → Reads s b y ky →
    let gives (i : Instr) (v : Dword) : Prop := exec i s = .next (fell .s (wrote d v (kx ||| ky) s))
    (y = 0 → gives (.div d a b) 0xFFFFFFFFFFFFFFFF ∧ gives (.divu d a b) 0xFFFFFFFFFFFFFFFF
      ∧ gives (.rem d a b) x ∧ gives (.remu d a b) x)
    ∧ (y ≠ 0 → gives (.divu d a b) (BitVec.ofNat 64 (x.toNat / y.toNat)) ∧ gives (.remu d a b) (BitVec.ofNat 64 (x.toNat % y.toNat))
      ∧ gives (.div d a b) (BitVec.ofInt 64 (x.toInt.tdiv y.toInt))
      ∧ gives (.rem d a b) (BitVec.ofInt 64 (x.toInt - y.toInt * x.toInt.tdiv y.toInt)))
    ∧ (x = 0x8000000000000000 → y = 0xFFFFFFFFFFFFFFFF → gives (.div d a b) x ∧ gives (.rem d a b) 0))
  ∧ (∀ (s : State) (d a b : BitVec 6) (x y o : Dword) (kx ky ko : Taint),
    Issues s .s false → CanWrite s d → Reads s a x kx →
    let gives (i : Instr) (v : Dword) : Prop := exec i s = .next (fell .s (wrote d v kx s))
    (∃ n, gives (.clz d a) (BitVec.ofNat 64 n) ∧ n ≤ 64 ∧ (∀ i, 64 - n ≤ i → x.getLsbD i = false)
      ∧ (n < 64 → x.getLsbD (63 - n) = true))
    ∧ (∃ n, gives (.ffs d a) (BitVec.ofNat 64 n) ∧ n ≤ 64 ∧ (∀ i, i < n → x.getLsbD i = false) ∧ (n < 64 → x.getLsbD n = true))
    ∧ gives (.popc d a) (BitVec.ofNat 64 ((List.range 64).countP (fun i => x.getLsbD i)))
    ∧ (∃ v, gives (.brev d a) v ∧ ∀ i, i < 64 → v.getLsbD i = x.getLsbD (63 - i))
    ∧ (∃ v, gives (.bswp d a) v ∧ ∀ i, i < 8 → byteOf v i = byteOf x (7 - i))
    ∧ gives (.sext d a .byte) (BitVec.ofInt 64 (BitVec.ofNat 8 x.toNat).toInt)
    ∧ gives (.sext d a .half) (BitVec.ofInt 64 (BitVec.ofNat 16 x.toNat).toInt)
    ∧ gives (.sext d a .word) (BitVec.ofInt 64 (BitVec.ofNat 32 x.toNat).toInt)
    ∧ (Reads s b y ky → Reads s d o ko →
      exec (.csel d a b) s = .next (fell .s (wrote d (if o ≠ 0 then x else y) (ko ||| kx ||| ky) s))))

/-- R101: the immediate forms, the immediate sign-extended and the shift amounts 0 to 63. -/
def Obligations.ImmediateWordsGiveTheTablesValue : Prop :=
  ∀ (s : State) (d a n : BitVec 6) (imm : BitVec 11) (x : Dword) (k : Taint),
    Issues s .s false → CanWrite s d → Reads s a x k →
    let gives (i : Instr) (v : Dword) : Prop := exec i s = .next (fell .s (wrote d v k s))
    let j : Dword := BitVec.ofInt 64 imm.toInt
    gives (.addi d a imm) (BitVec.ofInt 64 (x.toInt + imm.toInt)) ∧ gives (.andi d a imm) (x &&& j) ∧ gives (.ori d a imm) (x ||| j)
      ∧ gives (.xori d a imm) (x ^^^ j)
      ∧ gives (.shli d a n) (BitVec.ofNat 64 (x.toNat * 2 ^ n.toNat)) ∧ gives (.shri d a n) (BitVec.ofNat 64 (x.toNat / 2 ^ n.toNat))
      ∧ gives (.sari d a n) (BitVec.ofInt 64 (x.toInt / 2 ^ n.toNat))
      ∧ gives (.roti d a n) ((x >>> n.toNat) ||| (x <<< (64 - n.toNat)))
      ∧ gives (.slti d a imm) (if x.toInt < imm.toInt then 1 else 0) ∧ gives (.sltui d a imm) (if x.toNat < j.toNat then 1 else 0)

/-- R102, R121: MOVW writes the sign-extended constant with an empty taint set; MOVK.1-3 write bits 33:17, 50:34 and 63:51 of D and
keep its other bits and its taint; TAINT adds A's taint to D's with no change of value, and UNTAINT clears D's. -/
def Obligations.ConstantAndTaintWordsGiveTheTablesValue : Prop :=
  ∀ (s : State) (d a : BitVec 6) (w : BitVec 17) (u : BitVec 13) (x y : Dword) (k ka : Taint),
    Issues s .s false → CanWrite s d → Reads s d x k →
    exec (.movw d w) s = .next (fell .s (wrote d (BitVec.ofInt 64 w.toInt) 0 s))
    ∧ exec (.movk1 d w) s = .next (fell .s (wrote d (x.extractLsb' 34 30 ++ w ++ x.extractLsb' 0 17) k s))
    ∧ exec (.movk2 d w) s = .next (fell .s (wrote d (x.extractLsb' 51 13 ++ w ++ x.extractLsb' 0 34) k s))
    ∧ exec (.movk3 d u) s = .next (fell .s (wrote d (u ++ x.extractLsb' 0 51) k s))
    ∧ exec (.untaint d) s = .next (fell .s (wrote d x 0 s))
    ∧ (Reads s a y ka → exec (.taint d a) s = .next (fell .s (wrote d x (k ||| ka) s)))

/-- R97, R122: what the state holds after s register `d` is written and the word has left: the value and taint in `d`, which it reads as,
unless `d` is s0, which discards both, so that every register is as it was, and which reads as zero with an empty taint set in every
state; nothing else but the scalar engine's place changes. -/
def Obligations.AWordThatWritesARegisterChangesOnlyIt : Prop :=
  ∀ (s : State) (d : BitVec 6) (v : Dword) (k : Taint),
    let t := fell .s (wrote d v k s)
    WritesOnly d s t
    ∧ (d ≠ 0 → t.seat.s[d.toNat]'d.isLt = v ∧ t.seat.st[d.toNat]'d.isLt = k)
    ∧ (d = 0 → t.seat.s = s.seat.s ∧ t.seat.st = s.seat.st)
    ∧ t.seat.engS.pc = s.seat.engS.pc + 1 ∧ t.seat.engS.lsn = s.seat.engS.lsn + s.seat.engS.side.incf.setWidth 32
    ∧ (d ≠ 0 → s.seat.pendingS d = false → Reads (wrote d v k s) d v k)
    ∧ Reads s 0 0 0 ∧ Reads (wrote 0 v k s) 0 0 0 ∧ CanWrite s 0

/-- R103, R67, R42, R105, R27: a branch whose condition holds goes to the word at its offset, one whose condition does not hold to the
next word; a zero or negative offset makes it a kill point either way; it writes no register. A taken
branch whose target lies outside the array is a FETCH fault of the branch. An exported branch appends its
decision, with its LSN, to the decision queue of each engine whose NOTIFY has not executed and whose next word is no NOTIFY, where
each of these has room, and changes no register, no byte of memory and nothing else of an engine; another branch pushes nothing. -/
def Obligations.BranchesCompareBranchAndExport : Prop :=
  (∀ (s t : State) (d a : BitVec 6) (imm : BitVec 11) (x y : Dword) (kx ky : Taint),
    Issues s .s false → Reads s d x kx → Reads s a y ky →
    let n : Int := (s.seat.engS.pc : Int) + imm.toInt
    let back := decide (imm.toInt ≤ 0)
    let goes (i : Instr) (c : Bool) : Prop :=
      (Does (pushDecision c) s () t →
        (c = true → 0 ≤ n → n < ((mySlice s .s).words.length : Int) → exec i s = .next (left .s (.to n.toNat back) back t))
        ∧ (c = false → exec i s = .next (left .s .fall back t)))
      ∧ (c = true → (n < 0 ∨ ((mySlice s .s).words.length : Int) ≤ n) →
        ∃ f : FaultInfo, f.code = 0x15 ∧ f.aux = 1 ∧ exec i s = .next (fail s .s f))
    goes (.beq d a imm) (decide (x = y)) ∧ goes (.bne d a imm) (decide (x ≠ y))
      ∧ goes (.blt d a imm) (decide (x.toInt < y.toInt)) ∧ goes (.bge d a imm) (decide (y.toInt ≤ x.toInt))
      ∧ goes (.bltu d a imm) (decide (x.toNat < y.toNat)) ∧ goes (.bgeu d a imm) (decide (y.toNat ≤ x.toNat)))
  ∧ (∀ (s : State) (taken : Bool), (s.seat.engS.side.exp = false → Does (pushDecision taken) s () s)
    ∧ (s.seat.engS.side.exp = true → (∀ e, e ≠ .s → (qLive s.seat (s.seat.eng e).dq).length < 64) →
    ∃ t, Does (pushDecision taken) s () t ∧ (∀ e, e ≠ .s →
      ((s.seat.eng e).done = true ∨ decodeSlice e (nth (mySlice s e).words (s.seat.eng e).pc 0) = .ok (.notify e) →
        t.seat.eng e = s.seat.eng e)
      ∧ ((s.seat.eng e).done = false → (∀ d, decodeSlice e (nth (mySlice s e).words (s.seat.eng e).pc 0) ≠ .ok (.notify d)) →
        (t.seat.eng e).dq = qLive s.seat (s.seat.eng e).dq ++ [⟨taken, s.seat.engS.lsn, none, .s, .s⟩]))
      ∧ OnlySeat s t ∧ SameMemory s t ∧ SameScalars (fun _ => False) s.seat t.seat ∧ SameVectors s.seat t.seat
      ∧ SameQueues s.seat t.seat ∧ SameSpecials s.seat t.seat ∧ ∀ e, t.seat.eng e = { s.seat.eng e with dq := (t.seat.eng e).dq }))

/-- R104: JMP branches by J; CALL also writes the logical byte address of the next word into s63 with an empty taint set; JR reads its target
before it writes the address of the next word into D, so that D = A is allowed. A JR's target is legal when it is the word after a
CALL of the kernel or one that a TARGET hint declares for this JR; an address that is no multiple of four is an ALIGN fault and any
other one a FETCH fault of the JR, which then has no effect; so is a J that leads out of the slice. That a JR is no kill point, wherever
it goes, is the model's choice (log 126). -/
def Obligations.JumpsCallsAndReturns : Prop :=
  ∀ (s : State) (d a : BitVec 6) (j : BitVec 23) (x : Dword) (k : Taint) (m : Nat),
    Issues s .s false →
    let n : Int := (s.seat.engS.pc : Int) + j.toInt
    let size : Int := (mySlice s .s).words.length
    let back := decide (j.toInt ≤ 0)
    let link : Dword := BitVec.ofNat 64 (4 * (s.seat.engS.side.lpc.toNat + 1))
    let w := x.toNat / 4
    let legal : Prop := ∃ im, s.myImage = some im ∧ (w ∈ im.img.targets ∨ (s.seat.engS.side.lpc.toNat, w) ∈ im.img.hintTargets)
    let faults (i : Instr) (code : Byte) : Prop := ∃ f : FaultInfo, f.code = code ∧ exec i s = .next (fail s .s f)
    (0 ≤ n → n < size → exec (.jmp j) s = .next (left .s (.to n.toNat back) back s)
      ∧ (CanWrite s 63 → exec (.call j) s = .next (left .s (.to n.toNat back) back (wrote 63 link 0 s))))
    ∧ (n < 0 ∨ size ≤ n → faults (.jmp j) 0x15 ∧ (CanWrite s 63 → faults (.call j) 0x15))
    ∧ (CanWrite s d → Reads s a x k →
      (x.toNat % 4 = 0 → legal → scalarIndex s w = some m → exec (.jr d a) s = .next (left .s (.to m false) false (wrote d link 0 s)))
      ∧ (x.toNat % 4 ≠ 0 → faults (.jr d a) 0x08)
      ∧ (x.toNat % 4 = 0 → ¬legal ∨ scalarIndex s w = none → faults (.jr d a) 0x15))


-- Words that write no register, loads, stores and atomics.

/-- R29, R103: a word that only leaves changes its engine's place and nothing else: by the next word its slice index rises by one
and its running LSN by the side-table entry's INCF, by a branch it goes to the target and its LSN rises by INCT, and by the
last word the engine is done. -/
def Obligations.AWordThatOnlyLeavesMovesItsEngine : Prop :=
  ∀ (s : State) (e : Eng) (pc : Nat) (back kill : Bool),
    let x := s.seat.eng e
    (∀ edge, Quiet e s (left e edge kill s))
    ∧ (let y := (left e .fall kill s).seat.eng e
      y.pc = x.pc + 1 ∧ y.lsn = x.lsn + x.side.incf.setWidth 32 ∧ y.done = x.done)
    ∧ (let y := (left e (.to pc back) kill s).seat.eng e
      y.pc = pc ∧ y.lsn = x.lsn + x.side.inct.setWidth 32 ∧ y.done = x.done)
    ∧ (let y := (left e .last kill s).seat.eng e
      y.pc = x.pc ∧ y.lsn = x.lsn ∧ y.done = true)

/-- R107, R108, R113: with an aligned address whose bytes can be loaded, the scalar loads write the bytes into D, zero-extended,
with the address's taint; LDX.FILL writes the spill slot's taint. -/
def Obligations.ScalarLoadsZeroExtend : Prop :=
  ∀ (s : State) (d a b n : BitVec 6) (imm : BitVec 11) (x y : Dword) (kx ky : Taint),
    Issues s .s false → CanWrite s d → Reads s a x kx → Reads s b y ky →
    let l := s.seat.engS.lsn
    let loads (i : Instr) (va : Dword) (size : Nat) (v : Machine.View) (k : State → Taint) : Prop :=
      va.toNat % size = 0 →
      ∀ (bytes : List Byte) (pieces : List (Loc × Dword × Nat)) (s1 s2 : State),
        Does (loadUnit .s l v va size) s (bytes, pieces) s1 → Does (noteRead l pieces) s1 () s2 →
        exec i s = .next (fell .s (wrote d (BitVec.ofNat 64 (natOfBytes bytes)) (k s2) s2))
    let off (size : Nat) : Dword := x + BitVec.ofInt 64 (imm.toInt * size)
    loads (.ldb d a imm) (off 1) 1 { coherent := kx != 0 } (fun _ => kx)
      ∧ loads (.ldh d a imm) (off 2) 2 { coherent := kx != 0 } (fun _ => kx)
      ∧ loads (.ldw d a imm) (off 4) 4 { coherent := kx != 0 } (fun _ => kx)
      ∧ loads (.ldd d a imm) (off 8) 8 { coherent := kx != 0 } (fun _ => kx)
      ∧ (∀ sz, loads (.ldx d a b .plain sz) (x + y) (sizeBytes sz) { coherent := (kx ||| ky) != 0 } (fun _ => kx ||| ky)
        ∧ loads (.ldx d a b .na sz) (x + y) (sizeBytes sz) { coherent := (kx ||| ky) != 0, alloc := false } (fun _ => kx ||| ky)
        ∧ loads (.ldx d a b .bypass sz) (x + y) (sizeBytes sz) { coherent := (kx ||| ky) != 0, alloc := false } (fun _ => kx ||| ky))
      ∧ loads (.ldxFill d n) (s.myCtx.spill + BitVec.ofNat 64 (8 * n.toNat)) 8 {} (fun t => t.seat.shadow[n.toNat]'n.isLt)

/-- R108, R110, R231: an LDX of a sync class is served coherently, once the unit's earlier sync stores and atomics have been
served; an acquire gives D a free tag beside the address's taint, or refreshes the snapshot where none is free. That the tag is the lowest free
one is the model's choice (log 122). -/
def Obligations.SyncLoadsAndAcquires : Prop :=
  ∀ (s s1 s2 : State) (d a b : BitVec 6) (sz : Size) (x y : Dword) (kx ky : Taint) (bytes : List Byte)
    (pieces : List (Loc × Dword × Nat)),
    let l := s.seat.engS.lsn
    Issues s .s false → CanWrite s d → Reads s a x kx → Reads s b y ky → (x + y).toNat % sizeBytes sz = 0 →
    (∀ m ∈ s.seat.atoms, lsnLt m.lsn l = false) → (∀ g ∈ s.seat.gsb, storeSync g.cls = true → lsnLt g.lsn l = false) →
    (s.seat.engW.done = true ∨ lsnLt s.seat.engW.lsn l = false ∨ ∀ w ∈ (mySlice s .w).words, isSyncStv w = false) →
    Does (loadUnit .s l { coherent := true } (x + y) (sizeBytes sz)) s (bytes, pieces) s1 → Does (noteRead l pieces) s1 () s2 →
    let v : Dword := BitVec.ofNat 64 (natOfBytes bytes)
    exec (.ldx d a b .sy sz) s = .next (fell .s (wrote d v (kx ||| ky) s2))
    ∧ (∀ tag, s2.freeTag = some tag → exec (.ldx d a b .syAcq sz) s = .next (fell .s (wrote d v (kx ||| ky ||| tag) s2)))
    ∧ (s2.freeTag = none →
      exec (.ldx d a b .syAcq sz) s = .next (fell .s (wrote d v (kx ||| ky) (refresh (s2.onSeat (fun t => squashReads t l))))))

/-- R125, R126, R109: a read of `n` bytes in one near-pad block of the seat finds the bytes that stand there, when the unit has
no unpublished store, no atomic and no copy in flight, and no damage, and leaves the state as it is. -/
def Obligations.ANearPadReadFindsTheStoredBytes : Prop :=
  ∀ (s : State) (e : Eng) (l : Lsn) (off n : Nat),
    let cell := cellOf s.seat.id
    let entry := padEntry s cell (off / 16384)
    let va : Dword := BitVec.ofNat 64 (0xFFFFFE0000000000 + off)
    off < 0x600000 → 0 < n → off % 16384 + n ≤ 16384 →
    padV entry = true → padSp entry = false → padSeat entry = sideOf s.seat.id + 1 → isZm (padFmtOf entry) = false →
    padLoc entry < 64 → cell < 1024 →
    s.seat.ranges = [] → s.seat.gsb = [] → s.seat.atoms = [] → s.seat.unpub = [] → s.seat.copies = [] → s.badMem = [] → s.hist = [] →
    s.seat.copiesBegun l = true →
    ∃ loc : Loc, loc.key = nearKey cell (padLoc entry * 16384 + off % 16384) ∧ loc.fmt = padFmtOf entry
      ∧ Does (loadUnit e l {} va n) s (s.homeBytes loc.key n, [(loc, va, n)]) s

/-- R107, R114: an address of a load, a store or an atomic that is no multiple of the access size is an ALIGN fault of the word, which has
no effect. -/
def Obligations.MisalignedAddressesFault : Prop :=
  ∀ (s : State) (d a b : BitVec 6) (imm : BitVec 11) (x y v : Dword) (kx ky kv : Taint),
    Reads s a x kx → Reads s b y ky → Reads s d v kv →
    let faults (i : Instr) (va : Dword) : Prop := ∃ f : FaultInfo, f.code = 0x08 ∧ f.addr = va ∧ exec i s = .next (fail s .s f)
    let off (size : Nat) : Dword := x + BitVec.ofInt 64 (imm.toInt * size)
    (Issues s .s false → CanWrite s d →
      ((off 2).toNat % 2 ≠ 0 → faults (.ldh d a imm) (off 2)) ∧ ((off 4).toNat % 4 ≠ 0 → faults (.ldw d a imm) (off 4))
      ∧ ((off 8).toNat % 8 ≠ 0 → faults (.ldd d a imm) (off 8))
      ∧ (∀ c sz, (x + y).toNat % sizeBytes sz ≠ 0 → faults (.ldx d a b c sz) (x + y)))
    ∧ (Issues s .s true →
      ((off 2).toNat % 2 ≠ 0 → faults (.sth d a imm) (off 2)) ∧ ((off 4).toNat % 4 ≠ 0 → faults (.stw d a imm) (off 4))
      ∧ ((off 8).toNat % 8 ≠ 0 → faults (.std d a imm) (off 8))
      ∧ (∀ c sz, (x + y).toNat % sizeBytes sz ≠ 0 → faults (.stx d a b c sz) (x + y))
      ∧ (∀ ord op, x.toNat % 8 ≠ 0 → faults (.amo d a b ord op) x) ∧ (∀ ord op, x.toNat % 4 ≠ 0 → faults (.amow d a b ord op) x))

/-- R107, R111, R33, R113, R236: with an aligned address whose bytes can be stored to, the scalar stores enter the low bytes of D into
the gated store buffer, behind a rollback of the run-ahead reads that they meet; STX.SPILL also notes D's taint. A store waits
for nothing where no byte of it lies on a remote package and, if it is a release, none on the host. That the rollback is to the lowest
of those reads is log 11, and that a plain store to the host waits for nothing log 38, both read from the spec by inference (R150, R237, R263). -/
def Obligations.ScalarStoresAreCaptured : Prop :=
  (∀ (s : State) (d a b n : BitVec 6) (imm : BitVec 11) (x y v : Dword) (kx ky k : Taint),
    Issues s .s true → Reads s a x kx → Reads s b y ky → Reads s d v k →
    let l := s.seat.engS.lsn
    let stores (i : Instr) (va : Dword) (size : Nat) (c : StClass) (spill : Bool) (after : Seat → Seat) : Prop :=
      va.toNat % size = 0 → ∀ (pieces : List (Loc × Dword × Nat)) (s1 s2 : State), Does (locate va size .write) s pieces s1 →
        Does (storeGate .s l (c == .syRel) pieces) s1 () s2 →
        let out := wbytes pieces ((List.range size).map (byteOf v))
        let g : GStore := { lsn := l, cls := c, bytes := out, sys := pieces.any (fun p => farHome p.1.key), eng := .s, spill }
        let u := match aliasOf s2.seat l (out.map (fun b => b.key)) with
          | some f => s2.seat.roll f
          | none => s2.seat
        exec i s = .next (fell .s { s2 with seat := after { u with gsb := u.gsb ++ [g] } })
    let off (size : Nat) : Dword := x + BitVec.ofInt 64 (imm.toInt * size)
    stores (.stb d a imm) (off 1) 1 .plain false id ∧ stores (.sth d a imm) (off 2) 2 .plain false id
      ∧ stores (.stw d a imm) (off 4) 4 .plain false id ∧ stores (.std d a imm) (off 8) 8 .plain false id
      ∧ (∀ c sz, stores (.stx d a b c sz) (x + y) (sizeBytes sz) c false id)
      ∧ stores (.stxSpill d n) (s.myCtx.spill + BitVec.ofNat 64 (8 * n.toNat)) 8 .plain true
          (fun t => { t with shadow := t.shadow.set n.toNat k n.isLt }))
  ∧ (∀ (s : State) (l : Lsn) (release : Bool) (pieces : List (Loc × Dword × Nat)),
    (∀ p ∈ pieces, homeRemote (nodeOf p.1.key) = false ∧ (release = true → nodeOf p.1.key ≠ 0x3FF)) →
    Does (storeGate .s l release pieces) s () s)

/-- R33, R111, R112, R127, R133, R231: GATED_STORE_DRAIN takes the oldest store of the buffer once H is above it and the unit's older
atomics that it meets have landed, and the lines through which its bytes go home have tokens (R254): a plain store's bytes in the unit's
pad blocks reach them and its other bytes become unpublished bytes of the unit, and a `by` store's go home where its line is in the cell's
L1, which the line leaves; a sync store's bytes reach their home; every other byte of memory is as it was. No line changes its key here,
and the unit has no later store to the locations. -/
def Obligations.TheOldestStoreLeavesTheBuffer : Prop :=
  ∀ (s : State) (g : GStore) (rest : List GStore), Inv s → s.seat.gsb = g :: rest →
    (g.bytes.map (fun b => b.key)).Nodup → (∀ b ∈ g.bytes, b.mask = 0xFF) →
    (∀ p ∈ s.hist, p.uid = s.seat.unit.uid → (∃ b ∈ g.bytes, b.key = p.key) → lsnLt g.lsn p.lsn = false) →
    (∀ u ∈ s.seat.unpub, lsnLt g.lsn u.lsn = false) →
    KeysKept s (s.seat.unpub.map (fun u => u.byte) ++ g.bytes) →
    let sync := g.cls = .sy ∨ g.cls = .syRel
    let meets (a : Atom) : Prop := lsnLt a.lsn g.lsn = true ∧ (sync ∨ ∃ b ∈ g.bytes, a.key ≤ b.key ∧ b.key < a.key + (if a.wide then 8 else 4))
    let far := g.bytes.filter (fun b => !b.inPad)
    let h := cellOf s.seat.id
    let here (b : WByte) : Bool := (lineIn s h (b.key / 128) s.seat.unit.part b.kid).isSome
    let linesHere (t : State) : Nat := (t.lineTags.filter (fun x => x.holder == h)).length
    ((s.seat.passed g.lsn = false ∨ ∃ a ∈ s.seat.atoms, meets a) → exec .gatedStoreDrain s = .next s)
    ∧ (s.seat.passed g.lsn = true → (∀ a ∈ s.seat.atoms, ¬meets a) → (∃ s1, Does (lineTokens g.lsn (homeBytes s g)) s () s1) →
      ∃ t, exec .gatedStoreDrain s = .next t ∧ t.seat.gsb = rest
        ∧ (¬sync → (∀ b ∈ g.bytes, b.inPad = true → t.home b.key = b.val)
          ∧ ((g.cls = .bypass → ∀ b ∈ far, here b = false) →
            t.seat.unpub = s.seat.unpub ++ far.map (fun b =>
              { byte := if g.cls = .bypass then { b with bypass := true } else b, lsn := g.lsn, spill := g.spill })
            ∧ ∀ k, (∀ b ∈ g.bytes, b.inPad = true → b.key ≠ k) → t.home k = s.home k)
          ∧ (g.cls = .bypass → (∀ x ∈ s.others, x.unpub = []) → ∀ b ∈ far, here b = true →
            t.home b.key = b.val ∧ (∀ u ∈ t.seat.unpub, u.byte.key ≠ b.key) ∧ linesHere t < linesHere s))
        ∧ (sync → ∀ b ∈ g.bytes, t.home b.key = b.val)
        ∧ (g.cls = .sy → ∀ k, (∀ b ∈ g.bytes, b.key ≠ k) → t.home k = s.home k)
        ∧ (g.cls = .syRel → ∀ k, (∀ b ∈ g.bytes, b.key ≠ k) → (∀ u ∈ s.seat.unpub, u.byte.key ≠ k) → t.home k = s.home k))

/-- R110, R114, R115, R150, R254, R263, R289: with an aligned address that can be read and written in format RAW, INT8 or INT4 and is not
damaged, AMO and AMOW issue at H, behind a rollback of the run-ahead reads that they meet: the atomic is under way with its operands and
their taints, an acquire's with a free tag; an acquire that finds no tag free lands with its word, and refreshes the snapshot. The tag that is
taken at issue, and the landing with the word, are log 34, the rollback to the lowest of those reads log 11, and the lowest free tag log 122. -/
def Obligations.AtomicsIssueAtTheirWord : Prop :=
  ∀ (s s1 s2 s3 : State) (d a b : BitVec 6) (ord : AmoOrd) (op : AmoOp) (va x o : Dword) (ka kb kd : Taint) (loc : Loc) (wide : Bool)
    (more : List (Loc × Dword × Nat)),
    Issues s .s true → Reads s a va ka → Reads s b x kb → Reads s d o kd →
    let n := if wide then 8 else 4
    let pieces := (loc, va, n) :: more
    va.toNat % n = 0 → Does (locate va n .rmw true) s pieces s1 →
    let l := s1.seat.engS.lsn
    (loc.fmt = 0 ∨ loc.fmt = 12 ∨ loc.fmt = 13) → (nodeOf loc.key = hostHome → op = .add ∨ op = .swp ∨ op = .cas) →
    Does (mSound l loc.key n va) s1 () s1 →
    (ord = .rel ∨ ord = .acqrel → ∀ c ∈ s1.seat.mq, lsnLt c.lsn l = false) →
    Does (storeGate .s l (ord == .rel || ord == .acqrel) pieces) s1 () s2 → Does (remoteGate .s pieces) s2 () s3 →
    let m : Atom := { lsn := l, op, ord, dst := d, key := loc.key, wide, b := x, dIn := o, taint := ka ||| kb ||| kd
                      l2 := loc.l2, fmt := loc.fmt, kid := loc.kid }
    let u := s3.onSeat (fun t => match aliasOf t l ((List.range n).map (fun i => loc.key + i)) with
      | some f => t.roll f
      | none => t)
    let gives (t : State) : Prop := exec (if wide then .amo d a b ord op else .amow d a b ord op) s = .next (fell .s t)
    (ord = .sy ∨ ord = .rel → gives (u.onSeat (fun t => { t with atoms := t.atoms ++ [m] })))
    ∧ (ord = .acq ∨ ord = .acqrel →
      (∀ tag, u.freeTag = some tag → gives (u.onSeat (fun t => { t with atoms := t.atoms ++ [{ m with taint := m.taint ||| tag }] })))
      ∧ (∀ u1, u.freeTag = none → u.seat.atoms = [] → Does (lineTokens l (landBytes u.seat m)) u () u1 →
        gives (refresh ((landAtom u1 m).onSeat (fun t => squashReads t l)))))

/-- R114, R254, R289: ATOMIC_LANDING, where no store of the unit below the atomic is in the buffer or unpublished, the location is not
damaged and its line has a token: the location takes the operation's
value of its old one and the operand, D the old one (sign-extended from 32 bits by AMOW) with the atomic's taint, no other
byte of memory changes, and the atomic is no longer under way. The line's key is the access's. -/
def Obligations.AtomicsReadModifyAndWriteTheirLocation : Prop :=
  ∀ (s : State) (m : Atom) (rest : List Atom), Inv s → s.seat.atoms = m :: rest →
    (∀ g ∈ s.seat.gsb, lsnLt g.lsn m.lsn = false) → (∀ u ∈ s.seat.unpub, lsnLt u.lsn m.lsn = false) →
    let w := if m.wide then 64 else 32
    (∀ i, i < w / 8 → s.foreign m.kid (m.key + i) = none) →
    (∀ i, i < w / 8 → s.markAt (m.key + i) true = none) → (∃ s1, Does (lineTokens m.lsn (landBytes s.seat m)) s () s1) →
    let old := BitVec.ofNat w (natOfBytes (s.homeBytes m.key (w / 8)))
    let b := BitVec.ofNat w m.b.toNat
    let new := match m.op with
      | .add => old + b
      | .min => if old.slt b then old else b
      | .max => if b.slt old then old else b
      | .and => old &&& b
      | .or => old ||| b
      | .xor => old ^^^ b
      | .swp => b
      | .cas => if old = BitVec.ofNat w m.dIn.toNat then b else old
    ∃ t, exec .atomicLanding s = .next t
      ∧ (∀ i, i < w / 8 → t.home (m.key + i) = byteOf new i)
      ∧ (∀ k, k < m.key ∨ m.key + w / 8 ≤ k → t.home k = s.home k)
      ∧ (m.dst ≠ 0 → t.seat.s[m.dst.toNat]'m.dst.isLt = BitVec.ofInt 64 (if m.wide then (old.toNat : Int) else old.toInt)
        ∧ t.seat.st[m.dst.toNat]'m.dst.isLt = m.taint)
      ∧ SameScalars (fun r => m.dst ≠ 0 ∧ r.val = m.dst.toNat) s.seat t.seat
      ∧ (∀ x, x ∈ t.seat.atoms ↔ x ∈ s.seat.atoms ∧ x.lsn ≠ m.lsn)

-- System words.

/-- R118, R183, R225-R227, R229, R230, R236, R254: PHASE runs where no earlier store of the unit is in the buffer and no earlier matrix command or
atomic is under way, where the lines of what it publishes have tokens, and at SYSTEM scope where what it covers beyond the package, bytes that
have gone there before among them, has been acknowledged, for which it waits. It publishes the unit's joined
bytes below its LSN: each is at its home with its value, and a coherent read of another unit in the scope finds it and nothing older; what was
at home before is published with the scope, too; no other byte of memory changes. It empties the taint set of every container of the
seat and of its banks, and refreshes the snapshot to every write made before it. No line changes its key here. -/
def Obligations.PhaseOpensANewPhase : Prop :=
  ∀ (s : State) (r : Reach), Inv s → Issues s .s true → KeysKept s (s.seat.unpub.map (fun u => u.byte)) →
    let l := s.seat.engS.lsn
    let id := s.seat.id
    let uid := s.seat.unit.uid
    let goes (u : UByte) : Prop := lsnLt u.lsn l = true ∧ u.tok = none ∧ u.spill = false
    let inScope (v : Seat) : Prop := match r with
      | .cell => cellOf v.id = cellOf id
      | .cluster => clusOf v.id = clusOf id
      | .die => dieOf v.id = dieOf id
      | .package | .system => True
    (∀ g ∈ s.seat.gsb, lsnLt g.lsn l = false) → (∀ c ∈ s.seat.mq, lsnLt c.lsn l = false) → (∀ a ∈ s.seat.atoms, lsnLt a.lsn l = false) →
    (∃ s1, Does (mPublishTokens l (some l)) s () s1) →
    let farNow : Prop := ∃ u ∈ s.seat.unpub, goes u ∧ farHome u.byte.key = true
    let farBefore : Prop := ∃ p ∈ s.hist, p.uid = uid ∧ lsnLt p.lsn l = true ∧ p.tok = none ∧ p.spill = false ∧ farHome p.key = true
    (r ≠ .system ∨ s.seat.engS.remote = .answered ∨ (s.seat.engS.remote = .idle ∧ ¬farNow ∧ ¬farBefore) →
      ∃ t, exec (.phase r) s = .next (fell .s t)
        ∧ (∀ a u b, s.seat.unpub = a ++ u :: b → goes u → u.byte.mask = 0xFF → (∀ w ∈ b, goes w → w.byte.key ≠ u.byte.key) →
          (∀ w ∈ a, w.byte.key = u.byte.key → lsnLt u.lsn w.lsn = false) →
          (∀ p ∈ s.hist, p.uid = uid → p.key = u.byte.key → lsnLt u.lsn p.lsn = false) →
          t.home u.byte.key = u.byte.val
          ∧ ∀ v twin m, v.unit.uid ≠ uid → inScope v →
            visible v twin m { coherent := true } (t.home u.byte.key) (t.hist.filter (fun p => p.key == u.byte.key)) = ([u.byte.val], false))
        ∧ (∀ u ∈ t.seat.unpub, ¬goes u)
        ∧ (∀ p ∈ s.hist, p.uid = uid → p.spill = false → lsnLt p.lsn l = true → p.tok = none →
          ∃ q ∈ t.hist, q.key = p.key ∧ q.seq = p.seq ∧ ∃ x ∈ q.pubs, x.reach = r ∧ x.cell = cellOf id)
        ∧ (∀ k, (∀ u ∈ s.seat.unpub, u.byte.key ≠ k) → t.home k = s.home k)
        ∧ t.seat.vpAny = t.seqNo ∧ s.seqNo < t.seqNo
        ∧ t.seat.st = Vector.replicate 64 0 ∧ t.seat.vt = Vector.replicate 48 0 ∧ t.seat.pt = Vector.replicate 8 0
        ∧ t.seat.shadow = Vector.replicate 64 0
        ∧ (∀ e, (t.seat.eng e).xt = Vector.replicate 16 0 ∧ ∀ i ∈ (t.seat.eng e).xq, i.val.2 = 0)
        ∧ (∀ (q : Fin 16) (i : Item PortEntry), i ∈ t.seat.ports[q] → i.val.taint = 0)
        ∧ (∀ (k : Fin 8) (j : Fin 32), (t.seat.tiles[k].rows[j]).taint = 0)
        ∧ (∀ g ∈ t.seat.gens, g.taint = 0 ∧ ∀ p ∈ g.pending, p.2 = 0)
        ∧ (∀ x ∈ t.seat.slagS ++ t.seat.slagV ++ t.seat.logA, match x.undo with
          | .sreg _ _ k | .vreg _ _ k | .pred _ _ k | .xreg _ _ _ k => k = 0
          | .row _ _ old => old.taint = 0
          | .loopc .. | .bases .. | .tag .. | .lane .. | .nothing => True)
        ∧ (∀ a ∈ t.seat.atoms, a.taint = 0) ∧ (∀ c ∈ t.seat.copies, c.taint = 0) ∧ (∀ c ∈ t.seat.mq, c.idxT = 0)
        ∧ (∀ b : Fin 64, ((t.anvil s.here).banks[b]).owner = some id → ((t.anvil s.here).banks[b]).taint = Vector.replicate 8 0))
    ∧ (r = .system → s.seat.engS.remote = .idle → farNow ∨ farBefore →
      ∃ t n, exec (.phase r) s = .next t ∧ t.seat.engS.wait = some .ack ∧ t.seat.engS.remote = .asked n 0
        ∧ t.seat.engS.pc = s.seat.engS.pc ∧ t.seat.engS.lsn = l ∧ ∀ u ∈ t.seat.unpub, ¬goes u)

/-- R120: FENCE goes on, and changes nothing, once no store of an engine that its mask names is in the buffer below its LSN (those of the
scalar engine excepted, which it has executed itself), and waits before. -/
def Obligations.FenceWaitsForTheMarkedEngines : Prop :=
  ∀ (s : State) (mask : BitVec 6), Issues s .s true →
    let waits := ∃ g ∈ s.seat.gsb, g.eng ≠ .s ∧ mask.getLsbD (engNum g.eng) = true ∧ lsnLt g.lsn s.seat.engS.lsn = true
    (¬waits → exec (.fence mask) s = .next (fell .s s)) ∧ (waits → exec (.fence mask) s = .next (waiting s .s .buffer))

/-- R219, R29: TRAP with a handler saves the address of the next word, its code and the handler flag, and goes to the handler's
word; without one, or inside one, it is a TRAP fault with its code; BKPT is one with 0x40; a word whose TRAP fault has been answered is
passed, and the unit goes on after it. A TVEC that names no declared label is a
FETCH fault. ERET in a handler clears the flag and goes to the saved address. Their next word's LSN is one higher (log 16). -/
def Obligations.TrapsAndReturns : Prop :=
  ∀ (s : State) (code : BitVec 6) (k : Nat), Issues s .s true →
    let lsnUp (t : State) : Prop := t.seat.engS.lsn = s.seat.engS.lsn + 1
    let fresh : Prop := s.seat.after ≠ some (s.seat.engS.pc, s.seat.engS.lsn)
    (s.seat.tvec ≠ 0 → s.seat.hf = false → handlerIndex s = some k → fresh →
      ∃ t, exec (.trap code) s = .next t ∧ t.seat.epc = BitVec.ofNat 64 (4 * (s.seat.engS.side.lpc.toNat + 1))
        ∧ t.seat.ecode = code.setWidth 8 ∧ t.seat.hf = true ∧ t.seat.engS.pc = k ∧ lsnUp t ∧ t.seat.s = s.seat.s)
    ∧ (s.seat.tvec ≠ 0 → s.seat.hf = false → handlerIndex s = none → fresh →
      exec (.trap code) s = .next (fail s .s { code := 0x15, addr := s.seat.tvec, aux := 5 }))
    ∧ (s.seat.tvec = 0 ∨ s.seat.hf = true → fresh → exec (.trap code) s = .next (fail s .s { code := 0x14, aux := code.setWidth 8 }))
    ∧ (fresh → exec .bkpt s = .next (fail s .s { code := 0x14, aux := 0x40 }))
    ∧ (¬fresh → let t := s.onSeat (fun t => { t with after := none })
      exec (.trap code) s = .next (fell .s t) ∧ exec .bkpt s = .next (fell .s t))
    ∧ ((s.seat.hf = true ∨ s.seat.unit.priv = true) → s.seat.epc.toNat % 4 = 0 → scalarIndex s (s.seat.epc.toNat / 4) = some k →
      ∃ t, exec .eret s = .next t ∧ t.seat.hf = false ∧ t.seat.engS.pc = k ∧ lsnUp t ∧ t.seat.s = s.seat.s)

/-- R220, R215, R92: SYSRD writes the register's value into D with an empty taint set. SYSWR writes ACKBASE, TVEC and EPC, and in a
privileged unit the protected PTBASE and OBJBASE, whose bits beside PPN and HOME are zero, and SPILLBASE, behind which the run-ahead reads of
later words are issued again (log 55). ACKBASE, TVEC, EPC and SPILLBASE take every value (log 89). A number that is not listed, and the number of a read-only register for SYSWR, is a RESERVED_FIELD fault of the
word. -/
def Obligations.SystemRegistersAreReadAndWritten : Prop :=
  (∀ (s : State) (d : BitVec 6), Issues s .s true → CanWrite s d →
    let reads (r : BitVec 12) (v : Dword) : Prop := exec (.sysrd d r) s = .next (fell .s (wrote d v 0 s))
    let t := s.seat
    let u := t.unit
    let f := t.frec
    reads 0x000 (u.ix.setWidth 64) ∧ reads 0x001 (BitVec.ofNat 64 (u.gen.toNat * 4096 + u.scope.toNat))
      ∧ reads 0x002 (s.myPart.frame.setWidth 64) ∧ reads 0x003 (t.id.setWidth 64)
      ∧ (∃ v, reads 0x008 v ∧ ∀ i : Fin 8, byteOf v i.val = t.kstat[i])
      ∧ reads 0x009 (BitVec.ofBool t.mstop.v ++ BitVec.ofBool t.ls ++ t.bud ++ t.mstop.lsn ++ t.mstop.kb ++ t.mstop.row ++ (0 : BitVec 5))
      ∧ (∀ i : Fin 4, reads (BitVec.ofNat 12 (0x00A + i.val)) t.chd[i])
      ∧ reads 0x010 t.ackbase ∧ reads 0x011 t.tvec ∧ reads 0x012 t.epc ∧ reads 0x013 (t.ecode.setWidth 64)
      ∧ reads 0x014 (if u.priv then 1 else 0)
      ∧ reads 0x018 s.myCtx.ptbase ∧ reads 0x019 s.myCtx.objbase ∧ reads 0x01A s.myCtx.spill
      ∧ reads 0x020 (f.fcode.setWidth 64) ∧ reads 0x021 (f.flsn.setWidth 64) ∧ reads 0x022 (f.flpc.setWidth 64)
      ∧ reads 0x023 f.faddr ∧ reads 0x024 (f.feng.setWidth 64) ∧ reads 0x025 (f.faux.setWidth 64)
      ∧ (∀ i : Fin 16, let b := (s.cluster s.here).bars[i]
        reads (BitVec.ofNat 12 (0x040 + i.val))
          ((0 : BitVec 29) ++ BitVec.ofBool b.init ++ BitVec.ofBool b.broken ++ BitVec.ofBool b.absent ++ b.gen ++ b.exp ++ b.cnt))
      ∧ reads 0x060 t.cycles
      ∧ (∀ r : BitVec 12, r.toNat ∉ [0, 1, 2, 3, 8, 9, 0x0A, 0x0B, 0x0C, 0x0D, 0x10, 0x11, 0x12, 0x13, 0x14, 0x18, 0x19, 0x1A,
          0x20, 0x21, 0x22, 0x23, 0x24, 0x25, 0x60] → r.toNat < 0x40 ∨ 0x4F < r.toNat →
          exec (.sysrd d r) s = .next (fail s .s { code := 0x02, addr := t.engS.word.setWidth 64 })))
  ∧ (∀ (s : State) (d : BitVec 6) (x : Dword) (k : Taint), Issues s .s true → Reads s d x k →
    let writes (r : BitVec 12) (t : State) : Prop := exec (.syswr d r) s = .next (fell .s t)
    let again (t : Seat) : Seat := squashReads t s.seat.engS.lsn
    writes 0x010 (s.onSeat (fun t => { t with ackbase := x })) ∧ writes 0x011 (s.onSeat (fun t => { t with tvec := x }))
      ∧ writes 0x012 (s.onSeat (fun t => { t with epc := x }))
      ∧ (s.seat.unit.priv = true →
        writes 0x018 ((s.setCtx { s.myCtx with ptbase := x &&& ~~~0x3FFFF }).onSeat again)
        ∧ writes 0x019 ((s.setCtx { s.myCtx with objbase := x &&& ~~~0x3FFFF }).onSeat again)
        ∧ writes 0x01A ((s.setCtx { s.myCtx with spill := x }).onSeat again))
      ∧ (∀ r : BitVec 12, r.toNat ∉ [0x10, 0x11, 0x12, 0x18, 0x19, 0x1A] →
        exec (.syswr d r) s = .next (fail s .s { code := 0x02, addr := s.seat.engS.word.setWidth 64 })))

/-- R220, R221, R223, R224, R278: in a unit without privilege, SYSWR to a protected register, PADMAP, TLBINV, HALT, and ERET
outside a handler are PRIVILEGE faults with the word as their address. -/
def Obligations.PrivilegedWordsFaultInOtherUnits : Prop :=
  ∀ (s : State) (d a : BitVec 6) (mode : TlbMode), Issues s .s true → s.seat.unit.priv = false →
    let f : FaultInfo := { code := 0x03, addr := s.seat.engS.word.setWidth 64 }
    let faults (i : Instr) : Prop := exec i s = .next (fail s .s f)
    faults (.syswr d 0x018) ∧ faults (.syswr d 0x019) ∧ faults (.syswr d 0x01A) ∧ faults (.padmap d a) ∧ faults (.tlbinv a mode)
      ∧ faults .halt ∧ (s.seat.hf = false → faults .eret)

/-- R39, R106, R138, R221-R224: ICINV drops the cell's instruction lines, and no word of the free engines above it stays executed; TLBINV
drops the translations that its mode names, and the object entries of the context or of the partition; HALT stops the seat, which stays
occupied, and tells the Hearth; YIELD goes on where no unit of the partition waits, and is pre-empted behind its word where one does; EXIT ends the
scalar engine's words; XSEND enters the value, its taint and its LSN into the engine's transfer queue while it has room; PADMAP
writes the entry of the cell's pad translation table. -/
def Obligations.SystemControlWordsHaveTheirEffects : Prop :=
  ∀ (s : State) (d a : BitVec 6) (x y : Dword) (kx ky : Taint) (e : Eng), Reads s a x kx → Reads s d y ky →
    (Issues s .s true →
      (∃ t, exec .icinv s = .next (fell .s t) ∧ (∀ z ∈ t.icache, z.cell ≠ cellOf s.seat.id)
        ∧ (∀ z ∈ s.icache, z.cell ≠ cellOf s.seat.id → z ∈ t.icache)
        ∧ (∀ e ∈ [Eng.s, .a, .v], ∀ w ∈ (t.seat.eng e).issued, lsnLt w.2 (s.seat.engS.lsn + 1) = true) ∧ SameMemory s t)
      ∧ (s.seat.unit.priv = true →
        let u := s.seat.unit
        let mine (e : TlbEntry) : Prop := e.part = u.part ∧ e.vf = u.vf ∧ e.proc = u.proc
        (∀ mode, spansHeld mode x s = false → ∃ t, exec (.tlbinv a mode) s = .next (fell .s t) ∧ t.mem = s.mem
          ∧ (mode = .context → ∀ e, e ∈ t.tlb ↔ e ∈ s.tlb ∧ ¬mine e)
          ∧ (mode = .part → ∀ e, e ∈ t.tlb ↔ e ∈ s.tlb ∧ e.part ≠ u.part)
          ∧ (mode = .page → ∀ e, e.lvl = 2 → (e ∈ t.tlb ↔ e ∈ s.tlb ∧ ¬(mine e ∧ e.page = x.toNat / 65536)))
          ∧ (∀ o, o ∈ t.objs ↔ o ∈ s.objs ∧ ¬(o.part = u.part ∧ (mode = .part ∨ (o.vf = u.vf ∧ o.proc = u.proc)))))
        ∧ (∃ t, exec .halt s = .next t ∧ t.seat.status = .halted ∧ t.seat.unit = u ∧ HearthIrq.halted u.uid ∈ t.irqs)
        ∧ (padValueOk x y = true → blockBusy s x.toNat = false → ∃ t, exec (.padmap d a) s = .next (fell .s t)
          ∧ padEntry t (cellOf s.seat.id) x.toNat = y
          ∧ (∀ b, b ≠ x.toNat → padEntry t (cellOf s.seat.id) b = padEntry s (cellOf s.seat.id) b) ∧ SameMemory s t))
      ∧ exec .yield s = .next (if ∃ e ∈ (fell .s s).myPart.entries, e.phase = .released then preempt (fell .s s) none false else fell .s s)
      ∧ exec .exit s = .next (left .s .last false s))
    ∧ (Issues s .s false → (qLive s.seat (s.seat.eng e).xq).length < 8 →
      exec (.xsend a e) s = .next (fell .s (s.onEng e (fun z => { z with
        xq := qLive s.seat z.xq ++ [⟨(x, kx), s.seat.engS.lsn, none, .s, .s⟩] }))))

/-- R54, R116, R117, R132-R134, R149, R131, R254, R279: a DCB word acts on the 128-byte line that holds a + b once the unit's earlier stores to
it have left the buffer and the line has a token. CLEAN writes the unit's bytes of the line, and those of the cell's other seat, to their homes
with their values, and no cache holds a byte newer than its home any more; FLUSH does so, and the line leaves the cell's L1 and the L2s; INV
writes the other seat's bytes home, too, and drops the unit's and what its seat and partition hold newer than the home memory, whose value is
current again. Other bytes, lines and tags stay, and a pad or window line is left as it is. ZERO stores 128 zero bytes; PF, PFD and ICPF are
hints that never fault and change no byte of memory. CLEAN raises no PARTITION. No line changes its key here. The rollback of the reads that
ZERO meets to the lowest of them is log 11. -/
def Obligations.CacheWordsActOnTheirLine : Prop :=
  ∀ (s s1 s2 : State) (a b : BitVec 6) (imm : BitVec 11) (x y : Dword) (kx ky : Taint) (base : Dword)
    (pieces : List (Loc × Dword × Nat)), Reads s a x kx → Reads s b y ky → Inv s1 →
    let l := s1.seat.engS.lsn
    let keys := lineKeys pieces
    let idle (ks : List Nat) : Prop := ∀ g ∈ s1.seat.gsb, ∀ w ∈ g.bytes, w.key ∉ ks
    let tokens : Prop := Does (mEach (pieces.filter (fun p => p.1.l2 && p.1.pad.isNone)) (fun p => lineToken l (1024 + nodeOf p.1.key) (lineOf p.1.key))) s1 () s2
    let own := s1.seat.unpub
    let foreign (k : Nat) : Prop := ∀ o ∈ s1.others, ∀ w ∈ o.unpub, w.byte.key ≠ k
    let hint (e : Eng) (i : Instr) : Prop := ∃ t, exec i s = .next (fell e t) ∧ t.mem = s.mem ∧ t.seat = { s.seat with lines := t.seat.lines }
    let gone (z : LineTag) : Prop := (∃ k ∈ keys, k / 128 = z.line) ∧ (z.holder = cellOf s1.seat.id ∨ 1024 ≤ z.holder)
    let away (t : State) : Prop := (keys = [] → t = s2) ∧ (∀ d ∈ t.dirty, d.key ∉ keys) ∧ (∀ w ∈ t.seat.unpub, w.byte.key ∉ keys)
      ∧ (∀ u, u.byte.key ∉ keys → (u ∈ t.seat.unpub ↔ u ∈ own)) ∧ (∀ d ∈ t.dirty, d ∈ s1.dirty)
    let last (unit : Nat) (bytes p q : List UByte) (u : UByte) : Prop := bytes = p ++ u :: q ∧ u.byte.key ∈ keys ∧ u.byte.mask = 0xFF
      ∧ (∀ w ∈ q, w.byte.key ≠ u.byte.key) ∧ (∀ w ∈ p, w.byte.key = u.byte.key → lsnLt u.lsn w.lsn = false)
      ∧ (∀ h ∈ s1.hist, h.uid = unit → h.key = u.byte.key → lsnLt u.lsn h.lsn = false)
    let twin (t : State) : Prop :=
      (∀ o ∈ t.others, cellOf o.id = cellOf s1.seat.id → ∀ w ∈ o.unpub, w.byte.key ∉ keys)
      ∧ ∀ o ∈ s1.others, cellOf o.id = cellOf s1.seat.id → o.id ≠ s1.seat.id → o.unit.uid ≠ s1.seat.unit.uid →
        (∀ c ∈ s1.others, cellOf c.id = cellOf s1.seat.id → c = o) → ∀ p u q, last o.unit.uid o.unpub p q u → t.home u.byte.key = u.byte.val
    let clean (t : State) : Prop := away t ∧ twin t
      ∧ (∀ p u q, last s1.seat.unit.uid own p q u → foreign u.byte.key → t.home u.byte.key = u.byte.val)
      ∧ (∀ k, (∀ u ∈ own, u.byte.key = k → k ∉ keys) → foreign k → t.home k = s1.home k)
    let kept : Prop := (∀ u ∈ own, u.byte.key ∉ keys) ∧ ∀ k ∈ keys, foreign k
    let held := KeysKept s1 (own.map (fun u => u.byte) ++ s1.others.flatMap (fun o => o.unpub.map (fun u => u.byte)))
    (Issues s .s true → Does (lineAt a b .clean true) s (base, pieces) s1 → idle keys → tokens → held →
      (∃ t, exec (.dcbClean a b) s = .next (fell .s t) ∧ clean t ∧ (kept → t.lineTags = s1.lineTags))
      ∧ (∃ t, exec (.dcbFlush a b) s = .next (fell .s t) ∧ clean t ∧ (∀ z ∈ t.lineTags, ¬gone z)
        ∧ (kept → ∀ z, z ∈ t.lineTags ↔ z ∈ s1.lineTags ∧ ¬gone z)))
    ∧ (Issues s .s true → ∀ f : FaultInfo, f.code = FC.partition → lineAt a b .clean true s = .error (.fault f) →
      exec (.dcbClean a b) s = .next (fell .s (noteDrop f s)))
    ∧ (Issues s .s true → Does (lineAt a b .rmw true) s (base, pieces) s1 → idle keys → tokens → held →
      ∃ t, exec (.dcbInv a b) s = .next (fell .s t) ∧ away t ∧ twin t ∧ (∀ z ∈ t.lineTags, ¬gone z)
        ∧ (∀ k, (∀ d ∈ s1.dirty, d.key = k → k ∈ keys → d.seat = s1.seat.id → d.part ≠ s1.seat.unit.part) → foreign k → t.home k = s1.home k)
        ∧ (s1.others = [] → (s1.dirty.map (fun d => d.key)).Nodup → ∀ d ∈ s1.dirty, d.key ∈ keys → d.seat = s1.seat.id →
          d.part = s1.seat.unit.part → t.home d.key = d.back))
    ∧ (Issues s .s true → Does (lineAt a b .rmw false) s (base, pieces) s1 →
      let out := wbytes pieces (List.replicate 128 0)
      let u := match aliasOf s1.seat l (out.map (fun w => w.key)) with
        | some f => s1.seat.roll f
        | none => s1.seat
      idle (pieces.flatMap (fun p => (List.range p.2.2).map (fun i => p.1.key + i))) →
      exec (.dcbZero a b) s = .next (fell .s { s1 with seat := { u with
        gsb := u.gsb ++ [{ lsn := l, cls := .plain, bytes := out }] } }))
    ∧ (Issues s .s false → hint .s (.dcbPf a b) ∧ hint .s (.icpf a imm))
    ∧ (Issues s .a false → ReadsX s .a a x kx → ReadsX s .a b y ky → hint .a (.pfd a b))

-- Task and barrier words.

/-- R208, R207, R36: with an aligned record that can be loaded, no earlier store in the buffer and a scope of the unit's subtree,
SPAWN publishes the unit's stores and adds the record's unit to the partition's entries, raises its scope's counter, and gives
D the new serial; in a scope that a QUENCH covers it gives D zero and adds nothing. That D's taint set is empty is log 53. -/
def Obligations.SpawnAddsAUnitToItsScope : Prop :=
  ∀ (s s0 s1 : State) (d a b : BitVec 6) (va x : Dword) (ka kb : Taint) (rec : List Byte) (pieces : List (Loc × Dword × Nat)) (sc : Scope),
    Issues s .s true → CanWrite s d → Reads s a va ka → Reads s b x kb → va.toNat % 32 = 0 →
    let l := s.seat.engS.lsn
    (∀ g ∈ s.seat.gsb, lsnLt g.lsn l = false) →
    Does (mPublish l (some l) .package) s () s0 → Does (loadUnit .s l { coherent := ka != 0 } va 32) s0 (rec, pieces) s1 →
    resolveRef s1.myPart s1.seat.unit.scope x = some sc → inSub s1.myPart s1.seat.unit.scope sc.num = true →
    let h : W32 := wordOf 32 ((rec.drop 16).take 4)
    (∀ w ∈ s0.seat.unpub, lsnLt w.lsn l = true → w.tok ≠ none ∨ w.spill = true)
    ∧ (sc.cancel = true → exec (.spawn d a b) s = .next (fell .s (wrote d 0 0 s1)))
    ∧ (sc.cancel = false → sc.state = .opened → ∀ im, loadedImage s1 s1.seat.unit.vf s1.seat.unit.proc h = some im →
      let serial : W32 := if s1.myPart.serial = 0xFFFFFFFF then 1 else s1.myPart.serial + 1
      dueRefused (entryOf s1 rec sc im serial) = false →
      ∃ t e, exec (.spawn d a b) s = .next (fell .s (wrote d (serial.setWidth 64) 0 t)) ∧ t.seat = s1.seat
        ∧ e ∈ (t.part s1.seat.unit.part).entries ∧ e.unit.uid = s1.nextUid ∧ e.unit.image = h ∧ e.unit.scope = sc.num
        ∧ e.unit.ix = wordOf 32 ((rec.drop 20).take 4) ∧ e.unit.release = wordOf 32 ((rec.drop 8).take 4)
        ∧ e.unit.handle = serial ∧ e.phase = .waiting
        ∧ ((t.part s1.seat.unit.part).scope sc.num).counter = (s1.myPart.scope sc.num).counter + 1
        ∧ (t.part s1.seat.unit.part).serial = serial ∧ t.mem = s1.mem)

/-- R40, R209, R210: SCOPEO opens the lowest free entry of the scope table as a child of an open scope of the unit's subtree, with
counter zero and the next generation, raises the parent's counter, and gives D the reference; where the parent is cancelled or
no entry is free D takes zero. SCOPEC closes an open scope that a SCOPEO opened and leaves a closed or done one as it is; one whose
counter is zero is done at once, and its parent's counter falls (R40). That D's taint set is empty is log 53. -/
def Obligations.ScopesOpenAndClose : Prop :=
  ∀ (s : State) (d a : BitVec 6) (x : Dword) (k : Taint) (sc : Scope),
    Issues s .s true → Reads s a x k → resolveRef s.myPart s.seat.unit.scope x = some sc →
    inSub s.myPart s.seat.unit.scope sc.num = true → s.myPart.scope sc.num = sc →
    let part := s.seat.unit.part
    (CanWrite s d →
      (sc.cancel = true → exec (.scopeo d a) s = .next (fell .s (wrote d 0 0 s)))
      ∧ (sc.cancel = false → sc.state = .opened → s.myPart.freeScope = none → exec (.scopeo d a) s = .next (fell .s (wrote d 0 0 s)))
      ∧ (sc.cancel = false → sc.state = .opened → ∀ n, s.myPart.freeScope = some n → n ≠ sc.num →
        ∃ t, let y := (t.part part).scope n
          exec (.scopeo d a) s = .next (fell .s (wrote d (BitVec.ofNat 64 (y.gen.toNat * 4096 + n.toNat)) 0 t))
          ∧ y.state = .opened ∧ y.parent = sc.num ∧ y.counter = 0 ∧ y.cancel = false ∧ y.gen = nextGen (s.myPart.scope n).gen
          ∧ y.ack = (if s.seat.ackbase = 0 then 0 else s.seat.ackbase + BitVec.ofNat 64 (64 * n.toNat))
          ∧ ((t.part part).scope sc.num).counter = sc.counter + 1 ∧ t.seat = s.seat ∧ t.mem = s.mem))
    ∧ (sc.kind = .device →
      (sc.state = .closed ∨ sc.state = .done → exec (.scopec a) s = .next (fell .s s))
      ∧ (sc.state = .opened → sc.counter ≠ 0 → (∀ y ∈ s.myPart.scopes, y.state = .closed → y.counter ≠ 0) →
        ∃ t, exec (.scopec a) s = .next (fell .s t) ∧ ((t.part part).scope sc.num).state = .closed ∧ t.seat = s.seat ∧ t.mem = s.mem)
      ∧ (sc.state = .opened → sc.counter = 0 → sc.num ≠ 0 → sc.parent ≠ sc.num → (s.myPart.scopes.map (fun y => y.num)).Nodup →
        (∀ y ∈ s.myPart.scopes, y.state = .closed → y.counter ≠ 0 ∧ (y.num = sc.parent → y.counter ≠ 1)) →
        (∀ q ∈ s.myPart.quenches, q.scope ≠ sc.num) →
        ∃ t, exec (.scopec a) s = .next (fell .s t) ∧ (t.part part).scope sc.num = { sc with state := .done } ∧ t.seat = s.seat
          ∧ ((t.part part).scope sc.parent).counter = (s.myPart.scope sc.parent).counter - 1 ∧ t.mem = s.mem))

/-- R43, R211, R218, R273, R207: QUENCH of an open or closed scope closes and cancels every open or closed scope of its subtree and no other one,
removes the entries of the subtree that are not placed and no other ones, breaks the barriers whose domain lies in the subtree, and marks
every unit on a seat there to be killed; where nothing is left in the scope it is done at once, and the event is posted to the issuer. Of
a scope that is done it only posts the event. A saved unit of the subtree is discarded, and its entry with it (R301), and no other one. The
LSN of the post, one below H, is log 49. -/
def Obligations.QuenchCancelsTheSubtree : Prop :=
  ∀ (s : State) (e a : BitVec 6) (x : Dword) (k : Taint) (sc : Scope), Issues s .s true → Reads s a x k →
    let part := s.seat.unit.part
    let own := s.seat.unit.scope
    let p := s.myPart
    let n := sc.num
    let live (y : Scope) : Prop := y.state = .opened ∨ y.state = .closed
    let posted (t : Seat) : Seat :=
      if h : e.toNat < 32 then { t with ev := t.ev.set e.toNat (qLive t (t.ev[e.toNat]'h) ++ [⟨(), t.engS.lsn - 1, none, .s, .s⟩]) h } else t
    resolveRef p own x = some sc → inSub p own n = true → p.scope n = sc → e.toNat ≤ 32 →
    (live sc → (∀ y ∈ s.saved, y.seat.unit.part = part → inSub p n y.seat.unit.scope = false) → (p.entries.map (fun y => y.unit.uid)).Nodup →
      ∃ t, exec (.quench e a) s = .next (fell .s t)
        ∧ (∀ m, inSub p n m = true → live (p.scope m) →
          ((t.part part).scope m).cancelled = true ∧ ((t.part part).scope m).cancel = true ∧ ((t.part part).scope m).state ≠ .opened)
        ∧ (∀ m, inSub p n m = false → ((t.part part).scope m).cancelled = (p.scope m).cancelled)
        ∧ (∀ y, y ∈ (t.part part).entries ↔ y ∈ p.entries ∧ (y.phase = .placed ∨ inSub p n y.unit.scope = false))
        ∧ (t.seat.kill = if inSub p n own = true ∧ s.seat.kill = .no then .quench else s.seat.kill)
        ∧ (∀ o ∈ s.others, o.status ≠ .vacant → o.unit.part = part → inSub p n o.unit.scope = true →
          ∃ y ∈ t.others, y.id = o.id ∧ y.unit = o.unit ∧ y.kill ≠ .no)
        ∧ (∀ o ∈ s.others, o.unit.part ≠ part ∨ inSub p n o.unit.scope = false → ∃ y ∈ t.others, y.id = o.id ∧ y.unit = o.unit ∧ y.kill = o.kill)
        ∧ (∀ i : Fin 16, s.partOf s.here = part → let b := s.bar i
          b.init = true → (inSub p n b.domain = true → t.bar i = { b with broken := true, init := false, parts := [] })
            ∧ (inSub p n b.domain = false → t.bar i = b))
        ∧ t.seat.s = s.seat.s ∧ t.seat.v = s.seat.v)
    ∧ (live sc →
      let dead (y : Saved) : Prop := y ∈ s.saved ∧ y.seat.unit.part = part ∧ inSub p n y.seat.unit.scope = true
      ∃ t, exec (.quench e a) s = .next (fell .s t)
        ∧ (∀ y ∈ t.saved, ∃ z ∈ s.saved, z.seat.unit = y.seat.unit ∧ ¬dead z)
        ∧ (∀ y ∈ s.saved, (∀ z, dead z → z.seat.unit.uid ≠ y.seat.unit.uid) → ∃ z ∈ t.saved, z.seat.unit = y.seat.unit)
        ∧ (∀ y, dead y → ∀ w ∈ (t.part part).entries, w.unit.uid ≠ y.seat.unit.uid))
    ∧ (live sc → s.saved = [] → n ≠ 0 → sc.kind = .device → sc.counter = 0 → sc.ack = 0 → sc.parent ≠ n → inSub p n sc.parent = false →
      (∀ m, m ≠ n → live (p.scope m) → inSub p n m = false) → (∀ y ∈ p.entries, inSub p n y.unit.scope = false) → p.quenches = [] →
      (p.scopes.map (fun y => y.num)).Nodup → (∀ y ∈ p.scopes, y.num ≠ n → y.state = .closed → y.counter ≠ 0 ∧ (y.num = sc.parent → y.counter ≠ 1)) →
      (∀ q : Fin 32, (qLive s.seat s.seat.ev[q]).length < 255) →
      ∃ t, exec (.quench e a) s = .next (fell .s t) ∧ (t.part part).scope n = { sc with state := .done, cancel := true, cancelled := true }
        ∧ ((t.part part).scope sc.parent).counter = (p.scope sc.parent).counter - 1 ∧ t.seat.ev = (posted s.seat).ev ∧ t.mem = s.mem)
    ∧ (sc.state = .done → sc.ack = 0 → (∀ q : Fin 32, (qLive s.seat s.seat.ev[q]).length < 255) →
      exec (.quench e a) s = .next (fell .s (s.onSeat posted)))

/-- R211, R213, R214, R207, R227: QUENCH completes, and a unit that lies in an open scope which it names is marked to be killed. CWAIT on a done scope gives D its status, frees a scope that a SCOPEO opened, and refreshes the snapshot; a stale
reference reads as 0xFF; on another scope it waits. CREAD gives D the state, the status and the counter. That CREAD's taint set is empty
is log 53. -/
def Obligations.ScopesAreQuenchedAwaitedAndRead : Prop :=
  ∀ (s : State) (d e a : BitVec 6) (x : Dword) (k : Taint), Issues s .s true → Reads s a x k →
    let part := s.seat.unit.part
    let own := s.seat.unit.scope
    (∀ sc, resolveRef s.myPart own x = some sc → inSub s.myPart own sc.num = true →
      ∃ t, exec (.quench e a) s = .next (fell .s t) ∧ t.seat.s = s.seat.s
        ∧ ((s.myPart.scope sc.num).state = .opened → inSub s.myPart sc.num own = true → s.seat.kill = .no → t.seat.kill = .quench))
    ∧ (CanWrite s d → ∀ sc, resolveRef s.myPart own x = some sc → inSub s.myPart own sc.num = true →
      exec (.cread d a) s = .next (fell .s (wrote d ((BitVec.ofNat 2 (match sc.state with
        | .free => 0 | .opened => 1 | .closed => 2 | .done => 3) : BitVec 2) ++ (0 : BitVec 22)
          ++ (if sc.cancelled then (0x13 : Byte) else 0) ++ sc.counter) 0 s))
      ∧ (sc.state = .done → ∃ t,
        exec (.cwait d a) s = .next (fell .s (wrote d (if sc.cancelled then 0x13 else 0) 0 t)) ∧ t.seat.vpAny = s.seqNo
        ∧ ((s.myPart.scope sc.num).kind = .device → (t.part part).scope sc.num = { s.myPart.scope sc.num with state := .free })
        ∧ ((s.myPart.scope sc.num).kind ≠ .device → (t.part part).scope sc.num = s.myPart.scope sc.num)
        ∧ t.mem = s.mem)
      ∧ (sc.state ≠ .done → exec (.cwait d a) s = .next (waiting s .s .cwait)))
    ∧ (CanWrite s d → resolveRef s.myPart own x = none →
      (∃ t, exec (.cwait d a) s = .next (fell .s (wrote d 0xFF 0 t)) ∧ t.seat.vpAny = s.seqNo ∧ t.mem = s.mem)
      ∧ ∃ (v : BitVec 62) (t : State),
        exec (.cread d a) s = .next (fell .s (wrote d ((0 : BitVec 2) ++ v) 0 t)) ∧ t.seat = s.seat ∧ t.mem = s.mem)

/-- R215-R217, R225, R226, R254: a participant, or a unit that can become one, arrives at an initialised barrier once its earlier stores have
left the buffer and their lines have tokens: its joined bytes below are at home with their values, where a coherent read of another unit of the
cluster finds them and nothing older; the count falls by one, and the last arrival starts the next generation with the full count and no arrived
bit. BAR.WAIT and BAR.SYNC go on once the generation that they wait for has passed, with a refreshed snapshot, and wait before. BAR.INIT sets
domain, count and expectation with the unit as the only participant. -/
def Obligations.BarriersCountArrivals : Prop :=
  ∀ (s s1 : State) (a c : BitVec 6) (n : Fin 16) (x y : Dword) (k ky : Taint), Inv s →
    Issues s .s true → Reads s a x k → x = BitVec.ofNat 64 n.val → Reads s c y ky →
    let b := s.bar n
    let u := s.seat.unit
    let l := s.seat.engS.lsn
    let open_ := b.init = true ∧ (b.takes u.uid = true ∨ b.parts.length < 64) ∧ inSub s.myPart b.domain u.scope = true
    let joined : Barrier := if b.takes u.uid then b else { b with parts := b.parts ++ [(u.uid, none)] }
    let quiet := (∀ g ∈ s.seat.gsb, lsnLt g.lsn l = false) ∧ (∀ m ∈ s.seat.mq, lsnLt m.lsn l = false)
      ∧ Does (mPublishTokens l (some l)) (s.setBar n joined) () s1
    let others (t : State) : Prop := ∀ m, m ≠ n → t.bar m = s.bar m
    let returns (i : Instr) : Prop := ∃ t, exec i s = .next (fell .s t) ∧ t.seat.vpClus = s.seqNo ∧ t.seat.barGen = none
      ∧ (t.bar n).gen = b.gen ∧ others t
    let waits (i : Instr) (g : Half) : Prop := ∃ t, exec i s = .next (waiting t .s .barrier) ∧ t.seat.barGen = some (n, g)
      ∧ (t.bar n).gen = b.gen ∧ (t.bar n).cnt = b.cnt ∧ others t
    let goes (w : UByte) : Prop := lsnLt w.lsn l = true ∧ w.tok = none ∧ w.spill = false
    (open_ → quiet → b.arrived u.uid = none → KeysKept s (s.seat.unpub.map (fun w => w.byte)) →
      ∃ t, exec (.barArrive a) s = .next (fell .s t) ∧ others t ∧ (t.bar n).takes u.uid = true
        ∧ (∀ w ∈ t.seat.unpub, ¬goes w)
        ∧ (∀ p w q, s.seat.unpub = p ++ w :: q → goes w → w.byte.mask = 0xFF → (∀ z ∈ q, goes z → z.byte.key ≠ w.byte.key) →
          (∀ z ∈ p, z.byte.key = w.byte.key → lsnLt w.lsn z.lsn = false) →
          (∀ h ∈ s.hist, h.uid = u.uid → h.key = w.byte.key → lsnLt w.lsn h.lsn = false) →
          t.home w.byte.key = w.byte.val
          ∧ ∀ v twin m, v.unit.uid ≠ u.uid → clusOf v.id = clusOf s.seat.id →
            visible v twin m { coherent := true } (t.home w.byte.key) (t.hist.filter (fun h => h.key == w.byte.key)) = ([w.byte.val], false))
        ∧ (b.cnt ≠ 1 → (t.bar n).cnt = b.cnt - 1 ∧ (t.bar n).gen = b.gen ∧ (t.bar n).arrived u.uid = some b.gen)
        ∧ (b.cnt = 1 → (t.bar n).cnt = b.exp ∧ (t.bar n).gen = b.gen + 1 ∧ (t.bar n).arrived u.uid = none))
    ∧ (open_ → (∀ g, heldGen s.seat n = some g → b.gen ≠ g → returns (.barWait a) ∧ returns (.barSync a))
      ∧ (heldGen s.seat n = none → ∀ g, b.arrived u.uid = some g → b.gen ≠ g → returns (.barWait a))
      ∧ (heldGen s.seat n = some b.gen → waits (.barWait a) b.gen ∧ waits (.barSync a) b.gen)
      ∧ (heldGen s.seat n = none → b.arrived u.uid = none ∨ b.arrived u.uid = some b.gen → waits (.barWait a) b.gen))
    ∧ (open_ → quiet → heldGen s.seat n = none → b.arrived u.uid = none →
      (b.cnt = 1 → ∃ t, exec (.barSync a) s = .next (fell .s t) ∧ (t.bar n).gen = b.gen + 1 ∧ (t.bar n).cnt = b.exp ∧ others t)
      ∧ (b.cnt ≠ 1 → ∃ t, exec (.barSync a) s = .next (waiting t .s .barrier) ∧ (t.bar n).cnt = b.cnt - 1
        ∧ t.seat.barGen = some (n, b.gen) ∧ others t))
    ∧ (∀ dom, resolveRef s.myPart u.scope ((y.extractLsb' 16 32 : W32).setWidth 64) = some dom →
      inSub s.myPart u.scope dom.num = true → inSub s.myPart dom.num u.scope = true → y.toNat < 2 ^ 48 →
      1 ≤ y.toNat % 65536 → y.toNat % 65536 ≤ 64 → (∀ p ∈ b.parts, p.1 = u.uid) → b.cnt = b.exp →
      ∃ t, exec (.barInit a c) s = .next (fell .s t) ∧ others t
        ∧ t.bar n = { domain := dom.num, parts := [(u.uid, none)], cnt := BitVec.ofNat 8 (y.toNat % 65536)
                      exp := BitVec.ofNat 8 (y.toNat % 65536), gen := b.gen, init := true })

-- The access engine.

/-- R142, R144-R148, R152, R263: with an idle port q0-q9 and an object that can be streamed, STRM and STRMG start the port's generator; STRMC
stops the one that runs on its port where it stands; LDV pushes the entry that its read gives, an acquire's with a free
tag, or none and a refreshed snapshot, while one of a word that has acquired before may be predicted; LDT gives an empty tile the object's format and
fills its rows, behind the response of a remote package. Each reads its x operands and leaves to the next word. The model's own: the tag is
the lowest free one (log 122), a poisoned entry takes one all the same (log 109), nothing beyond the package is predicted (log 31), and a
read of host memory asks over its port as one of a remote package does (log 38). -/
def Obligations.AccessWordsFillPortsAndTiles : Prop :=
  ∀ (s s1 : State) (d a b : BitVec 6) (k : StreamKind) (sy nx : Bool) (c : LdClass) (r : BitVec 2) (x y : Dword) (ka kb : Taint)
    (o : List Dword) (e : PortEntry),
    Issues s .a false → ReadsX s .a a x ka → ReadsX s .a b y kb →
    let l := s.seat.engA.lsn
    let q : Fin 16 := Fin.ofNat 16 d.toNat
    let starts (i : Instr) (g : Gen) : Prop := exec i s = .next (fell .a (s1.onSeat (fun t => t.startGen g)))
    let pushes (i : Instr) (e : PortEntry) (acq : List (Nat × Vec)) (s1 : State) : Prop :=
      exec i s = .next (fell .a (s1.onSeat (fun t => { t with
        ports := t.ports.set q (qLive t t.ports[q] ++ [⟨e, l, none, .a, .s⟩]), lastAcq := acq })))
    let acquired (v : List (Nat × Vec)) : List (Nat × Vec) :=
      if e.psn then v else putWhere (fun p => p.1 == s.seat.engA.pc) (s.seat.engA.pc, e.data) v
    (d.toNat ≤ 9 → s.seat.portActive d.toNat = false → Does (objectRef x) s o s1 → streamable o = true →
      starts (.strm d a b k sy nx) { port := d.toNat, lsn := l, obj := o, off := y, kind := k, sy, nx, taint := ka ||| kb }
      ∧ (b.toNat ≤ 9 →
        starts (.strmg d a b k sy nx) { port := d.toNat, lsn := l, obj := o, kind := k, sy, nx, taint := ka, index := some b.toNat }))
    ∧ (d.toNat ≤ 9 → exec (.strmc d) s = .next (fell .a (s.onSeat (fun t => { t with gens := t.gens.map (fun g =>
        if g.port = d.toNat ∧ g.stopped = none ∧ g.ended = false then { g with stopped := some l } else g) }))))
    ∧ (d.toNat ≤ 9 → s.seat.portActive d.toNat = false → (qLive s.seat s.seat.ports[q]).length < 8 →
      Does (ldvRead l (ldView c (ka ||| kb) (nxHinted s)) (x + y) (ka ||| kb)) s e s1 →
      (c ≠ .syAcq → pushes (.ldv d a b c) e s1.seat.lastAcq s1)
      ∧ (c = .syAcq → (∀ p ∈ s.seat.lastAcq, p.1 ≠ s.seat.engA.pc) →
        (∀ tag, s1.freeTag = some tag → pushes (.ldv d a b c) { e with taint := e.taint ||| tag } (acquired s1.seat.lastAcq) s1)
        ∧ (s1.freeTag = none → let u := refresh (s1.onSeat (fun t => squashReads t l))
          pushes (.ldv d a b c) e (acquired u.seat.lastAcq) u)))
    ∧ (d.toNat ≤ 9 → s.seat.portActive d.toNat = false → (qLive s.seat s.seat.ports[q]).length < 8 → ∀ v, (s.seat.engA.pc, v) ∈ s.seat.lastAcq →
      (∀ p ∈ s.seat.lastAcq, p.1 = s.seat.engA.pc → p.2 = v) →
      (∀ n, ∃ z u, Does (ldvRead l { coherent := true, nx := nxHinted s } (x + y) (ka ||| kb)) { s with nonce := n } z u) →
      ∃ (t : State) (z : PortEntry), exec (.ldv d a b .syAcq) s = .next (fell .a t) ∧ ⟨z, l, none, .a, .s⟩ ∈ t.seat.ports[q]
        ∧ (z.prov = true → z.data = v ∧ (∃ g u, locate (x + y) 512 .read false s = .ok (g, u) ∧ ∀ i ∈ g, farHome i.1.key = false)
          ∧ ∃ r ∈ t.seat.preds, r.port = d.toNat ∧ r.lsn = l ∧ r.data = v))
    ∧ (Does (objectRef x) s o s1 → ldtOk o = true → rowsEmpty s.seat (Fin.ofNat 8 d.toNat) (8 * (r.toNat + 1)) = true →
      s1.seat.logRoom .a 1 = true →
      let tile : Fin 8 := Fin.ofNat 8 d.toNat
      let tagged (t : Seat) : Seat :=
        let u := t.pushLog .a (.tag tile t.tiles[tile].tag)
        { u with tiles := u.tiles.set tile { u.tiles[tile] with tag := obFmt o } }
      let places := (List.range (8 * (r.toNat + 1))).flatMap (fun j => (List.range (obExt o 0)).map (fun i =>
        elemPlace o (obBase o + y + BitVec.ofNat 64 j * obStr o 1) i))
      ∀ far s2 s3 s4, Does (farElement o places) (s1.onSeat tagged) far s2 → Does (askGate .a far) s2 () s3 →
        Does (mEach (List.range (8 * (r.toNat + 1))) (ldtFill l { coherent := (ka ||| kb) != 0, nx := nxHinted s } o y tile (ka ||| kb))) s3 () s4 →
        exec (.ldt d a b r) s = .next (fell .a s4))

-- The vector engine.

/-- R73, R153, R154, R156, R157: with a predicate of `n` > 0 active elements of width `w`, source and destination groups in range,
and sources that can be read, the integer words compute each active element of their result from the elements of A and B at the
same place, and write the group of D. -/
def Obligations.IntegerVectorWordsComputeElementByElement : Prop :=
  ∀ (s s1 t : State) (d a b : BitVec 6) (p : BitVec 3) (w n x y : Nat) (kp k : Taint) (sn h : Bool) (c : ICond),
    Issues s .v false → Does (getP p) s (w, n, kp) s → 0 < n →
    let g := (n * w + 4095) / 4096
    groupOk a g = true → groupOk b g = true → groupOk d g = true → destFieldOk d = true →
    Does (readGroups g [a, b]) s ([x, y], k) s1 →
    let gives (i : Instr) (f : Nat → Nat → Nat) : Prop :=
      Does (writeGroup d (intFmt w) w n (packElems w n (fun e => f (x >>> (w * e) % 2 ^ w) (y >>> (w * e) % 2 ^ w))) (k ||| kp) false 0)
        s1 () t → exec i s = .next (fell .v t)
    let low (z : Int) : Nat := (z % 2 ^ w).toNat
    let sg (z : Nat) : Int := if z < 2 ^ (w - 1) then (z : Int) else (z : Int) - 2 ^ w
    let top : Int := 2 ^ (w - 1)
    gives (.vadd d a b p .wrap) (fun u v => (u + v) % 2 ^ w) ∧ gives (.vsub d a b p .wrap) (fun u v => low ((u : Int) - v))
      ∧ gives (.vadd d a b p .us) (fun u v => min (u + v) (2 ^ w - 1)) ∧ gives (.vsub d a b p .us) (fun u v => u - v)
      ∧ gives (.vadd d a b p .ss) (fun u v => low (max (-top) (min (top - 1) (sg u + sg v))))
      ∧ gives (.vsub d a b p .ss) (fun u v => low (max (-top) (min (top - 1) (sg u - sg v))))
      ∧ gives (.vmul d a b p .low) (fun u v => u * v % 2 ^ w) ∧ gives (.vmul d a b p .highUnsigned) (fun u v => u * v / 2 ^ w)
      ∧ gives (.vmul d a b p .highSigned) (fun u v => low (sg u * sg v / 2 ^ w))
      ∧ gives (.vmin d a b p sn) (fun u v => if sn then low (min (sg u) (sg v)) else min u v)
      ∧ gives (.vmax d a b p sn) (fun u v => if sn then low (max (sg u) (sg v)) else max u v)
      ∧ gives (.vand d a b p) (fun u v => u &&& v) ∧ gives (.vor d a b p) (fun u v => u ||| v)
      ∧ gives (.vxor d a b p) (fun u v => u ^^^ v) ∧ gives (.vandn d a b p) (fun u v => u &&& (2 ^ w - 1 - v))
      ∧ gives (.vshl d a b p) (fun u v => u * 2 ^ v % 2 ^ w)
      ∧ gives (.vshr d a b p h) (fun u v => if h then low (sg u / 2 ^ v) else u / 2 ^ v)
      ∧ gives (.vicmp d a b p c) (fun u v => if (match c with
          | .eq => u == v
          | .slt => decide (sg u < sg v)
          | .ult => decide (u < v)
          | .ne => u != v) then 2 ^ w - 1 else 0)

/-- R155, R157, R154, R162, R156: likewise the float words at 16 and 32 bits (each rounds the exact result once, to nearest even),
the words that also read D, and the words with one operand. That VFCMP, VSEL and VMOV push entries of the integer formats is the model's
choice (log 107). -/
def Obligations.FloatAndUnaryVectorWordsComputeElementByElement : Prop :=
  ∀ (s s1 t : State) (d a b : BitVec 6) (p : BitVec 3) (w n x y z : Nat) (kp k kd : Taint) (sn : Bool) (c : FCond) (fn : SfuFn),
    Issues s .v false → Does (getP p) s (w, n, kp) s → 0 < n →
    let g := (n * w + 4095) / 4096
    groupOk a g = true → groupOk b g = true → groupOk d g = true → destFieldOk d = true →
    let at_ (v e : Nat) : Nat := v >>> (w * e) % 2 ^ w
    let writes (fmt : FCode) (f : Nat → Nat) (k : Taint) (popped : Nat) (s1 : State) (i : Instr) : Prop :=
      Does (writeGroup d fmt w n (packElems w n f) (k ||| kp) false popped) s1 () t → exec i s = .next (fell .v t)
    let lay : FLayout := if w = 16 then bf16 else fp32
    let num (v e : Nat) : Sys2Proof.Machine.Num := decodeF lay (at_ v e)
    let rne (v : Sys2Proof.Machine.Num) : Nat := numToF lay .rne v
    let ff : FCode := if w = 16 then 1 else 2
    (Does (readGroups g [a, b]) s ([x, y], k) s1 → w = 16 ∨ w = 32 →
      writes ff (fun e => rne (numAdd (num x e) (num y e))) k 0 s1 (.vfadd d a b p)
      ∧ writes ff (fun e => rne (numAdd (num x e) (numNeg (num y e)))) k 0 s1 (.vfsub d a b p)
      ∧ writes ff (fun e => rne (numMul (num x e) (num y e))) k 0 s1 (.vfmul d a b p)
      ∧ writes ff (fun e => rne (numMin (num x e) (num y e))) k 0 s1 (.vfmin d a b p)
      ∧ writes ff (fun e => rne (numMax (num x e) (num y e))) k 0 s1 (.vfmax d a b p)
      ∧ writes 0 (fun e => if fcond c (num x e) (num y e) then 2 ^ w - 1 else 0) k 0 s1 (.vfcmp d a b p c))
    ∧ (∀ s2, Does (readGroups g [a, b]) s ([x, y], k) s1 → Does (readGroup d g) s1 (z, kd) s2 →
      (w = 16 ∨ w = 32 → writes ff (fun e => fFma lay (at_ z e) (at_ x e) (at_ y e)) (k ||| kd) g s2 (.vfma d a b p))
      ∧ writes (intFmt w) (fun e => if (at_ z e).testBit (w - 1) then at_ x e else at_ y e) (k ||| kd) g s2 (.vsel d a b p))
    ∧ (Does (readGroups g [a]) s ([x], k) s1 →
      (w = 16 ∨ w = 32 →
        writes ff (fun e => rne (numAbs (num x e))) k 0 s1 (.vfabs d a p) ∧ writes ff (fun e => rne (numNeg (num x e))) k 0 s1 (.vfneg d a p)
        ∧ writes ff (fun e => sfu fn lay (at_ x e)) k 0 s1 (.vsfu d a fn p))
      ∧ writes (intFmt w) (fun e => if sn ∧ 2 ^ (w - 1) ≤ at_ x e then 2 ^ w - at_ x e else at_ x e) k 0 s1 (.vabs d a p sn)
      ∧ writes (intFmt w) (fun e => if at_ x e = 0 then w else w - 1 - Nat.log2 (at_ x e)) k 0 s1 (.vclz d a p)
      ∧ writes (intFmt w) (fun e => ((List.range w).find? (fun i => (at_ x e).testBit i)).getD w) k 0 s1 (.vffs d a p)
      ∧ writes (intFmt w) (fun e => (List.range w).countP (fun i => (at_ x e).testBit i)) k 0 s1 (.vpopc d a p)
      ∧ writes (intFmt w) (at_ x) k 0 s1 (.vmov d a p))

/-- R158-R161, R154, R140: conversions and widenings write elements of their target's width, VPERM, VSLIDE, VBCAST and VMOVI move
elements, VSCAN and VRED combine them in order, VRED into element 0 alone; with no active element the words named change nothing. That
VPERM, VSLIDE and VBCAST push entries of the integer formats is the model's choice (log 107). -/
def Obligations.ConvertingAndMovingVectorWords : Prop :=
  ∀ (s s1 t : State) (d a b : BitVec 6) (p : BitVec 3) (w n x y : Nat) (kp k kx : Taint) (z : Dword) (imm : BitVec 12)
    (g isrc : Bool) (tgt : Fmt) (r : Round) (m : NumKind) (sc : ScanOp) (rd : RedOp) (mv : MoviKind),
    Issues s .v false → Does (getP p) s (w, n, kp) s → destFieldOk d = true →
    let size (w : Nat) : Nat := (n * w + 4095) / 4096
    let at_ (v e : Nat) : Nat := v >>> (w * e) % 2 ^ w
    let outs (wd : Nat) (fmt : FCode) (bits : Nat) (k : Taint) (s1 : State) (i : Instr) : Prop :=
      groupOk d (size wd) = true →
      Does (writeGroup d fmt wd n bits (k ||| kp) false 0) s1 () t → exec i s = .next (fell .v t)
    (0 < n → groupOk a (size w) = true → Does (readGroups (size w) [a]) s ([x], k) s1 →
      (cvtOk g isrc tgt w = true → outs (cvtWidth tgt w) (if tgt = .raw then intFmt w else fmtCode tgt)
        (packElems (cvtWidth tgt w) n (fun e => cvtElem g isrc tgt r w (at_ x e))) k s1 (.vcvt d a g isrc tgt p r))
      ∧ (w = 16 → outs 32 2 (packElems 32 n (fun e => numToF fp32 .rne (decodeF bf16 (at_ x e)))) k s1 (.vwid d a p .float))
      ∧ (w ≠ 32 → outs (2 * w) (intFmt (2 * w)) (packElems (2 * w) n (at_ x)) k s1 (.vwid d a p .unsigned)
        ∧ outs (2 * w) (intFmt (2 * w)) (packElems (2 * w) n (fun e => wrapInt (2 * w) (signedOf w (at_ x e)))) k s1 (.vwid d a p .signed))
      ∧ (w = 32 → outs 16 1 (packElems 16 n (fun e => numToF bf16 .rne (decodeF fp32 (at_ x e)))) k s1 (.vnar d a p .float))
      ∧ (w ≠ 4 → outs (w / 2) (intFmt (w / 2)) (packElems (w / 2) n (fun e => min (at_ x e) (2 ^ (w / 2) - 1))) k s1 (.vnar d a p .unsigned)
        ∧ outs (w / 2) (intFmt (w / 2)) (packElems (w / 2) n (fun e => wrapInt (w / 2) (clampInt (-(2 ^ (w / 2 - 1) : Int))
          ((2 ^ (w / 2 - 1) : Int) - 1) (signedOf w (at_ x e))))) k s1 (.vnar d a p .signed))
      ∧ ((sc = .isum ∨ w = 16 ∨ w = 32) → outs w (if sc = .fsum then floatFmt w else intFmt w)
        (packList w (scanList sc w ((List.range n).map (at_ x)))) k s1 (.vscan d a p sc))
      ∧ (ReadsX s .v b z kx → outs w (intFmt w)
        (packElems w n (fun e => if 0 ≤ (e : Int) + z.toInt ∧ (e : Int) + z.toInt < n then at_ x ((e : Int) + z.toInt).toNat else 0))
        (k ||| kx) s1 (.vslide d a b p)))
    ∧ (0 < n → groupOk a (size w) = true → Does (readGroup a (size w)) s (x, k) s1 → groupOk d 1 = true →
      (rd = .isum ∨ rd = .imax ∨ w = 16 ∨ w = 32) →
      let fmt := if rd = .fsum ∨ rd = .fmax then floatFmt w else intFmt w
      let v := reduce rd w ((List.range n).map (at_ x))
      (isPort d = false → Does (writeGroup d fmt w 1 v (k ||| kp) true 0) s1 () t → exec (.vred d a p rd) s = .next (fell .v t))
      ∧ (isPort d = true →
        let q : Fin 16 := Fin.ofNat 16 (d.toNat - 48)
        (qLive s1.seat s1.seat.ports[q]).length < 8 →
        exec (.vred d a p rd) s = .next (fell .v (s1.onSeat (fun t => { t with ports := t.ports.set q (qLive t t.ports[q] ++
          [⟨{ data := BitVec.ofNat 4096 v, taint := k ||| kp, vcnt := 1, last := true, fmt }, t.engV.lsn, none, .v, .s⟩]) })))))
    ∧ (0 < n → groupOk a (size w) = true → groupOk b (size w) = true → Does (readGroups (size w) [a, b]) s ([x, y], k) s1 →
      outs w (intFmt w) (packElems w n (fun e => if at_ y e < n then at_ x (at_ y e) else 0)) k s1 (.vperm d a b p))
    ∧ (0 < n → ReadsX s .v a z kx → outs w (intFmt w) (packElems w n (fun _ => z.toNat)) kx s (.vbcast d a p))
    ∧ (0 < n → outs w (intFmt w) (packElems w n (fun _ => (imm.toInt % 2 ^ w).toNat)) 0 s (.vmovi d imm p .int))
    ∧ (0 < n → w = 16 ∨ w = 32 → outs w (floatFmt w) (packElems w n (fun _ => numToF (layW w) .rne (numOfInt imm.toInt))) 0 s
      (.vmovi d imm p .float))
    ∧ (n = 0 → ∀ i ∈ [Instr.vfadd d a b p, .vfma d a b p, .vadd d a b p .wrap, .vand d a b p, .vsel d a b p, .vmov d a p,
        .vcvt d a g isrc tgt p r, .vwid d a p m, .vnar d a p m, .vred d a p rd, .vscan d a p sc, .vperm d a b p, .vmovi d imm p mv,
        .vtw d a b p, .vlsl d a b p, .vlss d a b p], exec i s = .next (fell .v s))

/-- R70-R73, R154: a group of up to six registers is read from the physical registers that its names rotate to, and one from a port pops
an entry for each register; a result is written to the group's registers element by element with its taint, the elements past the last
active one and their taint are kept, and no other vector register changes; a port destination takes one entry for each register, the
last of them alone with LAST, and each counts its own active elements, a RAW entry in bytes (log 18). -/
def Obligations.VectorGroupsAreReadAndWritten : Prop :=
  ∀ (s : State) (d : BitVec 6) (f : FCode) (w n bits : Nat) (k : Taint), w ∈ [4, 8, 16, 32] → 0 < n → n * w ≤ 6 * 4096 →
    let g := (n * w + 4095) / 4096
    let r (j : Nat) : Fin 48 := physV s.seat.engV.rbv (d.toNat + j)
    let q : Fin 16 := Fin.ofNat 16 (d.toNat - 48)
    (d.toNat + g ≤ 48 → s.seat.damage = [] → s.seat.logRoom .v g = true →
      let ks := (List.range g).foldl (fun k j => k ||| s.seat.vt[r j]) 0
      (∃ x, Does (readGroup d g) s (x, ks) s ∧ x < 2 ^ (4096 * g)
        ∧ ∀ j i, j < g → i < 4096 → x.testBit (4096 * j + i) = (s.seat.v[r j]).getLsbD i)
      ∧ ∃ t, Does (writeGroup d f w n bits k false 0) s () t ∧ OnlySeat s t
        ∧ (∀ j i, j < g → i < 4096 → (t.seat.v[r j]).getLsbD i =
            if 4096 * j + i < n * w then bits.testBit (4096 * j + i) else (s.seat.v[r j]).getLsbD i)
        ∧ (∀ j, j < g → t.seat.vt[r j] = if n * w < 4096 * g then k ||| ks else k)
        ∧ (∀ m, (∀ j, j < g → m ≠ r j) → t.seat.v[m] = s.seat.v[m] ∧ t.seat.vt[m] = s.seat.vt[m])
        ∧ t.seat.s = s.seat.s ∧ t.seat.p = s.seat.p ∧ t.seat.tiles = s.seat.tiles ∧ t.seat.ports = s.seat.ports)
    ∧ (48 ≤ d.toNat → ∀ xs : List PortEntry, ((s.seat.ports[q].filter (fun i => i.taken.isNone)).map Item.val).take g = xs → xs.length = g →
      (∀ x ∈ xs, x.bad = false ∧ x.prov = false ∧ x.psn = false) →
      ∃ x t, Does (readGroup d g) s (x, xs.foldl (fun k e => k ||| e.taint) 0) t ∧ OnlySeat s t
        ∧ (∀ j i (h : j < xs.length), i < 4096 → x.testBit (4096 * j + i) = xs[j].data.getLsbD i)
        ∧ t.seat.ports[q].filter (fun i => i.taken.isNone) = (s.seat.ports[q].filter (fun i => i.taken.isNone)).drop g
        ∧ t.seat.ports[q].length = s.seat.ports[q].length ∧ (∀ m, m ≠ q → t.seat.ports[m] = s.seat.ports[m])
        ∧ t.seat.v = s.seat.v ∧ t.seat.vt = s.seat.vt)
    ∧ (58 ≤ d.toNat → (qLive s.seat s.seat.ports[q]).length + g ≤ 8 →
      let m (j : Nat) : Nat := min (4096 / w) (n - j * (4096 / w))
      let entry (j : Nat) : PortEntry :=
        { data := BitVec.ofNat 4096 (bits >>> (4096 * j)), taint := k, vcnt := if f = 0 then m j * w / 8 else m j
          last := j + 1 = g, fmt := f }
      ∃ t, Does (writeGroup d f w n bits k false 0) s () t ∧ OnlySeat s t
        ∧ t.seat.ports = s.seat.ports.set q (qLive s.seat s.seat.ports[q]
          ++ (List.range g).map (fun j => ⟨entry j, s.seat.engV.lsn, none, .v, .s⟩))
        ∧ t.seat.v = s.seat.v ∧ t.seat.vt = s.seat.vt)

/-- R148, R163-R168, R72: VTW fills an empty row of a tile, VTR reads 32 full rows as columns and TFMT changes the tag; VLSL and VLSS
read and write the lanes' slices, of two elements that meet the higher one last, a VLSS behind a log entry for each pass over the lanes
(log 19); PSET, PWHILE and PCNT write predicates and count them. That an entry of VTR carries the tile's tag is the model's choice
(log 108). -/
def Obligations.TileLaneAndPredicateWords : Prop :=
  ∀ (s s1 : State) (d a b : BitVec 6) (p m : BitVec 3) (w n v o : Nat) (kp kx ka ko : Taint) (x : Dword) (f : BitVec 4) (ew : EWidth)
    (c : BitVec 13), Issues s .v false → Does (getP p) s (w, n, kp) s →
    let l := s.seat.engV.lsn
    let g := (n * w + 4095) / 4096
    let tile : Fin 8 := Fin.ofNat 8 d.toNat
    let tag := s.seat.tiles[tile].tag
    let at_ (v e : Nat) : Nat := v >>> (w * e) % 2 ^ w
    (0 < n → ReadsX s .v b x kx → x.toNat ≤ 31 → vtwOk tag w n = true → groupOk a g = true → s.seat.logRoom .v 1 = true →
      let r : Fin 32 := Fin.ofNat 32 x.toNat
      (s.seat.rowNow tile r).full = false → Does (readGroup a g) s (v, ka) s1 →
      let row : Row := { full := true, lsn := l, taint := ka ||| kp ||| kx
                         data := BitVec.ofNat 4096 (packElems (tagWidth tag w) n (fun e => tileElem tag w (at_ v e))) }
      ∃ t, exec (.vtw d a b p) s = .next (fell .v t) ∧ t.seat.tiles = (s1.seat.setRow tile r row).tiles ∧ t.seat.v = s1.seat.v)
    ∧ (tileFmt f = true → s.seat.logRoom .v 1 = true → ∃ t, exec (.tfmt d f) s = .next (fell .v t)
      ∧ t.seat.tiles = s.seat.tiles.set tile { s.seat.tiles[tile] with tag := f } ∧ t.seat.v = s.seat.v)
    ∧ (∀ rows s2, ReadsX s .v b x kx → x.toNat ≤ 31 →
      let k : Fin 8 := Fin.ofNat 8 a.toNat
      let tg := s.seat.tiles[k].tag
      tg ≠ 5 → tg ≠ 6 → destFieldOk d = true → (∀ r : Fin 32, s.seat.rowFull l k r = true) → Does (mMap allRows (mRow k)) s rows s →
      let wt := widthOf tg
      let cols := 128 / wt
      let data := packElems wt (32 * cols) (fun e =>
        ((rows[e % 32]?).getD ({} : Row)).data.toNat >>> (wt * (x.toNat * cols + e / 32)) % 2 ^ wt)
      Does (writeGroup d tg wt (32 * cols) data (rows.foldl (fun k r => k ||| r.taint) kx) true 0) s () s2 →
      exec (.vtr d a b) s = .next (fell .v (if s.seat.engV.side.lr then s2.onSeat (takeRows .v k l allRows) else s2)))
    ∧ (0 < n → ReadsX s .v b x kx → w = 16 ∨ w = 32 → groupOk a g = true → groupOk d g = true → Does (readGroup a g) s (v, ka) s1 →
      let off (e : Nat) : Dword := x + BitVec.ofNat 64 (at_ v e)
      let key (e i : Nat) : Nat := 2048 * (e * w % 4096 / 128) + (off e).toNat + i
      (∀ e, e < n → (off e).toNat % (w / 8) = 0 ∧ (off e).toNat + w / 8 ≤ 2048) →
      (destFieldOk d = true → ∀ t, Does (writeGroup d (intFmt w) w n (packElems w n (fun e =>
          natOfBytes ((List.range (w / 8)).map (fun i => Memory.read s.seat.lanes (key e i))))) (ka ||| kx ||| kp) false 0) s1 () t →
        exec (.vlsl d a b p) s = .next (fell .v t))
      ∧ (∀ s2, Does (readGroup d g) s1 (o, ko) s2 → s2.seat.logRoom .v (lanePasses w n).length = true → Memory.wf s2.seat.lanes →
        ∃ t, exec (.vlss d a b p) s = .next (fell .v t) ∧ Memory.wf t.seat.lanes
          ∧ (∀ e i, e < n → i < w / 8 → (∀ e' i', e < e' → e' < n → i' < w / 8 → key e' i' ≠ key e i) →
            Memory.read t.seat.lanes (key e i) = BitVec.ofNat 8 (at_ o e >>> (8 * i)))
          ∧ (∀ j, (∀ e i, e < n → i < w / 8 → key e i ≠ j) → Memory.read t.seat.lanes j = Memory.read s2.seat.lanes j)))
    ∧ (s.seat.logRoom .v 2 = true →
      let code : BitVec 2 := match ew with
        | .w4 => 0 | .w8 => 1 | .w16 => 2 | .w32 => 3
      let r := physP s.seat.engV.rbp m.toNat
      (∃ t, exec (.pset ew m c) s = .next (fell .v t) ∧ t.seat.p = s.seat.p.set r ((0 : BitVec 1) ++ code ++ c) ∧ t.seat.pt = s.seat.pt.set r 0)
      ∧ (∀ gs : BitVec 3, ReadsX s .v a x kx →
        let taken := min x.toNat (gs.toNat * 4096 / (4 * 2 ^ code.toNat))
        ∃ t, exec (.pwhile ew m a gs) s = .next (fell .v t)
          ∧ t.seat.p = s.seat.p.set r ((0 : BitVec 1) ++ code ++ BitVec.ofNat 13 taken) ∧ t.seat.pt = s.seat.pt.set r kx
          ∧ t.seat.engV.x[a.toNat % 16]? = some (x - BitVec.ofNat 64 taken))
      ∧ exec (.pcnt d p) s = .next (fell .v (wroteX .v (d.setWidth 4) (BitVec.ofNat 64 n) kp s)))

-- The matrix engine.

/-- R169-R171, R177: MLEASE sets the budget and gives the seat the lease once the Anvil has granted it, and asks for it before; one that
the seat has ends first, once its commands have completed. MYIELD gives the lease back then; ABALLOC takes free banks, zero and clear,
ABFREE frees them once no command of the seat is to write them and every drain of them that has executed has read them, and waits before,
and ABOWN names the cell that may drain them. No other bank changes. -/
def Obligations.LeaseAndBankWords : Prop :=
  ∀ (s : State) (w : BitVec 17) (d a b : BitVec 6) (cnt : BitVec 11), Issues s .m true →
    let id := s.seat.id
    let an := s.anvil s.here
    let budget (t : Seat) : Seat := { t with bud := if w = 0 then 32 else w }
    let banks (t : State) (lo n : Nat) (f : Nat → Bank) : Prop :=
      t.seat = s.seat ∧ t.others = s.others ∧ t.mem = s.mem
        ∧ ∀ j, j < 64 → bankOf t j = if lo ≤ j ∧ j < lo + n then f j else bankOf s j
    let unleased (t : State) : Prop := (t.anvil s.here).holder ≠ some id ∧ id ∉ (t.anvil s.here).reqs
      ∧ (t.anvil s.here).banks = an.banks ∧ (t.anvil s.here).slots = an.slots
    (s.seat.ls = false →
      (an.holder = some id → exec (.mlease w) s = .next (fell .m (s.onSeat (fun t => { budget t with ls := true }))))
      ∧ (an.holder ≠ some id → exec (.mlease w) s = .next (waiting (request (s.onSeat budget)) .m .lease))
      ∧ exec .myield s = .next (fell .m s))
    ∧ (s.seat.ls = true → s.seat.mq = [] →
      (∃ t, exec (.mlease w) s = .next (waiting (request t) .m .lease) ∧ t.seat = { budget s.seat with ls := false } ∧ unleased t)
      ∧ ∃ t, exec .myield s = .next (fell .m t) ∧ t.seat = { s.seat with ls := false } ∧ unleased t)
    ∧ (s.seat.ls = true → s.seat.mq ≠ [] →
      exec (.mlease w) s = .next (waiting s .m .matrix) ∧ exec .myield s = .next (waiting s .m .matrix))
    ∧ (d.toNat + cnt.toNat ≤ 64 → (∀ i, i < cnt.toNat → (bankOf s (d.toNat + i)).owner = none) →
      (∀ r ∈ an.resv, r.1 = s.seat.unit.uid ∨ ∀ i, i < cnt.toNat → d.toNat + i ∉ r.2.1) → olderAllocs id d.toNat cnt.toNat an.allocs = false →
      ∃ t, exec (.aballoc d cnt) s = .next (fell .m t) ∧ banks t d.toNat cnt.toNat (fun _ => { owner := some id, cell := cellOf id }))
    ∧ (d.toNat + cnt.toNat ≤ 64 → (∀ i, i < cnt.toNat → (bankOf s (d.toNat + i)).owner = some id) →
      (∀ c ∈ s.seat.mq, ∀ i, i < cnt.toNat → d.toNat + i ∉ banksOf c.bank c.pairs) →
      let reads (t : Seat) : Prop := clusOf t.id = s.here
        ∧ ∃ x, t.drain = some x ∧ x.live = true ∧ d.toNat ≤ x.num ∧ x.num < d.toNat + cnt.toNat
      ((∀ t ∈ s.seats, ¬reads t) → ∃ t, exec (.abfree d cnt) s = .next (fell .m t) ∧ banks t d.toNat cnt.toNat (fun _ => {}))
      ∧ ((∃ t ∈ s.seats, reads t) → exec (.abfree d cnt) s = .next (waiting s .m .drain)))
    ∧ (d.toNat + (a.toNat + 1) ≤ 64 → (∀ i, i < a.toNat + 1 → (bankOf s (d.toNat + i)).owner = some id) →
      ∃ t, exec (.abown d a b) s = .next (fell .m t) ∧ banks t d.toNat (a.toNat + 1) (fun j => { bankOf s j with cell := 4 * s.here + b.toNat }))

/-- R172-R176: in a leased seat whose run has a command left, MLDB fills a slot with an object's columns, behind the response
of a remote package, and MMUL and MMULG resolve
when their rows are full, their slot and banks are the seat's and the queue has room: the command is queued with its operands and its
banks take its type. -/
def Obligations.MatrixCommandsResolve : Prop :=
  ∀ (s s1 s2 s3 s4 : State) (d a b : BitVec 6) (h y x c : Bool) (k : BitVec 3) (k2 m r : BitVec 2) (q : BitVec 4) (ix off : Dword)
    (ka kb kt : Taint) (o : List Dword) (cols : List (List (Nat × Sys2Proof.Machine.Num))) (l : List W32),
    let id := s.seat.id
    let an := s.anvil s.here
    Issues s .m true → s.seat.ls = true → an.holder = some id → unstarted s.seat < an.left →
    let tile : Fin 8 := Fin.ofNat 8 a.toNat
    let tag := s.seat.tiles[tile].tag
    let ready (t : State) (pairs : List (Nat × Nat)) : Prop := an.slots[m.toFin].owner = some id ∧ s.seat.mq.length < 4
      ∧ t.anvil t.here = an ∧ t.seat.tiles = s.seat.tiles ∧ t.seat.mq = s.seat.mq ∧ t.seat.id = id
      ∧ (∀ p ∈ pairs, t.seat.rowFull s.seat.engM.lsn tile (Fin.ofNat 32 p.1) = true
        ∧ (s.seat.tiles[tile].rows[Fin.ofNat 32 p.1]).psn = none ∧ (s.seat.tiles[tile].rows[Fin.ofNat 32 p.1]).bad = false)
      ∧ (∀ n ∈ banksOf d.toNat pairs, bankOk t c (isIntTag tag) n = true)
    let queues (i : Instr) (pairs : List (Nat × Nat)) (kb : Nat) (hi : Bool) (idx : Taint) : Prop :=
      ∃ (t : State) (z : MCmd), exec i s = .next (fell .m t) ∧ t.seat.mq.length = s.seat.mq.length + 1 ∧ z ∈ t.seat.mq
        ∧ z.lsn = s.seat.engM.lsn ∧ z.bank = d.toNat ∧ z.tile = tile ∧ z.slot = m.toFin ∧ z.pairs = pairs ∧ z.kb = kb ∧ z.acc = c
        ∧ z.asg = x ∧ z.bsg = y ∧ z.hi = hi ∧ z.tag = tag ∧ z.idxT = idx ∧ z.lr = s.seat.engM.side.lr ∧ z.row = 0 ∧ z.blk = 0
        ∧ (∀ n ∈ banksOf d.toNat pairs, bankOk s c (isIntTag tag) n = true →
          bankOf t n = { bankOf s n with ty := if tag = 12 ∨ tag = 13 then .int32 else .fp32 })
        ∧ ∀ n, n ∉ banksOf d.toNat pairs → bankOf t n = bankOf s n
    (ReadsX s .m a ix ka → ReadsX s .m b off kb → Does (objectRef ix) s o s1 → mldbOk o off = true →
      let slot : Fin 4 := Fin.ofNat 4 d.toNat
      (an.slots[slot].owner = none ∨ an.slots[slot].owner = some id) → slotReserved an s.seat.unit.uid slot.val = false →
      (∀ z ∈ s.seat.mq, z.slot ≠ slot) → s1.anvil s1.here = an → s1.seat = s.seat →
      let places := (List.range (obExt o 1)).flatMap (fun n => (List.range (obExt o 0)).map (fun k =>
        elemPlace o (obBase o + off + BitVec.ofNat 64 n * obStr o 1) k))
      ∀ far, Does (farElement o places) s1 far s2 → Does (askGate .m far) s2 () s3 →
      Does (mMap (List.range (obExt o 1)) (slotColumn s.seat.engM.lsn { coherent := (ka ||| kb) != 0 } o off)) s3 cols s4 →
      s4.anvil s4.here = an → s4.seat.id = id →
      ∃ t ty, exec (.mldb d a b) s = .next (fell .m t) ∧ slotTypeOf (obFmt o) = some ty
        ∧ (t.anvil s.here).slots[slot] = { owner := some id, ty, elems := cols.flatten }
        ∧ (∀ j, j ≠ slot → (t.anvil s.here).slots[j] = an.slots[j]) ∧ (t.anvil s.here).left = an.left - 1
        ∧ (t.anvil s.here).banks = an.banks)
    ∧ (classOk s tag m.toFin x y h = true →
      let pairs := (List.range (8 * (r.toNat + 1))).map (fun i => (i, i))
      ready s pairs → queues (.mmul d a h k m y x c r) pairs (k.toNat + 1) h 0)
    ∧ (classOk s tag m.toFin x y false = true → q.toNat ≤ 9 → Does (popIndices q.toFin 9) s (l, kt) s1 → l.length ≤ 32 →
      (∀ w ∈ l, w.toNat < 2 ^ 13) →
      let pairs := l.map (fun w => (w.toNat % 32, w.toNat / 32))
      ready s1 pairs → s1.seat.engM.lsn = s.seat.engM.lsn → queues (.mmulg d a m q y x c k2) pairs (2 ^ k2.toNat) false kt)

/-- R60, R61, R174-R176, R179, R180, R183, R27: a K-block adds to each word of a bank row the integer products of its elements, modulo 2^32, or
the block's float product, rounded once to FP32, to what the word held or, in the first block of an overwriting command, to nothing;
MATRIX_COMMAND_COMPLETION and MRESUME run the command at the head of the queue to its end and take it off the queue: each bank row
holds what its steps make of it, in order, with the taints of all tile rows read (those of an MMULG too: log 139, DESIGN CHOICE), and no other bank row changes. That MRESUME does nothing
in a seat without a lease, or where its record names another command than the queue's head, is log 62, read from R179 and R171. -/
def Obligations.MatrixCommandsAccumulate : Prop :=
  ∀ (s : State) (c : MCmd) (rest : List MCmd) (x : Slot) (row b j : Nat) (acc : BitVec 8192),
    let word (v : BitVec 8192) : Nat := v.toNat >>> (32 * j) % 2 ^ 32
    let av (i : Nat) : Sys2Proof.Machine.Num := aElem c.tag c.hi c.asg row b i
    let bv (i : Nat) : Sys2Proof.Machine.Num := slotElem x c.bsg (32 * b + i) j
    let fresh : Bool := b = 0 ∧ c.acc = false
    (j < 256 → (c.tag = 12 ∨ c.tag = 13) → word (rowStep c x row b acc) =
      ((((List.range 32).map (fun i => numToIntExact (av i) * numToIntExact (bv i))).sum + (if fresh then 0 else (word acc : Int))) % 2 ^ 32).toNat)
    ∧ (j < 256 → c.tag ≠ 12 → c.tag ≠ 13 →
      let p := blockProduct ((List.range 32).map av) ((List.range 32).map bv) (aBits c.tag)
      word (rowStep c x row b acc) = numToF fp32 .rne (if fresh then p else numAdd (decodeF fp32 (word acc)) p) % 2 ^ 32)
    ∧ (s.seat.mq = c :: rest → (∀ m ∈ rest, m.lsn ≠ c.lsn) →
      let steps := (c.pairs.flatMap (fun p => (List.range c.kb).map (fun b => (p, b)))).drop (c.row * c.kb + c.blk)
      let slot := (s.anvil s.here).slots[c.slot]
      let source (p : Nat × Nat) : Row := s.seat.tiles[c.tile].rows[Fin.ofNat 32 p.1]
      let taints := c.pairs.foldl (fun k p => k ||| (source p).taint) c.idxT
      let written (t : State) : Prop := t.here = s.here ∧ (t.anvil t.here).slots = (s.anvil s.here).slots ∧ ∀ (n : Nat) (r : Fin 8), n < 64 →
        let mine := steps.filter (fun p => c.bank + p.1.2 / 8 == n && p.1.2 % 8 == r.val)
        (bankOf t n).rows[r] = mine.foldl (fun v p => rowStep c slot (source p.1).data.toNat p.2 v) (bankOf s n).rows[r]
        ∧ (bankOf t n).taint[r] = (if mine = [] then (bankOf s n).taint[r]
          else if c.acc = false ∧ (∃ p ∈ mine, p.2 = 0) then taints else taints ||| (bankOf s n).taint[r])
        ∧ (bankOf t n).ty = (bankOf s n).ty ∧ (bankOf t n).owner = (bankOf s n).owner ∧ (bankOf t n).cell = (bankOf s n).cell
      let ends (t : State) : Prop := written t ∧ t.seat.mq.map (fun m => m.lsn) = rest.map (fun m => m.lsn)
        ∧ (s.seat.mstop.lsn = c.lsn → t.seat.mstop.v = false)
        ∧ (c.lr = true → ∀ p ∈ c.pairs, (t.seat.tiles[c.tile].rows[Fin.ofNat 32 p.1]).full = false)
        ∧ (c.lr = false → t.seat.tiles = s.seat.tiles)
      (c.started = true → (s.anvil s.here).holder = some s.seat.id → ∃ t, exec .matrixCommandCompletion s = .next t ∧ ends t)
      ∧ (Issues s .m true → s.seat.ls = true → s.seat.mstop.v = true → s.seat.mstop.lsn = c.lsn →
        (c.started = true ∨ (s.anvil s.here).holder = some s.seat.id ∧ 0 < (s.anvil s.here).left) →
        ∃ t, exec .mresume s = .next (fell .m t) ∧ ends t))
    ∧ (Issues s .m true → (∀ c ∈ s.seat.mq.head?, s.seat.mstop.v = true → c.lsn ≠ s.seat.mstop.lsn) → exec .mresume s = .next (fell .m s))

-- The write-back engine.

/-- R184, R185: DCFG writes its constant and DCFG.REGISTER the low bits of an x register into a drain configuration register, where the
value is in the register's range, and no other one; a value out of range is an OPERAND_CLASS fault. -/
def Obligations.DrainConfigurationWords : Prop :=
  ∀ (s : State) (r : DReg) (w : BitVec 17) (xr : BitVec 4) (v : Dword) (k : Taint), Issues s .w true →
    let width : Nat := match r with
      | .seed | .keepscale | .outscale | .rowbase | .colbase => 32
      | .thresh => 17 | .outfmt => 4 | .colcount => 9 | .dest => 16
    let inRange (n : Nat) : Prop := n < 2 ^ width ∧ (r = .thresh → n ≤ 65536) ∧ (r = .outfmt → n ∈ [1, 2, 3, 4, 12, 13])
      ∧ (r = .colcount → 1 ≤ n ∧ n ≤ 256)
    let sets (n : Nat) (i : Instr) : Prop :=
      (inRange n → ∃ t : Dcfg, exec i s = .next (fell .w (s.onSeat (fun u => { u with dcfg := t })))
        ∧ (if r = .seed then t.seed.toNat = n else t.seed = s.seat.dcfg.seed)
        ∧ (if r = .thresh then t.thresh.toNat = n else t.thresh = s.seat.dcfg.thresh)
        ∧ (if r = .keepscale then t.keepscale.toNat = n else t.keepscale = s.seat.dcfg.keepscale)
        ∧ (if r = .outscale then t.outscale.toNat = n else t.outscale = s.seat.dcfg.outscale)
        ∧ (if r = .outfmt then t.outfmt.toNat = n else t.outfmt = s.seat.dcfg.outfmt)
        ∧ (if r = .rowbase then t.rowbase.toNat = n else t.rowbase = s.seat.dcfg.rowbase)
        ∧ (if r = .colbase then t.colbase.toNat = n else t.colbase = s.seat.dcfg.colbase)
        ∧ (if r = .colcount then t.colcount.toNat = n else t.colcount = s.seat.dcfg.colcount)
        ∧ (if r = .dest then t.dest.toNat = n else t.dest = s.seat.dcfg.dest))
      ∧ (¬inRange n → exec i s = .next (fail s .w { code := 0x0E, addr := s.seat.engW.word.setWidth 64 }))
    sets w.toNat (.dcfg r w) ∧ (ReadsX s .w (xr.setWidth 6) v k → sets (v.toNat % 2 ^ width) (.dcfgRegister r xr))

/-- R186-R191, R33: STV stores the entry that it pops from q10-q15, WSTRM the elements of such entries along an object's walk, STT the
full rows of a tile and empties them at a last read, DRN a bank of the cell's to an object or to a port, or goes on with the drain
that is under way: what is stored enters the gated store buffer at the word, behind the response of a remote package. R62, R63, R143,
R188: the bytes of each are stated, too. An element's go to its place in the object, a 4-bit one's to its nibble; WSTRM writes the elements
of its entries in the order of the walk, STT those of the tile's rows, and DRN what R62's steps make of the bank's words and the residual's
elements, whole or, compressed, in slots that expand to them. That a WSTRM goes on with another entry inside a row that is longer than one is log 63
(DEDUCED), and that a drain takes every word as INT32 once any content that it has met was INT32 is log 128 (DESIGN CHOICE). -/
def Obligations.WriteBackWordsCaptureTheirStores : Prop :=
  ∀ (s s1 s2 s3 s4 : State) (d a b : BitVec 6) (c : StClass) (k : StreamKind) (r : BitVec 2) (z t u sc : Bool) (x y : Dword)
    (ka kb : Taint) (e : PortEntry) (pieces : List (Loc × Dword × Nat)) (o : List Dword) (out : List WByte) (rows : List Row)
    (parts : List (List WByte)) (v : State), Issues s .w true →
    let l := s.seat.engW.lsn
    (10 ≤ d.toNat → d.toNat ≤ 15 → ReadsX s .w a x ka → ReadsX s .w b y kb →
      let q : Fin 16 := Fin.ofNat 16 d.toNat
      (Does (popPort .w q) s e v → (x + y).toNat % 64 = 0 →
        let n := (e.vcnt * widthOf e.fmt + 7) / 8
        Does (locate (x + y) n .write) s pieces s1 → (∀ p ∈ pieces, p.1.fmt.toNat < 5 ∨ 11 < p.1.fmt.toNat) → s1.seat.engW.lsn = l →
        Does (storeGate .w l (c == .syRel) pieces) s1 () s2 → Does (popPort .w q) s2 e s3 →
        Does (capture .w l c (wbytes pieces ((List.range n).map (byteOf e.data))) (pieces.any (fun p => farHome p.1.key)))
          s3 () s4 → exec (.stv d a b c) s = .next (fell .w s4))
      ∧ (Does (objectRef x) s o s1 → tileFmt (obFmt o) = true → s1.seat.engW.lsn = l →
        Does (walkWrite q k o y (List.range (walkTotal o)) [] false true) s1 out s2 → Does (capture .w l .plain out) s2 () s3 →
        exec (.wstrm d a b k) s = .next (fell .w s3)))
    ∧ (ReadsX s .w a x ka → ReadsX s .w b y kb → Does (objectRef x) s o s1 →
      let tile : Fin 8 := Fin.ofNat 8 d.toNat
      let tag := s.seat.tiles[tile].tag
      let js := (List.range (8 * (r.toNat + 1))).map (fun j => Fin.ofNat 32 j)
      obFmt o = tag → tag ≠ 5 → tag ≠ 6 → (∀ j ∈ js, s.seat.rowFull l tile j = true) → Does (mMap js (mRow tile)) s1 rows s1 →
      s1.seat.engW.lsn = l → Does (mMap ((List.range js.length).zip rows) (fun p => sttRow o y tag p.1 p.2)) s1 parts s2 →
      Does (capture .w l .plain parts.flatten) s2 () s3 →
      exec (.stt d a b r) s = .next (fell .w (if s.seat.engW.side.lr then s3.onSeat (takeRows .w tile l js) else s3)))
    ∧ (s.seat.drain = none → drnPorts d b t = true →
      let c := s.seat.dcfg
      let dr : Drain := { lsn := l, num := a.toNat, seen := [], port := d.toNat % 16, res := if t then some b.toNat else none, sc, dr := u }
      (∀ s1, (bankOf s1 a.toNat).owner = none ∨ (bankOf s1 a.toNat).owner = some s1.seat.id →
        let x := { dr with seen := [bankOf s1 a.toNat] }
        Does (startDrain dr) s1 x (s1.onSeat (fun w => { w with drain := some x })))
      ∧ ∀ x,
      (d = 0x3F → Does (objectRef (c.dest.setWidth 64)) s o s1 → directDrainOk o c z = true → Does (mDrainable a.toNat) s1 () s1 →
        Does (startDrain dr) s1 x s2 → Does (directRows o z 8 x) s2 out s3 →
        Does (capture .w l .plain out) (s3.onSeat (fun w => { w with drain := none })) () s4 →
        exec (.drn d a b z t u sc) s = .next (fell .w s4))
      ∧ (d ≠ 0x3F → portDrainOk c z = true → Does (mDrainable a.toNat) s () s → Does (startDrain dr) s x s1 →
        Does (drainGo x) s1 () s2 → exec (.drn d a b z t u sc) s = .next (fell .w s2)))
    ∧ (∀ x, s.seat.drain = some x → Does (drainOn x) s () s1 → exec (.drn d a b z t u sc) s = .next (fell .w s1))
    ∧ (∀ (s s1 : State) (o : List Dword) (at_ : Dword × Nat) (x : Nat) (out : List WByte), Does (elemWrite o at_ x) s out s1 →
      let w := widthOf (obFmt o)
      ∃ pieces s2, Does (elemPieces o at_.1 true) s pieces s2 ∧
        let keys := pieces.flatMap (fun p => (List.range p.2.2).map (fun i => p.1.key + i))
        out.map (fun b => (b.key, b.val, b.mask)) = if w = 4
          then (keys.take 1).map (fun k => (k, BitVec.ofNat 8 (x * 2 ^ (4 * at_.2)), if at_.2 = 0 then 0x0F else 0xF0))
          else (keys.zip ((List.range (w / 8)).map (fun i => BitVec.ofNat 8 (x / 2 ^ (8 * i) % 256)))).map (fun p => (p.1, p.2, 0xFF)))
    ∧ (∀ (s s1 : State) (q : Fin 16) (k : StreamKind) (o : List Dword) (y : Dword) (out : List WByte),
      Does (walkWrite q k o y (List.range (walkTotal o)) [] false true) s out s1 →
      let xs := supplied k (dimExt o 0) (widthOf (obFmt o)) (walkTotal o) ((s.seat.ports[q].filter (fun i => i.taken.isNone)).map Item.val) 0
      ∃ parts : List (List WByte), out = parts.flatten ∧ parts.length = xs.length
        ∧ ∀ i (h : i < xs.length) (g : i < parts.length), ∃ t u, Does (elemWrite o (walkPlace o y i) xs[i]) t parts[i] u)
    ∧ (∀ (s s1 : State) (o : List Dword) (y : Dword) (tag : FCode) (j : Nat) (row : Row) (out : List WByte), Does (sttRow o y tag j row) s out s1 →
      let w := widthOf tag
      ∃ parts : List (List WByte), out = parts.flatten ∧ parts.length = obExt o 0
        ∧ ∀ i (g : i < parts.length), (i + 1) * w ≤ 4096 →
          ∃ t u, Does (elemWrite o (elemPlace o (obBase o + y + BitVec.ofNat 64 j * obStr o 1) i) (row.data.toNat >>> (w * i) % 2 ^ w)) t parts[i] u)
    ∧ (∀ (s s1 : State) (d : Drain) (xs : List Nat) (kt : Taint), Does (drainRow d) s (xs, kt) s1 → d.seen ≠ [] → s.seat.dcfg.colcount.toNat ≤ 256 →
      let c := s.seat.dcfg
      let w := widthOf c.outfmt
      let r : Fin 8 := Fin.ofNat 8 d.row
      let rnd (v : Sys2Proof.Machine.Num) : Sys2Proof.Machine.Num := decodeF fp32 (numToF fp32 .rne v)
      let keep (col : Nat) : Prop :=
        let x := c.seed ^^^ ((((c.rowbase + BitVec.ofNat 32 d.row) &&& 0xFFFF) <<< 16) ||| ((c.colbase + BitVec.ofNat 32 col) &&& 0xFFFF))
        let x := (x ^^^ (x >>> 15)) * 0x2C1B3C6D
        let x := (x ^^^ (x >>> 12)) * 0x297A2D39
        c.thresh.toNat ≤ ((x ^^^ (x >>> 15)) >>> 16).toNat
      let steps (word : Nat) (res : Option Nat) (col : Nat) (out : Nat) : Prop :=
        let v := if d.seen.any (fun b => b.ty == .int32) then numOfInt (signedOf 32 word) else decodeF fp32 word
        let v := if d.sc then rnd (numMul v (decodeF fp32 c.outscale.toNat)) else v
        ∀ u, (if d.dr then (keep col ∧ u = rnd (numMul v (decodeF fp32 c.keepscale.toNat))) ∨ (¬keep col ∧ u = .fin false 0 0) else u = v) →
          out = convertOut c.outfmt (match res with
            | some x => rnd (numAdd u (rnd (match layoutOf c.outfmt with
              | some f => decodeF f x
              | none => numOfInt (signedOf w x))))
            | none => u)
      xs.length = c.colcount.toNat
      ∧ (d.res = none → ∀ j (h : j < xs.length), ∃ b ∈ d.seen, steps (b.rows[r].toNat >>> (32 * j) % 2 ^ 32) none j xs[j])
      ∧ (∀ q e t, d.res = some q → Does (popPort .w (Fin.ofNat 16 q)) s e t → ∀ j (h : j < xs.length),
        ∃ b ∈ d.seen, steps (b.rows[r].toNat >>> (32 * j) % 2 ^ 32)
          (some (if j < e.vcnt * widthOf e.fmt / w then e.data.toNat >>> (w * j) % 2 ^ w else 0)) j xs[j]))
    ∧ (∀ (s s1 : State) (o : List Dword) (c : Dcfg) (row : Nat) (xs : List Nat) (out : List WByte),
      let place (j : Nat) : Dword × Nat := elemPlace o (obBase o + BitVec.ofNat 64 (c.rowbase.toNat + row) * obStr o 1) (c.colbase.toNat + j)
      (Does (directRow o c row xs) s out s1 →
        ∃ parts : List (List WByte), out = parts.flatten ∧ parts.length = xs.length
          ∧ ∀ j (h : j < xs.length) (g : j < parts.length), c.rowbase.toNat + row < obExt o 1 ∧ c.colbase.toNat + j < obExt o 0
            ∧ ∃ t u, Does (elemWrite o (place j) xs[j]) t parts[j] u)
      ∧ (Does (compressedRow o c row xs) s out s1 → c.outfmt ∈ [1, 3, 4, 12] →
        let w := widthOf c.outfmt / 8
        let n := 512 / w
        ∃ parts : List (List WByte), out = parts.flatten ∧ parts.length = (xs.length + n - 1) / n
          ∧ ∀ i (h : i < parts.length), ∃ t u loc va k more, Does (locate (place (n * i)).1 512 .write true) t ((loc, va, k) :: more) u
            ∧ (parts[i].map (fun b => b.key)).head? = some (rawKey loc.key)
            ∧ (∀ m b, parts[i][m + 1]? = some b → b.key = loc.key + m)
            ∧ zmExpand w (natOfBytes ((parts[i].drop 1).map (fun b => b.val))) (((parts[i].map (fun b => b.val)).head?.getD 0) != 0)
              = packList (8 * w) ((xs.drop (n * i)).take n)))
    ∧ (∀ (s s1 s2 : State) (d x : Drain) (xs : List Nat) (kt : Taint),
      let q : Fin 16 := Fin.ofNat 16 d.port
      let c := s.seat.dcfg
      (qLive s.seat s.seat.ports[q]).length < 8 → (∀ p, d.res = some p → ∃ i, qHead s.seat.ports[Fin.ofNat 16 p] = some i ∧ i.val.prov = false) →
      Does (drainRow d) s (xs, kt) s1 →
      Does (drainMeets d) (s1.onSeat (fun t => { t with ports := t.ports.set q (qLive t t.ports[q] ++
        [⟨{ data := BitVec.ofNat 4096 (packList (widthOf c.outfmt) xs), taint := kt, vcnt := c.colcount.toNat, last := d.row == 7, fmt := c.outfmt },
          d.lsn, none, .w, .s⟩]) })) x s2 →
      Does (pushRows 1 d) s { x with row := x.row + 1 } s2)

-- The copy engine.

/-- R136, R192-R194, R200-R206: CPYS, CPYR and CPYH begin a copy whose spans can be translated, under a token that is not busy: the token is
busy, the copy holds its ranges, and its word leaves; a CPYS of length zero retires its token at once. CPY starts a chain on an idle
channel and enters the ranges of the records that the chain has (R240), CVTL loads a conversion table, and CPYC marks the channel's chain
to stop. That a CPYR may have any length is log 65, read from R204. -/
def Obligations.CopyWordsBeginTheirCopies : Prop :=
  ∀ (s s1 s2 : State) (d a b : BitVec 6) (n : BitVec 4) (f : Fmt) (bf : Bool) (x y len : Dword) (kx ky kl : Taint) (sp : List Span)
    (bytes : List Byte) (pieces : List (Loc × Dword × Nat)) (bar : Barrier),
    Issues s .c true → ReadsX s .c a x kx →
    let l := s.seat.engC.lsn
    let k : Fin 8 := Fin.ofNat 8 d.toNat
    let ch : Fin 4 := Fin.ofNat 4 b.toNat
    let joined := joinTokens (fun j => j == k) s
    let begins (i : Instr) (cp : Copy) (s0 : State) : Prop :=
      Does (copyPlan cp) s0 sp s1 →
      let ranges := copyRanges { cp with spans := sp } (spansOut sp)
      s1.seat.ranges.length + ranges.length ≤ 16 →
      exec i s = .next (fell .c (s1.onSeat (fun t => { t with
        kstat := t.kstat.set k 0xFD, ranges := t.ranges ++ ranges, copies := t.copies ++ [{ cp with spans := sp, since := t.cycles.toNat }] })))
    (s.seat.kstat[k] ≠ 0xFD → ReadsX s .c b y ky → ReadsX s .c (b + 1) len kl →
      (len = 0 → exec (.cpys d a b f) s = .next (fell .c (joined.onSeat (fun t => { t with kstat := t.kstat.set k 0xFF }))))
      ∧ (len ≠ 0 → len.toNat ≤ 4194304 → begins (.cpys d a b f)
        { kind := .plain, tok := k, conv := fmtCode f, src := x, dst := y, len := len.toNat, lsn := l, taint := kx } joined)
      ∧ (let w := if bf then 2 else 4
        x.toNat % w = 0 → y.toNat % w = 0 → len.toNat % w = 0 → begins (.cpyr d a b bf)
          { kind := .reduce, tok := k, conv := if bf then 1 else 0, src := x, dst := y, len := len.toNat, lsn := l, taint := kx } joined)
      ∧ (len.toNat ≤ 4194304 → x.toNat < 2 ^ 27 → inSourcePad s x y = false → Does (mJoin .c n.toFin) joined bar s2 →
        s2.seat.engC.lsn = l → begins (.cpyh d a b n)
          { kind := .halo, tok := k, src := x, dst := y, len := len.toNat, bar := n.toNat, gen := bar.gen, lsn := l, taint := kx } s2))
    ∧ (s.seat.kstat[k] ≠ 0xFD → x.toNat % 64 = 0 → chainOn s.seat ch = false →
      let cp : Copy := { kind := .chain, tok := k, ch, lsn := l, taint := kx, since := joined.seat.cycles.toNat }
      let begun := joined.onSeat (fun t => { t with kstat := t.kstat.set k 0xFD, chd := t.chd.set ch x, chStop := t.chStop.set ch false })
      Does (enterRanges k (chainHeld cp begun)) begun () s1 →
      exec (.cpy d a b) s = .next (fell .c (s1.onSeat (fun t => { t with copies := t.copies ++ [cp] }))))
    ∧ (x.toNat % 64 = 0 → (∀ c ∈ s.seat.copies, c.kind = .chain → c.ended ≠ none) →
      Does (loadUnit .c l { coherent := kx != 0 } x 512) s (bytes, pieces) s1 →
      exec (.cvtl d a) s = .next (fell .c (s1.onSeat (fun t => { t with ctab := t.ctab.set (Fin.ofNat 4 d.toNat) (wordOf 4096 bytes) }))))
    ∧ ((∃ c ∈ s.seat.copies, c.kind = .chain ∧ c.ch = ch ∧ c.ended = none) →
      exec (.cpyc b) s = .next (fell .c (s.onSeat (fun t => { t with chStop := t.chStop.set ch true }))))
    ∧ ((∀ c ∈ s.seat.copies, c.kind = .chain → c.ch = ch → c.ended ≠ none) → exec (.cpyc b) s = .next (fell .c s))

-- The coupling words.

/-- R84-R88, R71, R39: NOP does nothing; EVPOST adds a post in LSN order and EVWAIT takes one, each once no other engine may still have such a
word below it (log 114); LCSET and LCSET of the queue set a loop
counter, and LOOP counts it down, rotates the bases and branches while more than one pass is left; FOLLOW follows the decision that it
pops, JMPE branches; TKWAIT waits until no named token is busy, and NOTIFY ends its engine at H. -/
def Obligations.CouplingWordsSteerTheirEngine : Prop :=
  ∀ (s : State) (e : Eng) (n : BitVec 5) (c : BitVec 2) (w : BitVec 17) (imm : BitVec 11) (j : BitVec 23) (mask : BitVec 8),
    let x := s.seat.eng e
    let l := x.lsn
    let inside (o : Int) : Prop := 0 ≤ (x.pc : Int) + o ∧ (x.pc : Int) + o < ((mySlice s e).words.length : Int)
    let jump (o : Int) : Edge := .to ((x.pc : Int) + o).toNat (decide (o ≤ 0))
    let turn (is : Eng → W32 → Bool) : Prop := ∀ d, d = e ∨ (s.seat.eng d).done = true ∨ lsnLt (s.seat.eng d).lsn l = false
      ∨ ∀ w ∈ (mySlice s d).words, is d w = false
    (Issues s e (couplingBound e) →
      exec (.nop e) s = .next (fell e s)
      ∧ (let q := qLive s.seat (s.seat.ev[n.toNat]'n.isLt)
        (q.length < 255 → turn (fun d w => postsTo d n w) → ∃ p r, q = p ++ r ∧ (∀ i ∈ p, lsnLt l i.lsn = false) ∧ (∀ i ∈ r.head?, lsnLt l i.lsn = true)
          ∧ exec (.evpost e n) s = .next (fell e (s.onSeat (fun t => { t with ev := t.ev.set n.toNat (p ++ ⟨(), l, none, e, .s⟩ :: r) n.isLt })))))
      ∧ (∀ p i r, s.seat.ev[n.toNat]'n.isLt = p ++ i :: r → (∀ k ∈ p, k.taken ≠ none) → i.taken = none → turn (fun d w => waitsFor d n w) →
        exec (.evwait e n) s = .next (fell e (s.onSeat (fun t => { t with ev := t.ev.set n.toNat (p ++ { i with taken := some l, taker := e } :: r) n.isLt }))))
      ∧ (s.seat.logRoom e 1 = true →
        (∃ t, exec (.lcset e c w) s = .next (fell e t) ∧ (t.seat.eng e).lc[c.toNat]? = some (w.setWidth 32)
          ∧ (t.seat.eng e).x = x.x ∧ t.seat.s = s.seat.s)
        ∧ (∀ p i r, x.xq = p ++ i :: r → (∀ k ∈ p, k.taken ≠ none) → i.taken = none →
          ∃ t, exec (.lcsetQueue e c) s = .next (fell e t) ∧ (t.seat.eng e).xq = p ++ { i with taken := some l, taker := e } :: r
            ∧ (t.seat.eng e).lc[c.toNat]? = some (BitVec.ofNat 32 (min i.val.1.toNat 0xFFFFFFFF))))
      ∧ (s.seat.logRoom e 2 = true →
        let m := (x.lc[c.toNat]'c.isLt).toNat
        let turned (t : State) : Prop := (t.seat.eng e).lc[c.toNat]? = some (BitVec.ofNat 32 (m - 1))
          ∧ (t.seat.eng e).rbv = x.rbv - 1 ∧ (t.seat.eng e).rbp = x.rbp - 1
        (1 < m → inside imm.toInt → ∃ t, exec (.loop e c imm) s = .next (left e (jump imm.toInt) (decide (imm.toInt ≤ 0)) t) ∧ turned t)
        ∧ (m ≤ 1 → ∃ t, exec (.loop e c imm) s = .next (left e .fall (decide (imm.toInt ≤ 0)) t) ∧ turned t))
      ∧ (∀ p i r, x.dq = p ++ i :: r → (∀ k ∈ p, k.taken ≠ none) → i.taken = none →
        let t := s.onEng e (fun y => { y with dq := p ++ { i with taken := some l, taker := e } :: r })
        (i.val = true → inside j.toInt → exec (.follow e j) s = .next (left e (jump j.toInt) (decide (j.toInt ≤ 0)) t))
        ∧ (i.val = false → exec (.follow e j) s = .next (left e .fall (decide (j.toInt ≤ 0)) t)))
      ∧ (inside j.toInt → exec (.jmpe e j) s = .next (left e (jump j.toInt) (decide (j.toInt ≤ 0)) s))
      ∧ ((mask = 0 ∨ s.seat.copiesBegun l = true) → (∀ k : Fin 8, mask.getLsbD k.val = true → s.seat.kstat[k] ≠ 0xFD) →
        exec (.tkwait e mask) s = .next (fell e (joinTokens (fun k => mask.getLsbD k.val) s))))
    ∧ (Issues s e true → exec (.notify e) s = .next (left e .last false s))

/-- R90, R106, R31, R32: the local-register words: XRECV pops the engine's transfer queue into D with its taint, XADDI and XADD add modulo
2^64 with their operands' taints, XMOVW writes its constant with an empty taint set; the write changes that register of that engine
and nothing else of memory or of the s registers. -/
def Obligations.LocalRegisterWords : Prop :=
  ∀ (s : State) (e : Eng) (d a b : BitVec 4) (imm : BitVec 11) (w : BitVec 17) (x y : Dword) (kx ky : Taint),
    Issues s e (couplingBound e) → s.seat.logRoom e 1 = true →
    (∀ p i r, (s.seat.eng e).xq = p ++ i :: r → (∀ k ∈ p, k.taken ≠ none) → i.taken = none →
      let t := s.onEng e (fun z => { z with xq := p ++ { i with taken := some (s.seat.eng e).lsn, taker := e } :: r })
      exec (.xrecv e d) s = .next (fell e (wroteX e d i.val.1 i.val.2 t)))
    ∧ exec (.xmovw e d w) s = .next (fell e (wroteX e d (BitVec.ofInt 64 w.toInt) 0 s))
    ∧ (ReadsX s e (a.setWidth 6) x kx →
      exec (.xaddi e d a imm) s = .next (fell e (wroteX e d (BitVec.ofInt 64 (x.toInt + imm.toInt)) kx s))
      ∧ (ReadsX s e (b.setWidth 6) y ky →
        exec (.xadd e d a b) s = .next (fell e (wroteX e d (BitVec.ofNat 64 (x.toNat + y.toNat)) (kx ||| ky) s))))
    ∧ (let t := fell e (wroteX e d x kx s)
      (t.seat.eng e).x[d.toNat]'d.isLt = x ∧ (t.seat.eng e).xt[d.toNat]'d.isLt = kx
      ∧ (∀ r : Fin 16, r.val ≠ d.toNat → (t.seat.eng e).x[r] = (s.seat.eng e).x[r] ∧ (t.seat.eng e).xt[r] = (s.seat.eng e).xt[r])
      ∧ (∀ f, f ≠ e → t.seat.eng f = s.seat.eng f) ∧ SameMemory s t ∧ t.seat.s = s.seat.s ∧ t.seat.st = s.seat.st
      ∧ SameVectors s.seat t.seat ∧ SameQueues s.seat t.seat ∧ SameSpecials s.seat t.seat)

-- Faults.

/-- R277, R280, R283, R284, R285, R311: a fault of a word that is not at H is held with it, and nothing else changes, but that no cell keeps a
translation of the context for a page that is not present. At H the seat is rolled
back to the word's LSN: the logged old values return, the oldest last, with the damage mark that they had, the log entries below that LSN
stay, each engine goes back to its oldest word at or above it (a matrix, write-back or copy engine that has not faulted, and whose next word has
another LSN, above it), the model reading these, the damage marks and the other engines' words, from the rules by inference (logs 86, 99 and 138); the
fault record holds the fault, and captured stores and copies stay. The Hearth then serves a BKPT or a page of its own in place;
it forwards another fault of a unit with nothing in flight: the unit is saved, its seat is free, and the report of R285 is in the VF's
fault ring, or is left unwritten while 64 reports are unanswered. -/
def Obligations.WordFaultsAreHeldThenTakenAtH : Prop :=
  ∀ (s : State) (e : Eng) (f : FaultInfo),
    let x := s.seat.eng e
    let id := s.seat.id
    let kept (l : List LogEntry) : List LogEntry := l.filter (fun y => lsnLt y.lsn x.lsn)
    let forgets (t : State) : Prop := ∀ y ∈ t.tlb, y ∈ s.tlb ∧ (f.code = 0x04 → ¬(y.part = s.seat.unit.part ∧ y.vf = s.seat.unit.vf
      ∧ y.proc = s.seat.unit.proc ∧ y.page = (f.page.getD f.addr).toNat / 65536))
    (s.seat.atH e = false → let t := fail s e f
      Quiet e { s with tlb := t.tlb } t ∧ forgets t ∧ (f.code ≠ 0x04 → t.tlb = s.tlb) ∧ (t.seat.eng e).held = some f ∧ (t.seat.eng e).pc = x.pc ∧ (t.seat.eng e).lsn = x.lsn)
    ∧ (s.seat.atH e = true → (∀ d, engNum d < engNum e → (s.seat.eng d).held = none) →
      let u := takeFault s.seat e f
      u.frec = { fcode := f.code, flsn := x.lsn, flpc := BitVec.ofNat 32 (4 * x.side.lpc.toNat), faddr := f.addr
                 feng := if f.psn then 1 else BitVec.ofNat 3 (engNum e), faux := f.aux }
      ∧ u.slagS = kept s.seat.slagS ∧ u.slagV = kept s.seat.slagV ∧ u.logA = kept s.seat.logA ∧ u.gsb = s.seat.gsb ∧ u.unpub = s.seat.unpub ∧ u.copies = s.seat.copies
      ∧ u.atoms = s.seat.atoms ∧ u.kstat = s.seat.kstat ∧ u.unit = s.seat.unit
      ∧ ((∀ y ∈ s.seat.slagS ++ s.seat.slagV ++ s.seat.logA, lsnLt y.lsn x.lsn = true) →
        u.s = s.seat.s ∧ u.st = s.seat.st ∧ u.v = s.seat.v ∧ u.vt = s.seat.vt ∧ u.p = s.seat.p ∧ u.pt = s.seat.pt)
      ∧ (∀ y ∈ s.seat.slagS, ∀ r old k, y.undo = .sreg r old k → lsnLt y.lsn x.lsn = false →
        (∀ z ∈ s.seat.slagS ++ s.seat.slagV ++ s.seat.logA, z = y ∨ lsnLt z.lsn x.lsn = true ∨ y.ord < z.ord ∨ ∀ o j, z.undo ≠ .sreg r o j) →
        u.s[r.toNat]'r.isLt = old ∧ u.st[r.toNat]'r.isLt = k ∧ (Damage.sreg r ∈ u.damage ↔ y.was = true ∨ y.bad = true))
      ∧ (∀ d, let y := s.seat.eng d
        let z := u.eng d
        let from_ : Lsn := if d = .s ∨ d = .a ∨ d = .v ∨ d = e ∨ (y.lsn = x.lsn ∧ y.done = false) then x.lsn else x.lsn + 1
        z.held = none ∧ z.wait = none
        ∧ (∀ a w b, y.issued = a ++ w :: b → lsnLt w.2 from_ = false → (∀ c ∈ b, lsnLt c.2 from_ = true) →
          z.pc = w.1 ∧ z.lsn = w.2 ∧ z.done = false)
        ∧ ((∀ c ∈ y.issued, lsnLt c.2 from_ = true) → z.pc = y.pc ∧ z.lsn = y.lsn ∧ z.done = y.done))
      ∧ (f.code = 0x14 → f.aux = 0x40 → fail s e f = s.onSeat (fun _ => { u with status := .service }))
      ∧ (f.code = 0x04 → hearthPaged s f.addr = true → let t := fail s e f
        t = { s with seat := { u with status := .service }, tlb := t.tlb } ∧ forgets t)
      ∧ (¬(f.code = 0x14 ∧ f.aux = 0x40) → ¬(f.code = 0x04 ∧ hearthPaged s f.addr = true) → s.seat.kill = .no → s.seat.gsb = [] → s.seat.atoms = [] →
        s.seat.mq = [] → s.seat.copies = [] → s.seat.preds = [] → s.seat.unpub = [] → (∀ t ∈ s.others, t.copies = []) →
        let t := fail s e f
        let vf := s.seat.unit.vf
        let v := s.vf vf
        t.seat = { id } ∧ (∃ y ∈ t.saved, y.seat.unit = s.seat.unit ∧ y.seat.frec = u.frec
          ∧ (v.open_.length < 64 → y.reply = some v.seq) ∧ (64 ≤ v.open_.length → y.reply = none ∧ y.unsent = true))
        ∧ (v.open_.length < 64 → (t.vf vf).seq = v.seq + 1 ∧ (t.vf vf).open_ = v.open_ ++ [v.seq] ∧ Sent.msix vf 1 ∈ t.sent
          ∧ (let n := s.seat.unit
            let at_ := v.fltbase.toNat + 64 * (v.seq.toNat % 64)
            let dword (i : Nat) : Dword := t.homeDword (hostKey (at_ + 8 * i))
            Inv s → at_ + 64 < 2 ^ 52 → n.proc < 256 → dword 0 = (0 : Half) ++ f.aux ++ f.code ++ n.gen ++ n.scope ∧ dword 1 = u.frec.flsn ++ u.frec.flpc
              ∧ dword 2 = f.addr ∧ dword 3 = n.image ++ n.ix
              ∧ dword 4 = (0 : Half) ++ BitVec.ofNat 8 n.proc ++ (0 : BitVec 5) ++ u.frec.feng ++ v.seq
              ∧ dword 5 = 0 ∧ dword 6 = 0 ∧ dword 7 = 0))
        ∧ (64 ≤ v.open_.length → t.vf vf = v)))

/-- R219, R221, R280, R285, R286: FAULT_RAISE raises a held fault whose word is at H; HEARTH_PAGE_SERVICE lets a unit in service go on at the words to which it was
rolled back (a TRAP or BKPT is passed then), or a chain that waits for a page (R197), and writes the page entry that makes the page present,
with no right for units and under the context's key, and the slice words that lie on the page (R262); a spilled pad block whose place is not backed
gets another, that an unbacked place is NOT_PRESENT being log 100 (DEDUCED) and which place log 12 (DESIGN CHOICE); a reply to
an unanswered report lets its
unit wait for a seat again or quenches its scope, and any other reply is ignored; HALT_RESUME lets a halted unit run. -/
def Obligations.FaultsAreServedAndAnswered : Prop :=
  ∀ (s : State) (e : Eng) (f : FaultInfo) (entry : Dword) (vf : Nat) (seq : W32) (x : Saved),
    let u := s.seat.unit
    let serves (va : Dword) (go : Seat → Seat) : Prop :=
      (absentLevel s va = none → exec (.hearthPageService entry) s = .next (s.onSeat go))
      ∧ ∀ lvl, absentLevel s va = some lvl →
        let k := entryPlace s va lvl
        let size := if lvl = 0 then 2 ^ 42 else if lvl = 1 then 2 ^ 29 else 65536
        let leaf := lvl = 2 ∨ (lvl = 1 ∧ entry.getLsbD 4 = true)
        let keyed := leaf → entry.extractLsb' 11 7 = s.contextKey u.vf
        (entry.getLsbD 0 = true → pteValid entry lvl = true → entry.extractLsb' 1 2 = 0 → keyed →
          ∃ w, w.seat = s.seat ∧ w.images = s.images ∧ (Inv s → w.homeDword k = entry ∧ ∀ j, j < k ∨ k + 8 ≤ j → w.home j = s.home j)
            ∧ (∀ y ∈ w.tlb, y ∈ s.tlb ∧ ¬(y.part = u.part ∧ y.vf = u.vf ∧ y.proc = u.proc ∧ y.page = va.toNat / 65536))
            ∧ exec (.hearthPageService entry) s = .next (((s.images.filter (fun i => i.vf == u.vf && i.proc == u.proc)).foldl (fun w i =>
              placeImage w u.vf u.proc u.part i.img (fun a => a / size == va.toNat / size)) w).onSeat go))
        ∧ (entry.getLsbD 0 = false ∨ pteValid entry lvl = false ∨ entry.extractLsb' 1 2 ≠ 0 ∨ ¬keyed →
          exec (.hearthPageService entry) s = .next s)
    (s.seat.status = .running → (s.seat.eng e).held = some f → s.seat.atH e = true → (s.seat.eng e).done = false →
      (∀ d, engNum d < engNum e → (s.seat.eng d).held = none) → exec .faultRaise s = .next (fail s e f))
    ∧ (s.seat.status = .service →
      (s.seat.frec.fcode = 0x14 → exec (.hearthPageService entry) s = .next (s.onSeat (fun t => { t with status := .running })))
      ∧ (s.seat.frec.fcode = 0x04 →
        let va := s.seat.frec.faddr
        (isPadSpace va = false → serves va (fun t => { t with status := .running }))
        ∧ (isPadSpace va = true →
          let c := cellOf s.seat.id
          let b := padOffset va / 16384
          ∃ t, exec (.hearthPageService entry) s = .next t ∧ t.seat = { s.seat with status := .running } ∧ t.mem = s.mem
            ∧ padEntry t c b &&& 0x3FFF = padEntry s c b &&& 0x3FFF
            ∧ ∀ j, j ≠ b → padEntry t c j = padEntry s c j)))
    ∧ (s.seat.status ≠ .service →
      ((∀ c ∈ s.seat.copies, c.page = none) → exec (.hearthPageService entry) s = .next s)
      ∧ (∀ c va, s.seat.copies = [c] → c.page = some va → isPadSpace va = false →
        serves va (fun t => { t with copies := [{ c with page := none }] })))
    ∧ ((s.vf vf).open_.contains seq = false →
      exec (.faultReplyResume vf seq) s = .next s ∧ exec (.faultReplyQuench vf seq) s = .next s)
    ∧ (seq ∈ (s.vf vf).open_ → x ∈ s.saved → x.seat.unit.vf = vf → x.reply = some seq → (∀ y ∈ s.saved, y.unsent = false) →
      (∀ y ∈ s.saved, y.seat.unit.vf = vf → y.reply = some seq → y = x) →
      ∃ t, exec (.faultReplyResume vf seq) s = .next t ∧ seq ∉ (t.vf vf).open_ ∧ { x with reply := none } ∈ t.saved ∧ t.mem = s.mem
        ∧ exec (.faultReplyQuench vf seq) s = .next (sendReports (quenchScope t x.seat.unit.part x.seat.unit.scope none)))
    ∧ (s.seat.status = .halted → exec .haltResume s = .next (s.onSeat (fun t => { t with status := .running })))

-- Events of a seat.

/-- R142, R143, R145, R152, R263, R289: a generator pushes one entry with its LSN on its port: the next elements of its walk, or those that an index
entry names for a gather of rows, or the poisoned entry of the element, or of the damaged index entry, that faults, behind the response of a remote package; a confirmed prediction leaves the entries that
rest on it final, with the data that its acquire finds, and a failed one without a tag refreshes what the unit reads. That a prediction is
confirmed only where no other unit has written anything is log 54, that VCNT and FMT of a poisoned entry are 0 log 106, and a request for each
entry that lies beyond the package log 38: the model's own. -/
def Obligations.GeneratorsPushEntries : Prop :=
  ∀ (s s0 s1 : State) (q : BitVec 4) (g : Gen) (xs : List Nat) (f : FaultInfo) (p : Predicted) (x : PortEntry),
    (s.seat.gens = [g] → g.port = q.toNat → g.ended = false → g.stopped = none → (qLive s.seat (s.seat.ports[q.toNat]'q.isLt)).length < 8 →
      let cap := 4096 / widthOf (obFmt g.obj)
      let pushes (s0 : State) (y : PortEntry) : Prop := ∃ t, exec (.generatorPush q) s = .next t
        ∧ t.seat.ports[q.toNat]'q.isLt = qLive s0.seat (s0.seat.ports[q.toNat]'q.isLt) ++ [⟨y, g.lsn, none, .a, .s⟩] ∧ t.mem = s0.mem
        ∧ (y.last = true → g.prov = false → t.seat.gens = s0.seat.gens.filter (fun h => h.lsn ≠ g.lsn ∨ h.port ≠ g.port))
      (g.index = none → g.pos < walkTotal g.obj →
        let row := dimExt g.obj 0
        let n := min (min cap (walkTotal g.obj - g.pos)) (if g.kind = .row then row - g.pos % row else cap)
        let places := (List.range n).map (fun i => walkPlace g.obj g.off (g.pos + i))
        let elems : M (List Nat × Option FaultInfo) := collect (readElem g.lsn { coherent := g.sy || g.taint != 0, nx := g.nx } g.obj) places
        ∀ far, Does (farElement g.obj places) s far s0 →
        (far = none ∨ g.remote = .answered →
          (Does elems s0 (xs, none) s1 → pushes s1 (streamEntry g.obj xs g.taint (decide (walkTotal g.obj ≤ g.pos + n)) false))
          ∧ (Does elems s0 (xs, some f) s1 → pushes s1 (poisoned f g.taint)))
        ∧ (∀ va, far = some va → g.remote = .idle →
          exec (.generatorPush q) s = .next (s0.onSeat (fun t => t.putGen { g with remote := .asked t.cycles.toNat va }))))
      ∧ (g.index = none → walkTotal g.obj ≤ g.pos → g.prov = false → exec (.generatorPush q) s = .next (s.onSeat (fun t => { t with gens := [] })))
      ∧ (∀ (ip : Fin 16) (a b : List (Item PortEntry)) (i : Item PortEntry), g.index = some ip.val → g.kind = .row → g.pending = [] →
        g.lastIn = false → g.prov = false → s.seat.ports[ip] = a ++ i :: b → (∀ y ∈ a, y.taken ≠ none) → i.taken = none →
        let popped := s.onSeat (fun t => { t with ports := t.ports.set ip (a ++ { i with taken := some g.lsn, taker := .a } :: b) })
        let k := g.taint ||| i.val.taint
        (i.val.psn = true → pushes popped { i.val with taint := k, last := true, prov := false })
        ∧ (i.val.psn = false → i.val.bad = true → pushes popped (poisoned { code := FC.soft, aux := 1 } k))
        ∧ (i.val.psn = false → i.val.bad = false → i.val.prov = false →
          let ws := (entryIndices i.val).map (fun w => (w, i.val.taint))
          let elems : M (List Nat × Option FaultInfo) := collect (readIndexed { g with pending := ws, lastIn := i.val.last }) ws
          ws ≠ [] → ws.length ≤ cap →
          ∀ far, Does (farElement g.obj (ws.map (fun w => elemPlace g.obj (obBase g.obj) w.1.toNat))) popped far s0 →
          far = none ∨ g.remote = .answered →
          (Does elems s0 (xs, none) s1 → pushes s1 (streamEntry g.obj xs k i.val.last false))
          ∧ (Does elems s0 (xs, some f) s1 → pushes s1 (poisoned f k)))))
    ∧ (p ∈ s.seat.preds → p.port = q.toNat → (∀ r ∈ s.seat.preds, r.port = q.toNat → r = p) →
      Does (ldvRead p.lsn { coherent := true } p.addr 0) s x s1 → (∀ g ∈ s1.seat.gens, g.index ≠ some q.toNat) →
      let same := x.data == p.data && !x.psn && !s.hist.any (fun h => decide (p.seq < h.seq) && h.uid != s.seat.unit.uid)
      let u := s1.onSeat (fun t => { t with
        preds := t.preds.filter (fun r => !(r.port == q.toNat && r.lsn == p.lsn))
        lastAcq := putWhere (fun y => y.1 == p.pc) (p.pc, x.data) t.lastAcq
        ports := t.ports.set q.toNat ((t.ports[q.toNat]'q.isLt).map (fun i => if i.lsn = p.lsn ∧ i.val.prov = true then
          { i with val := { x with taint := i.val.taint }, taken := if same then i.taken else none } else i)) q.isLt })
      exec (.predictionConfirm q) s = .next (if same = true ∨ p.tag = true then u else refresh (u.onSeat (fun t => squashReads t p.lsn))))

/-- R37, R39, R40, R42, R43, R136, R170, R171, R187, R192, R197, R240, R263, R274, R279: the lease goes to the next requester and ends with its run; a drain
pushes its rows and lets its word leave; a chain reads and checks its record and enters its ranges, which it holds until its token retires,
then moves and returns it and goes to the next one, and a copy that ends retires its token; a complete unit leaves its seat free and its scope's counter one lower, and so does a killed one at a kill point or at a forced check;
an access without a response faults with PARTITION, but a PHASE that waits for an acknowledgement raises nothing. That a record is read
and entered in one step and moved, as it was read, in the next is log 103, that one is refused as it begins, or where its first byte to be moved lies,
log 136, how the written part of a row is found log 137 (DESIGN CHOICE), how the kill of a unit goes on log 40, both read from the spec by inference. -/
def Obligations.SeatEventsHaveTheirEffects : Prop :=
  ∀ (s s1 s2 s3 : State) (a b : SeatId) (d : Drain) (k : BitVec 3) (ch : BitVec 2) (c : Copy) (st : Byte) (l : List Span) (n m : Nat)
    (rec : List Byte) (moved : Moved) (rs : List Range) (v : Conv) (e : Eng) (va : Dword) (doff : Nat) (s4 s5 : State),
    let an := s.anvil s.here
    let id := s.seat.id
    let u := s.seat.unit
    let gone (t : State) : Prop := t.seat = { id } ∧ (∀ y ∈ (t.part u.part).entries, y.unit.uid ≠ u.uid)
      ∧ ((t.part u.part).scope u.scope).counter = ((s.part u.part).scope u.scope).counter - 1
      ∧ (∀ x ∈ (t.anvil s.here).banks.toList, x.owner ≠ some id) ∧ (t.anvil s.here).holder ≠ some id ∧ SameMemory s t
    let lonely : Prop := 1 < ((s.part u.part).scope u.scope).counter.toNat ∧ (∀ y ∈ (s.part u.part).scopes, y.num ≠ 0 → y.counter ≠ 0)
      ∧ (∀ t ∈ s.others, t.copies = [])
    (an.holder = none → an.next = some id → s.seat.mq = [] → ∃ t, exec .leaseGrant s = .next t ∧ t.seat = s.seat
      ∧ (t.anvil s.here).holder = some id ∧ (t.anvil s.here).left = s.seat.bud.toNat ∧ (t.anvil s.here).last = id
      ∧ (t.anvil s.here).reqs = an.reqs.filter (· != id) ∧ (t.anvil s.here).banks = an.banks)
    ∧ (an.holder = some id → an.left = 0 → s.seat.mq = [] →
      ((∀ r ∈ an.reqs, r = id) → exec .leaseRunEnd s = .next (s.setAnvil s.here { an with left := s.seat.bud.toNat }))
      ∧ (a ∈ an.reqs → a ≠ id → exec .leaseRunEnd s = .next (s.setAnvil s.here { an with holder := none })))
    ∧ (Issues s .w true → s.seat.drain = some d → d.lsn = s.seat.engW.lsn → s.seat.engW.done = false → Does (drainOn d) s () s1 →
      exec .drainCompletion s = .next (fell .w s1))
    ∧ (s.seat.copies = [c] → c.kind = .chain → c.ch = ch.toFin → c.ended = none → c.page = none →
      let at_ := s.seat.chd[c.ch]
      let steps (t : State) : Prop := exec (.chainRecord ch) s = .next t
      let ends (s1 : State) (st : Byte) : State := s1.onSeat (fun t => { t with copies := [{ c with ended := some st }] })
      (at_ = 0 → steps (ends s 0xFF))
      ∧ (at_ ≠ 0 → c.begun = none → Does (mPastOwn c.tok (recordRead c at_)) s rec s1 → s1.seat.copies = [c] → recConv rec = some v →
        ((recD rec 0).getLsbD 63 = false → steps (ends s1 0xFF))
        ∧ ((recD rec 0).getLsbD 63 = true → recReserved rec = false → ∀ refused, Does (mPastOwn c.tok (recRefused v rec)) s1 refused s5 → s5.seat.copies = [c] →
          (refused = true → Does (recordWrite c at_ rec true 0x0E (recDone rec)) s5 () s2 → s2.seat.copies = [c] → steps (ends s2 0x0E))
          ∧ (refused = false → s5.seat.chStop[c.ch] = true → steps (ends (s5.onSeat (fun t => { t with chStop := t.chStop.set c.ch false })) 0xFE))
          ∧ (refused = false → s5.seat.chStop[c.ch] = false → Does (mPastOwn c.tok (doneOut v rec (recDone rec))) s5 doff s2 → Does (recRanges c v rec) s2 rs s3 →
            Does (enterRanges c.tok rs) s3 () s4 → s4.seat.copies = [c] →
            steps (s4.onSeat (fun t => { t with
              copies := [{ c with begun := some at_, row := rec, off := recDone rec, doff, since := t.cycles.toNat }] })))))
      ∧ (at_ ≠ 0 → c.begun = some at_ → c.row = rec → recConv rec = some v → (recD rec 5).getLsbD 10 = false →
          let total := recLen rec * recRows rec
          let own := s.seat.ranges.filter (fun r => r.tok == c.tok)
          Does (moveRecord c v rec c.off c.doff total) (s.onSeat (fun t => { t with ranges := t.ranges.filter (fun r => r.tok != c.tok) })) moved s2 →
          moved.bad = none → total ≤ c.off + moved.raw.length → Does (recordWrite c at_ rec false 0xFF total) s2 () s3 → s3.seat.copies = [c] →
          let d (t : Seat) : Copy :=
            { c with begun := none, row := [], off := 0, doff := 0, moved := [], resp := false, late := false, since := t.cycles.toNat }
          steps (s3.onSeat (fun t => { t with
            ranges := t.ranges ++ own, chd := t.chd.set c.ch (recNext rec), lines := t.lines.filter (fun x => x.lsn != c.lsn)
            copies := [if recNext rec = 0 then { d t with ended := some 0xFF } else d t] }))))
    ∧ (s.seat.copies = [c] → c.tok = k.toFin →
      let retires (s0 : State) (st : Byte) : Prop := exec (.copyRetire k) s = .next (s0.onSeat (fun t => { t with
        kstat := t.kstat.set k.toFin st, ranges := t.ranges.filter (fun r => r.tok ≠ k.toFin)
        lines := t.lines.filter (fun r => ¬∃ x ∈ t.copies, x.tok = k.toFin ∧ x.lsn = r.lsn), copies := t.copies.filter (fun x => x.tok ≠ k.toFin) }))
      (c.ended = some st → retires s st)
      ∧ (c.kind = .chain → c.ended = none → exec (.copyRetire k) s = .next s)
      ∧ (c.kind = .plain ∨ c.kind = .reduce ∨ (c.kind = .halo ∧ copyStarted s c = true) → c.ended = none →
        (∀ f, copySpans c s = .error (.fault f) → retires (noteDrop f (forgetFault f s)) f.code)
        ∧ (Does (copySpans c) s l s1 → Does (moveAll c l) s1 (n, st) s2 → retires s2 st)))
    ∧ (s.seat.status = .running → (∀ d, (s.seat.eng d).done = true) → s.seat.gsb = [] → s.seat.atoms = [] → s.seat.mq = [] → s.seat.copies = [] →
      s.seat.drain = none → s.seat.preds = [] → (∀ g ∈ s.seat.gens, g.index = none ∨ g.active = false) → s.seat.unpub = [] → lonely →
      ∃ t, exec .unitCompletion s = .next t ∧ gone t)
    ∧ (s.seat.kill = .quench → s.seat.atoms = [] → s.seat.copies = [] → s.seat.replay = [] → (∀ y ∈ s.seat.unpub, y.copy = false) → lonely →
      (s.seat.status = .halted ∨ s.seat.status = .service ∨ s.seat.status = .dying ∨ (s.seat.status = .running ∧ s.seat.atKill = true) →
        ∃ t, exec .unitKill s = .next t ∧ gone t)
      ∧ (s.seat.status = .running → 65536 ≤ (s.seat.cycles - s.seat.chk).toNat → ∃ t, exec .forcedCheck s = .next t ∧ gone t))
    ∧ (s.seat.status ≠ .vacant → 65536 ≤ (s.seat.cycles - s.seat.chk).toNat → s.seat.kill = .no →
      exec .forcedCheck s = .next (s.onSeat (fun t => { t with chk := t.chk + 65536 })))
    ∧ ((s.seat.eng e).remote = .asked m va → m + 2 ^ 20 ≤ s.seat.cycles.toNat → (∀ j, engNum j < engNum e → (s.seat.eng j).remote = .idle) →
      (s.seat.eng e).wait ≠ some .ack → exec .responseTimeout s = .next (fail (s.onEng e (fun x => { x with remote := .idle })) e { code := 0x16, addr := va, aux := 2 }))
    ∧ ((∀ j, (s.seat.eng j).remote = .idle ∨ (s.seat.eng j).wait = some .ack) → (∀ g ∈ s.seat.gens, g.remote = .idle) → s.seat.copies = [] →
      exec .responseTimeout s = .next s)

-- The dispatcher and the host.

/-- R37, R38, R97, R220, R251, R255, R296, R300: a released unit that is the only one waiting starts on a free seat with zero registers and its engines at
the start of their slices, and a saved one goes on there with its registers and its banks, and with the count of the times that it was passed
over; each tick a partition without an overdue entry steps its frame counter and releases its entries, and one with an overdue entry slips; a
slice ends with the next VF that has work, and the outgoing unit is saved; the oldest swapped entry returns to the work-queue region while that
has room. That a tick waits for what is left of the tick before, a watchdog's QUENCH, a reset or the turn of another VF, is the model's (log 120,
DEDUCED), as is that a die places no unit of a queue that its table never held (log 134, DEDUCED), and so are the 64 cycles of each tick (log 50), the age of a slice (log 70) and the one region of work queues (log 21). -/
def Obligations.DispatchAndTicks : Prop :=
  ∀ (s : State) (seat : SeatId) (en : Entry) (i : Image) (x : Saved) (v : Nat) (die : Nat),
    let part := s.partOf (clusOf seat)
    let free : Prop := seatExists seat = true ∧ (s.cell (cellOf seat)).retired = false ∧ (∀ t ∈ s.seats, t.id ≠ seat)
    let mine (u : UnitRec) : Prop := u.part = part ∧ (part ≠ 0 ∨ u.vf = s.curVf) ∧ dieServes s (dieOf seat) u = true
    (free → s.saved = [] → (s.part part).entries = [en] → en.phase = .released → en.pv = false → mine en.unit → s.image en.unit.image = some i →
      ∃ t, exec (.unitPlacement seat) s = .next t ∧ t.seat.id = seat ∧ t.seat.status = .running ∧ t.seat.unit = en.unit
        ∧ t.seat.s = Vector.replicate 64 0 ∧ t.seat.st = Vector.replicate 64 0 ∧ t.seat.v = Vector.replicate 48 0
        ∧ t.seat.p = Vector.replicate 8 0x6080 ∧ t.seat.gsb = [] ∧ t.seat.copies = []
        ∧ (∀ e sl, i.img.slices[engNum e]? = some sl → t.seat.eng e = { lsn := sl.start })
        ∧ (t.part part).entries = [{ en with phase := .placed, swapped := false }] ∧ t.mem = s.mem)
    ∧ (free → s.saved = [x] → (s.part part).entries = [] → mine x.seat.unit → x.reply = none → x.unsent = false → (x.pinClus = true → clusOf seat = x.clus) →
      roomIn s (clusOf seat) x = true → x.seat.replay = [] → (x.banks.map Prod.fst).Nodup → (∀ b ∈ x.banks, b.1 < 64) →
      ∃ t, exec (.unitResume seat) s = .next t ∧ t.saved = []
        ∧ t.seat = { x.seat with id := seat, status := .running, unit := { x.seat.unit with bypass := x.passed }, mq := x.seat.mq.map (fun c => { c with back := true }) }
        ∧ ∀ b ∈ x.banks, bankOf t b.1 = { b.2 with owner := some seat, cell := if b.2.cell = cellOf x.seat.id then cellOf seat else b.2.cell })
    ∧ ((∃ g ∈ s.graces, g.left = 0) ∨ (∃ d k, d < 4 ∧ k < 64 ∧ expired s d k (s.bind d k) = true) ∨ (sliceOver s = true ∧ nextVf s ≠ s.curVf) →
      exec .chipTick s = .next s)
    ∧ ((s.parts.map (fun p => p.id)).Nodup → (∀ g ∈ s.graces, g.left ≠ 0) →
      (∀ d k, d < 4 → k < 64 → expired s d k (s.bind d k) = false) → (sliceOver s = false ∨ nextVf s = s.curVf) → ∃ t, exec .chipTick s = .next t ∧ t.tod = s.tod + 1
      ∧ (s.seat.status ≠ .vacant → t.seat.cycles = s.seat.cycles + 64)
      ∧ ∀ p ∈ s.parts, let q := t.part p.id
        ((∀ e ∈ p.entries, e.dv = true → reached p.frame e.due = false) → q.frame = p.frame + 1 ∧ q.slipping = false ∧ q.slipcount = p.slipcount
          ∧ q.entries = p.entries.map (fun e => if e.phase = .waiting ∧ reached p.frame e.unit.release = true ∧ (∀ d ∈ e.deps, holds p d = false)
            then { e with phase := .released } else e))
        ∧ (∀ e ∈ p.entries, e.dv = true → reached p.frame e.due = true → q.frame = p.frame ∧ q.slipping = true ∧ q.entries = p.entries
          ∧ q.slipcount = (if p.slipcount = 0xFFFFFFFF then p.slipcount else p.slipcount + 1)))
    ∧ (hasWork s s.curVf = true → s.sliceAge < Config.sliceLength s.curVf → exec .sliceEnd s = .next s)
    ∧ (s.curVf < 97 → (hasWork s s.curVf = false ∨ Config.sliceLength s.curVf ≤ s.sliceAge) → v < 97 → hasWork s v = true → (∀ w, w < 97 → (w + 96 - s.curVf) % 97 < (v + 96 - s.curVf) % 97 → hasWork s w = false) →
      ((∀ t ∈ s.seats, t.unit.part = 0 → t.unit.vf = s.curVf → t.unit.pinned = true) → exec .sliceEnd s = .next { s with curVf := v, sliceAge := 0 })
      ∧ (s.others = [] → s.seat.status = .running → s.seat.unit.part = 0 → s.seat.unit.vf = s.curVf → s.seat.unit.pinned = false → s.seat.kill = .no →
        s.seat.gsb = [] → s.seat.atoms = [] → s.seat.mq = [] → s.seat.copies = [] → s.seat.preds = [] → s.seat.unpub = [] →
        ∃ t, exec .sliceEnd s = .next t ∧ t.curVf = v ∧ t.seat = { id := s.seat.id } ∧ ∃ y ∈ t.saved, y.seat.unit = s.seat.unit))
    ∧ (die < 4 → ∃ t, exec (.workQueueRestore die) s = .next t
      ∧ (regionSize ≤ inRegion s (fun _ => true) → t = s)
      ∧ (inRegion s (fun _ => true) < regionSize → (∃ p ∈ s.parts, en ∈ p.entries) → en.swapped = true → en.phase ≠ .placed →
        (∀ p ∈ s.parts, ∀ e ∈ p.entries, e.swapped = true → e.phase ≠ .placed → en.unit.uid ≤ e.unit.uid) →
        t = { s with parts := s.parts.map (fun p => { p with entries := p.entries.map (fun e =>
          if e.unit.uid = en.unit.uid then { e with swapped := false } else e) }) }))

/-- R19, R245-R248, R250, R251: a queue that waits for a slot of a die that runs its work, and that no rival ranks before, is bound to a free slot
with its own record, which has HEAD, TAIL and COUNT of its record on another die, if there is one (the records in several tables are log 134,
DEDUCED); the command at
the head of a bound queue opens the scope of its kind under the queue's innermost one (a JOB is admitted by itself, or by the
arbitration), CLOSE closes the innermost one, LAUNCH opens and closes a scope that counts the entries it queues, and HEAD passes each; a
command that breaks the rules, or a reserved operation (log 24, DEDUCED), with no job open sets the queue's QERR bit. -/
def Obligations.HostCommandsAreApplied : Prop :=
  ∀ (s s1 : State) (vf q die slot : Nat) (x : HostQueue) (n par : BitVec 12) (g : BitVec 20) (rest : List (BitVec 12 × BitVec 20)) (j : Job)
    (deps : List (BitVec 12 × BitVec 20)) (l : List Entry),
    let b := s.bind die slot
    let part := (s.vf vf).part
    let p := s.part part
    let d := headEntry s b
    let headed (t : State) (nest : List (BitVec 12 × BitVec 20)) : Prop :=
      (t.bind die slot).head = b.head + 1 ∧ (t.queue vf q).nest = nest ∧ SameMemory s t
    (die < 4 → slot < 64 → b.v = false → s.queues = [x] → x.vf = vf → x.q = q → (∀ k, k < 64 → (s.bind die k).holds vf q = false) →
      (∃ c, c < 40 ∧ s.partOf (64 * die + c) = part) → (s.slotOf vf q ≠ none ∨ x.pending = true ∨ x.head ≠ x.tail) →
      s.admits vf = true → vf < 128 → q < 1024 → x.proc < 256 → x.logn < 32 →
      ∃ t, exec (.queueBind die slot vf q) s = .next t ∧ (t.bind die slot).v = true ∧ (t.bind die slot).pin = false
        ∧ (t.bind die slot).qbase = x.qbase ∧ (t.bind die slot).wdog = x.wdog ∧ (t.bind die slot).prio = x.prio
        ∧ (t.bind die slot).logn.toNat = x.logn ∧ (t.bind die slot).vf.toNat = vf ∧ (t.bind die slot).proc.toNat = x.proc
        ∧ (t.bind die slot).head = (s.heads vf q).1 ∧ (t.bind die slot).tail = (s.heads vf q).2 ∧ (t.bind die slot).qnum.toNat = q
        ∧ (s.slotOf vf q = none → s.heads vf q = (x.head, x.tail) ∧ (t.bind die slot).count = 0)
        ∧ (∀ at_, s.slotOf vf q = some at_ → s.heads vf q = ((s.bind at_.1 at_.2).head, (s.bind at_.1 at_.2).tail)
          ∧ (t.bind die slot).count = (s.bind at_.1 at_.2).count ∧ t.bind at_.1 at_.2 = s.bind at_.1 at_.2)
        ∧ (t.bind die slot).vec = x.vec ∧ (t.bind die slot).part.toNat = part.val ∧ t.mem = s.mem)
    ∧ (s.slotOf vf q = some (die, slot) → s.queue vf q = x → x.vf = vf → x.q = q → b.head ≠ b.tail → p.rst = false → s.admits vf = true →
      x.skip = 0 → nestGone p x = false → s.vfOn vf = true → q < 1024 →
      (cmdFields d = true → cmdNests p x.nest (cmdOp d) = true →
        (cmdOp d = 5 → x.nest = (n, g) :: rest → (p.scope n).counter ≠ 0 → (∀ y ∈ p.scopes, y.state = .closed → y.counter ≠ 0) →
          ∃ t, exec (.close vf q) s = .next t ∧ headed t rest ∧ (t.part part).scope n = { p.scope n with state := .closed })
        ∧ (p.freeScope = some n →
          let opened (t : State) (parent : BitVec 12) (kind : ScopeKind) : Prop :=
            let y := (t.part part).scope n
            y.state = .opened ∧ y.parent = parent ∧ y.kind = kind ∧ y.counter = 0 ∧ y.cancel = false ∧ y.gen = nextGen (p.scope n).gen
            ∧ y.ack = (cmdAck d).setWidth 64 ∧ y.hostAck = true
            ∧ ((t.part part).scope parent).counter = (p.scope parent).counter + 1 ∧ headed t ((n, y.gen) :: x.nest)
          (cmdOp d = 1 → x.nest = [] → n ≠ 0 → wins s (jobQueues s) x = true →
            let admitted (i : Instr) : Prop := ∃ t, exec i s = .next t ∧ opened t 0 .job
              ∧ (∃ y ∈ t.jobs, y.scope = n ∧ y.part = part ∧ y.vf = vf ∧ y.q = q ∧ y.record = cmdAddr d ∧ y.tag = cmdTag d)
            admitted (.job vf q) ∧ (jobQueues s = [x] → admitted .jobAdmission))
          ∧ (cmdOp d = 2 → x.nest = (par, g) :: rest → n ≠ par → ∃ t, exec (.pass vf q) s = .next t ∧ opened t par .pass)
          ∧ (cmdOp d = 3 → x.nest = (par, g) :: rest → n ≠ par → ∃ t, exec (.graph vf q) s = .next t ∧ opened t par .graph)
          ∧ (cmdOp d = 4 → x.nest = (par, g) :: rest → n ≠ par → openJob s part x = some j → findDeps j (par, g) (cmdDeps d) = some deps →
            loadEntries s x part (s.queuePinned vf q) n (nextGen (p.scope n).gen) deps (BitVec.signExtend 64 (cmdAddr d)) (cmdCount d) 0 = (s1, some l) → s1.part part = p →
            ∃ t, exec (.launch vf q) s = .next t ∧ (t.bind die slot).head = b.head + 1
              ∧ ((t.part part).scope n).state = .closed ∧ ((t.part part).scope n).kind = .launch
              ∧ ((t.part part).scope n).counter = BitVec.ofNat 32 l.length
              ∧ ((t.part part).entries.map (fun e => e.unit) = (p.entries ++ l).map (fun e => e.unit))
              ∧ ((t.part part).scope par).counter = (p.scope par).counter + 1)))
      ∧ ((cmdFields d = false ∨ cmdNests p x.nest (cmdOp d) = false) → x.nest = [] →
        (∀ op i, (op, i) ∈ [(2, Instr.pass vf q), (3, .graph vf q), (4, .launch vf q), (5, .close vf q)] →
          cmdOp d = op ∨ cmdOp d = 0 ∨ 5 < cmdOp d →
          ∃ t, exec i s = .next t ∧ headed t [] ∧ q ∈ (t.vf vf).qerr ∧ Sent.msix vf 0 ∈ t.sent)))

/-- R257, R306, R307, R316-R318, R289: a slot's watchdog at its limit reports FCODE 0x11 to the VF, quenches the queue's oldest job and starts the grace
period; a grace period that ends before the scope is done, or damage to the Hearth's state, resets the partition: no unit, entry, saved
context or job of it is left, its frame counter is zero and its root scope open in a new epoch, SLIPBASE is 0 and the refill period 51,557 (R257), and
its pads and windows are zero. A queue with records in several tables has the watchdog of the first (log 134, DEDUCED), the
report takes the next SEQ without leaving it open (log 74, DEDUCED), and the scope table has its root alone after a reset (log 95, DEDUCED). -/
def Obligations.WatchdogsAndPartitionResets : Prop :=
  ∀ (s : State) (die slot part : Nat) (j : Job), die < 4 → slot < 64 → part < 32 →
    let b := s.bind die slot
    let id : Fin 32 := Fin.ofNat 32 part
    let p := s.part j.part
    (b.v = true → b.wdog ≠ 0 → b.wdog.toNat ≤ b.count.toNat → (∀ g ∈ s.graces, g.die = die → g.slot ≠ slot) → s.jobs = [j] → j.vf = b.vf.toNat → j.q = b.qnum.toNat →
      s.slotOf b.vf.toNat b.qnum.toNat = some (die, slot) → p.entries = [] → s.saved = [] → (p.scope j.scope).state = .opened → (∀ y ∈ p.scopes, y.num ≠ 0 → y.counter ≠ 0) →
      ∃ t, exec (.watchdogExpiry die slot) s = .next t ∧ ⟨die, slot, j.part, j.scope, (p.scope j.scope).gen, 4097⟩ ∈ t.graces
        ∧ ((t.part j.part).scope j.scope).cancelled = true ∧ ((t.part j.part).scope j.scope).state = .closed
        ∧ (∃ y ∈ t.jobs, y.scope = j.scope ∧ y.errix = 0xFFFFFFFF) ∧ Sent.msix j.vf 1 ∈ t.sent
        ∧ (let v := s.vf j.vf
          let at_ := v.fltbase.toNat + 64 * (v.seq.toNat % 64)
          Inv s → at_ + 64 < 2 ^ 52 → t.homeDword (hostKey at_) = (0x11 : BitVec 32) ++ (p.scope j.scope).gen ++ (p.scope j.scope).num
            ∧ t.homeDword (hostKey (at_ + 16)) = BitVec.ofNat 64 j.q ∧ (t.vf j.vf).open_ = v.open_))
    ∧ (let resets (i : Instr) : Prop := ∃ t, exec i s = .next t
        ∧ (let r := t.part id
          r.frame = 0 ∧ r.entries = [] ∧ r.quenches = [] ∧ r.scopes = [{ num := 0, gen := 1, state := .opened, kind := .root }]
          ∧ r.slipcount = 0 ∧ r.slipbase = 0 ∧ r.refill = 51557 ∧ r.serial = 0 ∧ r.epoch = (s.part id).epoch + 1 ∧ r.ctm = true ∧ r.rst = false)
        ∧ (∀ y ∈ t.saved, y.seat.unit.part ≠ id) ∧ (∀ y ∈ t.jobs, y.part ≠ id) ∧ (∀ g ∈ t.graces, g.part ≠ id)
        ∧ (s.others = [] → s.seat.status ≠ .vacant → s.seat.unit.part = id → t.seat = { id := s.seat.id })
        ∧ (Inv s → ∀ c, c < 256 → c % 64 < 40 → s.partOf c = id →
          (∀ k off, k < 4 → off < 2 ^ 20 → t.home (nearKey (4 * c + k) off) = 0) ∧ (∀ off, off < 2 ^ 21 → t.home (windowKey c off) = 0))
      resets (.hearthStateDamage [part])
      ∧ ((∃ g ∈ s.graces, g.part = id ∧ g.left = 0) → resets (.gracePeriodExpiry part))
      ∧ ((∀ g ∈ s.graces, g.part = id → g.left ≠ 0) → exec (.gracePeriodExpiry part) s = .next s))

/-- R244, R245, R250, R257, R258, R285, R263, R288, R305, R317, R264: a doorbell in the window from HEAD moves the queue's tail, and one outside sets its
QERR bit; host bytes that come with a doorbell are at their home first (log 23, DESIGN CHOICE); a 1 clears a QERR bit; REGISTER_WRITE changes nothing
at an offset other than 0x810, since SLIPBASE, QERR and the fault reply have events of their own; SLIPBASE takes its value and FLTBASE an aligned one (another aligned one where the value is not, log 2); a packet with a tag that its port does not allow is dropped and
counted, a write of another package reaches its home under the key of the partition that its tag names, and a response answers the engine that waits; a
late response is dropped and counted, at the host port by a counter of its own (log 119, DEDUCED); a dead link, that between the I/O dies too (link 0 of die 4: log 39, DESIGN CHOICE), is
reported; the drop counter is read and armed; a module reset zeroes the module's memory and gives the state after reset, with the cells that the
self-test finds bad retired, and leaves other packages' and the host's memory as ciphertext under lost keys (their labels: log 5, DESIGN CHOICE); a bring-up that fails before step 5
leaves memory (log 81, DESIGN CHOICE). -/
def Obligations.HostRegistersAndFabric : Prop :=
  ∀ (s : State) (vf q : Nat) (tail : W32) (at_ : Nat × Nat) (reg : Nat) (mask val : Dword) (part : Nat) (port : Fin 48) (tag : Half) (epoch : Nat)
    (k : Nat) (byte : Byte) (e : Eng) (m : Nat) (va : Dword) (die link : Nat) (bad : List Nat) (pt : Part),
    let b := s.bind at_.1 at_.2
    let x := s.queue vf q
    let o := s.ports[port]
    let dropped (t : State) : Prop := t.ports[port].drops = (if o.drops = 0xFFFFFFFF then o.drops else o.drops + 1) ∧ t.ports[port].armed = false
      ∧ (o.armed = true → HearthIrq.drop port.val ∈ t.irqs) ∧ t.mem = s.mem ∧ t.seat = s.seat
    let refused (t : State) : Prop := q ∈ (t.vf vf).qerr ∧ HearthIrq.doorbell vf q ∈ t.irqs ∧ Sent.msix vf 0 ∈ t.sent ∧ t.mem = s.mem
    (s.vfOn vf = true → q < 1024 →
      (at_.1 < 4 → at_.2 < 64 → s.slotOf vf q = some at_ →
        ((tail - b.head).toNat ≤ 2 ^ b.logn.toNat → ∃ t, exec (.doorbellWrite vf q tail []) s = .next t ∧ t.bind at_.1 at_.2 = { b with tail } ∧ t.mem = s.mem)
        ∧ (2 ^ b.logn.toNat < (tail - b.head).toNat → ∃ t, exec (.doorbellWrite vf q tail []) s = .next t ∧ refused t ∧ t.bind at_.1 at_.2 = b))
      ∧ (s.slotOf vf q = none → x.vf = vf → x.q = q →
        ((tail - x.head).toNat ≤ 2 ^ x.logn → ∃ t, exec (.doorbellWrite vf q tail []) s = .next t ∧ t.queue vf q = { x with tail, pending := true }
          ∧ HearthIrq.doorbell vf q ∈ t.irqs ∧ t.mem = s.mem)
        ∧ (2 ^ x.logn < (tail - x.head).toNat → ∃ t, exec (.doorbellWrite vf q tail []) s = .next t ∧ refused t))
      ∧ (Inv s → ∃ t, exec (.doorbellWrite vf q tail [(k, byte)]) s = .next t ∧ t.home (hostKey k) = byte ∧ ∀ j, j ≠ hostKey k → t.home j = s.home j))
    ∧ (s.vfOn vf = true → reg < 16 → ∃ t, exec (.qerrClear vf reg mask) s = .next t ∧ t.mem = s.mem
      ∧ ∀ c, c ∈ (t.vf vf).qerr ↔ c ∈ (s.vf vf).qerr ∧ ¬(c / 64 = reg ∧ mask.getLsbD (c % 64) = true))
    ∧ (s.vfOn 0 = true → part < 32 → ∃ t, exec (.slipbaseWrite 0 part val) s = .next t
      ∧ t.part (Fin.ofNat 32 part) = { s.part (Fin.ofNat 32 part) with slipbase := val &&& ~~~0x1F })
    ∧ (s.vfOn vf = true → 1 ≤ vf → leadVf s (s.vf vf).part = some vf → ∃ t, exec (.slipbaseWrite vf part val) s = .next t
      ∧ t.part (s.vf vf).part = { s.part (s.vf vf).part with slipbase := val &&& ~~~0x1F })
    ∧ (s.vfOn vf = true → (val.toNat % 64 = 0 → ∃ t, exec (.registerWrite vf 0x810 val) s = .next t ∧ t.vf vf = { s.vf vf with fltbase := val })
      ∧ (val.toNat % 64 ≠ 0 → ∃ t w, exec (.registerWrite vf 0x810 val) s = .next t ∧ w.toNat % 64 = 0 ∧ t.vf vf = { s.vf vf with fltbase := w })
      ∧ (reg ≠ 0x810 → exec (.registerWrite vf reg val) s = .next s))
    ∧ ((tag ∉ o.allowed → ∃ t, exec (.fabricPacketReceive port.val tag epoch none) s = .next t ∧ dropped t)
      ∧ (tag ∈ o.allowed →
        (nodeOf k < 4 → Inv s → s.foreign (packetOwner s tag k).2 k = none → ∃ t, exec (.fabricPacketReceive port.val tag epoch (some (k, [byte]))) s = .next t ∧ t.home k = byte
          ∧ ∀ j, j ≠ k → t.home j = s.home j)
        ∧ (s.parts.find? (fun p => p.tag == tag) = some pt → epoch ≠ pt.epoch →
          ∃ t, exec (.fabricPacketReceive port.val tag epoch none) s = .next t ∧ dropped t))
      ∧ (∀ pn, pn = 48 ∨ (pn = port.val ∧ tag ∈ o.allowed) →
        ((∀ p ∈ s.parts, p.tag ≠ tag) → exec (.fabricPacketReceive pn tag epoch none) s = .next s)
        ∧ (s.parts.find? (fun p => p.tag == tag) = some pt →
          (epoch ≠ pt.epoch → pn = 48 → exec (.fabricPacketReceive pn tag epoch none) s
            = .next { s with hostDrops := if s.hostDrops = 0xFFFFFFFF then s.hostDrops else s.hostDrops + 1 })
          ∧ (epoch = pt.epoch → s.seat.status ≠ .vacant → s.seat.unit.part = pt.id → (s.seat.eng e).remote = .asked m va →
            (∀ d, d ≠ e → ∀ i c, (s.seat.eng d).remote ≠ .asked i c) → (∀ g ∈ s.seat.gens, ∀ i c, g.remote ≠ .asked i c) →
            s.seat.copies = [] → s.seat.replay = [] →
            exec (.fabricPacketReceive pn tag epoch none) s = .next (s.onEng e (fun y => { y with remote := .answered }))))))
    ∧ ((die < 4 ∧ link < 3) ∨ (die = 4 ∧ link = 0) → ∃ t, exec (.dieLinkRetryExhausted die link) s = .next t ∧ HearthIrq.link die link ∈ t.irqs
      ∧ (if link = 1 then ((die + 3) % 4, 0) else (die, link)) ∈ t.links ∧ t.mem = s.mem)
    ∧ (∃ t, exec (.dropCounterRead port.val) s = .next t ∧ t.sent = s.sent ++ [.drops port.val o.drops] ∧ t.ports[port] = { o with armed := true })
    ∧ (∃ t, exec (.moduleReset ⟨none, bad⟩) s = .next t
      ∧ t = { State.reset with agenda := s.agenda, nonce := s.nonce, mem := t.mem, cells := t.cells, labels := t.labels }
        ∧ t.labels = (s.labels.filter (fun l => !onModule (128 * l.1))).map (fun l => (l.1, l.2 + 2 ^ 96))
      ∧ (∀ c, (t.cell c).retired = true ↔ c ∈ bad ∧ c < 1024 ∧ c / 4 % 64 < 40)
      ∧ (Inv s → ∀ j, t.home j = if onModule j = true then 0 else s.home j))
    ∧ (1 ≤ k → k ≤ 6 → ∃ t, exec (.moduleReset ⟨some k, bad⟩) s = .next t ∧ t.bootFail = k ∧ t.sriov = false ∧ t.seats = [] ∧ t.parts = []
      ∧ (Inv s → ∀ j, t.home j = if 4 < k ∧ onModule j = true then 0 else s.home j))

-- The Hearth.

/-- R26, R92, R262, R302: a code object whose tag fails or whose words break the rules is refused and makes no image; another makes one image
for each kernel, with the next handles, which it answers; an image that nothing names is unloaded with its cached lines, and a forced
unload marks the image and the resident units that run it. R17, R21, R171, R243, R244, R249, R252, R253, R257, R261, R265: a cluster
with no unit on it moves to the partition; a legal partition map sets the die's ring table and way masks, the ports' tags and the
partitions' settings, the key identities of never-locked VFs among them (log 124, DESIGN CHOICE), and an illegal ring table, or a home on another die where the partition
has no share, is refused; no unit is placed on a retired cell, whose seats ask for no lease; a pin
marks its slot while fewer than 48 others of the die are pinned; a test request turns CTM on. Which kernels and images a load refuses, and that
it then leaves the state, is log 27 (DESIGN CHOICE); what a retired cell still does is log 79 and homes counting as a die's tenants log 118
(DEDUCED); die-pad pages of remote packages are no setting's (log 131, DESIGN CHOICE). -/
def Obligations.TheHearthLoadsImagesAndManagesUnits : Prop :=
  (∀ (s : State) (vf proc : Nat) (sys : Bool) (ks : List Kernel) (is_ : List SliceImage) (pl : Placement) (h : W32) (im : Image),
    (vf ≤ 96 → proc < 256 → s.bootFail = 0 →
      exec (.codeObjectLoad vf proc false sys ks is_ pl) s = .next { s with sent := s.sent ++ [.handles []] }
      ∧ (ks.all kernelOk = false → exec (.codeObjectLoad vf proc true sys ks is_ pl) s = .next { s with sent := s.sent ++ [.handles []] })
      ∧ (ks.all kernelOk = true → ks.length = is_.length → (ks.zip is_).all (fun k => imageOk k.1 k.2) = true →
        is_.all (codePages (placeTables s vf proc pl) vf proc) = true →
        let hs := (List.range ks.length).map (fun n => s.nextImg + BitVec.ofNat 32 n)
        ∃ t made, exec (.codeObjectLoad vf proc true sys ks is_ pl) s = .next t ∧ t.images = s.images ++ made
          ∧ made.map (fun i => i.img.handle) = hs ∧ made.map (fun i => i.img.slices) = is_.map (fun i => i.slices)
          ∧ (∀ i ∈ made, i.vf = vf ∧ i.proc = proc ∧ i.system = sys ∧ i.unload = false)
          ∧ t.sent = s.sent ++ [.handles hs] ∧ t.nextImg = s.nextImg + BitVec.ofNat 32 ks.length
          ∧ (t.ctx vf proc).ptbase = pl.ptbase ∧ (t.ctx vf proc).objbase = pl.objbase ∧ (t.ctx vf proc).spill = pl.spill
          ∧ t.seat = s.seat)
      ∧ (ks.all kernelOk = true → (ks.zip is_).all (fun k => imageOk k.1 k.2) = false →
        exec (.codeObjectLoad vf proc true sys ks is_ pl) s = .next s))
    ∧ (imageNamed s h = true → exec (.imageUnload h) s = .next s)
    ∧ (imageNamed s h = false → s.image h = some im → ∃ t, exec (.imageUnload h) s = .next t
      ∧ t.images.map (fun i => i.img.handle) = (s.images.map (fun i => i.img.handle)).filter (· != h)
      ∧ (∀ l ∈ t.icache, l ∈ s.icache) ∧ (∀ l ∈ s.icache, l.vf ≠ im.vf ∨ l.proc ≠ im.proc → l ∈ t.icache) ∧ t.mem = s.mem ∧ t.seat = s.seat)
    ∧ (s.image h = some im → (∀ p ∈ s.parts, p.entries = [] ∧ ∀ y ∈ p.scopes, y.num ≠ 0 → y.counter ≠ 0) → s.saved = [] →
      s.seat.status ≠ .vacant → s.seat.unit.image = h → s.seat.kill = .no →
      ∃ t, exec (.forcedUnload h) s = .next t ∧ t.seat = { s.seat with kill := .unload } ∧ t.image h = some { im with unload := true }
        ∧ t.mem = s.mem))
  ∧ (∀ (s : State) (c part cell die slot : Nat) (ring : List Byte) (ways : List (Nat × Nat × BitVec 16)) (set_ : PartSetting) (pin on : Bool)
    (port : Fin 48) (tags : List Half),
    let id : Fin 32 := Fin.ofNat 32 part
    s.bootFail = 0 →
    (c < 256 → c % 64 < 40 → part < 32 → s.partOf c ≠ id → shareOk (dieRing s (c / 64)) (dieWays s (c / 64)) part = true →
      (∀ t ∈ s.seats, clusOf t.id ≠ c) → ∃ t, exec (.clusterMove c part) s = .next t ∧ t.partOf c = id
        ∧ (∀ d, d ≠ c → t.partOf d = s.partOf d) ∧ t.seats = s.seats ∧ t.mem = s.mem)
    ∧ (die < 4 → ringOk ring = true → waysOk ways = true → (∀ p ∈ dieTenants s die [set_], shareOk ring ways p = true) →
      (∀ d ∈ set_.homes, d = die ∨ shareOk (dieRing s d) (dieWays s d) set_.part = true) →
      tags.length ≤ 64 → settingsOk s [set_] = true → ∃ t, exec (.partitionMapChange die ring ways [(port.val, tags)] [set_]) s = .next t
        ∧ dieRing t die = ring ∧ dieWays t die = ways ∧ t.ports[port].allowed = tags
        ∧ (let p := t.part (Fin.ofNat 32 set_.part)
          p.tag = set_.tag ∧ p.refill = set_.refill ∧ p.keys = set_.keys ∧ p.padPages = set_.pads ∧ p.homes = set_.homes
          ∧ p.walkMin = set_.walkMin ∧ p.walkMax = set_.walkMax
          ∧ p.frame = (s.part (Fin.ofNat 32 set_.part)).frame)
        ∧ (∀ v ∈ set_.vfs, (t.vf v).part = Fin.ofNat 32 set_.part)
        ∧ (∀ v k, set_.vfKeys = [(v, k)] → (t.vf v).key = some k) ∧ t.mem = s.mem ∧ t.seat = s.seat)
    ∧ (ringOk ring = false ∨ (∃ d ∈ set_.homes, d ≠ die ∧ shareOk (dieRing s d) (dieWays s d) set_.part = false) →
      exec (.partitionMapChange die ring ways [] [set_]) s = .next s)
    ∧ (cell < 1024 → cell / 4 % 64 < 40 → ∃ t, exec (.cellRetirement cell) s = .next t ∧ (t.cell cell).retired = true
      ∧ (t.cell cell).pads = (s.cell cell).pads ∧ (∀ p a, cellOf a = cell → seatFree t p a = false)
      ∧ (∀ r ∈ (t.anvil (cell / 4)).reqs, cellOf r ≠ cell) ∧ t.seats = s.seats ∧ t.mem = s.mem)
    ∧ (die < 4 → slot < 64 → (s.bind die slot).v = true →
      (pin = true → ((List.range 64).filter (fun k => k != slot && (s.bind die k).pin)).length < 48) →
      ∃ t, exec (.pinRequest die slot pin) s = .next t ∧ t.bind die slot = { s.bind die slot with pin }
        ∧ (∀ k, k < 64 → k ≠ slot → t.bind die k = s.bind die k) ∧ t.mem = s.mem)
    ∧ (part < 32 → ∃ t, exec (.testRequest part on) s = .next t
      ∧ t.part id = { s.part id with testReq := on, ctm := on || (s.part id).firstJob }))

/-- R259, R260: each die's responder answers a request that the exchange so far allows, and answers another one with an error (SPDM's codes,
log 26; opaque digests, signatures and keys, log 5): versions, capabilities and algorithms are agreed on in order; digests,
certificate, challenge and measurements are answered; sessions open, finish, get new secrets and end. No seat, memory or
partition changes. R260, R261: KEY_PROG makes a stream for the VFs of one partition, at most 32 of them; LOCK_INTERFACE_REQUEST gives an unlocked VF that the session's
stream covers a key identity of its partition's set, and START_INTERFACE_REQUEST lets it run; STOP_INTERFACE_REQUEST erases its key and
unlocks it; a request outside its stream puts a locked VF in ERROR; a request that the interface's state does not allow is
answered with an error. -/
def Obligations.RespondersAndTrustedInterfaces : Prop :=
  (∀ (s : State) (die sid ix : Nat) (peer : PeerData) (b : List Byte) (y : Session), die < 6 → s.bootFail = 0 ∨ 4 ≤ s.bootFail →
    let r := s.responder die
    let answers (i : Instr) (r' : Responder) (data : List Byte) : Prop :=
      exec i s = .next { s.setResponder die r' with sent := s.sent ++ [.answer die data] }
    let refuses (i : Instr) : Prop := exec i s = .next { s with sent := s.sent ++ [.answer die [0x7F]] }
    answers (.getVersion die) { r with version := true, caps := false, algs := false, script := [] } [0x04]
    ∧ (r.version = true → answers (.getCapabilities die) { r with caps := true } [0x61])
    ∧ (r.version = false → refuses (.getCapabilities die))
    ∧ (r.caps = true → answers (.negotiateAlgorithms die peer) { r with algs := true, script := r.script ++ peer } [0x63])
    ∧ (r.caps = false → refuses (.negotiateAlgorithms die peer))
    ∧ (r.algs = true → answers (.getDigests die) r (0x01 :: Config.sha512 (Config.certificate die))
      ∧ answers (.getCertificate die) r (0x02 :: Config.certificate die)
      ∧ answers (.challenge die peer) { r with script := r.script ++ peer } (0x03 :: Config.sign die (r.script ++ peer))
      ∧ (measurement s die ix = some b → answers (.getMeasurements die ix) r (0x60 :: b))
      ∧ (measurement s die ix = none → refuses (.getMeasurements die ix))
      ∧ answers (.keyExchange die peer)
          { r with opened := r.opened ++ [{ sid := r.nextSid, secret := Config.hkdf (Config.ecdh peer r.nextSid) die }], nextSid := r.nextSid + 1
                   script := r.script ++ peer } (0x64 :: (bytesOf (BitVec.ofNat 64 r.nextSid) 8 ++ Config.sign die (r.script ++ peer))))
    ∧ (r.algs = false → ∀ i ∈ [Instr.getDigests die, .getCertificate die, .challenge die peer, .getMeasurements die ix, .keyExchange die peer], refuses i)
    ∧ (r.opened = [y] → y.sid = sid →
      (y.ready = false → answers (.finish die sid) { r with opened := [{ y with ready := true }] } [0x65])
      ∧ (y.ready = true →
        answers (.keyUpdate die sid) { r with opened := [{ y with gen := y.gen + 1, secret := Config.hkdf y.secret (y.gen + 1) }] } [0x69]
        ∧ answers (.heartbeat die sid) r [0x68] ∧ answers (.endSession die sid) { r with opened := [] } [0x6C]))
    ∧ ((∀ z ∈ r.opened, z.sid ≠ sid) → ∀ i ∈ [Instr.finish die sid, .keyUpdate die sid, .heartbeat die sid, .endSession die sid], refuses i))
  ∧ (∀ (s : State) (stream die sid vf : Nat) (vfs : List Nat) (secret : List Byte) (k : BitVec 7), s.sriov = true → 1 ≤ vf → vf ≤ 96 →
    let v := s.vf vf
    let replies (i : Instr) (ok : Bool) (t : State) : Prop := exec i s = .next t ∧ t.sent = s.sent ++ [.tdisp vf ok] ∧ t.mem = s.mem ∧ t.seat = s.seat
    (let others := s.ide.filter (fun x => x.stream != stream)
      let ok := (die < 6 ∧ ∃ y ∈ (s.responder die).opened, y.sid = sid ∧ y.ready = true) ∧ vfs ≠ [] ∧ (∀ w ∈ vfs, 1 ≤ w ∧ w ≤ 96)
        ∧ (∀ w ∈ vfs, ∀ u ∈ vfs, (s.vf w).part = (s.vf u).part) ∧ others.length < 32
      (ok → exec (.keyProg stream ⟨die, sid⟩ vfs) s = .next { s with ide := others ++ [{ stream, die, sid, vfs }], sent := s.sent ++ [.ide stream true] })
      ∧ (¬ok → exec (.keyProg stream ⟨die, sid⟩ vfs) s = .next { s with sent := s.sent ++ [.ide stream false] }))
    ∧ (streamSecret s vf = some secret → freeKey s v.part = some k → v.tdi = .unlocked → (∃ x ∈ s.ide, vf ∈ x.vfs ∧ x.die = die ∧ x.sid = sid) →
      k ∈ (s.part v.part).keys ∧ (∀ w ∈ s.vfs, w.key ≠ some k)
      ∧ ∃ t, replies (.lockInterfaceRequest vf ⟨die, sid⟩) true t ∧ t.vf vf = { v with tdi := .locked, key := some k, secret := Config.hkdf secret k.toNat })
    ∧ (v.tdi ≠ .unlocked ∨ streamSecret s vf = none ∨ freeKey s v.part = none ∨ (∀ x ∈ s.ide, vf ∈ x.vfs → x.die = die → x.sid ≠ sid) →
      ∃ t, replies (.lockInterfaceRequest vf ⟨die, sid⟩) false t ∧ t.vf vf = v)
    ∧ (v.tdi = .locked → ∃ t, replies (.startInterfaceRequest vf) true t ∧ t.vf vf = { v with tdi := .run })
    ∧ (v.tdi ≠ .locked → ∃ t, replies (.startInterfaceRequest vf) false t ∧ t.vf vf = v)
    ∧ (v.tdi = .locked ∨ v.tdi = .error →
      ∃ t, replies (.stopInterfaceRequest vf) true t ∧ t.vf vf = { v with tdi := .unlocked, key := none, secret := [] })
    ∧ (v.tdi = .unlocked → ∃ t, replies (.stopInterfaceRequest vf) true t ∧ t.vf vf = v)
    ∧ (v.tdi = .run → s.jobs = [] → s.saved = [] → s.seats = [] → (∀ d ∈ s.dirty, d.vf ≠ vf) →
      (∃ t, replies (.stopInterfaceRequest vf) true t ∧ t.vf vf = { v with tdi := .unlocked, key := none, secret := [] })
      ∧ ∃ t, exec (.tdiRequestOutsideStream vf) s = .next t ∧ t.vf vf = { v with tdi := .error, key := none, secret := [] })
    ∧ (v.tdi = .locked → exec (.tdiRequestOutsideStream vf) s = .next (s.setVf { v with tdi := .error }))
    ∧ (v.tdi = .unlocked ∨ v.tdi = .error → exec (.tdiRequestOutsideStream vf) s = .next s))


-- What copies move.

/-- R195, R198-R200, R204: the spans of a copy are its source bytes in order. A span's source bytes are those at its source locations, where nothing
newer or unpublished covers them; without a conversion they go unchanged to the destination's locations, byte by byte in order, a raw bit with its
slot; through a table, byte b becomes entry b; with a target format, element i becomes the source's element i, by its block's scales, rounded to
nearest even. A reducing span puts RNE(dst + src) into each element. The copy writes the bytes at its LSN: a pad's at once, others as unpublished
bytes of the unit. A copy moves its spans in order up to the first that fails, and a record its rows, row i from SRC + i × its stride to DST + i × its
stride; a copy that ends has moved them, and its token retires with 0xFF. That a table takes any format without a scale or a compressed slot is log 101
(DESIGN CHOICE). -/
def Obligations.CopiesMoveTheSourceBytes : Prop :=
  ∀ (s s1 s2 s3 s4 s5 : State) (l : Lsn) (v : Machine.View) (sp : Span) (raw : List Byte),
    -- the spans
    (∀ (c : Conv) (src : Dword → Nat → M Loc) (sva dva : Dword) (n : Nat) (ps : List Span), Does (spans c src sva dva n) s ps s1 →
      (ps.map (fun p => p.n)).sum = n
      ∧ ∀ i (h : i < ps.length), 1 ≤ ps[i].n ∧ ps[i].sva = sva + BitVec.ofNat 64 ((ps.take i).map (fun p => p.n)).sum)
    -- the source
    ∧ (∀ (kid : BitVec 7) (key n : Nat) (va : Dword), atomPending s.seat l key n = false →
      (∀ i, i < n → s.markAt (key + i) v.coherent false = none ∧ s.foreign kid (key + i) = none ∧ (∀ p ∈ s.hist, p.key ≠ key + i)
        ∧ (∀ u ∈ s.seat.unpub, u.byte.key ≠ key + i) ∧ (∀ g ∈ s.seat.gsb, ∀ b ∈ g.bytes, b.key ≠ key + i)) →
      Does (readRaw l v kid key n va) s ((List.range n).map (fun i => s.home (key + i))) s)
    -- the destination's locations
    ∧ (∀ (pieces : List (Loc × Dword × Nat)) (bytes : List Byte), bytes.length = (pieces.map (fun p => p.2.2)).sum →
      (wbytes pieces bytes).map (fun b => (b.key, b.val))
        = (pieces.flatMap (fun p => (List.range p.2.2).map (fun i => p.1.key + i))).zip bytes)
    -- what is written
    ∧ (Does (spanRaw l v sp) s raw s1 →
      (isZm sp.src.fmt = false → Does (spanBytes l v .none sp) s (raw, wbytes sp.dst raw) s1)
      ∧ (isZm sp.src.fmt = true → ∀ x, Does (spanBytes l v .none sp) s x s2 → x.1 = raw ∧ ∃ bits, x.2 = wbytes sp.dst raw ++ bits
        ∧ bits.length = sp.n / 512 ∧ ∀ i (h : i < bits.length) w, (wbytes sp.dst raw)[512 * i]? = some w →
          bits[i].key = rawKey w.key ∧ bits[i].val ∈ candidates s1 l (v.at sp.src) (rawKey (sp.src.key + 512 * i)))
      ∧ (∀ t : Fin 4, Does (spanBytes l v (.table t) sp) s
        (raw, wbytes sp.dst (raw.flatMap (fun b => bytesOf (BitVec.ofNat 16 (elemAt s1.seat.ctab[t].toNat 16 b.toNat)) 2))) s1)
      ∧ (∀ (t : FCode) (tl : FLayout) (st : Nat → State) (sc : Nat → Nat × Nat), layoutOf t = some tl → convListed sp.src.fmt (.to t) = true →
        let f := sp.src.fmt
        let bb := blockBytes f (.to t)
        let n := bb * 8 / widthOf f
        let value (x : Nat) (y : Nat × Nat) : Sys2Proof.Machine.Num :=
          if f = 7 then qn4Num x y.1 y.2 else if f = 5 then mxNum e4m3 x y.1 else if f = 6 then mxNum e2m1 x y.1
          else decodeF ((layoutOf f).getD fp32) x
        st 0 = s1 →
        (∀ i, i < raw.length / bb → if hasScales f = true
          then Does (scalesAt l v f (sp.sva + BitVec.ofNat 64 (bb * i)) sp.scales) (st i) (sc i) (st (i + 1)) else st (i + 1) = st i) →
        ∃ out, Does (spanBytes l v (.to t) sp) s (raw, wbytes sp.dst out) (st (raw.length / bb))
          ∧ out.length = raw.length / bb * (n * widthOf t / 8)
          ∧ ∀ i k, i < raw.length / bb → k < n → elemAt (natOfBytes out) (widthOf t) (n * i + k)
            = numToF tl .rne (value (elemAt (natOfBytes raw) (widthOf f) (n * i + k)) (sc i)) % 2 ^ widthOf t))
    ∧ (∀ (taint : Taint) (f : FCode) (lay : FLayout) (out : List WByte), Does (spanRaw l (forkView taint) sp) s raw s1 → layoutOf f = some lay →
      let w := widthOf f / 8
      raw.length = sp.n → (sp.dst.map (fun p => p.2.2)).sum = sp.n → sp.n % w = 0 → Does (reduceBytes l taint f sp) s out s2 →
      let at_ := wbytes sp.dst raw
      out.map (fun b => b.key) = at_.map (fun b => b.key)
        ∧ ∀ i, i < sp.n / w → elemAt (natOfBytes (out.map (fun b => b.val))) (8 * w) i
          = fAdd lay (elemAt (natOfBytes (at_.map (fun b => s2.underKey b.kid b.key (s2.home b.key)))) (8 * w) i)
            (elemAt (natOfBytes raw) (8 * w) i) % 2 ^ (8 * w))
    -- the writes
    ∧ (∀ (c : Copy) (bytes : List WByte) (kid : BitVec 7), c.kind = .plain ∨ c.kind = .halo ∨ c.kind = .chain →
      ∃ t, Does (forkWrite c bytes) s () t
        ∧ (∀ b ∈ bytes, b.inPad = false → (⟨b, c.lsn, some c.tok, true, false⟩ : UByte) ∈ t.seat.unpub)
        ∧ (Inv s → (bytes.map (fun b => b.key)).Nodup → (∀ b ∈ bytes, b.mask = 0xFF ∧ b.kid = kid ∧ s.foreign kid b.key = none) →
          (∀ p ∈ s.hist, p.uid = s.seat.unit.uid → lsnLt c.lsn p.lsn = true → ∀ b ∈ bytes, b.key ≠ p.key) →
          (∀ b ∈ bytes, b.inPad = true → t.home b.key = b.val)
          ∧ ∀ k, (∀ b ∈ bytes, b.inPad = true → b.key ≠ k) → t.home k = s.home k))
    -- the order
    ∧ (∀ (c : Copy) (b : List WByte), c.kind = .plain ∨ c.kind = .halo → c.resp = true ∨ spanRemote sp = false →
      Does (copySpan c sp) s b s1 → Does (forkTokens c (c.unmoved b)) s1 () s2 → Does (forkWrite c (c.unmoved b)) s2 () s3 →
      Does (moveSpan c sp) s () (chargeBytes sp.n s3))
    ∧ (∀ (c : Copy) (rest : List Span) (n : Nat) (st : Byte) (f : FaultInfo), Does (moveAll c []) s (0, 0xFF) s
      ∧ (Does (moveSpan c sp) s () s1 → Does (moveAll c rest) s1 (n, st) s2 → Does (moveAll c (sp :: rest)) s (n + sp.n, st) s2)
      ∧ (moveSpan c sp s = .error (.fault f) → Does (moveAll c (sp :: rest)) s (0, f.code) (noteDrop f (forgetFault f s)))
      ∧ (s.seat.copies.find? (fun x => x.tok == c.tok) = some c → c.kind = .plain ∨ c.kind = .reduce → c.ended = none → c.spans = sp :: rest →
        Does (moveAll c c.spans) s (n, st) s1 →
        ∃ t, exec (.copyRetire (BitVec.ofNat 3 c.tok.val)) s = .next t ∧ t.seat.kstat[c.tok] = st ∧ t.mem = s1.mem ∧ t.seat.unpub = s1.seat.unpub
          ∧ ∀ y ∈ t.seat.copies, y.tok ≠ c.tok))
    ∧ (∀ (c : Copy) (cv : Conv) (r : List Byte) (i m : Nat) (rows : List Nat) (x : List Byte × List WByte) (now more : Moved),
      let mine := forkView c.taint (recHint r 2 == .plain)
      (∀ (fuel n : Nat) (sva dva : Dword), n ≠ 0 → m ≠ 0 → c.resp = true ∨ spanRemote sp = false →
        Does (spanAt cv (fun va n => translate va n .read true) sva dva n) s sp s1 → Does (spanBytes c.lsn mine cv sp) s1 x s2 →
        Does (forkTokens c (c.unmoved x.2) (recHint r 1)) s2 () s5 → Does (forkWrite c (c.unmoved x.2) (recHint r 1)) s5 () s3 →
        let k := convBytes sp.src.fmt cv sp.n
        Does (moveRun fuel c cv r (sva + BitVec.ofNat 64 sp.n) (dva + BitVec.ofNat 64 k) (n - sp.n) (m - 1)) (chargeBytes sp.n s3) more s4 →
        Does (moveRun (fuel + 1) c cv r sva dva n m) s { more with raw := x.1 ++ more.raw, out := x.2 ++ more.out, row := k + more.row } s4)
      ∧ (let step (j : Nat) : Dword := BitVec.signExtend 64 ((recD r 4).extractLsb' j 32)
        Does (moveRun (recLen r) c cv r (recSrc r + BitVec.ofNat 64 i * step 0) (recDst r + BitVec.ofNat 64 i * step 32) (recLen r) m) s now s1 →
        now.raw.length = recLen r → Does (moveRows c cv r rows 0 0 now.left) s1 more s2 →
        Does (moveRows c cv r (i :: rows) 0 0 m) s { more with raw := now.raw ++ more.raw, out := now.out ++ more.out } s2))
end

