-- ==== Sys2Proof/Laws/Dispatch.lean ====
section
/-! SUPPORT. The meaning of each instruction, by name. -/

namespace Sys2Proof.Machine

@[simp] theorem exec_add {d} {a} {b} (s : State) : exec (.add d a b) s = execAdd d a b s := rfl
@[simp] theorem exec_sub {d} {a} {b} (s : State) : exec (.sub d a b) s = execSub d a b s := rfl
@[simp] theorem exec_and {d} {a} {b} (s : State) : exec (.and d a b) s = execAnd d a b s := rfl
@[simp] theorem exec_or {d} {a} {b} (s : State) : exec (.or d a b) s = execOr d a b s := rfl
@[simp] theorem exec_xor {d} {a} {b} (s : State) : exec (.xor d a b) s = execXor d a b s := rfl
@[simp] theorem exec_andn {d} {a} {b} (s : State) : exec (.andn d a b) s = execAndn d a b s := rfl
@[simp] theorem exec_shl {d} {a} {b} (s : State) : exec (.shl d a b) s = execShl d a b s := rfl
@[simp] theorem exec_shr {d} {a} {b} (s : State) : exec (.shr d a b) s = execShr d a b s := rfl
@[simp] theorem exec_sar {d} {a} {b} (s : State) : exec (.sar d a b) s = execSar d a b s := rfl
@[simp] theorem exec_rot {d} {a} {b} (s : State) : exec (.rot d a b) s = execRot d a b s := rfl
@[simp] theorem exec_min {d} {a} {b} (s : State) : exec (.min d a b) s = execMin d a b s := rfl
@[simp] theorem exec_max {d} {a} {b} (s : State) : exec (.max d a b) s = execMax d a b s := rfl
@[simp] theorem exec_minu {d} {a} {b} (s : State) : exec (.minu d a b) s = execMinu d a b s := rfl
@[simp] theorem exec_maxu {d} {a} {b} (s : State) : exec (.maxu d a b) s = execMaxu d a b s := rfl
@[simp] theorem exec_slt {d} {a} {b} (s : State) : exec (.slt d a b) s = execSlt d a b s := rfl
@[simp] theorem exec_sltu {d} {a} {b} (s : State) : exec (.sltu d a b) s = execSltu d a b s := rfl
@[simp] theorem exec_seq {d} {a} {b} (s : State) : exec (.seq d a b) s = execSeq d a b s := rfl
@[simp] theorem exec_mul {d} {a} {b} (s : State) : exec (.mul d a b) s = execMul d a b s := rfl
@[simp] theorem exec_mulh {d} {a} {b} (s : State) : exec (.mulh d a b) s = execMulh d a b s := rfl
@[simp] theorem exec_mulhu {d} {a} {b} (s : State) : exec (.mulhu d a b) s = execMulhu d a b s := rfl
@[simp] theorem exec_div {d} {a} {b} (s : State) : exec (.div d a b) s = execDiv d a b s := rfl
@[simp] theorem exec_divu {d} {a} {b} (s : State) : exec (.divu d a b) s = execDivu d a b s := rfl
@[simp] theorem exec_rem {d} {a} {b} (s : State) : exec (.rem d a b) s = execRem d a b s := rfl
@[simp] theorem exec_remu {d} {a} {b} (s : State) : exec (.remu d a b) s = execRemu d a b s := rfl
@[simp] theorem exec_clz {d} {a} (s : State) : exec (.clz d a) s = execClz d a s := rfl
@[simp] theorem exec_ffs {d} {a} (s : State) : exec (.ffs d a) s = execFfs d a s := rfl
@[simp] theorem exec_popc {d} {a} (s : State) : exec (.popc d a) s = execPopc d a s := rfl
@[simp] theorem exec_brev {d} {a} (s : State) : exec (.brev d a) s = execBrev d a s := rfl
@[simp] theorem exec_bswp {d} {a} (s : State) : exec (.bswp d a) s = execBswp d a s := rfl
@[simp] theorem exec_csel {d} {a} {b} (s : State) : exec (.csel d a b) s = execCsel d a b s := rfl
@[simp] theorem exec_addw {d} {a} {b} (s : State) : exec (.addw d a b) s = execAddw d a b s := rfl
@[simp] theorem exec_sext {d} {a} {sz} (s : State) : exec (.sext d a sz) s = execSext d a sz s := rfl
@[simp] theorem exec_addi {d} {a} {imm} (s : State) : exec (.addi d a imm) s = execAddi d a imm s := rfl
@[simp] theorem exec_andi {d} {a} {imm} (s : State) : exec (.andi d a imm) s = execAndi d a imm s := rfl
@[simp] theorem exec_ori {d} {a} {imm} (s : State) : exec (.ori d a imm) s = execOri d a imm s := rfl
@[simp] theorem exec_xori {d} {a} {imm} (s : State) : exec (.xori d a imm) s = execXori d a imm s := rfl
@[simp] theorem exec_shli {d} {a} {n} (s : State) : exec (.shli d a n) s = execShli d a n s := rfl
@[simp] theorem exec_shri {d} {a} {n} (s : State) : exec (.shri d a n) s = execShri d a n s := rfl
@[simp] theorem exec_sari {d} {a} {n} (s : State) : exec (.sari d a n) s = execSari d a n s := rfl
@[simp] theorem exec_roti {d} {a} {n} (s : State) : exec (.roti d a n) s = execRoti d a n s := rfl
@[simp] theorem exec_slti {d} {a} {imm} (s : State) : exec (.slti d a imm) s = execSlti d a imm s := rfl
@[simp] theorem exec_sltui {d} {a} {imm} (s : State) : exec (.sltui d a imm) s = execSltui d a imm s := rfl
@[simp] theorem exec_movw {d} {w} (s : State) : exec (.movw d w) s = execMovw d w s := rfl
@[simp] theorem exec_movk1 {d} {w} (s : State) : exec (.movk1 d w) s = execMovk1 d w s := rfl
@[simp] theorem exec_movk2 {d} {w} (s : State) : exec (.movk2 d w) s = execMovk2 d w s := rfl
@[simp] theorem exec_movk3 {d} {w} (s : State) : exec (.movk3 d w) s = execMovk3 d w s := rfl
@[simp] theorem exec_ldb {d} {a} {imm} (s : State) : exec (.ldb d a imm) s = execLdb d a imm s := rfl
@[simp] theorem exec_ldh {d} {a} {imm} (s : State) : exec (.ldh d a imm) s = execLdh d a imm s := rfl
@[simp] theorem exec_ldw {d} {a} {imm} (s : State) : exec (.ldw d a imm) s = execLdw d a imm s := rfl
@[simp] theorem exec_ldd {d} {a} {imm} (s : State) : exec (.ldd d a imm) s = execLdd d a imm s := rfl
@[simp] theorem exec_stb {d} {a} {imm} (s : State) : exec (.stb d a imm) s = execStb d a imm s := rfl
@[simp] theorem exec_sth {d} {a} {imm} (s : State) : exec (.sth d a imm) s = execSth d a imm s := rfl
@[simp] theorem exec_stw {d} {a} {imm} (s : State) : exec (.stw d a imm) s = execStw d a imm s := rfl
@[simp] theorem exec_std {d} {a} {imm} (s : State) : exec (.std d a imm) s = execStd d a imm s := rfl
@[simp] theorem exec_ldx {d} {a} {b} {c} {sz} (s : State) : exec (.ldx d a b c sz) s = execLdx d a b c sz s := rfl
@[simp] theorem exec_ldxFill {d} {n} (s : State) : exec (.ldxFill d n) s = execLdxFill d n s := rfl
@[simp] theorem exec_stx {d} {a} {b} {c} {sz} (s : State) : exec (.stx d a b c sz) s = execStx d a b c sz s := rfl
@[simp] theorem exec_stxSpill {d} {n} (s : State) : exec (.stxSpill d n) s = execStxSpill d n s := rfl
@[simp] theorem exec_amo {d} {a} {b} {ord} {op} (s : State) : exec (.amo d a b ord op) s = execAmo d a b ord op s := rfl
@[simp] theorem exec_amow {d} {a} {b} {ord} {op} (s : State) : exec (.amow d a b ord op) s = execAmow d a b ord op s := rfl
@[simp] theorem exec_beq {d} {a} {imm} (s : State) : exec (.beq d a imm) s = execBeq d a imm s := rfl
@[simp] theorem exec_bne {d} {a} {imm} (s : State) : exec (.bne d a imm) s = execBne d a imm s := rfl
@[simp] theorem exec_blt {d} {a} {imm} (s : State) : exec (.blt d a imm) s = execBlt d a imm s := rfl
@[simp] theorem exec_bge {d} {a} {imm} (s : State) : exec (.bge d a imm) s = execBge d a imm s := rfl
@[simp] theorem exec_bltu {d} {a} {imm} (s : State) : exec (.bltu d a imm) s = execBltu d a imm s := rfl
@[simp] theorem exec_bgeu {d} {a} {imm} (s : State) : exec (.bgeu d a imm) s = execBgeu d a imm s := rfl
@[simp] theorem exec_jmp {j} (s : State) : exec (.jmp j) s = execJmp j s := rfl
@[simp] theorem exec_call {j} (s : State) : exec (.call j) s = execCall j s := rfl
@[simp] theorem exec_jr {d} {a} (s : State) : exec (.jr d a) s = execJr d a s := rfl
@[simp] theorem exec_phase {r} (s : State) : exec (.phase r) s = execPhase r s := rfl
@[simp] theorem exec_untaint {d} (s : State) : exec (.untaint d) s = execUntaint d s := rfl
@[simp] theorem exec_taint {d} {a} (s : State) : exec (.taint d a) s = execTaint d a s := rfl
@[simp] theorem exec_fence {mask} (s : State) : exec (.fence mask) s = execFence mask s := rfl
@[simp] theorem exec_trap {code} (s : State) : exec (.trap code) s = execTrap code s := rfl
@[simp] theorem exec_eret (s : State) : exec (.eret) s = execEret s := rfl
@[simp] theorem exec_sysrd {d} {r} (s : State) : exec (.sysrd d r) s = execSysrd d r s := rfl
@[simp] theorem exec_syswr {d} {r} (s : State) : exec (.syswr d r) s = execSyswr d r s := rfl
@[simp] theorem exec_icinv (s : State) : exec (.icinv) s = execIcinv s := rfl
@[simp] theorem exec_tlbinv {a} {mode} (s : State) : exec (.tlbinv a mode) s = execTlbinv a mode s := rfl
@[simp] theorem exec_halt (s : State) : exec (.halt) s = execHalt s := rfl
@[simp] theorem exec_bkpt (s : State) : exec (.bkpt) s = execBkpt s := rfl
@[simp] theorem exec_yield (s : State) : exec (.yield) s = execYield s := rfl
@[simp] theorem exec_exit (s : State) : exec (.exit) s = execExit s := rfl
@[simp] theorem exec_xsend {a} {e} (s : State) : exec (.xsend a e) s = execXsend a e s := rfl
@[simp] theorem exec_padmap {d} {a} (s : State) : exec (.padmap d a) s = execPadmap d a s := rfl
@[simp] theorem exec_spawn {d} {a} {b} (s : State) : exec (.spawn d a b) s = execSpawn d a b s := rfl
@[simp] theorem exec_scopeo {d} {a} (s : State) : exec (.scopeo d a) s = execScopeo d a s := rfl
@[simp] theorem exec_scopec {a} (s : State) : exec (.scopec a) s = execScopec a s := rfl
@[simp] theorem exec_quench {e} {a} (s : State) : exec (.quench e a) s = execQuench e a s := rfl
@[simp] theorem exec_cwait {d} {a} (s : State) : exec (.cwait d a) s = execCwait d a s := rfl
@[simp] theorem exec_cread {d} {a} (s : State) : exec (.cread d a) s = execCread d a s := rfl
@[simp] theorem exec_barArrive {a} (s : State) : exec (.barArrive a) s = execBarArrive a s := rfl
@[simp] theorem exec_barWait {a} (s : State) : exec (.barWait a) s = execBarWait a s := rfl
@[simp] theorem exec_barSync {a} (s : State) : exec (.barSync a) s = execBarSync a s := rfl
@[simp] theorem exec_barInit {a} {b} (s : State) : exec (.barInit a b) s = execBarInit a b s := rfl
@[simp] theorem exec_dcbClean {a} {b} (s : State) : exec (.dcbClean a b) s = execDcbClean a b s := rfl
@[simp] theorem exec_dcbInv {a} {b} (s : State) : exec (.dcbInv a b) s = execDcbInv a b s := rfl
@[simp] theorem exec_dcbFlush {a} {b} (s : State) : exec (.dcbFlush a b) s = execDcbFlush a b s := rfl
@[simp] theorem exec_dcbPf {a} {b} (s : State) : exec (.dcbPf a b) s = execDcbPf a b s := rfl
@[simp] theorem exec_dcbZero {a} {b} (s : State) : exec (.dcbZero a b) s = execDcbZero a b s := rfl
@[simp] theorem exec_icpf {a} {imm} (s : State) : exec (.icpf a imm) s = execIcpf a imm s := rfl
@[simp] theorem exec_strm {d} {a} {b} {k} {y} {n} (s : State) : exec (.strm d a b k y n) s = execStrm d a b k y n s := rfl
@[simp] theorem exec_strmg {d} {a} {b} {k} {y} {n} (s : State) : exec (.strmg d a b k y n) s = execStrmg d a b k y n s := rfl
@[simp] theorem exec_strmc {d} (s : State) : exec (.strmc d) s = execStrmc d s := rfl
@[simp] theorem exec_ldv {d} {a} {b} {c} (s : State) : exec (.ldv d a b c) s = execLdv d a b c s := rfl
@[simp] theorem exec_ldt {d} {a} {b} {r} (s : State) : exec (.ldt d a b r) s = execLdt d a b r s := rfl
@[simp] theorem exec_pfd {a} {b} (s : State) : exec (.pfd a b) s = execPfd a b s := rfl
@[simp] theorem exec_vfadd {d} {a} {b} {p} (s : State) : exec (.vfadd d a b p) s = execVfadd d a b p s := rfl
@[simp] theorem exec_vfsub {d} {a} {b} {p} (s : State) : exec (.vfsub d a b p) s = execVfsub d a b p s := rfl
@[simp] theorem exec_vfmul {d} {a} {b} {p} (s : State) : exec (.vfmul d a b p) s = execVfmul d a b p s := rfl
@[simp] theorem exec_vfma {d} {a} {b} {p} (s : State) : exec (.vfma d a b p) s = execVfma d a b p s := rfl
@[simp] theorem exec_vfmin {d} {a} {b} {p} (s : State) : exec (.vfmin d a b p) s = execVfmin d a b p s := rfl
@[simp] theorem exec_vfmax {d} {a} {b} {p} (s : State) : exec (.vfmax d a b p) s = execVfmax d a b p s := rfl
@[simp] theorem exec_vfabs {d} {a} {p} (s : State) : exec (.vfabs d a p) s = execVfabs d a p s := rfl
@[simp] theorem exec_vfneg {d} {a} {p} (s : State) : exec (.vfneg d a p) s = execVfneg d a p s := rfl
@[simp] theorem exec_vadd {d} {a} {b} {p} {x} (s : State) : exec (.vadd d a b p x) s = execVadd d a b p x s := rfl
@[simp] theorem exec_vsub {d} {a} {b} {p} {x} (s : State) : exec (.vsub d a b p x) s = execVsub d a b p x s := rfl
@[simp] theorem exec_vmul {d} {a} {b} {p} {x} (s : State) : exec (.vmul d a b p x) s = execVmul d a b p x s := rfl
@[simp] theorem exec_vmin {d} {a} {b} {p} {sn} (s : State) : exec (.vmin d a b p sn) s = execVmin d a b p sn s := rfl
@[simp] theorem exec_vmax {d} {a} {b} {p} {sn} (s : State) : exec (.vmax d a b p sn) s = execVmax d a b p sn s := rfl
@[simp] theorem exec_vabs {d} {a} {p} {sn} (s : State) : exec (.vabs d a p sn) s = execVabs d a p sn s := rfl
@[simp] theorem exec_vand {d} {a} {b} {p} (s : State) : exec (.vand d a b p) s = execVand d a b p s := rfl
@[simp] theorem exec_vor {d} {a} {b} {p} (s : State) : exec (.vor d a b p) s = execVor d a b p s := rfl
@[simp] theorem exec_vxor {d} {a} {b} {p} (s : State) : exec (.vxor d a b p) s = execVxor d a b p s := rfl
@[simp] theorem exec_vandn {d} {a} {b} {p} (s : State) : exec (.vandn d a b p) s = execVandn d a b p s := rfl
@[simp] theorem exec_vshl {d} {a} {b} {p} (s : State) : exec (.vshl d a b p) s = execVshl d a b p s := rfl
@[simp] theorem exec_vshr {d} {a} {b} {p} {h} (s : State) : exec (.vshr d a b p h) s = execVshr d a b p h s := rfl
@[simp] theorem exec_vclz {d} {a} {p} (s : State) : exec (.vclz d a p) s = execVclz d a p s := rfl
@[simp] theorem exec_vffs {d} {a} {p} (s : State) : exec (.vffs d a p) s = execVffs d a p s := rfl
@[simp] theorem exec_vpopc {d} {a} {p} (s : State) : exec (.vpopc d a p) s = execVpopc d a p s := rfl
@[simp] theorem exec_vfcmp {d} {a} {b} {p} {x} (s : State) : exec (.vfcmp d a b p x) s = execVfcmp d a b p x s := rfl
@[simp] theorem exec_vicmp {d} {a} {b} {p} {x} (s : State) : exec (.vicmp d a b p x) s = execVicmp d a b p x s := rfl
@[simp] theorem exec_vsel {d} {a} {b} {p} (s : State) : exec (.vsel d a b p) s = execVsel d a b p s := rfl
@[simp] theorem exec_vcvt {d} {a} {g} {isrc} {t} {p} {r} (s : State) :
    exec (.vcvt d a g isrc t p r) s = execVcvt d a g isrc t p r s := rfl
@[simp] theorem exec_vwid {d} {a} {p} {x} (s : State) : exec (.vwid d a p x) s = execVwid d a p x s := rfl
@[simp] theorem exec_vnar {d} {a} {p} {x} (s : State) : exec (.vnar d a p x) s = execVnar d a p x s := rfl
@[simp] theorem exec_vred {d} {a} {p} {x} (s : State) : exec (.vred d a p x) s = execVred d a p x s := rfl
@[simp] theorem exec_vscan {d} {a} {p} {x} (s : State) : exec (.vscan d a p x) s = execVscan d a p x s := rfl
@[simp] theorem exec_vperm {d} {a} {b} {p} (s : State) : exec (.vperm d a b p) s = execVperm d a b p s := rfl
@[simp] theorem exec_vslide {d} {a} {b} {p} (s : State) : exec (.vslide d a b p) s = execVslide d a b p s := rfl
@[simp] theorem exec_vbcast {d} {a} {p} (s : State) : exec (.vbcast d a p) s = execVbcast d a p s := rfl
@[simp] theorem exec_vmov {d} {a} {p} (s : State) : exec (.vmov d a p) s = execVmov d a p s := rfl
@[simp] theorem exec_vmovi {d} {imm} {p} {x} (s : State) : exec (.vmovi d imm p x) s = execVmovi d imm p x s := rfl
@[simp] theorem exec_vsfu {d} {a} {f} {p} (s : State) : exec (.vsfu d a f p) s = execVsfu d a f p s := rfl
@[simp] theorem exec_vtw {d} {a} {b} {p} (s : State) : exec (.vtw d a b p) s = execVtw d a b p s := rfl
@[simp] theorem exec_vtr {d} {a} {b} (s : State) : exec (.vtr d a b) s = execVtr d a b s := rfl
@[simp] theorem exec_tfmt {d} {f} (s : State) : exec (.tfmt d f) s = execTfmt d f s := rfl
@[simp] theorem exec_vlsl {d} {a} {b} {p} (s : State) : exec (.vlsl d a b p) s = execVlsl d a b p s := rfl
@[simp] theorem exec_vlss {d} {a} {b} {p} (s : State) : exec (.vlss d a b p) s = execVlss d a b p s := rfl
@[simp] theorem exec_pset {w} {n} {c} (s : State) : exec (.pset w n c) s = execPset w n c s := rfl
@[simp] theorem exec_pwhile {w} {n} {a} {g} (s : State) : exec (.pwhile w n a g) s = execPwhile w n a g s := rfl
@[simp] theorem exec_pcnt {d} {n} (s : State) : exec (.pcnt d n) s = execPcnt d n s := rfl
@[simp] theorem exec_mlease {w} (s : State) : exec (.mlease w) s = execMlease w s := rfl
@[simp] theorem exec_myield (s : State) : exec (.myield) s = execMyield s := rfl
@[simp] theorem exec_mldb {d} {a} {b} (s : State) : exec (.mldb d a b) s = execMldb d a b s := rfl
@[simp] theorem exec_mmul {d} {a} {h} {k} {m} {y} {x} {c} {r} (s : State) :
    exec (.mmul d a h k m y x c r) s = execMmul d a h k m y x c r s := rfl
@[simp] theorem exec_mmulg {d} {a} {m} {q} {y} {x} {c} {k} (s : State) :
    exec (.mmulg d a m q y x c k) s = execMmulg d a m q y x c k s := rfl
@[simp] theorem exec_aballoc {d} {cnt} (s : State) : exec (.aballoc d cnt) s = execAballoc d cnt s := rfl
@[simp] theorem exec_abfree {d} {cnt} (s : State) : exec (.abfree d cnt) s = execAbfree d cnt s := rfl
@[simp] theorem exec_abown {d} {a} {b} (s : State) : exec (.abown d a b) s = execAbown d a b s := rfl
@[simp] theorem exec_mresume (s : State) : exec (.mresume) s = execMresume s := rfl
@[simp] theorem exec_stv {d} {a} {b} {c} (s : State) : exec (.stv d a b c) s = execStv d a b c s := rfl
@[simp] theorem exec_wstrm {d} {a} {b} {k} (s : State) : exec (.wstrm d a b k) s = execWstrm d a b k s := rfl
@[simp] theorem exec_stt {d} {a} {b} {r} (s : State) : exec (.stt d a b r) s = execStt d a b r s := rfl
@[simp] theorem exec_drn {d} {a} {b} {z} {t} {u} {sc} (s : State) :
    exec (.drn d a b z t u sc) s = execDrn d a b z t u sc s := rfl
@[simp] theorem exec_dcfg {r} {w} (s : State) : exec (.dcfg r w) s = execDcfg r w s := rfl
@[simp] theorem exec_dcfgRegister {r} {x} (s : State) : exec (.dcfgRegister r x) s = execDcfgRegister r x s := rfl
@[simp] theorem exec_cpy {d} {a} {b} (s : State) : exec (.cpy d a b) s = execCpy d a b s := rfl
@[simp] theorem exec_cpys {d} {a} {b} {c} (s : State) : exec (.cpys d a b c) s = execCpys d a b c s := rfl
@[simp] theorem exec_cpyh {d} {a} {b} {n} (s : State) : exec (.cpyh d a b n) s = execCpyh d a b n s := rfl
@[simp] theorem exec_cpyr {d} {a} {b} {bf} (s : State) : exec (.cpyr d a b bf) s = execCpyr d a b bf s := rfl
@[simp] theorem exec_cvtl {d} {a} (s : State) : exec (.cvtl d a) s = execCvtl d a s := rfl
@[simp] theorem exec_cpyc {b} (s : State) : exec (.cpyc b) s = execCpyc b s := rfl
@[simp] theorem exec_nop {e} (s : State) : exec (.nop e) s = execNop e s := rfl
@[simp] theorem exec_evpost {e} {n} (s : State) : exec (.evpost e n) s = execEvpost e n s := rfl
@[simp] theorem exec_evwait {e} {n} (s : State) : exec (.evwait e n) s = execEvwait e n s := rfl
@[simp] theorem exec_loop {e} {c} {imm} (s : State) : exec (.loop e c imm) s = execLoop e c imm s := rfl
@[simp] theorem exec_lcset {e} {c} {w} (s : State) : exec (.lcset e c w) s = execLcset e c w s := rfl
@[simp] theorem exec_lcsetQueue {e} {c} (s : State) : exec (.lcsetQueue e c) s = execLcsetQueue e c s := rfl
@[simp] theorem exec_follow {e} {j} (s : State) : exec (.follow e j) s = execFollow e j s := rfl
@[simp] theorem exec_jmpe {e} {j} (s : State) : exec (.jmpe e j) s = execJmpe e j s := rfl
@[simp] theorem exec_tkwait {e} {mask} (s : State) : exec (.tkwait e mask) s = execTkwait e mask s := rfl
@[simp] theorem exec_notify {e} (s : State) : exec (.notify e) s = execNotify e s := rfl
@[simp] theorem exec_xrecv {e} {d} (s : State) : exec (.xrecv e d) s = execXrecv e d s := rfl
@[simp] theorem exec_xaddi {e} {d} {a} {imm} (s : State) : exec (.xaddi e d a imm) s = execXaddi e d a imm s := rfl
@[simp] theorem exec_xmovw {e} {d} {w} (s : State) : exec (.xmovw e d w) s = execXmovw e d w s := rfl
@[simp] theorem exec_xadd {e} {d} {a} {b} (s : State) : exec (.xadd e d a b) s = execXadd e d a b s := rfl
@[simp] theorem exec_generatorPush {q} (s : State) : exec (.generatorPush q) s = execGeneratorPush q s := rfl
@[simp] theorem exec_predictionConfirm {q} (s : State) : exec (.predictionConfirm q) s = execPredictionConfirm q s := rfl
@[simp] theorem exec_chainRecord {ch} (s : State) : exec (.chainRecord ch) s = execChainRecord ch s := rfl
@[simp] theorem exec_copyRetire {k} (s : State) : exec (.copyRetire k) s = execCopyRetire k s := rfl
@[simp] theorem exec_unitPlacement {seat} (s : State) : exec (.unitPlacement seat) s = execUnitPlacement seat s := rfl
@[simp] theorem exec_unitResume {seat} (s : State) : exec (.unitResume seat) s = execUnitResume seat s := rfl
@[simp] theorem exec_hearthPageService {entry} (s : State) :
    exec (.hearthPageService entry) s = execHearthPageService entry s := rfl
@[simp] theorem exec_faultReplyResume {vf} {seq} (s : State) :
    exec (.faultReplyResume vf seq) s = execFaultReplyResume vf seq s := rfl
@[simp] theorem exec_faultReplyQuench {vf} {seq} (s : State) :
    exec (.faultReplyQuench vf seq) s = execFaultReplyQuench vf seq s := rfl
@[simp] theorem exec_doorbellWrite {vf} {q} {tail} {host} (s : State) :
    exec (.doorbellWrite vf q tail host) s = execDoorbellWrite vf q tail host s := rfl
@[simp] theorem exec_qerrClear {vf} {reg} {mask} (s : State) :
    exec (.qerrClear vf reg mask) s = execQerrClear vf reg mask s := rfl
@[simp] theorem exec_slipbaseWrite {vf} {part} {val} (s : State) :
    exec (.slipbaseWrite vf part val) s = execSlipbaseWrite vf part val s := rfl
@[simp] theorem exec_registerWrite {vf} {off} {val} (s : State) :
    exec (.registerWrite vf off val) s = execRegisterWrite vf off val s := rfl
@[simp] theorem exec_queueBind {die} {slot} {vf} {q} (s : State) :
    exec (.queueBind die slot vf q) s = execQueueBind die slot vf q s := rfl
@[simp] theorem exec_job {vf} {q} (s : State) : exec (.job vf q) s = execJob vf q s := rfl
@[simp] theorem exec_pass {vf} {q} (s : State) : exec (.pass vf q) s = execPass vf q s := rfl
@[simp] theorem exec_graph {vf} {q} (s : State) : exec (.graph vf q) s = execGraph vf q s := rfl
@[simp] theorem exec_launch {vf} {q} (s : State) : exec (.launch vf q) s = execLaunch vf q s := rfl
@[simp] theorem exec_close {vf} {q} (s : State) : exec (.close vf q) s = execClose vf q s := rfl
@[simp] theorem exec_workQueueRestore {die} (s : State) : exec (.workQueueRestore die) s = execWorkQueueRestore die s := rfl
@[simp] theorem exec_watchdogExpiry {die} {slot} (s : State) :
    exec (.watchdogExpiry die slot) s = execWatchdogExpiry die slot s := rfl
@[simp] theorem exec_gracePeriodExpiry {part} (s : State) :
    exec (.gracePeriodExpiry part) s = execGracePeriodExpiry part s := rfl
@[simp] theorem exec_fabricPacketReceive {port} {tag} {epoch} {write} (s : State) :
    exec (.fabricPacketReceive port tag epoch write) s = execFabricPacketReceive port tag epoch write s := rfl
@[simp] theorem exec_dieLinkRetryExhausted {die} {link} (s : State) :
    exec (.dieLinkRetryExhausted die link) s = execDieLinkRetryExhausted die link s := rfl
@[simp] theorem exec_dropCounterRead {port} (s : State) : exec (.dropCounterRead port) s = execDropCounterRead port s := rfl
@[simp] theorem exec_moduleReset {run} (s : State) : exec (.moduleReset run) s = execModuleReset run s := rfl
@[simp] theorem exec_getVersion {die} (s : State) : exec (.getVersion die) s = execGetVersion die s := rfl
@[simp] theorem exec_getCapabilities {die} (s : State) : exec (.getCapabilities die) s = execGetCapabilities die s := rfl
@[simp] theorem exec_negotiateAlgorithms {die} {peer} (s : State) :
    exec (.negotiateAlgorithms die peer) s = execNegotiateAlgorithms die peer s := rfl
@[simp] theorem exec_getDigests {die} (s : State) : exec (.getDigests die) s = execGetDigests die s := rfl
@[simp] theorem exec_getCertificate {die} (s : State) : exec (.getCertificate die) s = execGetCertificate die s := rfl
@[simp] theorem exec_challenge {die} {nonce} (s : State) : exec (.challenge die nonce) s = execChallenge die nonce s := rfl
@[simp] theorem exec_getMeasurements {die} {idx} (s : State) :
    exec (.getMeasurements die idx) s = execGetMeasurements die idx s := rfl
@[simp] theorem exec_keyExchange {die} {peer} (s : State) : exec (.keyExchange die peer) s = execKeyExchange die peer s := rfl
@[simp] theorem exec_finish {die} {sid} (s : State) : exec (.finish die sid) s = execFinish die sid s := rfl
@[simp] theorem exec_keyUpdate {die} {sid} (s : State) : exec (.keyUpdate die sid) s = execKeyUpdate die sid s := rfl
@[simp] theorem exec_heartbeat {die} {sid} (s : State) : exec (.heartbeat die sid) s = execHeartbeat die sid s := rfl
@[simp] theorem exec_endSession {die} {sid} (s : State) : exec (.endSession die sid) s = execEndSession die sid s := rfl
@[simp] theorem exec_lockInterfaceRequest {vf} {at_} (s : State) :
    exec (.lockInterfaceRequest vf at_) s = execLockInterfaceRequest vf at_ s := rfl
@[simp] theorem exec_startInterfaceRequest {vf} (s : State) :
    exec (.startInterfaceRequest vf) s = execStartInterfaceRequest vf s := rfl
@[simp] theorem exec_stopInterfaceRequest {vf} (s : State) :
    exec (.stopInterfaceRequest vf) s = execStopInterfaceRequest vf s := rfl
@[simp] theorem exec_keyProg {stream} {at_} {vfs} (s : State) :
    exec (.keyProg stream at_ vfs) s = execKeyProg stream at_ vfs s := rfl
@[simp] theorem exec_tdiRequestOutsideStream {vf} (s : State) :
    exec (.tdiRequestOutsideStream vf) s = execTdiRequestOutsideStream vf s := rfl
@[simp] theorem exec_codeObjectLoad {vf} {proc} {tagOk} {system} {kernels} {images} {place} (s : State) :
    exec (.codeObjectLoad vf proc tagOk system kernels images place) s = execCodeObjectLoad vf proc tagOk system kernels images place s := rfl
@[simp] theorem exec_imageUnload {handle} (s : State) : exec (.imageUnload handle) s = execImageUnload handle s := rfl
@[simp] theorem exec_forcedUnload {handle} (s : State) : exec (.forcedUnload handle) s = execForcedUnload handle s := rfl
@[simp] theorem exec_clusterMove {cluster} {part} (s : State) :
    exec (.clusterMove cluster part) s = execClusterMove cluster part s := rfl
@[simp] theorem exec_partitionMapChange {die} {ring} {ways} {allowed} {parts} (s : State) :
    exec (.partitionMapChange die ring ways allowed parts) s = execPartitionMapChange die ring ways allowed parts s := rfl
@[simp] theorem exec_cellRetirement {cell} (s : State) : exec (.cellRetirement cell) s = execCellRetirement cell s := rfl
@[simp] theorem exec_hearthStateDamage {parts} (s : State) :
    exec (.hearthStateDamage parts) s = execHearthStateDamage parts s := rfl
@[simp] theorem exec_pinRequest {die} {slot} {pin} (s : State) :
    exec (.pinRequest die slot pin) s = execPinRequest die slot pin s := rfl
@[simp] theorem exec_testRequest {part} {on} (s : State) : exec (.testRequest part on) s = execTestRequest part on s := rfl
@[simp] theorem exec_gatedStoreDrain (s : State) : exec (.gatedStoreDrain) s = execGatedStoreDrain s := rfl
@[simp] theorem exec_leaseGrant (s : State) : exec (.leaseGrant) s = execLeaseGrant s := rfl
@[simp] theorem exec_leaseRunEnd (s : State) : exec (.leaseRunEnd) s = execLeaseRunEnd s := rfl
@[simp] theorem exec_matrixCommandCompletion (s : State) :
    exec (.matrixCommandCompletion) s = execMatrixCommandCompletion s := rfl
@[simp] theorem exec_drainCompletion (s : State) : exec (.drainCompletion) s = execDrainCompletion s := rfl
@[simp] theorem exec_unitCompletion (s : State) : exec (.unitCompletion) s = execUnitCompletion s := rfl
@[simp] theorem exec_unitKill (s : State) : exec (.unitKill) s = execUnitKill s := rfl
@[simp] theorem exec_forcedCheck (s : State) : exec (.forcedCheck) s = execForcedCheck s := rfl
@[simp] theorem exec_chipTick (s : State) : exec (.chipTick) s = execChipTick s := rfl
@[simp] theorem exec_sliceEnd (s : State) : exec (.sliceEnd) s = execSliceEnd s := rfl
@[simp] theorem exec_faultRaise (s : State) : exec (.faultRaise) s = execFaultRaise s := rfl
@[simp] theorem exec_jobAdmission (s : State) : exec (.jobAdmission) s = execJobAdmission s := rfl
@[simp] theorem exec_responseTimeout (s : State) : exec (.responseTimeout) s = execResponseTimeout s := rfl
@[simp] theorem exec_atomicLanding (s : State) : exec (.atomicLanding) s = execAtomicLanding s := rfl
@[simp] theorem exec_haltResume (s : State) : exec (.haltResume) s = execHaltResume s := rfl

end Sys2Proof.Machine
end

