-- ==== Sys2Proof/Laws/Memory.lean ====
section
/-! SUPPORT. The laws of memory: what a read finds after a write, and that every operation that changes memory keeps the
canonical form. -/

namespace Sys2Proof.Machine

namespace Memory

theorem wf_nil : wf [] := rfl

theorem wf_cons {c : Host.Cell} {m : List Host.Cell} : wf (c :: m) ↔ c.2 ≠ unlisted ∧ (∀ d ∈ m, c.1 < d.1) ∧ wf m := by
  induction m generalizing c with
  | nil => simp [wf, sorted]
  | cons d rest ih =>
    have h : wf (c :: d :: rest) ↔ (c.2 ≠ unlisted ∧ c.1 < d.1) ∧ wf (d :: rest) := by simp [wf, sorted]
    rw [h]
    constructor
    · rintro ⟨⟨h1, h2⟩, h3⟩
      refine ⟨h1, fun x hx => ?_, h3⟩
      rcases List.mem_cons.1 hx with rfl | hx
      · exact h2
      · exact Nat.lt_trans h2 ((ih.1 h3).2.1 x hx)
    · rintro ⟨h1, h2, h3⟩
      exact ⟨⟨h1, h2 d List.mem_cons_self⟩, h3⟩

/-- Nothing is listed at a location below every entry. -/
theorem read_below {m : List Host.Cell} {k : Nat} (h : ∀ d ∈ m, k < d.1) : read m k = unlisted := by
  cases m with
  | nil => rfl
  | cons c rest =>
    have := h c List.mem_cons_self
    simp [read, this, Nat.ne_of_gt this]

theorem mem_write {m : List Host.Cell} {k : Nat} {b : Byte} {d : Host.Cell} (h : d ∈ write m k b) : d ∈ m ∨ d.1 = k := by
  induction m with
  | nil =>
    unfold write at h
    split at h
    · simp at h
    · simp at h; exact .inr (by rw [h])
  | cons c rest ih =>
    unfold write at h
    split at h
    · split at h
      · exact .inl (List.mem_cons_of_mem _ h)
      · rcases List.mem_cons.1 h with rfl | h
        · exact .inr rfl
        · exact .inl (List.mem_cons_of_mem _ h)
    · split at h
      · split at h
        · exact .inl h
        · rcases List.mem_cons.1 h with rfl | h
          · exact .inr rfl
          · exact .inl h
      · rcases List.mem_cons.1 h with rfl | h
        · exact .inl List.mem_cons_self
        · exact (ih h).imp (List.mem_cons_of_mem _) id

/-- A write keeps the canonical form. -/
theorem write_wf {m : List Host.Cell} (k : Nat) (b : Byte) (h : wf m) : wf (write m k b) := by
  induction m with
  | nil =>
    unfold write
    split
    · exact h
    · rename_i hb; exact wf_cons.2 ⟨hb, by simp, h⟩
  | cons c rest ih =>
    have ⟨h1, h2, h3⟩ := wf_cons.1 h
    unfold write
    split
    · rename_i hk
      split
      · exact h3
      · rename_i hb; exact wf_cons.2 ⟨hb, fun d hd => hk ▸ h2 d hd, h3⟩
    · split
      · rename_i hk
        split
        · exact h
        · rename_i hb
          refine wf_cons.2 ⟨hb, fun d hd => ?_, h⟩
          rcases List.mem_cons.1 hd with rfl | hd
          · exact hk
          · exact Nat.lt_trans hk (h2 d hd)
      · rename_i h4 h5
        refine wf_cons.2 ⟨h1, fun d hd => ?_, ih h3⟩
        rcases mem_write hd with hd | hd
        · exact h2 d hd
        · omega

theorem read_write_same {m : List Host.Cell} (k : Nat) (b : Byte) (h : wf m) : read (write m k b) k = b := by
  induction m with
  | nil => unfold write; split <;> simp_all [read]
  | cons c rest ih =>
    have ⟨h1, h2, h3⟩ := wf_cons.1 h
    unfold write
    split
    · rename_i hk
      split
      · rename_i hb; rw [read_below (fun d hd => hk ▸ h2 d hd), hb]
      · simp [read]
    · split
      · rename_i hk
        split
        · rename_i hb; simp [read, hk, Nat.ne_of_gt hk, hb]
        · simp [read]
      · rename_i h4 h5; simp [read, h4, h5, ih h3]

theorem read_write_other {m : List Host.Cell} {k j : Nat} (b : Byte) (h : wf m) (hj : j ≠ k) : read (write m k b) j = read m j := by
  have hk : ¬k = j := fun e => hj e.symm
  induction m with
  | nil => unfold write; split <;> simp [read, hk]
  | cons c rest ih =>
    have ⟨h1, h2, h3⟩ := wf_cons.1 h
    unfold write
    split
    · rename_i he
      have hcj : ¬c.1 = j := by omega
      split
      · by_cases hlt : j < c.1
        · rw [read_below (fun d hd => Nat.lt_trans hlt (h2 d hd))]; simp [read, hcj, hlt]
        · simp [read, hcj, hlt]
      · by_cases hlt : j < k
        · have : j < c.1 := by omega
          simp [read, hk, hcj, hlt, this]
        · have : ¬j < c.1 := by omega
          simp [read, hk, hcj, hlt, this]
    · split
      · rename_i h4 h5
        split
        · rfl
        · by_cases hlt : j < k
          · have h6 : j < c.1 := by omega
            have h7 : ¬c.1 = j := by omega
            simp [read, hk, hlt, h6, h7]
          · simp [read, hk, hlt]
      · simp only [read]
        split
        · rfl
        · split
          · rfl
          · exact ih h3

theorem read_write {m : List Host.Cell} (k j : Nat) (b : Byte) (h : wf m) : read (write m k b) j = if j = k then b else read m j := by
  split
  · rename_i e; rw [e, read_write_same k b h]
  · rename_i e; exact read_write_other b h e

theorem writeBytes_wf {m : List Host.Cell} (k : Nat) (l : List Byte) (h : wf m) : wf (writeBytes m k l) := by
  induction l generalizing m k with
  | nil => exact h
  | cons b rest ih => exact ih (k + 1) (write_wf k b h)

theorem filter_wf {m : List Host.Cell} (p : Host.Cell → Bool) (h : wf m) : wf (m.filter p) := by
  induction m with
  | nil => exact h
  | cons c rest ih =>
    have ⟨h1, h2, h3⟩ := wf_cons.1 h
    rw [List.filter_cons]
    split
    · exact wf_cons.2 ⟨h1, fun d hd => h2 d (List.mem_filter.1 hd).1, ih h3⟩
    · exact ih h3

/-- Writes of a list of any shape keep the form. -/
theorem foldl_write_wf {α : Type} (l : List α) (k : α → Nat) (b : α → Byte) {m : List Host.Cell} (h : wf m) :
    wf (l.foldl (fun m x => write m (k x) (b x)) m) := by
  induction l generalizing m with
  | nil => exact h
  | cons x rest ih => exact ih (write_wf _ _ h)

/-- Writes of a list at other locations leave a location alone. -/
theorem foldl_write_other {α : Type} (l : List α) (k : α → Nat) (b : α → Byte) {m : List Host.Cell} {j : Nat} (h : wf m)
    (hj : ∀ x ∈ l, j ≠ k x) : read (l.foldl (fun m x => write m (k x) (b x)) m) j = read m j := by
  induction l generalizing m with
  | nil => rfl
  | cons x rest ih =>
    rw [List.foldl_cons, ih (write_wf _ _ h) (fun y hy => hj y (List.mem_cons_of_mem _ hy)), read_write_other _ h (hj x List.mem_cons_self)]

end Memory

theorem reset_mem_wf : Memory.wf State.reset.mem := rfl

theorem withoutRange_wf {m : List Host.Cell} (lo hi : Nat) (h : Memory.wf m) : Memory.wf (withoutRange m lo hi) := Memory.filter_wf _ h

-- The operations of the machine that write memory.

theorem foldl_inv {α : Type} (f : State → α → State) (hf : ∀ s x, Inv s → Inv (f s x)) (l : List α) {s : State} (h : Inv s) :
    Inv (l.foldl f s) := by
  induction l generalizing s with
  | nil => exact h
  | cons x rest ih => exact ih (hf s x h)

@[simp] theorem pick_mem (s : State) : s.pick.2.mem = s.mem := rfl
@[simp] theorem pick_seat (s : State) : s.pick.2.seat = s.seat := rfl
@[simp] theorem evictLine_mem (s : State) (t : LineTag) : (evictLine s t).mem = s.mem := rfl
@[simp] theorem evictLine_seat (s : State) (t : LineTag) : (evictLine s t).seat = s.seat := rfl

/-- A line that enters a cache changes no byte and no seat. -/
theorem fillLine_frame (s : State) (t : LineTag) : (fillLine s t).mem = s.mem ∧ (fillLine s t).seat = s.seat := by
  unfold fillLine
  simp only
  split
  · exact ⟨rfl, rfl⟩
  · constructor <;> (dsimp only; repeat' split) <;> rfl

theorem fillAt_frame (h : Nat) (p : Fin 32) (s : State) (b : WByte) : (fillAt h p s b).mem = s.mem ∧ (fillAt h p s b).seat = s.seat := by
  unfold fillAt
  split
  · exact ⟨rfl, rfl⟩
  · exact fillLine_frame _ _

theorem takeToken_frame {s t : State} {port : Nat} (h : takeToken s port = some t) : t.mem = s.mem ∧ t.seat = s.seat := by
  unfold takeToken at h
  simp only at h
  split at h
  · cases h; exact ⟨rfl, rfl⟩
  · obtain ⟨c, -, rfl⟩ := Option.map_eq_some_iff.1 h; exact ⟨rfl, rfl⟩

theorem foldl_frame {α : Type} (f : State → α → State) (hf : ∀ s x, (f s x).mem = s.mem ∧ (f s x).seat = s.seat) (l : List α) (s : State) :
    (l.foldl f s).mem = s.mem ∧ (l.foldl f s).seat = s.seat := by
  induction l generalizing s with
  | nil => exact ⟨rfl, rfl⟩
  | cons x rest ih => exact ⟨(ih _).1.trans (hf s x).1, (ih _).2.trans (hf s x).2⟩

theorem oweToken_frame (s : State) (port : Nat) : (oweToken s port).mem = s.mem ∧ (oweToken s port).seat = s.seat := by
  unfold oweToken
  cases h : takeToken s port with
  | none => exact ⟨rfl, rfl⟩
  | some t => exact takeToken_frame h

theorem chargeLines_frame (bytes : List WByte) (s : State) :
    (chargeLines bytes s).mem = s.mem ∧ (chargeLines bytes s).seat = s.seat := by
  apply foldl_frame
  intro s line
  split
  · exact ⟨rfl, rfl⟩
  · exact oweToken_frame s _

theorem rekey_seat (s : State) (q : BitVec 7) (k : Nat) : (rekey s q k).seat = s.seat := by
  unfold rekey
  split <;> rfl

theorem rekey_inv {s : State} (q : BitVec 7) (k : Nat) (h : Inv s) : Inv (rekey s q k) := by
  unfold rekey Inv
  split
  · exact h
  · simp only
    split
    · exact h
    · exact Memory.foldl_write_wf _ (fun i => 128 * (k / 128) + i) _ h

/-- A line that another key's write has not left keeps its bytes. -/
theorem rekey_home {s : State} {q : BitVec 7} {k : Nat} (h : s.foreign q k = none) (j : Nat) : (rekey s q k).home j = s.home j := by
  unfold rekey
  split
  · rfl
  · rw [h]; rfl

/-- The memory that a write leaves: its line is its key's first (R261). -/
theorem homeWrite_mem (s : State) (u : UByte) (uid : Nat) (r : Option Reach) (id : SeatId) (p : Fin 32) (v : Nat) :
    (homeWrite s u uid r id p v).mem = Memory.write (rekey s u.byte.kid u.byte.key).mem u.byte.key
      (mergeByte ((rekey s u.byte.kid u.byte.key).home u.byte.key) u.byte.val u.byte.mask) := by
  unfold homeWrite
  simp only
  split
  · rw [(fillAt_frame _ p _ u.byte).1]
  · rfl

theorem homeWrite_inv {s : State} (u : UByte) (uid : Nat) (r : Option Reach) (id : SeatId) (p : Fin 32) (v : Nat) (h : Inv s) :
    Inv (homeWrite s u uid r id p v) := by
  unfold Inv
  rw [homeWrite_mem]
  exact Memory.write_wf _ _ (rekey_inv _ _ h)

/-- What a write leaves at each location. -/
theorem homeWrite_home {s : State} (u : UByte) (uid : Nat) (r : Option Reach) (id : SeatId) (p : Fin 32) (v : Nat) (h : Inv s) (j : Nat) :
    (homeWrite s u uid r id p v).home j = if j = u.byte.key
      then mergeByte ((rekey s u.byte.kid u.byte.key).home u.byte.key) u.byte.val u.byte.mask
      else (rekey s u.byte.kid u.byte.key).home j := by
  unfold State.home
  rw [homeWrite_mem]
  exact Memory.read_write _ _ _ (rekey_inv _ _ h)

theorem homeWrite_seat (s : State) (u : UByte) (uid : Nat) (r : Option Reach) (id : SeatId) (p : Fin 32) (v : Nat) :
    (homeWrite s u uid r id p v).seat = s.seat := by
  rw [← rekey_seat s u.byte.kid u.byte.key]
  unfold homeWrite
  simp only
  split
  · exact (fillAt_frame _ p _ u.byte).2
  · rfl

theorem publishFor_inv {s : State} (t : Seat) (r : Option Reach) (u : UByte) (h : Inv s) : Inv (publishFor t r s u) := by
  unfold publishFor
  dsimp only
  split
  · exact h
  · exact homeWrite_inv _ _ _ _ _ _ h

theorem publishByte_inv {s : State} (r : Option Reach) (u : UByte) (h : Inv s) : Inv (publishByte r s u) := publishFor_inv _ _ _ h

theorem chargeLines_inv {s : State} (bytes : List WByte) (h : Inv s) : Inv (chargeLines bytes s) := by
  unfold Inv
  rw [(chargeLines_frame bytes s).1]
  exact h

theorem writeHome_inv {s : State} (bytes : List WByte) (l : Lsn) (r : Reach) (h : Inv s) : Inv (writeHome s bytes l r) :=
  foldl_inv (fun s b => publishByte (some r) s { byte := b, lsn := l }) (fun _ _ hs => publishByte_inv _ _ hs) bytes (chargeLines_inv bytes h)

theorem writeUpdate_inv {s : State} (bytes : List WByte) (l : Lsn) (h : Inv s) : Inv (writeUpdate s bytes l) :=
  foldl_inv (fun s b => homeWrite s { byte := b, lsn := l } s.seat.unit.uid (some .system) s.seat.id s.seat.unit.part)
    (fun _ _ hs => homeWrite_inv _ _ _ _ _ _ hs) bytes (chargeLines_inv bytes h)

theorem publishThose_inv {s : State} (r : Option Reach) (p : UByte → Bool) (h : Inv s) : Inv (publishThose s r p) :=
  foldl_inv _ (fun _ u hs => publishByte_inv r u hs) (s.seat.unpub.filter p) (chargeLines_inv _ h)

theorem publish_inv {s : State} (l : Option Lsn) (r : Reach) (h : Inv s) : Inv (publish s l r) :=
  publishThose_inv _ _ (show Inv (widen s r _) from h)

theorem settleOwn_inv {s : State} (l : Lsn) (keys : List Nat) (h : Inv s) : Inv (settleOwn s l keys) := publishThose_inv _ _ h

theorem settleOther_inv {s : State} (keys : List Nat) (h : Inv s) : Inv (settleOther keys s) := by
  unfold settleOther
  apply foldl_inv
  · intro s t hs
    split
    · exact foldl_inv (publishFor t none) (fun _ u hs => publishFor_inv t none u hs) _ (chargeLines_inv _ hs)
    · exact hs
  · exact h

theorem cleanLine_inv {s : State} (keys : List Nat) (h : Inv s) : Inv (cleanLine keys s) :=
  settleOther_inv keys (publishThose_inv none _ h)

theorem deviceWrite_inv {s : State} (k : Nat) (b : Byte) (r : Reach) (p : Fin 32) (l2 : Bool) (q : BitVec 7) (h : Inv s) :
    Inv (deviceWrite s k b r p l2 q) := homeWrite_inv (s := s) { byte := { key := k, val := b, l2, kid := q }, lsn := 0 } 0 (some r) 0 p 0 h

theorem hostWrite_inv {s : State} (addr : Nat) (bytes : List Byte) (h : Inv s) : Inv (hostWrite s addr bytes) :=
  foldl_inv _ (fun _ _ hs => deviceWrite_inv _ _ _ _ _ _ hs) _ h

theorem clearBlock_inv {s : State} (base : Nat) (h : Inv s) : Inv (clearBlock s base) := withoutRange_wf _ _ (withoutRange_wf _ _ h)

theorem clearPads_inv {s : State} (h : Inv s) : Inv (clearPads s) := foldl_inv _ (fun _ _ hs => clearBlock_inv _ hs) _ h

theorem zeroRange_inv {s : State} (lo hi : Nat) (h : Inv s) : Inv (zeroRange s lo hi) := withoutRange_wf _ _ h

theorem evictLine_inv {s : State} (t : LineTag) (h : Inv s) : Inv (evictLine s t) := h

theorem dropVfLines_inv {s : State} (vf : Nat) (h : Inv s) : Inv (dropVfLines s vf) :=
  foldl_inv evictLine (fun _ t hs => evictLine_inv t hs) _ (Memory.foldl_write_wf _ _ _ h)

theorem placeBytes_inv {s : State} (k : Nat) (bytes : List Byte) (h : Inv s) : Inv (placeBytes s k bytes) := Memory.writeBytes_wf _ _ h

theorem onSeat_inv {s : State} (f : Seat → Seat) (h : Inv s) : Inv (s.onSeat f) := h

theorem fillBlock_inv {s : State} (e : Dword) (bytes : List (Nat × Byte)) (marks : List MemMark) (h : Inv s) : Inv (fillBlock s e bytes marks) := by
  have w := Memory.foldl_write_wf bytes (fun b => blockKey (padKey (cellOf s.seat.id) e 0) b.1) (fun b => b.2)
    (clearBlock_inv (padKey (cellOf s.seat.id) e 0) h)
  unfold fillBlock
  split <;> exact w

theorem restorePad_inv (old : Nat) (marks : List (Nat × MemMark)) {s : State} (p : Nat × Dword × List (Nat × Byte)) (h : Inv s) :
    Inv (restorePad old marks s p) := by
  unfold restorePad
  dsimp only
  split
  · split
    · exact h
    · exact fillBlock_inv _ _ _ h
  · split <;> exact fillBlock_inv _ _ _ h

/-- An action keeps the canonical form wherever it runs. -/
def KeepsInv {α : Type} (m : M α) : Prop := ∀ s a t, Inv s → Does m s a t → Inv t

theorem KeepsInv.pure {α : Type} (a : α) : KeepsInv (pure a : M α) := by
  rintro s b t h d
  cases d
  exact h

theorem KeepsInv.bind {α β : Type} {m : M α} {f : α → M β} (hm : KeepsInv m) (hf : ∀ a, KeepsInv (f a)) : KeepsInv (m >>= f) := by
  intro s b t h d
  have d' : (StateT.bind m f) s = .ok (b, t) := d
  unfold StateT.bind at d'
  cases e : m s with
  | error x => rw [e] at d'; cases d'
  | ok r => rw [e] at d'; exact hf r.1 r.2 b t (hm s r.1 r.2 h e) d'

theorem KeepsInv.mod {f : State → State} (hf : ∀ s, Inv s → Inv (f s)) : KeepsInv (mMod f) := by
  intro s a t h d
  cases d
  exact hf s h

theorem KeepsInv.modSeat (f : Seat → Seat) : KeepsInv (mModSeat f) := by
  intro s a t h d
  cases d
  exact h

theorem KeepsInv.liftRun {α : Type} (r : Run α) : KeepsInv (liftRun r) := by
  intro s a t h d
  unfold Does Machine.liftRun at d
  split at d <;> cases d
  exact h

theorem KeepsInv.check (c : Bool) (code : Byte) (addr : Dword) (aux : Byte) : KeepsInv (mCheck c code addr aux) := KeepsInv.liftRun _
theorem KeepsInv.needs (c : Bool) (w : Wait) : KeepsInv (mNeeds c w) := KeepsInv.liftRun _

theorem KeepsInv.each {α : Type} {f : α → M Unit} (hf : ∀ x, KeepsInv (f x)) (l : List α) : KeepsInv (mEach l f) := by
  induction l with
  | nil => exact KeepsInv.pure ()
  | cons x rest ih => exact (hf x).bind (fun _ => ih)

theorem KeepsInv.map {α β : Type} {f : α → M β} (hf : ∀ x, KeepsInv (f x)) (l : List α) : KeepsInv (mMap l f) := by
  induction l with
  | nil => exact KeepsInv.pure []
  | cons x rest ih => exact (hf x).bind (fun _ => ih.bind (fun _ => KeepsInv.pure _))

end Sys2Proof.Machine
end

