-- ==== Sys2Proof/Laws/State.lean ====
section
/-! SUPPORT. What each update of the state and of a seat leaves as it was and what it sets, one lemma a field. -/

set_option autoImplicit false

namespace Sys2Proof.Machine

-- Looking up what has been put.
theorem find_putWhere {α : Type} (p : α → Bool) (x : α) (l : List α) (h : p x = true) : (putWhere p x l).find? p = some x := by
  induction l with
  | nil => simp [putWhere, h]
  | cons y rest ih =>
    unfold putWhere
    split
    · simp [h]
    · rename_i hy; simp [hy, ih]

theorem find_putWhere_other {α : Type} (p q : α → Bool) (x : α) (l : List α) (hx : q x = false) (hq : ∀ y, p y = true → q y = false) :
    (putWhere p x l).find? q = l.find? q := by
  induction l with
  | nil => simp [putWhere, hx]
  | cons y rest ih =>
    unfold putWhere
    split
    · rename_i hy; simp [hx, hq y hy]
    · rw [List.find?_cons, List.find?_cons, ih]

theorem part_setPart (s : State) (p : Part) (i : Fin 32) : (s.setPart p).part i = if i = p.id then p else s.part i := by
  unfold State.part State.setPart
  split
  · rename_i h; subst h; rw [find_putWhere _ _ _ (by simp)]; rfl
  · rename_i h; rw [find_putWhere_other _ _ _ _ (by simpa using fun e => h e.symm) (by intro y hy; simp at hy ⊢; rw [hy]; exact fun e => h e.symm)]

theorem vf_setVf (s : State) (v : Vf) (i : Nat) : (s.setVf v).vf i = if i = v.vf then v else s.vf i := by
  unfold State.vf State.setVf
  split
  · rename_i h; subst h; rw [find_putWhere _ _ _ (by simp)]; rfl
  · rename_i h; rw [find_putWhere_other _ _ _ _ (by simpa using fun e => h e.symm) (by intro y hy; simp at hy ⊢; rw [hy]; exact fun e => h e.symm)]

theorem cell_setCell (s : State) (c : CellRec) (i : Nat) : (s.setCell c).cell i = if i = c.ix then c else s.cell i := by
  unfold State.cell State.setCell
  split
  · rename_i h; subst h; rw [find_putWhere _ _ _ (by simp)]; rfl
  · rename_i h; rw [find_putWhere_other _ _ _ _ (by simpa using fun e => h e.symm) (by intro y hy; simp at hy ⊢; rw [hy]; exact fun e => h e.symm)]

theorem cluster_setCluster (s : State) (c : Cluster) (i : Nat) : (s.setCluster c).cluster i = if i = c.ix then c else s.cluster i := by
  unfold State.cluster State.setCluster
  split
  · rename_i h; subst h; rw [find_putWhere _ _ _ (by simp)]; rfl
  · rename_i h; rw [find_putWhere_other _ _ _ _ (by simpa using fun e => h e.symm) (by intro y hy; simp at hy ⊢; rw [hy]; exact fun e => h e.symm)]

theorem ctx_setCtx (s : State) (c : Ctx) (v p : Nat) : (s.setCtx c).ctx v p = if v = c.vf ∧ p = c.proc then c else s.ctx v p := by
  unfold State.ctx State.setCtx
  split
  · rename_i h; obtain ⟨rfl, rfl⟩ := h; rw [find_putWhere _ _ _ (by simp)]; rfl
  · rename_i h
    rw [find_putWhere_other _ _ _ _ (by simpa using fun a b => h ⟨a.symm, b.symm⟩)
      (by intro y hy; simp at hy ⊢; rw [hy.1, hy.2]; exact fun a b => h ⟨a.symm, b.symm⟩)]

-- Updates of the state.

@[simp] theorem onSeat_seat (s : State) (f : Seat → Seat) : (s.onSeat f).seat = f s.seat := rfl
@[simp] theorem onSeat_others (s : State) (f : Seat → Seat) : (s.onSeat f).others = s.others := rfl
@[simp] theorem onSeat_saved (s : State) (f : Seat → Seat) : (s.onSeat f).saved = s.saved := rfl
@[simp] theorem onSeat_mem (s : State) (f : Seat → Seat) : (s.onSeat f).mem = s.mem := rfl
@[simp] theorem onSeat_hist (s : State) (f : Seat → Seat) : (s.onSeat f).hist = s.hist := rfl
@[simp] theorem onSeat_codeObjs (s : State) (f : Seat → Seat) : (s.onSeat f).codeObjs = s.codeObjs := rfl
@[simp] theorem onSeat_hostDrops (s : State) (f : Seat → Seat) : (s.onSeat f).hostDrops = s.hostDrops := rfl
@[simp] theorem onSeat_seqNo (s : State) (f : Seat → Seat) : (s.onSeat f).seqNo = s.seqNo := rfl
@[simp] theorem onSeat_dirty (s : State) (f : Seat → Seat) : (s.onSeat f).dirty = s.dirty := rfl
@[simp] theorem onSeat_lineTags (s : State) (f : Seat → Seat) : (s.onSeat f).lineTags = s.lineTags := rfl
@[simp] theorem onSeat_tlb (s : State) (f : Seat → Seat) : (s.onSeat f).tlb = s.tlb := rfl
@[simp] theorem onSeat_objs (s : State) (f : Seat → Seat) : (s.onSeat f).objs = s.objs := rfl
@[simp] theorem onSeat_icache (s : State) (f : Seat → Seat) : (s.onSeat f).icache = s.icache := rfl
@[simp] theorem onSeat_badMem (s : State) (f : Seat → Seat) : (s.onSeat f).badMem = s.badMem := rfl
@[simp] theorem onSeat_cells (s : State) (f : Seat → Seat) : (s.onSeat f).cells = s.cells := rfl
@[simp] theorem onSeat_clusters (s : State) (f : Seat → Seat) : (s.onSeat f).clusters = s.clusters := rfl
@[simp] theorem onSeat_owned (s : State) (f : Seat → Seat) : (s.onSeat f).owned = s.owned := rfl
@[simp] theorem onSeat_parts (s : State) (f : Seat → Seat) : (s.onSeat f).parts = s.parts := rfl
@[simp] theorem onSeat_ctxs (s : State) (f : Seat → Seat) : (s.onSeat f).ctxs = s.ctxs := rfl
@[simp] theorem onSeat_images (s : State) (f : Seat → Seat) : (s.onSeat f).images = s.images := rfl
@[simp] theorem onSeat_nextImg (s : State) (f : Seat → Seat) : (s.onSeat f).nextImg = s.nextImg := rfl
@[simp] theorem onSeat_nextObj (s : State) (f : Seat → Seat) : (s.onSeat f).nextObj = s.nextObj := rfl
@[simp] theorem onSeat_nextUid (s : State) (f : Seat → Seat) : (s.onSeat f).nextUid = s.nextUid := rfl
@[simp] theorem onSeat_order (s : State) (f : Seat → Seat) : (s.onSeat f).order = s.order := rfl
@[simp] theorem onSeat_slots (s : State) (f : Seat → Seat) : (s.onSeat f).slots = s.slots := rfl
@[simp] theorem onSeat_queues (s : State) (f : Seat → Seat) : (s.onSeat f).queues = s.queues := rfl
@[simp] theorem onSeat_jobs (s : State) (f : Seat → Seat) : (s.onSeat f).jobs = s.jobs := rfl
@[simp] theorem onSeat_vfs (s : State) (f : Seat → Seat) : (s.onSeat f).vfs = s.vfs := rfl
@[simp] theorem onSeat_curVf (s : State) (f : Seat → Seat) : (s.onSeat f).curVf = s.curVf := rfl
@[simp] theorem onSeat_rings (s : State) (f : Seat → Seat) : (s.onSeat f).rings = s.rings := rfl
@[simp] theorem onSeat_ways (s : State) (f : Seat → Seat) : (s.onSeat f).ways = s.ways := rfl
@[simp] theorem onSeat_ports (s : State) (f : Seat → Seat) : (s.onSeat f).ports = s.ports := rfl
@[simp] theorem onSeat_links (s : State) (f : Seat → Seat) : (s.onSeat f).links = s.links := rfl
@[simp] theorem onSeat_spdm (s : State) (f : Seat → Seat) : (s.onSeat f).spdm = s.spdm := rfl
@[simp] theorem onSeat_ide (s : State) (f : Seat → Seat) : (s.onSeat f).ide = s.ide := rfl
@[simp] theorem onSeat_sent (s : State) (f : Seat → Seat) : (s.onSeat f).sent = s.sent := rfl
@[simp] theorem onSeat_irqs (s : State) (f : Seat → Seat) : (s.onSeat f).irqs = s.irqs := rfl
@[simp] theorem onSeat_tod (s : State) (f : Seat → Seat) : (s.onSeat f).tod = s.tod := rfl
@[simp] theorem onSeat_bootFail (s : State) (f : Seat → Seat) : (s.onSeat f).bootFail = s.bootFail := rfl
@[simp] theorem onSeat_sriov (s : State) (f : Seat → Seat) : (s.onSeat f).sriov = s.sriov := rfl
@[simp] theorem onSeat_corrected (s : State) (f : Seat → Seat) : (s.onSeat f).corrected = s.corrected := rfl
@[simp] theorem onSeat_nonce (s : State) (f : Seat → Seat) : (s.onSeat f).nonce = s.nonce := rfl
@[simp] theorem onSeat_agenda (s : State) (f : Seat → Seat) : (s.onSeat f).agenda = s.agenda := rfl
@[simp] theorem onSeat_labels (s : State) (f : Seat → Seat) : (s.onSeat f).labels = s.labels := rfl
@[simp] theorem onSeat_keyGens (s : State) (f : Seat → Seat) : (s.onSeat f).keyGens = s.keyGens := rfl
@[simp] theorem onSeat_graces (s : State) (f : Seat → Seat) : (s.onSeat f).graces = s.graces := rfl
@[simp] theorem onSeat_sliceAge (s : State) (f : Seat → Seat) : (s.onSeat f).sliceAge = s.sliceAge := rfl
@[simp] theorem onSeat_at_part (s : State) (f : Seat → Seat) (i : Fin 32) : (s.onSeat f).part i = s.part i := rfl
@[simp] theorem onSeat_at_vf (s : State) (f : Seat → Seat) (i : Nat) : (s.onSeat f).vf i = s.vf i := rfl
@[simp] theorem onSeat_at_cell (s : State) (f : Seat → Seat) (i : Nat) : (s.onSeat f).cell i = s.cell i := rfl
@[simp] theorem onSeat_at_cluster (s : State) (f : Seat → Seat) (i : Nat) : (s.onSeat f).cluster i = s.cluster i := rfl
@[simp] theorem onSeat_at_home (s : State) (f : Seat → Seat) (k : Nat) : (s.onSeat f).home k = s.home k := rfl
@[simp] theorem onSeat_at_image (s : State) (f : Seat → Seat) (h : W32) : (s.onSeat f).image h = s.image h := rfl
@[simp] theorem onSeat_at_partOf (s : State) (f : Seat → Seat) (k : Nat) : (s.onSeat f).partOf k = s.partOf k := rfl
@[simp] theorem onEng_seat (s : State) (e : Eng) (f : Engine → Engine) : (s.onEng e f).seat = s.seat.mapEng e f := rfl
@[simp] theorem onEng_others (s : State) (e : Eng) (f : Engine → Engine) : (s.onEng e f).others = s.others := rfl
@[simp] theorem onEng_saved (s : State) (e : Eng) (f : Engine → Engine) : (s.onEng e f).saved = s.saved := rfl
@[simp] theorem onEng_mem (s : State) (e : Eng) (f : Engine → Engine) : (s.onEng e f).mem = s.mem := rfl
@[simp] theorem onEng_hist (s : State) (e : Eng) (f : Engine → Engine) : (s.onEng e f).hist = s.hist := rfl
@[simp] theorem onEng_codeObjs (s : State) (e : Eng) (f : Engine → Engine) : (s.onEng e f).codeObjs = s.codeObjs := rfl
@[simp] theorem onEng_hostDrops (s : State) (e : Eng) (f : Engine → Engine) : (s.onEng e f).hostDrops = s.hostDrops := rfl
@[simp] theorem onEng_seqNo (s : State) (e : Eng) (f : Engine → Engine) : (s.onEng e f).seqNo = s.seqNo := rfl
@[simp] theorem onEng_dirty (s : State) (e : Eng) (f : Engine → Engine) : (s.onEng e f).dirty = s.dirty := rfl
@[simp] theorem onEng_lineTags (s : State) (e : Eng) (f : Engine → Engine) : (s.onEng e f).lineTags = s.lineTags := rfl
@[simp] theorem onEng_tlb (s : State) (e : Eng) (f : Engine → Engine) : (s.onEng e f).tlb = s.tlb := rfl
@[simp] theorem onEng_objs (s : State) (e : Eng) (f : Engine → Engine) : (s.onEng e f).objs = s.objs := rfl
@[simp] theorem onEng_icache (s : State) (e : Eng) (f : Engine → Engine) : (s.onEng e f).icache = s.icache := rfl
@[simp] theorem onEng_badMem (s : State) (e : Eng) (f : Engine → Engine) : (s.onEng e f).badMem = s.badMem := rfl
@[simp] theorem onEng_cells (s : State) (e : Eng) (f : Engine → Engine) : (s.onEng e f).cells = s.cells := rfl
@[simp] theorem onEng_clusters (s : State) (e : Eng) (f : Engine → Engine) : (s.onEng e f).clusters = s.clusters := rfl
@[simp] theorem onEng_owned (s : State) (e : Eng) (f : Engine → Engine) : (s.onEng e f).owned = s.owned := rfl
@[simp] theorem onEng_parts (s : State) (e : Eng) (f : Engine → Engine) : (s.onEng e f).parts = s.parts := rfl
@[simp] theorem onEng_ctxs (s : State) (e : Eng) (f : Engine → Engine) : (s.onEng e f).ctxs = s.ctxs := rfl
@[simp] theorem onEng_images (s : State) (e : Eng) (f : Engine → Engine) : (s.onEng e f).images = s.images := rfl
@[simp] theorem onEng_nextImg (s : State) (e : Eng) (f : Engine → Engine) : (s.onEng e f).nextImg = s.nextImg := rfl
@[simp] theorem onEng_nextObj (s : State) (e : Eng) (f : Engine → Engine) : (s.onEng e f).nextObj = s.nextObj := rfl
@[simp] theorem onEng_nextUid (s : State) (e : Eng) (f : Engine → Engine) : (s.onEng e f).nextUid = s.nextUid := rfl
@[simp] theorem onEng_order (s : State) (e : Eng) (f : Engine → Engine) : (s.onEng e f).order = s.order := rfl
@[simp] theorem onEng_slots (s : State) (e : Eng) (f : Engine → Engine) : (s.onEng e f).slots = s.slots := rfl
@[simp] theorem onEng_queues (s : State) (e : Eng) (f : Engine → Engine) : (s.onEng e f).queues = s.queues := rfl
@[simp] theorem onEng_jobs (s : State) (e : Eng) (f : Engine → Engine) : (s.onEng e f).jobs = s.jobs := rfl
@[simp] theorem onEng_vfs (s : State) (e : Eng) (f : Engine → Engine) : (s.onEng e f).vfs = s.vfs := rfl
@[simp] theorem onEng_curVf (s : State) (e : Eng) (f : Engine → Engine) : (s.onEng e f).curVf = s.curVf := rfl
@[simp] theorem onEng_rings (s : State) (e : Eng) (f : Engine → Engine) : (s.onEng e f).rings = s.rings := rfl
@[simp] theorem onEng_ways (s : State) (e : Eng) (f : Engine → Engine) : (s.onEng e f).ways = s.ways := rfl
@[simp] theorem onEng_ports (s : State) (e : Eng) (f : Engine → Engine) : (s.onEng e f).ports = s.ports := rfl
@[simp] theorem onEng_links (s : State) (e : Eng) (f : Engine → Engine) : (s.onEng e f).links = s.links := rfl
@[simp] theorem onEng_spdm (s : State) (e : Eng) (f : Engine → Engine) : (s.onEng e f).spdm = s.spdm := rfl
@[simp] theorem onEng_ide (s : State) (e : Eng) (f : Engine → Engine) : (s.onEng e f).ide = s.ide := rfl
@[simp] theorem onEng_sent (s : State) (e : Eng) (f : Engine → Engine) : (s.onEng e f).sent = s.sent := rfl
@[simp] theorem onEng_irqs (s : State) (e : Eng) (f : Engine → Engine) : (s.onEng e f).irqs = s.irqs := rfl
@[simp] theorem onEng_tod (s : State) (e : Eng) (f : Engine → Engine) : (s.onEng e f).tod = s.tod := rfl
@[simp] theorem onEng_bootFail (s : State) (e : Eng) (f : Engine → Engine) : (s.onEng e f).bootFail = s.bootFail := rfl
@[simp] theorem onEng_sriov (s : State) (e : Eng) (f : Engine → Engine) : (s.onEng e f).sriov = s.sriov := rfl
@[simp] theorem onEng_corrected (s : State) (e : Eng) (f : Engine → Engine) : (s.onEng e f).corrected = s.corrected := rfl
@[simp] theorem onEng_nonce (s : State) (e : Eng) (f : Engine → Engine) : (s.onEng e f).nonce = s.nonce := rfl
@[simp] theorem onEng_agenda (s : State) (e : Eng) (f : Engine → Engine) : (s.onEng e f).agenda = s.agenda := rfl
@[simp] theorem onEng_labels (s : State) (e : Eng) (f : Engine → Engine) : (s.onEng e f).labels = s.labels := rfl
@[simp] theorem onEng_keyGens (s : State) (e : Eng) (f : Engine → Engine) : (s.onEng e f).keyGens = s.keyGens := rfl
@[simp] theorem onEng_graces (s : State) (e : Eng) (f : Engine → Engine) : (s.onEng e f).graces = s.graces := rfl
@[simp] theorem onEng_sliceAge (s : State) (e : Eng) (f : Engine → Engine) : (s.onEng e f).sliceAge = s.sliceAge := rfl
@[simp] theorem onEng_at_part (s : State) (e : Eng) (f : Engine → Engine) (i : Fin 32) : (s.onEng e f).part i = s.part i := rfl
@[simp] theorem onEng_at_vf (s : State) (e : Eng) (f : Engine → Engine) (i : Nat) : (s.onEng e f).vf i = s.vf i := rfl
@[simp] theorem onEng_at_cell (s : State) (e : Eng) (f : Engine → Engine) (i : Nat) : (s.onEng e f).cell i = s.cell i := rfl
@[simp] theorem onEng_at_cluster (s : State) (e : Eng) (f : Engine → Engine) (i : Nat) : (s.onEng e f).cluster i = s.cluster i := rfl
@[simp] theorem onEng_at_home (s : State) (e : Eng) (f : Engine → Engine) (k : Nat) : (s.onEng e f).home k = s.home k := rfl
@[simp] theorem onEng_at_image (s : State) (e : Eng) (f : Engine → Engine) (h : W32) : (s.onEng e f).image h = s.image h := rfl
@[simp] theorem onEng_at_partOf (s : State) (e : Eng) (f : Engine → Engine) (k : Nat) : (s.onEng e f).partOf k = s.partOf k := rfl
@[simp] theorem setPart_seat (s : State) (p : Part) : (s.setPart p).seat = s.seat := rfl
@[simp] theorem setPart_others (s : State) (p : Part) : (s.setPart p).others = s.others := rfl
@[simp] theorem setPart_saved (s : State) (p : Part) : (s.setPart p).saved = s.saved := rfl
@[simp] theorem setPart_mem (s : State) (p : Part) : (s.setPart p).mem = s.mem := rfl
@[simp] theorem setPart_hist (s : State) (p : Part) : (s.setPart p).hist = s.hist := rfl
@[simp] theorem setPart_codeObjs (s : State) (p : Part) : (s.setPart p).codeObjs = s.codeObjs := rfl
@[simp] theorem setPart_hostDrops (s : State) (p : Part) : (s.setPart p).hostDrops = s.hostDrops := rfl
@[simp] theorem setPart_seqNo (s : State) (p : Part) : (s.setPart p).seqNo = s.seqNo := rfl
@[simp] theorem setPart_dirty (s : State) (p : Part) : (s.setPart p).dirty = s.dirty := rfl
@[simp] theorem setPart_lineTags (s : State) (p : Part) : (s.setPart p).lineTags = s.lineTags := rfl
@[simp] theorem setPart_tlb (s : State) (p : Part) : (s.setPart p).tlb = s.tlb := rfl
@[simp] theorem setPart_objs (s : State) (p : Part) : (s.setPart p).objs = s.objs := rfl
@[simp] theorem setPart_icache (s : State) (p : Part) : (s.setPart p).icache = s.icache := rfl
@[simp] theorem setPart_badMem (s : State) (p : Part) : (s.setPart p).badMem = s.badMem := rfl
@[simp] theorem setPart_cells (s : State) (p : Part) : (s.setPart p).cells = s.cells := rfl
@[simp] theorem setPart_clusters (s : State) (p : Part) : (s.setPart p).clusters = s.clusters := rfl
@[simp] theorem setPart_owned (s : State) (p : Part) : (s.setPart p).owned = s.owned := rfl
@[simp] theorem setPart_ctxs (s : State) (p : Part) : (s.setPart p).ctxs = s.ctxs := rfl
@[simp] theorem setPart_images (s : State) (p : Part) : (s.setPart p).images = s.images := rfl
@[simp] theorem setPart_nextImg (s : State) (p : Part) : (s.setPart p).nextImg = s.nextImg := rfl
@[simp] theorem setPart_nextObj (s : State) (p : Part) : (s.setPart p).nextObj = s.nextObj := rfl
@[simp] theorem setPart_nextUid (s : State) (p : Part) : (s.setPart p).nextUid = s.nextUid := rfl
@[simp] theorem setPart_order (s : State) (p : Part) : (s.setPart p).order = s.order := rfl
@[simp] theorem setPart_slots (s : State) (p : Part) : (s.setPart p).slots = s.slots := rfl
@[simp] theorem setPart_queues (s : State) (p : Part) : (s.setPart p).queues = s.queues := rfl
@[simp] theorem setPart_jobs (s : State) (p : Part) : (s.setPart p).jobs = s.jobs := rfl
@[simp] theorem setPart_vfs (s : State) (p : Part) : (s.setPart p).vfs = s.vfs := rfl
@[simp] theorem setPart_curVf (s : State) (p : Part) : (s.setPart p).curVf = s.curVf := rfl
@[simp] theorem setPart_rings (s : State) (p : Part) : (s.setPart p).rings = s.rings := rfl
@[simp] theorem setPart_ways (s : State) (p : Part) : (s.setPart p).ways = s.ways := rfl
@[simp] theorem setPart_ports (s : State) (p : Part) : (s.setPart p).ports = s.ports := rfl
@[simp] theorem setPart_links (s : State) (p : Part) : (s.setPart p).links = s.links := rfl
@[simp] theorem setPart_spdm (s : State) (p : Part) : (s.setPart p).spdm = s.spdm := rfl
@[simp] theorem setPart_ide (s : State) (p : Part) : (s.setPart p).ide = s.ide := rfl
@[simp] theorem setPart_sent (s : State) (p : Part) : (s.setPart p).sent = s.sent := rfl
@[simp] theorem setPart_irqs (s : State) (p : Part) : (s.setPart p).irqs = s.irqs := rfl
@[simp] theorem setPart_tod (s : State) (p : Part) : (s.setPart p).tod = s.tod := rfl
@[simp] theorem setPart_bootFail (s : State) (p : Part) : (s.setPart p).bootFail = s.bootFail := rfl
@[simp] theorem setPart_sriov (s : State) (p : Part) : (s.setPart p).sriov = s.sriov := rfl
@[simp] theorem setPart_corrected (s : State) (p : Part) : (s.setPart p).corrected = s.corrected := rfl
@[simp] theorem setPart_nonce (s : State) (p : Part) : (s.setPart p).nonce = s.nonce := rfl
@[simp] theorem setPart_agenda (s : State) (p : Part) : (s.setPart p).agenda = s.agenda := rfl
@[simp] theorem setPart_labels (s : State) (p : Part) : (s.setPart p).labels = s.labels := rfl
@[simp] theorem setPart_keyGens (s : State) (p : Part) : (s.setPart p).keyGens = s.keyGens := rfl
@[simp] theorem setPart_graces (s : State) (p : Part) : (s.setPart p).graces = s.graces := rfl
@[simp] theorem setPart_sliceAge (s : State) (p : Part) : (s.setPart p).sliceAge = s.sliceAge := rfl
@[simp] theorem setPart_at_vf (s : State) (p : Part) (i : Nat) : (s.setPart p).vf i = s.vf i := rfl
@[simp] theorem setPart_at_cell (s : State) (p : Part) (i : Nat) : (s.setPart p).cell i = s.cell i := rfl
@[simp] theorem setPart_at_cluster (s : State) (p : Part) (i : Nat) : (s.setPart p).cluster i = s.cluster i := rfl
@[simp] theorem setPart_at_home (s : State) (p : Part) (k : Nat) : (s.setPart p).home k = s.home k := rfl
@[simp] theorem setPart_at_image (s : State) (p : Part) (h : W32) : (s.setPart p).image h = s.image h := rfl
@[simp] theorem setPart_at_partOf (s : State) (p : Part) (k : Nat) : (s.setPart p).partOf k = s.partOf k := rfl
@[simp] theorem setVf_seat (s : State) (v : Vf) : (s.setVf v).seat = s.seat := rfl
@[simp] theorem setVf_others (s : State) (v : Vf) : (s.setVf v).others = s.others := rfl
@[simp] theorem setVf_saved (s : State) (v : Vf) : (s.setVf v).saved = s.saved := rfl
@[simp] theorem setVf_mem (s : State) (v : Vf) : (s.setVf v).mem = s.mem := rfl
@[simp] theorem setVf_hist (s : State) (v : Vf) : (s.setVf v).hist = s.hist := rfl
@[simp] theorem setVf_codeObjs (s : State) (v : Vf) : (s.setVf v).codeObjs = s.codeObjs := rfl
@[simp] theorem setVf_hostDrops (s : State) (v : Vf) : (s.setVf v).hostDrops = s.hostDrops := rfl
@[simp] theorem setVf_seqNo (s : State) (v : Vf) : (s.setVf v).seqNo = s.seqNo := rfl
@[simp] theorem setVf_dirty (s : State) (v : Vf) : (s.setVf v).dirty = s.dirty := rfl
@[simp] theorem setVf_lineTags (s : State) (v : Vf) : (s.setVf v).lineTags = s.lineTags := rfl
@[simp] theorem setVf_tlb (s : State) (v : Vf) : (s.setVf v).tlb = s.tlb := rfl
@[simp] theorem setVf_objs (s : State) (v : Vf) : (s.setVf v).objs = s.objs := rfl
@[simp] theorem setVf_icache (s : State) (v : Vf) : (s.setVf v).icache = s.icache := rfl
@[simp] theorem setVf_badMem (s : State) (v : Vf) : (s.setVf v).badMem = s.badMem := rfl
@[simp] theorem setVf_cells (s : State) (v : Vf) : (s.setVf v).cells = s.cells := rfl
@[simp] theorem setVf_clusters (s : State) (v : Vf) : (s.setVf v).clusters = s.clusters := rfl
@[simp] theorem setVf_owned (s : State) (v : Vf) : (s.setVf v).owned = s.owned := rfl
@[simp] theorem setVf_parts (s : State) (v : Vf) : (s.setVf v).parts = s.parts := rfl
@[simp] theorem setVf_ctxs (s : State) (v : Vf) : (s.setVf v).ctxs = s.ctxs := rfl
@[simp] theorem setVf_images (s : State) (v : Vf) : (s.setVf v).images = s.images := rfl
@[simp] theorem setVf_nextImg (s : State) (v : Vf) : (s.setVf v).nextImg = s.nextImg := rfl
@[simp] theorem setVf_nextObj (s : State) (v : Vf) : (s.setVf v).nextObj = s.nextObj := rfl
@[simp] theorem setVf_nextUid (s : State) (v : Vf) : (s.setVf v).nextUid = s.nextUid := rfl
@[simp] theorem setVf_order (s : State) (v : Vf) : (s.setVf v).order = s.order := rfl
@[simp] theorem setVf_slots (s : State) (v : Vf) : (s.setVf v).slots = s.slots := rfl
@[simp] theorem setVf_queues (s : State) (v : Vf) : (s.setVf v).queues = s.queues := rfl
@[simp] theorem setVf_jobs (s : State) (v : Vf) : (s.setVf v).jobs = s.jobs := rfl
@[simp] theorem setVf_curVf (s : State) (v : Vf) : (s.setVf v).curVf = s.curVf := rfl
@[simp] theorem setVf_rings (s : State) (v : Vf) : (s.setVf v).rings = s.rings := rfl
@[simp] theorem setVf_ways (s : State) (v : Vf) : (s.setVf v).ways = s.ways := rfl
@[simp] theorem setVf_ports (s : State) (v : Vf) : (s.setVf v).ports = s.ports := rfl
@[simp] theorem setVf_links (s : State) (v : Vf) : (s.setVf v).links = s.links := rfl
@[simp] theorem setVf_spdm (s : State) (v : Vf) : (s.setVf v).spdm = s.spdm := rfl
@[simp] theorem setVf_ide (s : State) (v : Vf) : (s.setVf v).ide = s.ide := rfl
@[simp] theorem setVf_sent (s : State) (v : Vf) : (s.setVf v).sent = s.sent := rfl
@[simp] theorem setVf_irqs (s : State) (v : Vf) : (s.setVf v).irqs = s.irqs := rfl
@[simp] theorem setVf_tod (s : State) (v : Vf) : (s.setVf v).tod = s.tod := rfl
@[simp] theorem setVf_bootFail (s : State) (v : Vf) : (s.setVf v).bootFail = s.bootFail := rfl
@[simp] theorem setVf_sriov (s : State) (v : Vf) : (s.setVf v).sriov = s.sriov := rfl
@[simp] theorem setVf_corrected (s : State) (v : Vf) : (s.setVf v).corrected = s.corrected := rfl
@[simp] theorem setVf_nonce (s : State) (v : Vf) : (s.setVf v).nonce = s.nonce := rfl
@[simp] theorem setVf_agenda (s : State) (v : Vf) : (s.setVf v).agenda = s.agenda := rfl
@[simp] theorem setVf_labels (s : State) (v : Vf) : (s.setVf v).labels = s.labels := rfl
@[simp] theorem setVf_keyGens (s : State) (v : Vf) : (s.setVf v).keyGens = s.keyGens := rfl
@[simp] theorem setVf_graces (s : State) (v : Vf) : (s.setVf v).graces = s.graces := rfl
@[simp] theorem setVf_sliceAge (s : State) (v : Vf) : (s.setVf v).sliceAge = s.sliceAge := rfl
@[simp] theorem setVf_at_part (s : State) (v : Vf) (i : Fin 32) : (s.setVf v).part i = s.part i := rfl
@[simp] theorem setVf_at_cell (s : State) (v : Vf) (i : Nat) : (s.setVf v).cell i = s.cell i := rfl
@[simp] theorem setVf_at_cluster (s : State) (v : Vf) (i : Nat) : (s.setVf v).cluster i = s.cluster i := rfl
@[simp] theorem setVf_at_home (s : State) (v : Vf) (k : Nat) : (s.setVf v).home k = s.home k := rfl
@[simp] theorem setVf_at_image (s : State) (v : Vf) (h : W32) : (s.setVf v).image h = s.image h := rfl
@[simp] theorem setVf_at_partOf (s : State) (v : Vf) (k : Nat) : (s.setVf v).partOf k = s.partOf k := rfl
@[simp] theorem setCell_seat (s : State) (c : CellRec) : (s.setCell c).seat = s.seat := rfl
@[simp] theorem setCell_others (s : State) (c : CellRec) : (s.setCell c).others = s.others := rfl
@[simp] theorem setCell_saved (s : State) (c : CellRec) : (s.setCell c).saved = s.saved := rfl
@[simp] theorem setCell_mem (s : State) (c : CellRec) : (s.setCell c).mem = s.mem := rfl
@[simp] theorem setCell_hist (s : State) (c : CellRec) : (s.setCell c).hist = s.hist := rfl
@[simp] theorem setCell_codeObjs (s : State) (c : CellRec) : (s.setCell c).codeObjs = s.codeObjs := rfl
@[simp] theorem setCell_hostDrops (s : State) (c : CellRec) : (s.setCell c).hostDrops = s.hostDrops := rfl
@[simp] theorem setCell_seqNo (s : State) (c : CellRec) : (s.setCell c).seqNo = s.seqNo := rfl
@[simp] theorem setCell_dirty (s : State) (c : CellRec) : (s.setCell c).dirty = s.dirty := rfl
@[simp] theorem setCell_lineTags (s : State) (c : CellRec) : (s.setCell c).lineTags = s.lineTags := rfl
@[simp] theorem setCell_tlb (s : State) (c : CellRec) : (s.setCell c).tlb = s.tlb := rfl
@[simp] theorem setCell_objs (s : State) (c : CellRec) : (s.setCell c).objs = s.objs := rfl
@[simp] theorem setCell_icache (s : State) (c : CellRec) : (s.setCell c).icache = s.icache := rfl
@[simp] theorem setCell_badMem (s : State) (c : CellRec) : (s.setCell c).badMem = s.badMem := rfl
@[simp] theorem setCell_clusters (s : State) (c : CellRec) : (s.setCell c).clusters = s.clusters := rfl
@[simp] theorem setCell_owned (s : State) (c : CellRec) : (s.setCell c).owned = s.owned := rfl
@[simp] theorem setCell_parts (s : State) (c : CellRec) : (s.setCell c).parts = s.parts := rfl
@[simp] theorem setCell_ctxs (s : State) (c : CellRec) : (s.setCell c).ctxs = s.ctxs := rfl
@[simp] theorem setCell_images (s : State) (c : CellRec) : (s.setCell c).images = s.images := rfl
@[simp] theorem setCell_nextImg (s : State) (c : CellRec) : (s.setCell c).nextImg = s.nextImg := rfl
@[simp] theorem setCell_nextObj (s : State) (c : CellRec) : (s.setCell c).nextObj = s.nextObj := rfl
@[simp] theorem setCell_nextUid (s : State) (c : CellRec) : (s.setCell c).nextUid = s.nextUid := rfl
@[simp] theorem setCell_order (s : State) (c : CellRec) : (s.setCell c).order = s.order := rfl
@[simp] theorem setCell_slots (s : State) (c : CellRec) : (s.setCell c).slots = s.slots := rfl
@[simp] theorem setCell_queues (s : State) (c : CellRec) : (s.setCell c).queues = s.queues := rfl
@[simp] theorem setCell_jobs (s : State) (c : CellRec) : (s.setCell c).jobs = s.jobs := rfl
@[simp] theorem setCell_vfs (s : State) (c : CellRec) : (s.setCell c).vfs = s.vfs := rfl
@[simp] theorem setCell_curVf (s : State) (c : CellRec) : (s.setCell c).curVf = s.curVf := rfl
@[simp] theorem setCell_rings (s : State) (c : CellRec) : (s.setCell c).rings = s.rings := rfl
@[simp] theorem setCell_ways (s : State) (c : CellRec) : (s.setCell c).ways = s.ways := rfl
@[simp] theorem setCell_ports (s : State) (c : CellRec) : (s.setCell c).ports = s.ports := rfl
@[simp] theorem setCell_links (s : State) (c : CellRec) : (s.setCell c).links = s.links := rfl
@[simp] theorem setCell_spdm (s : State) (c : CellRec) : (s.setCell c).spdm = s.spdm := rfl
@[simp] theorem setCell_ide (s : State) (c : CellRec) : (s.setCell c).ide = s.ide := rfl
@[simp] theorem setCell_sent (s : State) (c : CellRec) : (s.setCell c).sent = s.sent := rfl
@[simp] theorem setCell_irqs (s : State) (c : CellRec) : (s.setCell c).irqs = s.irqs := rfl
@[simp] theorem setCell_tod (s : State) (c : CellRec) : (s.setCell c).tod = s.tod := rfl
@[simp] theorem setCell_bootFail (s : State) (c : CellRec) : (s.setCell c).bootFail = s.bootFail := rfl
@[simp] theorem setCell_sriov (s : State) (c : CellRec) : (s.setCell c).sriov = s.sriov := rfl
@[simp] theorem setCell_corrected (s : State) (c : CellRec) : (s.setCell c).corrected = s.corrected := rfl
@[simp] theorem setCell_nonce (s : State) (c : CellRec) : (s.setCell c).nonce = s.nonce := rfl
@[simp] theorem setCell_agenda (s : State) (c : CellRec) : (s.setCell c).agenda = s.agenda := rfl
@[simp] theorem setCell_labels (s : State) (c : CellRec) : (s.setCell c).labels = s.labels := rfl
@[simp] theorem setCell_keyGens (s : State) (c : CellRec) : (s.setCell c).keyGens = s.keyGens := rfl
@[simp] theorem setCell_graces (s : State) (c : CellRec) : (s.setCell c).graces = s.graces := rfl
@[simp] theorem setCell_sliceAge (s : State) (c : CellRec) : (s.setCell c).sliceAge = s.sliceAge := rfl
@[simp] theorem setCell_at_part (s : State) (c : CellRec) (i : Fin 32) : (s.setCell c).part i = s.part i := rfl
@[simp] theorem setCell_at_vf (s : State) (c : CellRec) (i : Nat) : (s.setCell c).vf i = s.vf i := rfl
@[simp] theorem setCell_at_cluster (s : State) (c : CellRec) (i : Nat) : (s.setCell c).cluster i = s.cluster i := rfl
@[simp] theorem setCell_at_home (s : State) (c : CellRec) (k : Nat) : (s.setCell c).home k = s.home k := rfl
@[simp] theorem setCell_at_image (s : State) (c : CellRec) (h : W32) : (s.setCell c).image h = s.image h := rfl
@[simp] theorem setCell_at_partOf (s : State) (c : CellRec) (k : Nat) : (s.setCell c).partOf k = s.partOf k := rfl
@[simp] theorem setCluster_seat (s : State) (c : Cluster) : (s.setCluster c).seat = s.seat := rfl
@[simp] theorem setCluster_others (s : State) (c : Cluster) : (s.setCluster c).others = s.others := rfl
@[simp] theorem setCluster_saved (s : State) (c : Cluster) : (s.setCluster c).saved = s.saved := rfl
@[simp] theorem setCluster_mem (s : State) (c : Cluster) : (s.setCluster c).mem = s.mem := rfl
@[simp] theorem setCluster_hist (s : State) (c : Cluster) : (s.setCluster c).hist = s.hist := rfl
@[simp] theorem setCluster_codeObjs (s : State) (c : Cluster) : (s.setCluster c).codeObjs = s.codeObjs := rfl
@[simp] theorem setCluster_hostDrops (s : State) (c : Cluster) : (s.setCluster c).hostDrops = s.hostDrops := rfl
@[simp] theorem setCluster_seqNo (s : State) (c : Cluster) : (s.setCluster c).seqNo = s.seqNo := rfl
@[simp] theorem setCluster_dirty (s : State) (c : Cluster) : (s.setCluster c).dirty = s.dirty := rfl
@[simp] theorem setCluster_lineTags (s : State) (c : Cluster) : (s.setCluster c).lineTags = s.lineTags := rfl
@[simp] theorem setCluster_tlb (s : State) (c : Cluster) : (s.setCluster c).tlb = s.tlb := rfl
@[simp] theorem setCluster_objs (s : State) (c : Cluster) : (s.setCluster c).objs = s.objs := rfl
@[simp] theorem setCluster_icache (s : State) (c : Cluster) : (s.setCluster c).icache = s.icache := rfl
@[simp] theorem setCluster_badMem (s : State) (c : Cluster) : (s.setCluster c).badMem = s.badMem := rfl
@[simp] theorem setCluster_cells (s : State) (c : Cluster) : (s.setCluster c).cells = s.cells := rfl
@[simp] theorem setCluster_owned (s : State) (c : Cluster) : (s.setCluster c).owned = s.owned := rfl
@[simp] theorem setCluster_parts (s : State) (c : Cluster) : (s.setCluster c).parts = s.parts := rfl
@[simp] theorem setCluster_ctxs (s : State) (c : Cluster) : (s.setCluster c).ctxs = s.ctxs := rfl
@[simp] theorem setCluster_images (s : State) (c : Cluster) : (s.setCluster c).images = s.images := rfl
@[simp] theorem setCluster_nextImg (s : State) (c : Cluster) : (s.setCluster c).nextImg = s.nextImg := rfl
@[simp] theorem setCluster_nextObj (s : State) (c : Cluster) : (s.setCluster c).nextObj = s.nextObj := rfl
@[simp] theorem setCluster_nextUid (s : State) (c : Cluster) : (s.setCluster c).nextUid = s.nextUid := rfl
@[simp] theorem setCluster_order (s : State) (c : Cluster) : (s.setCluster c).order = s.order := rfl
@[simp] theorem setCluster_slots (s : State) (c : Cluster) : (s.setCluster c).slots = s.slots := rfl
@[simp] theorem setCluster_queues (s : State) (c : Cluster) : (s.setCluster c).queues = s.queues := rfl
@[simp] theorem setCluster_jobs (s : State) (c : Cluster) : (s.setCluster c).jobs = s.jobs := rfl
@[simp] theorem setCluster_vfs (s : State) (c : Cluster) : (s.setCluster c).vfs = s.vfs := rfl
@[simp] theorem setCluster_curVf (s : State) (c : Cluster) : (s.setCluster c).curVf = s.curVf := rfl
@[simp] theorem setCluster_rings (s : State) (c : Cluster) : (s.setCluster c).rings = s.rings := rfl
@[simp] theorem setCluster_ways (s : State) (c : Cluster) : (s.setCluster c).ways = s.ways := rfl
@[simp] theorem setCluster_ports (s : State) (c : Cluster) : (s.setCluster c).ports = s.ports := rfl
@[simp] theorem setCluster_links (s : State) (c : Cluster) : (s.setCluster c).links = s.links := rfl
@[simp] theorem setCluster_spdm (s : State) (c : Cluster) : (s.setCluster c).spdm = s.spdm := rfl
@[simp] theorem setCluster_ide (s : State) (c : Cluster) : (s.setCluster c).ide = s.ide := rfl
@[simp] theorem setCluster_sent (s : State) (c : Cluster) : (s.setCluster c).sent = s.sent := rfl
@[simp] theorem setCluster_irqs (s : State) (c : Cluster) : (s.setCluster c).irqs = s.irqs := rfl
@[simp] theorem setCluster_tod (s : State) (c : Cluster) : (s.setCluster c).tod = s.tod := rfl
@[simp] theorem setCluster_bootFail (s : State) (c : Cluster) : (s.setCluster c).bootFail = s.bootFail := rfl
@[simp] theorem setCluster_sriov (s : State) (c : Cluster) : (s.setCluster c).sriov = s.sriov := rfl
@[simp] theorem setCluster_corrected (s : State) (c : Cluster) : (s.setCluster c).corrected = s.corrected := rfl
@[simp] theorem setCluster_nonce (s : State) (c : Cluster) : (s.setCluster c).nonce = s.nonce := rfl
@[simp] theorem setCluster_agenda (s : State) (c : Cluster) : (s.setCluster c).agenda = s.agenda := rfl
@[simp] theorem setCluster_labels (s : State) (c : Cluster) : (s.setCluster c).labels = s.labels := rfl
@[simp] theorem setCluster_keyGens (s : State) (c : Cluster) : (s.setCluster c).keyGens = s.keyGens := rfl
@[simp] theorem setCluster_graces (s : State) (c : Cluster) : (s.setCluster c).graces = s.graces := rfl
@[simp] theorem setCluster_sliceAge (s : State) (c : Cluster) : (s.setCluster c).sliceAge = s.sliceAge := rfl
@[simp] theorem setCluster_at_part (s : State) (c : Cluster) (i : Fin 32) : (s.setCluster c).part i = s.part i := rfl
@[simp] theorem setCluster_at_vf (s : State) (c : Cluster) (i : Nat) : (s.setCluster c).vf i = s.vf i := rfl
@[simp] theorem setCluster_at_cell (s : State) (c : Cluster) (i : Nat) : (s.setCluster c).cell i = s.cell i := rfl
@[simp] theorem setCluster_at_home (s : State) (c : Cluster) (k : Nat) : (s.setCluster c).home k = s.home k := rfl
@[simp] theorem setCluster_at_image (s : State) (c : Cluster) (h : W32) : (s.setCluster c).image h = s.image h := rfl
@[simp] theorem setCluster_at_partOf (s : State) (c : Cluster) (k : Nat) : (s.setCluster c).partOf k = s.partOf k := rfl
@[simp] theorem setCtx_seat (s : State) (c : Ctx) : (s.setCtx c).seat = s.seat := rfl
@[simp] theorem setCtx_others (s : State) (c : Ctx) : (s.setCtx c).others = s.others := rfl
@[simp] theorem setCtx_saved (s : State) (c : Ctx) : (s.setCtx c).saved = s.saved := rfl
@[simp] theorem setCtx_mem (s : State) (c : Ctx) : (s.setCtx c).mem = s.mem := rfl
@[simp] theorem setCtx_hist (s : State) (c : Ctx) : (s.setCtx c).hist = s.hist := rfl
@[simp] theorem setCtx_codeObjs (s : State) (c : Ctx) : (s.setCtx c).codeObjs = s.codeObjs := rfl
@[simp] theorem setCtx_hostDrops (s : State) (c : Ctx) : (s.setCtx c).hostDrops = s.hostDrops := rfl
@[simp] theorem setCtx_seqNo (s : State) (c : Ctx) : (s.setCtx c).seqNo = s.seqNo := rfl
@[simp] theorem setCtx_dirty (s : State) (c : Ctx) : (s.setCtx c).dirty = s.dirty := rfl
@[simp] theorem setCtx_lineTags (s : State) (c : Ctx) : (s.setCtx c).lineTags = s.lineTags := rfl
@[simp] theorem setCtx_tlb (s : State) (c : Ctx) : (s.setCtx c).tlb = s.tlb := rfl
@[simp] theorem setCtx_objs (s : State) (c : Ctx) : (s.setCtx c).objs = s.objs := rfl
@[simp] theorem setCtx_icache (s : State) (c : Ctx) : (s.setCtx c).icache = s.icache := rfl
@[simp] theorem setCtx_badMem (s : State) (c : Ctx) : (s.setCtx c).badMem = s.badMem := rfl
@[simp] theorem setCtx_cells (s : State) (c : Ctx) : (s.setCtx c).cells = s.cells := rfl
@[simp] theorem setCtx_clusters (s : State) (c : Ctx) : (s.setCtx c).clusters = s.clusters := rfl
@[simp] theorem setCtx_owned (s : State) (c : Ctx) : (s.setCtx c).owned = s.owned := rfl
@[simp] theorem setCtx_parts (s : State) (c : Ctx) : (s.setCtx c).parts = s.parts := rfl
@[simp] theorem setCtx_images (s : State) (c : Ctx) : (s.setCtx c).images = s.images := rfl
@[simp] theorem setCtx_nextImg (s : State) (c : Ctx) : (s.setCtx c).nextImg = s.nextImg := rfl
@[simp] theorem setCtx_nextObj (s : State) (c : Ctx) : (s.setCtx c).nextObj = s.nextObj := rfl
@[simp] theorem setCtx_nextUid (s : State) (c : Ctx) : (s.setCtx c).nextUid = s.nextUid := rfl
@[simp] theorem setCtx_order (s : State) (c : Ctx) : (s.setCtx c).order = s.order := rfl
@[simp] theorem setCtx_slots (s : State) (c : Ctx) : (s.setCtx c).slots = s.slots := rfl
@[simp] theorem setCtx_queues (s : State) (c : Ctx) : (s.setCtx c).queues = s.queues := rfl
@[simp] theorem setCtx_jobs (s : State) (c : Ctx) : (s.setCtx c).jobs = s.jobs := rfl
@[simp] theorem setCtx_vfs (s : State) (c : Ctx) : (s.setCtx c).vfs = s.vfs := rfl
@[simp] theorem setCtx_curVf (s : State) (c : Ctx) : (s.setCtx c).curVf = s.curVf := rfl
@[simp] theorem setCtx_rings (s : State) (c : Ctx) : (s.setCtx c).rings = s.rings := rfl
@[simp] theorem setCtx_ways (s : State) (c : Ctx) : (s.setCtx c).ways = s.ways := rfl
@[simp] theorem setCtx_ports (s : State) (c : Ctx) : (s.setCtx c).ports = s.ports := rfl
@[simp] theorem setCtx_links (s : State) (c : Ctx) : (s.setCtx c).links = s.links := rfl
@[simp] theorem setCtx_spdm (s : State) (c : Ctx) : (s.setCtx c).spdm = s.spdm := rfl
@[simp] theorem setCtx_ide (s : State) (c : Ctx) : (s.setCtx c).ide = s.ide := rfl
@[simp] theorem setCtx_sent (s : State) (c : Ctx) : (s.setCtx c).sent = s.sent := rfl
@[simp] theorem setCtx_irqs (s : State) (c : Ctx) : (s.setCtx c).irqs = s.irqs := rfl
@[simp] theorem setCtx_tod (s : State) (c : Ctx) : (s.setCtx c).tod = s.tod := rfl
@[simp] theorem setCtx_bootFail (s : State) (c : Ctx) : (s.setCtx c).bootFail = s.bootFail := rfl
@[simp] theorem setCtx_sriov (s : State) (c : Ctx) : (s.setCtx c).sriov = s.sriov := rfl
@[simp] theorem setCtx_corrected (s : State) (c : Ctx) : (s.setCtx c).corrected = s.corrected := rfl
@[simp] theorem setCtx_nonce (s : State) (c : Ctx) : (s.setCtx c).nonce = s.nonce := rfl
@[simp] theorem setCtx_agenda (s : State) (c : Ctx) : (s.setCtx c).agenda = s.agenda := rfl
@[simp] theorem setCtx_labels (s : State) (c : Ctx) : (s.setCtx c).labels = s.labels := rfl
@[simp] theorem setCtx_keyGens (s : State) (c : Ctx) : (s.setCtx c).keyGens = s.keyGens := rfl
@[simp] theorem setCtx_graces (s : State) (c : Ctx) : (s.setCtx c).graces = s.graces := rfl
@[simp] theorem setCtx_sliceAge (s : State) (c : Ctx) : (s.setCtx c).sliceAge = s.sliceAge := rfl
@[simp] theorem setCtx_at_part (s : State) (c : Ctx) (i : Fin 32) : (s.setCtx c).part i = s.part i := rfl
@[simp] theorem setCtx_at_vf (s : State) (c : Ctx) (i : Nat) : (s.setCtx c).vf i = s.vf i := rfl
@[simp] theorem setCtx_at_cell (s : State) (c : Ctx) (i : Nat) : (s.setCtx c).cell i = s.cell i := rfl
@[simp] theorem setCtx_at_cluster (s : State) (c : Ctx) (i : Nat) : (s.setCtx c).cluster i = s.cluster i := rfl
@[simp] theorem setCtx_at_home (s : State) (c : Ctx) (k : Nat) : (s.setCtx c).home k = s.home k := rfl
@[simp] theorem setCtx_at_image (s : State) (c : Ctx) (h : W32) : (s.setCtx c).image h = s.image h := rfl
@[simp] theorem setCtx_at_partOf (s : State) (c : Ctx) (k : Nat) : (s.setCtx c).partOf k = s.partOf k := rfl

-- Updates of a seat.
theorem eng_setEng (t : Seat) (e d : Eng) (x : Engine) : (t.setEng e x).eng d = if d = e then x else t.eng d := by
  cases e <;> cases d <;> rfl
theorem eng_mapEng (t : Seat) (e d : Eng) (f : Engine → Engine) : (t.mapEng e f).eng d = if d = e then f (t.eng e) else t.eng d :=
  eng_setEng t e d (f (t.eng e))
@[simp] theorem eng_pushLog (t : Seat) (e d : Eng) (u : Undo) : (t.pushLog e u).eng d = t.eng d := by cases e <;> cases d <;> rfl
@[simp] theorem eng_wrS (t : Seat) (d : BitVec 6) (v : Dword) (k : Taint) (e : Eng) : (t.wrS d v k).eng e = t.eng e := by
  unfold Seat.wrS; split <;> cases e <;> rfl
theorem eng_leave (t : Seat) (e d : Eng) (g : Edge) (k : Bool) :
    (t.leave e g k).eng d = if d = e then (t.eng e).leave (fun l => !t.passed l) g else t.eng d := by
  cases e <;> cases d <;> rfl

@[simp] theorem mapEng_id (t : Seat) (e : Eng) (g : Engine → Engine) : (t.mapEng e g).id = t.id := by cases e <;> rfl
@[simp] theorem leave_id (t : Seat) (e : Eng) (g : Edge) (k : Bool) : (t.leave e g k).id = t.id := by cases e <;> rfl
@[simp] theorem pushLog_id (t : Seat) (e : Eng) (u : Undo) : (t.pushLog e u).id = t.id := by cases e <;> rfl
@[simp] theorem wrS_id (t : Seat) (d : BitVec 6) (v : Dword) (k : Taint) : (t.wrS d v k).id = t.id := by unfold Seat.wrS; split <;> rfl
@[simp] theorem mapEng_status (t : Seat) (e : Eng) (g : Engine → Engine) : (t.mapEng e g).status = t.status := by cases e <;> rfl
@[simp] theorem leave_status (t : Seat) (e : Eng) (g : Edge) (k : Bool) : (t.leave e g k).status = t.status := by cases e <;> rfl
@[simp] theorem pushLog_status (t : Seat) (e : Eng) (u : Undo) : (t.pushLog e u).status = t.status := by cases e <;> rfl
@[simp] theorem wrS_status (t : Seat) (d : BitVec 6) (v : Dword) (k : Taint) : (t.wrS d v k).status = t.status := by unfold Seat.wrS; split <;> rfl
@[simp] theorem mapEng_unit (t : Seat) (e : Eng) (g : Engine → Engine) : (t.mapEng e g).unit = t.unit := by cases e <;> rfl
@[simp] theorem leave_unit (t : Seat) (e : Eng) (g : Edge) (k : Bool) : (t.leave e g k).unit = t.unit := by cases e <;> rfl
@[simp] theorem pushLog_unit (t : Seat) (e : Eng) (u : Undo) : (t.pushLog e u).unit = t.unit := by cases e <;> rfl
@[simp] theorem wrS_unit (t : Seat) (d : BitVec 6) (v : Dword) (k : Taint) : (t.wrS d v k).unit = t.unit := by unfold Seat.wrS; split <;> rfl
@[simp] theorem mapEng_s (t : Seat) (e : Eng) (g : Engine → Engine) : (t.mapEng e g).s = t.s := by cases e <;> rfl
@[simp] theorem leave_s (t : Seat) (e : Eng) (g : Edge) (k : Bool) : (t.leave e g k).s = t.s := by cases e <;> rfl
@[simp] theorem pushLog_s (t : Seat) (e : Eng) (u : Undo) : (t.pushLog e u).s = t.s := by cases e <;> rfl
@[simp] theorem mapEng_st (t : Seat) (e : Eng) (g : Engine → Engine) : (t.mapEng e g).st = t.st := by cases e <;> rfl
@[simp] theorem leave_st (t : Seat) (e : Eng) (g : Edge) (k : Bool) : (t.leave e g k).st = t.st := by cases e <;> rfl
@[simp] theorem pushLog_st (t : Seat) (e : Eng) (u : Undo) : (t.pushLog e u).st = t.st := by cases e <;> rfl
@[simp] theorem mapEng_v (t : Seat) (e : Eng) (g : Engine → Engine) : (t.mapEng e g).v = t.v := by cases e <;> rfl
@[simp] theorem leave_v (t : Seat) (e : Eng) (g : Edge) (k : Bool) : (t.leave e g k).v = t.v := by cases e <;> rfl
@[simp] theorem pushLog_v (t : Seat) (e : Eng) (u : Undo) : (t.pushLog e u).v = t.v := by cases e <;> rfl
@[simp] theorem wrS_v (t : Seat) (d : BitVec 6) (v : Dword) (k : Taint) : (t.wrS d v k).v = t.v := by unfold Seat.wrS; split <;> rfl
@[simp] theorem mapEng_vt (t : Seat) (e : Eng) (g : Engine → Engine) : (t.mapEng e g).vt = t.vt := by cases e <;> rfl
@[simp] theorem leave_vt (t : Seat) (e : Eng) (g : Edge) (k : Bool) : (t.leave e g k).vt = t.vt := by cases e <;> rfl
@[simp] theorem pushLog_vt (t : Seat) (e : Eng) (u : Undo) : (t.pushLog e u).vt = t.vt := by cases e <;> rfl
@[simp] theorem wrS_vt (t : Seat) (d : BitVec 6) (v : Dword) (k : Taint) : (t.wrS d v k).vt = t.vt := by unfold Seat.wrS; split <;> rfl
@[simp] theorem mapEng_p (t : Seat) (e : Eng) (g : Engine → Engine) : (t.mapEng e g).p = t.p := by cases e <;> rfl
@[simp] theorem leave_p (t : Seat) (e : Eng) (g : Edge) (k : Bool) : (t.leave e g k).p = t.p := by cases e <;> rfl
@[simp] theorem pushLog_p (t : Seat) (e : Eng) (u : Undo) : (t.pushLog e u).p = t.p := by cases e <;> rfl
@[simp] theorem wrS_p (t : Seat) (d : BitVec 6) (v : Dword) (k : Taint) : (t.wrS d v k).p = t.p := by unfold Seat.wrS; split <;> rfl
@[simp] theorem mapEng_pt (t : Seat) (e : Eng) (g : Engine → Engine) : (t.mapEng e g).pt = t.pt := by cases e <;> rfl
@[simp] theorem leave_pt (t : Seat) (e : Eng) (g : Edge) (k : Bool) : (t.leave e g k).pt = t.pt := by cases e <;> rfl
@[simp] theorem pushLog_pt (t : Seat) (e : Eng) (u : Undo) : (t.pushLog e u).pt = t.pt := by cases e <;> rfl
@[simp] theorem wrS_pt (t : Seat) (d : BitVec 6) (v : Dword) (k : Taint) : (t.wrS d v k).pt = t.pt := by unfold Seat.wrS; split <;> rfl
@[simp] theorem mapEng_tiles (t : Seat) (e : Eng) (g : Engine → Engine) : (t.mapEng e g).tiles = t.tiles := by cases e <;> rfl
@[simp] theorem leave_tiles (t : Seat) (e : Eng) (g : Edge) (k : Bool) : (t.leave e g k).tiles = t.tiles := by cases e <;> rfl
@[simp] theorem pushLog_tiles (t : Seat) (e : Eng) (u : Undo) : (t.pushLog e u).tiles = t.tiles := by cases e <;> rfl
@[simp] theorem wrS_tiles (t : Seat) (d : BitVec 6) (v : Dword) (k : Taint) : (t.wrS d v k).tiles = t.tiles := by unfold Seat.wrS; split <;> rfl
@[simp] theorem mapEng_ports (t : Seat) (e : Eng) (g : Engine → Engine) : (t.mapEng e g).ports = t.ports := by cases e <;> rfl
@[simp] theorem leave_ports (t : Seat) (e : Eng) (g : Edge) (k : Bool) : (t.leave e g k).ports = t.ports := by cases e <;> rfl
@[simp] theorem pushLog_ports (t : Seat) (e : Eng) (u : Undo) : (t.pushLog e u).ports = t.ports := by cases e <;> rfl
@[simp] theorem wrS_ports (t : Seat) (d : BitVec 6) (v : Dword) (k : Taint) : (t.wrS d v k).ports = t.ports := by unfold Seat.wrS; split <;> rfl
@[simp] theorem mapEng_gens (t : Seat) (e : Eng) (g : Engine → Engine) : (t.mapEng e g).gens = t.gens := by cases e <;> rfl
@[simp] theorem leave_gens (t : Seat) (e : Eng) (g : Edge) (k : Bool) : (t.leave e g k).gens = t.gens := by cases e <;> rfl
@[simp] theorem pushLog_gens (t : Seat) (e : Eng) (u : Undo) : (t.pushLog e u).gens = t.gens := by cases e <;> rfl
@[simp] theorem wrS_gens (t : Seat) (d : BitVec 6) (v : Dword) (k : Taint) : (t.wrS d v k).gens = t.gens := by unfold Seat.wrS; split <;> rfl
@[simp] theorem mapEng_ev (t : Seat) (e : Eng) (g : Engine → Engine) : (t.mapEng e g).ev = t.ev := by cases e <;> rfl
@[simp] theorem leave_ev (t : Seat) (e : Eng) (g : Edge) (k : Bool) : (t.leave e g k).ev = t.ev := by cases e <;> rfl
@[simp] theorem pushLog_ev (t : Seat) (e : Eng) (u : Undo) : (t.pushLog e u).ev = t.ev := by cases e <;> rfl
@[simp] theorem wrS_ev (t : Seat) (d : BitVec 6) (v : Dword) (k : Taint) : (t.wrS d v k).ev = t.ev := by unfold Seat.wrS; split <;> rfl
@[simp] theorem mapEng_kstat (t : Seat) (e : Eng) (g : Engine → Engine) : (t.mapEng e g).kstat = t.kstat := by cases e <;> rfl
@[simp] theorem leave_kstat (t : Seat) (e : Eng) (g : Edge) (k : Bool) : (t.leave e g k).kstat = t.kstat := by cases e <;> rfl
@[simp] theorem pushLog_kstat (t : Seat) (e : Eng) (u : Undo) : (t.pushLog e u).kstat = t.kstat := by cases e <;> rfl
@[simp] theorem wrS_kstat (t : Seat) (d : BitVec 6) (v : Dword) (k : Taint) : (t.wrS d v k).kstat = t.kstat := by unfold Seat.wrS; split <;> rfl
@[simp] theorem mapEng_chd (t : Seat) (e : Eng) (g : Engine → Engine) : (t.mapEng e g).chd = t.chd := by cases e <;> rfl
@[simp] theorem leave_chd (t : Seat) (e : Eng) (g : Edge) (k : Bool) : (t.leave e g k).chd = t.chd := by cases e <;> rfl
@[simp] theorem pushLog_chd (t : Seat) (e : Eng) (u : Undo) : (t.pushLog e u).chd = t.chd := by cases e <;> rfl
@[simp] theorem wrS_chd (t : Seat) (d : BitVec 6) (v : Dword) (k : Taint) : (t.wrS d v k).chd = t.chd := by unfold Seat.wrS; split <;> rfl
@[simp] theorem mapEng_chStop (t : Seat) (e : Eng) (g : Engine → Engine) : (t.mapEng e g).chStop = t.chStop := by cases e <;> rfl
@[simp] theorem leave_chStop (t : Seat) (e : Eng) (g : Edge) (k : Bool) : (t.leave e g k).chStop = t.chStop := by cases e <;> rfl
@[simp] theorem pushLog_chStop (t : Seat) (e : Eng) (u : Undo) : (t.pushLog e u).chStop = t.chStop := by cases e <;> rfl
@[simp] theorem wrS_chStop (t : Seat) (d : BitVec 6) (v : Dword) (k : Taint) : (t.wrS d v k).chStop = t.chStop := by unfold Seat.wrS; split <;> rfl
@[simp] theorem mapEng_ctab (t : Seat) (e : Eng) (g : Engine → Engine) : (t.mapEng e g).ctab = t.ctab := by cases e <;> rfl
@[simp] theorem leave_ctab (t : Seat) (e : Eng) (g : Edge) (k : Bool) : (t.leave e g k).ctab = t.ctab := by cases e <;> rfl
@[simp] theorem pushLog_ctab (t : Seat) (e : Eng) (u : Undo) : (t.pushLog e u).ctab = t.ctab := by cases e <;> rfl
@[simp] theorem wrS_ctab (t : Seat) (d : BitVec 6) (v : Dword) (k : Taint) : (t.wrS d v k).ctab = t.ctab := by unfold Seat.wrS; split <;> rfl
@[simp] theorem mapEng_copies (t : Seat) (e : Eng) (g : Engine → Engine) : (t.mapEng e g).copies = t.copies := by cases e <;> rfl
@[simp] theorem leave_copies (t : Seat) (e : Eng) (g : Edge) (k : Bool) : (t.leave e g k).copies = t.copies := by cases e <;> rfl
@[simp] theorem pushLog_copies (t : Seat) (e : Eng) (u : Undo) : (t.pushLog e u).copies = t.copies := by cases e <;> rfl
@[simp] theorem wrS_copies (t : Seat) (d : BitVec 6) (v : Dword) (k : Taint) : (t.wrS d v k).copies = t.copies := by unfold Seat.wrS; split <;> rfl
@[simp] theorem mapEng_ranges (t : Seat) (e : Eng) (g : Engine → Engine) : (t.mapEng e g).ranges = t.ranges := by cases e <;> rfl
@[simp] theorem leave_ranges (t : Seat) (e : Eng) (g : Edge) (k : Bool) : (t.leave e g k).ranges = t.ranges := by cases e <;> rfl
@[simp] theorem pushLog_ranges (t : Seat) (e : Eng) (u : Undo) : (t.pushLog e u).ranges = t.ranges := by cases e <;> rfl
@[simp] theorem wrS_ranges (t : Seat) (d : BitVec 6) (v : Dword) (k : Taint) : (t.wrS d v k).ranges = t.ranges := by unfold Seat.wrS; split <;> rfl
@[simp] theorem mapEng_replay (t : Seat) (e : Eng) (g : Engine → Engine) : (t.mapEng e g).replay = t.replay := by cases e <;> rfl
@[simp] theorem leave_replay (t : Seat) (e : Eng) (g : Edge) (k : Bool) : (t.leave e g k).replay = t.replay := by cases e <;> rfl
@[simp] theorem pushLog_replay (t : Seat) (e : Eng) (u : Undo) : (t.pushLog e u).replay = t.replay := by cases e <;> rfl
@[simp] theorem wrS_replay (t : Seat) (d : BitVec 6) (v : Dword) (k : Taint) : (t.wrS d v k).replay = t.replay := by unfold Seat.wrS; split <;> rfl
@[simp] theorem mapEng_dcfg (t : Seat) (e : Eng) (g : Engine → Engine) : (t.mapEng e g).dcfg = t.dcfg := by cases e <;> rfl
@[simp] theorem leave_dcfg (t : Seat) (e : Eng) (g : Edge) (k : Bool) : (t.leave e g k).dcfg = t.dcfg := by cases e <;> rfl
@[simp] theorem pushLog_dcfg (t : Seat) (e : Eng) (u : Undo) : (t.pushLog e u).dcfg = t.dcfg := by cases e <;> rfl
@[simp] theorem wrS_dcfg (t : Seat) (d : BitVec 6) (v : Dword) (k : Taint) : (t.wrS d v k).dcfg = t.dcfg := by unfold Seat.wrS; split <;> rfl
@[simp] theorem mapEng_drain (t : Seat) (e : Eng) (g : Engine → Engine) : (t.mapEng e g).drain = t.drain := by cases e <;> rfl
@[simp] theorem leave_drain (t : Seat) (e : Eng) (g : Edge) (k : Bool) : (t.leave e g k).drain = t.drain := by cases e <;> rfl
@[simp] theorem pushLog_drain (t : Seat) (e : Eng) (u : Undo) : (t.pushLog e u).drain = t.drain := by cases e <;> rfl
@[simp] theorem wrS_drain (t : Seat) (d : BitVec 6) (v : Dword) (k : Taint) : (t.wrS d v k).drain = t.drain := by unfold Seat.wrS; split <;> rfl
@[simp] theorem mapEng_ls (t : Seat) (e : Eng) (g : Engine → Engine) : (t.mapEng e g).ls = t.ls := by cases e <;> rfl
@[simp] theorem leave_ls (t : Seat) (e : Eng) (g : Edge) (k : Bool) : (t.leave e g k).ls = t.ls := by cases e <;> rfl
@[simp] theorem pushLog_ls (t : Seat) (e : Eng) (u : Undo) : (t.pushLog e u).ls = t.ls := by cases e <;> rfl
@[simp] theorem wrS_ls (t : Seat) (d : BitVec 6) (v : Dword) (k : Taint) : (t.wrS d v k).ls = t.ls := by unfold Seat.wrS; split <;> rfl
@[simp] theorem mapEng_bud (t : Seat) (e : Eng) (g : Engine → Engine) : (t.mapEng e g).bud = t.bud := by cases e <;> rfl
@[simp] theorem leave_bud (t : Seat) (e : Eng) (g : Edge) (k : Bool) : (t.leave e g k).bud = t.bud := by cases e <;> rfl
@[simp] theorem pushLog_bud (t : Seat) (e : Eng) (u : Undo) : (t.pushLog e u).bud = t.bud := by cases e <;> rfl
@[simp] theorem wrS_bud (t : Seat) (d : BitVec 6) (v : Dword) (k : Taint) : (t.wrS d v k).bud = t.bud := by unfold Seat.wrS; split <;> rfl
@[simp] theorem mapEng_mstop (t : Seat) (e : Eng) (g : Engine → Engine) : (t.mapEng e g).mstop = t.mstop := by cases e <;> rfl
@[simp] theorem leave_mstop (t : Seat) (e : Eng) (g : Edge) (k : Bool) : (t.leave e g k).mstop = t.mstop := by cases e <;> rfl
@[simp] theorem pushLog_mstop (t : Seat) (e : Eng) (u : Undo) : (t.pushLog e u).mstop = t.mstop := by cases e <;> rfl
@[simp] theorem wrS_mstop (t : Seat) (d : BitVec 6) (v : Dword) (k : Taint) : (t.wrS d v k).mstop = t.mstop := by unfold Seat.wrS; split <;> rfl
@[simp] theorem mapEng_mq (t : Seat) (e : Eng) (g : Engine → Engine) : (t.mapEng e g).mq = t.mq := by cases e <;> rfl
@[simp] theorem leave_mq (t : Seat) (e : Eng) (g : Edge) (k : Bool) : (t.leave e g k).mq = t.mq := by cases e <;> rfl
@[simp] theorem pushLog_mq (t : Seat) (e : Eng) (u : Undo) : (t.pushLog e u).mq = t.mq := by cases e <;> rfl
@[simp] theorem wrS_mq (t : Seat) (d : BitVec 6) (v : Dword) (k : Taint) : (t.wrS d v k).mq = t.mq := by unfold Seat.wrS; split <;> rfl
@[simp] theorem mapEng_ackbase (t : Seat) (e : Eng) (g : Engine → Engine) : (t.mapEng e g).ackbase = t.ackbase := by cases e <;> rfl
@[simp] theorem leave_ackbase (t : Seat) (e : Eng) (g : Edge) (k : Bool) : (t.leave e g k).ackbase = t.ackbase := by cases e <;> rfl
@[simp] theorem pushLog_ackbase (t : Seat) (e : Eng) (u : Undo) : (t.pushLog e u).ackbase = t.ackbase := by cases e <;> rfl
@[simp] theorem wrS_ackbase (t : Seat) (d : BitVec 6) (v : Dword) (k : Taint) : (t.wrS d v k).ackbase = t.ackbase := by unfold Seat.wrS; split <;> rfl
@[simp] theorem mapEng_tvec (t : Seat) (e : Eng) (g : Engine → Engine) : (t.mapEng e g).tvec = t.tvec := by cases e <;> rfl
@[simp] theorem leave_tvec (t : Seat) (e : Eng) (g : Edge) (k : Bool) : (t.leave e g k).tvec = t.tvec := by cases e <;> rfl
@[simp] theorem pushLog_tvec (t : Seat) (e : Eng) (u : Undo) : (t.pushLog e u).tvec = t.tvec := by cases e <;> rfl
@[simp] theorem wrS_tvec (t : Seat) (d : BitVec 6) (v : Dword) (k : Taint) : (t.wrS d v k).tvec = t.tvec := by unfold Seat.wrS; split <;> rfl
@[simp] theorem mapEng_epc (t : Seat) (e : Eng) (g : Engine → Engine) : (t.mapEng e g).epc = t.epc := by cases e <;> rfl
@[simp] theorem leave_epc (t : Seat) (e : Eng) (g : Edge) (k : Bool) : (t.leave e g k).epc = t.epc := by cases e <;> rfl
@[simp] theorem pushLog_epc (t : Seat) (e : Eng) (u : Undo) : (t.pushLog e u).epc = t.epc := by cases e <;> rfl
@[simp] theorem wrS_epc (t : Seat) (d : BitVec 6) (v : Dword) (k : Taint) : (t.wrS d v k).epc = t.epc := by unfold Seat.wrS; split <;> rfl
@[simp] theorem mapEng_ecode (t : Seat) (e : Eng) (g : Engine → Engine) : (t.mapEng e g).ecode = t.ecode := by cases e <;> rfl
@[simp] theorem leave_ecode (t : Seat) (e : Eng) (g : Edge) (k : Bool) : (t.leave e g k).ecode = t.ecode := by cases e <;> rfl
@[simp] theorem pushLog_ecode (t : Seat) (e : Eng) (u : Undo) : (t.pushLog e u).ecode = t.ecode := by cases e <;> rfl
@[simp] theorem wrS_ecode (t : Seat) (d : BitVec 6) (v : Dword) (k : Taint) : (t.wrS d v k).ecode = t.ecode := by unfold Seat.wrS; split <;> rfl
@[simp] theorem mapEng_hf (t : Seat) (e : Eng) (g : Engine → Engine) : (t.mapEng e g).hf = t.hf := by cases e <;> rfl
@[simp] theorem leave_hf (t : Seat) (e : Eng) (g : Edge) (k : Bool) : (t.leave e g k).hf = t.hf := by cases e <;> rfl
@[simp] theorem pushLog_hf (t : Seat) (e : Eng) (u : Undo) : (t.pushLog e u).hf = t.hf := by cases e <;> rfl
@[simp] theorem wrS_hf (t : Seat) (d : BitVec 6) (v : Dword) (k : Taint) : (t.wrS d v k).hf = t.hf := by unfold Seat.wrS; split <;> rfl
@[simp] theorem mapEng_frec (t : Seat) (e : Eng) (g : Engine → Engine) : (t.mapEng e g).frec = t.frec := by cases e <;> rfl
@[simp] theorem leave_frec (t : Seat) (e : Eng) (g : Edge) (k : Bool) : (t.leave e g k).frec = t.frec := by cases e <;> rfl
@[simp] theorem pushLog_frec (t : Seat) (e : Eng) (u : Undo) : (t.pushLog e u).frec = t.frec := by cases e <;> rfl
@[simp] theorem wrS_frec (t : Seat) (d : BitVec 6) (v : Dword) (k : Taint) : (t.wrS d v k).frec = t.frec := by unfold Seat.wrS; split <;> rfl
@[simp] theorem mapEng_shadow (t : Seat) (e : Eng) (g : Engine → Engine) : (t.mapEng e g).shadow = t.shadow := by cases e <;> rfl
@[simp] theorem leave_shadow (t : Seat) (e : Eng) (g : Edge) (k : Bool) : (t.leave e g k).shadow = t.shadow := by cases e <;> rfl
@[simp] theorem pushLog_shadow (t : Seat) (e : Eng) (u : Undo) : (t.pushLog e u).shadow = t.shadow := by cases e <;> rfl
@[simp] theorem wrS_shadow (t : Seat) (d : BitVec 6) (v : Dword) (k : Taint) : (t.wrS d v k).shadow = t.shadow := by unfold Seat.wrS; split <;> rfl
@[simp] theorem mapEng_lanes (t : Seat) (e : Eng) (g : Engine → Engine) : (t.mapEng e g).lanes = t.lanes := by cases e <;> rfl
@[simp] theorem leave_lanes (t : Seat) (e : Eng) (g : Edge) (k : Bool) : (t.leave e g k).lanes = t.lanes := by cases e <;> rfl
@[simp] theorem pushLog_lanes (t : Seat) (e : Eng) (u : Undo) : (t.pushLog e u).lanes = t.lanes := by cases e <;> rfl
@[simp] theorem wrS_lanes (t : Seat) (d : BitVec 6) (v : Dword) (k : Taint) : (t.wrS d v k).lanes = t.lanes := by unfold Seat.wrS; split <;> rfl
@[simp] theorem mapEng_slagS (t : Seat) (e : Eng) (g : Engine → Engine) : (t.mapEng e g).slagS = t.slagS := by cases e <;> rfl
@[simp] theorem leave_slagS (t : Seat) (e : Eng) (g : Edge) (k : Bool) : (t.leave e g k).slagS = t.slagS := by cases e <;> rfl
@[simp] theorem mapEng_slagV (t : Seat) (e : Eng) (g : Engine → Engine) : (t.mapEng e g).slagV = t.slagV := by cases e <;> rfl
@[simp] theorem leave_slagV (t : Seat) (e : Eng) (g : Edge) (k : Bool) : (t.leave e g k).slagV = t.slagV := by cases e <;> rfl
@[simp] theorem wrS_slagV (t : Seat) (d : BitVec 6) (v : Dword) (k : Taint) : (t.wrS d v k).slagV = t.slagV := by unfold Seat.wrS; split <;> rfl
@[simp] theorem mapEng_logA (t : Seat) (e : Eng) (g : Engine → Engine) : (t.mapEng e g).logA = t.logA := by cases e <;> rfl
@[simp] theorem leave_logA (t : Seat) (e : Eng) (g : Edge) (k : Bool) : (t.leave e g k).logA = t.logA := by cases e <;> rfl
@[simp] theorem wrS_logA (t : Seat) (d : BitVec 6) (v : Dword) (k : Taint) : (t.wrS d v k).logA = t.logA := by unfold Seat.wrS; split <;> rfl
@[simp] theorem mapEng_gsb (t : Seat) (e : Eng) (g : Engine → Engine) : (t.mapEng e g).gsb = t.gsb := by cases e <;> rfl
@[simp] theorem leave_gsb (t : Seat) (e : Eng) (g : Edge) (k : Bool) : (t.leave e g k).gsb = t.gsb := by cases e <;> rfl
@[simp] theorem pushLog_gsb (t : Seat) (e : Eng) (u : Undo) : (t.pushLog e u).gsb = t.gsb := by cases e <;> rfl
@[simp] theorem wrS_gsb (t : Seat) (d : BitVec 6) (v : Dword) (k : Taint) : (t.wrS d v k).gsb = t.gsb := by unfold Seat.wrS; split <;> rfl
@[simp] theorem mapEng_unpub (t : Seat) (e : Eng) (g : Engine → Engine) : (t.mapEng e g).unpub = t.unpub := by cases e <;> rfl
@[simp] theorem leave_unpub (t : Seat) (e : Eng) (g : Edge) (k : Bool) : (t.leave e g k).unpub = t.unpub := by cases e <;> rfl
@[simp] theorem pushLog_unpub (t : Seat) (e : Eng) (u : Undo) : (t.pushLog e u).unpub = t.unpub := by cases e <;> rfl
@[simp] theorem wrS_unpub (t : Seat) (d : BitVec 6) (v : Dword) (k : Taint) : (t.wrS d v k).unpub = t.unpub := by unfold Seat.wrS; split <;> rfl
@[simp] theorem mapEng_rlog (t : Seat) (e : Eng) (g : Engine → Engine) : (t.mapEng e g).rlog = t.rlog := by cases e <;> rfl
@[simp] theorem leave_rlog (t : Seat) (e : Eng) (g : Edge) (k : Bool) : (t.leave e g k).rlog = t.rlog := by cases e <;> rfl
@[simp] theorem pushLog_rlog (t : Seat) (e : Eng) (u : Undo) : (t.pushLog e u).rlog = t.rlog := by cases e <;> rfl
@[simp] theorem wrS_rlog (t : Seat) (d : BitVec 6) (v : Dword) (k : Taint) : (t.wrS d v k).rlog = t.rlog := by unfold Seat.wrS; split <;> rfl
@[simp] theorem mapEng_atoms (t : Seat) (e : Eng) (g : Engine → Engine) : (t.mapEng e g).atoms = t.atoms := by cases e <;> rfl
@[simp] theorem leave_atoms (t : Seat) (e : Eng) (g : Edge) (k : Bool) : (t.leave e g k).atoms = t.atoms := by cases e <;> rfl
@[simp] theorem pushLog_atoms (t : Seat) (e : Eng) (u : Undo) : (t.pushLog e u).atoms = t.atoms := by cases e <;> rfl
@[simp] theorem wrS_atoms (t : Seat) (d : BitVec 6) (v : Dword) (k : Taint) : (t.wrS d v k).atoms = t.atoms := by unfold Seat.wrS; split <;> rfl
@[simp] theorem mapEng_preds (t : Seat) (e : Eng) (g : Engine → Engine) : (t.mapEng e g).preds = t.preds := by cases e <;> rfl
@[simp] theorem leave_preds (t : Seat) (e : Eng) (g : Edge) (k : Bool) : (t.leave e g k).preds = t.preds := by cases e <;> rfl
@[simp] theorem pushLog_preds (t : Seat) (e : Eng) (u : Undo) : (t.pushLog e u).preds = t.preds := by cases e <;> rfl
@[simp] theorem wrS_preds (t : Seat) (d : BitVec 6) (v : Dword) (k : Taint) : (t.wrS d v k).preds = t.preds := by unfold Seat.wrS; split <;> rfl
@[simp] theorem mapEng_lastAcq (t : Seat) (e : Eng) (g : Engine → Engine) : (t.mapEng e g).lastAcq = t.lastAcq := by cases e <;> rfl
@[simp] theorem leave_lastAcq (t : Seat) (e : Eng) (g : Edge) (k : Bool) : (t.leave e g k).lastAcq = t.lastAcq := by cases e <;> rfl
@[simp] theorem pushLog_lastAcq (t : Seat) (e : Eng) (u : Undo) : (t.pushLog e u).lastAcq = t.lastAcq := by cases e <;> rfl
@[simp] theorem wrS_lastAcq (t : Seat) (d : BitVec 6) (v : Dword) (k : Taint) : (t.wrS d v k).lastAcq = t.lastAcq := by unfold Seat.wrS; split <;> rfl
@[simp] theorem mapEng_cycles (t : Seat) (e : Eng) (g : Engine → Engine) : (t.mapEng e g).cycles = t.cycles := by cases e <;> rfl
@[simp] theorem leave_cycles (t : Seat) (e : Eng) (g : Edge) (k : Bool) : (t.leave e g k).cycles = t.cycles := by cases e <;> rfl
@[simp] theorem pushLog_cycles (t : Seat) (e : Eng) (u : Undo) : (t.pushLog e u).cycles = t.cycles := by cases e <;> rfl
@[simp] theorem wrS_cycles (t : Seat) (d : BitVec 6) (v : Dword) (k : Taint) : (t.wrS d v k).cycles = t.cycles := by unfold Seat.wrS; split <;> rfl
@[simp] theorem mapEng_vpAny (t : Seat) (e : Eng) (g : Engine → Engine) : (t.mapEng e g).vpAny = t.vpAny := by cases e <;> rfl
@[simp] theorem leave_vpAny (t : Seat) (e : Eng) (g : Edge) (k : Bool) : (t.leave e g k).vpAny = t.vpAny := by cases e <;> rfl
@[simp] theorem pushLog_vpAny (t : Seat) (e : Eng) (u : Undo) : (t.pushLog e u).vpAny = t.vpAny := by cases e <;> rfl
@[simp] theorem wrS_vpAny (t : Seat) (d : BitVec 6) (v : Dword) (k : Taint) : (t.wrS d v k).vpAny = t.vpAny := by unfold Seat.wrS; split <;> rfl
@[simp] theorem mapEng_vpClus (t : Seat) (e : Eng) (g : Engine → Engine) : (t.mapEng e g).vpClus = t.vpClus := by cases e <;> rfl
@[simp] theorem leave_vpClus (t : Seat) (e : Eng) (g : Edge) (k : Bool) : (t.leave e g k).vpClus = t.vpClus := by cases e <;> rfl
@[simp] theorem pushLog_vpClus (t : Seat) (e : Eng) (u : Undo) : (t.pushLog e u).vpClus = t.vpClus := by cases e <;> rfl
@[simp] theorem wrS_vpClus (t : Seat) (d : BitVec 6) (v : Dword) (k : Taint) : (t.wrS d v k).vpClus = t.vpClus := by unfold Seat.wrS; split <;> rfl
@[simp] theorem mapEng_kill (t : Seat) (e : Eng) (g : Engine → Engine) : (t.mapEng e g).kill = t.kill := by cases e <;> rfl
@[simp] theorem leave_kill (t : Seat) (e : Eng) (g : Edge) (k : Bool) : (t.leave e g k).kill = t.kill := by cases e <;> rfl
@[simp] theorem pushLog_kill (t : Seat) (e : Eng) (u : Undo) : (t.pushLog e u).kill = t.kill := by cases e <;> rfl
@[simp] theorem wrS_kill (t : Seat) (d : BitVec 6) (v : Dword) (k : Taint) : (t.wrS d v k).kill = t.kill := by unfold Seat.wrS; split <;> rfl
@[simp] theorem mapEng_atKill (t : Seat) (e : Eng) (g : Engine → Engine) : (t.mapEng e g).atKill = t.atKill := by cases e <;> rfl
@[simp] theorem leave_lines (t : Seat) (e : Eng) (g : Edge) (k : Bool) :
    (t.leave e g k).lines = t.lines.filter (fun r => r.lsn != (t.eng e).lsn) := rfl
@[simp] theorem leave_forced (t : Seat) (e : Eng) (g : Edge) (k : Bool) : (t.leave e g k).forced = t.forced := by cases e <;> rfl
@[simp] theorem mapEng_forced (t : Seat) (e : Eng) (g : Engine → Engine) : (t.mapEng e g).forced = t.forced := by cases e <;> rfl
@[simp] theorem pushLog_forced (t : Seat) (e : Eng) (u : Undo) : (t.pushLog e u).forced = t.forced := by cases e <;> rfl
@[simp] theorem wrS_forced (t : Seat) (d : BitVec 6) (v : Dword) (k : Taint) : (t.wrS d v k).forced = t.forced := by unfold Seat.wrS; split <;> rfl
@[simp] theorem leave_atKill (t : Seat) (e : Eng) (g : Edge) (k : Bool) : (t.leave e g k).atKill = k := by cases e <;> rfl
@[simp] theorem pushLog_atKill (t : Seat) (e : Eng) (u : Undo) : (t.pushLog e u).atKill = t.atKill := by cases e <;> rfl
@[simp] theorem wrS_atKill (t : Seat) (d : BitVec 6) (v : Dword) (k : Taint) : (t.wrS d v k).atKill = t.atKill := by unfold Seat.wrS; split <;> rfl
@[simp] theorem mapEng_damage (t : Seat) (e : Eng) (g : Engine → Engine) : (t.mapEng e g).damage = t.damage := by cases e <;> rfl
@[simp] theorem leave_damage (t : Seat) (e : Eng) (g : Edge) (k : Bool) : (t.leave e g k).damage = t.damage := by cases e <;> rfl
@[simp] theorem pushLog_damage (t : Seat) (e : Eng) (u : Undo) : (t.pushLog e u).damage = t.damage := by cases e <;> rfl
@[simp] theorem mapEng_barGen (t : Seat) (e : Eng) (g : Engine → Engine) : (t.mapEng e g).barGen = t.barGen := by cases e <;> rfl
@[simp] theorem leave_barGen (t : Seat) (e : Eng) (g : Edge) (k : Bool) : (t.leave e g k).barGen = t.barGen := by cases e <;> rfl
@[simp] theorem pushLog_barGen (t : Seat) (e : Eng) (u : Undo) : (t.pushLog e u).barGen = t.barGen := by cases e <;> rfl
@[simp] theorem wrS_barGen (t : Seat) (d : BitVec 6) (v : Dword) (k : Taint) : (t.wrS d v k).barGen = t.barGen := by unfold Seat.wrS; split <;> rfl
@[simp] theorem mapEng_chk (t : Seat) (e : Eng) (g : Engine → Engine) : (t.mapEng e g).chk = t.chk := by cases e <;> rfl
@[simp] theorem leave_chk (t : Seat) (e : Eng) (g : Edge) (k : Bool) : (t.leave e g k).chk = t.chk := by cases e <;> rfl
@[simp] theorem pushLog_chk (t : Seat) (e : Eng) (u : Undo) : (t.pushLog e u).chk = t.chk := by cases e <;> rfl
@[simp] theorem wrS_chk (t : Seat) (d : BitVec 6) (v : Dword) (k : Taint) : (t.wrS d v k).chk = t.chk := by unfold Seat.wrS; split <;> rfl
@[simp] theorem mapEng_after (t : Seat) (e : Eng) (g : Engine → Engine) : (t.mapEng e g).after = t.after := by cases e <;> rfl
@[simp] theorem leave_after (t : Seat) (e : Eng) (g : Edge) (k : Bool) : (t.leave e g k).after = t.after := by cases e <;> rfl
@[simp] theorem pushLog_after (t : Seat) (e : Eng) (u : Undo) : (t.pushLog e u).after = t.after := by cases e <;> rfl
@[simp] theorem wrS_after (t : Seat) (d : BitVec 6) (v : Dword) (k : Taint) : (t.wrS d v k).after = t.after := by unfold Seat.wrS; split <;> rfl
@[simp] theorem mapEng_logNo (t : Seat) (e : Eng) (g : Engine → Engine) : (t.mapEng e g).logNo = t.logNo := by cases e <;> rfl
@[simp] theorem leave_logNo (t : Seat) (e : Eng) (g : Edge) (k : Bool) : (t.leave e g k).logNo = t.logNo := by cases e <;> rfl
@[simp] theorem mapEng_lines (t : Seat) (e : Eng) (g : Engine → Engine) : (t.mapEng e g).lines = t.lines := by cases e <;> rfl
@[simp] theorem pushLog_lines (t : Seat) (e : Eng) (u : Undo) : (t.pushLog e u).lines = t.lines := by cases e <;> rfl
@[simp] theorem wrS_lines (t : Seat) (d : BitVec 6) (v : Dword) (k : Taint) : (t.wrS d v k).lines = t.lines := by unfold Seat.wrS; split <;> rfl

end Sys2Proof.Machine
end

