-- ==== Sys2Proof/Laws/Words.lean ====
section
/-! SUPPORT. How words execute: the shared ways in which a word leaves, waits or faults, and the actions that words are
made of, each said once. -/

namespace Sys2Proof.Machine

-- Actions in sequence.
theorem bind_does {α β : Type} {m : M α} {f : α → M β} {s s' : State} {a : α} (h : Does m s a s') : (m >>= f) s = f a s' := by
  have h' : m s = .ok (a, s') := h
  show (StateT.bind m f) s = _
  unfold StateT.bind
  rw [h']; rfl

theorem bind_error {α β : Type} {m : M α} {f : α → M β} {s : State} {x : Stop} (h : m s = .error x) :
    (m >>= f) s = .error x := by
  show (StateT.bind m f) s = _
  unfold StateT.bind
  rw [h]; rfl

theorem Does.bind {α β : Type} {m : M α} {f : α → M β} {s s' s'' : State} {a : α} {b : β} (h : Does m s a s')
    (h' : Does (f a) s' b s'') : Does (m >>= f) s b s'' := by
  show (m >>= f) s = _
  rw [bind_does h]; exact h'

theorem does_pure {α : Type} (a : α) (s : State) : Does (pure a) s a s := rfl
theorem does_mModSeat (f : Seat → Seat) (s : State) : Does (mModSeat f) s () (s.onSeat f) := rfl
theorem does_mMod (f : State → State) (s : State) : Does (mMod f) s () (f s) := rfl
theorem does_mSeat (s : State) : Does mSeat s s.seat s := rfl
theorem does_get (s : State) : Does (get : M State) s s s := rfl
theorem does_myLsn (e : Eng) (s : State) : Does (myLsn e) s (s.seat.eng e).lsn s := rfl
theorem does_putS (d : BitVec 6) (v : Dword) (k : Taint) (s : State) : Does (putS d v k) s () (wrote d v k s) := rfl
theorem does_putX (e : Eng) (d : BitVec 4) (v : Dword) (k : Taint) (s : State) : Does (putX e d v k) s () (wroteX e d v k s) := rfl

theorem does_getS {s : State} {r : BitVec 6} {x : Dword} {k : Taint} (h : Reads s r x k) : Does (getS r) s (x, k) s := by
  have h' : s.seat.rdS r = .ok (x, k) := h
  show getS r s = _
  unfold getS; rw [h']

theorem does_getX {s : State} {e : Eng} {r : BitVec 6} {x : Dword} {k : Taint} (h : ReadsX s e r x k) :
    Does (getX e r) s (x, k) s := by
  have h' : s.seat.rdXf e r = .ok (x, k) := h
  show getX e r s = _
  unfold getX; rw [h']

theorem does_mDest {s : State} {d : BitVec 6} (h : CanWrite s d) : Does (mDest d) s () s := by
  obtain ⟨h1, h2⟩ := h
  show mDest d s = _
  unfold mDest
  rw [if_neg (by simp [h1])]
  rcases h2 with h2 | h2
  · simp [h2]
  · simp [h2]

theorem does_mCheck {c : Bool} (h : c = true) (code : Byte) (addr : Dword) (aux : Byte) (s : State) :
    Does (mCheck c code addr aux) s () s := by
  subst h; rfl

theorem mCheck_fault {c : Bool} (h : c = false) (code : Byte) (addr : Dword) (aux : Byte) (s : State) :
    mCheck c code addr aux s = .error (.fault { code, addr, aux }) := by
  subst h; rfl

theorem does_mNeeds {c : Bool} (h : c = true) (w : Wait) (s : State) : Does (mNeeds c w) s () s := by
  subst h; rfl

theorem does_mRoom {e : Eng} {n : Nat} {s : State} (h : s.seat.logRoom e n = true) : Does (mRoom e n) s () s := by
  show mRoom e n s = _
  unfold mRoom; rw [if_pos h]

theorem does_mOperand {e : Eng} {c : Bool} (h : c = true) (s : State) : Does (mOperand e c) s () s := by
  subst h; rfl

-- How a word ends.
theorem Issues.notHeld {s : State} {e : Eng} {bound : Bool} (h : Issues s e bound) :
    ¬(e == .m && s.seat.mq.any (fun c => c.back && !c.started)) = true := by
  intro c
  obtain ⟨he, hc⟩ := Bool.and_eq_true_iff.1 c
  rw [h.resumed (by simpa using he)] at hc
  cases hc

theorem wordThen_next {e : Eng} {bound : Bool} {s s' : State} {m : M (Edge × Bool)} {edge : Edge} {kill : Bool}
    (post : State → State) (h : Issues s e bound) (hm : Does m s (edge, kill) s') :
    wordThen e bound s m post = .next (post (left e edge kill s')) := by
  have hm' : m s = .ok ((edge, kill), s') := hm
  unfold wordThen
  rw [if_neg (by simp [h.running]), if_neg (by simp [h.near]), if_neg h.notHeld]
  have hb : (bound && !s.seat.atH e) = false := by
    cases hb : bound
    · rfl
    · simp [h.atH hb]
  rw [hb, hm']; rfl

theorem wordThen_fault {e : Eng} {bound : Bool} {s : State} {m : M (Edge × Bool)} {f : FaultInfo}
    (post : State → State) (h : Issues s e bound) (hm : m s = .error (.fault f)) :
    wordThen e bound s m post = .next (fail s e f) := by
  unfold wordThen
  rw [if_neg (by simp [h.running]), if_neg (by simp [h.near]), if_neg h.notHeld]
  have hb : (bound && !s.seat.atH e) = false := by
    cases hb : bound
    · rfl
    · simp [h.atH hb]
  rw [hb, hm]; rfl

/-- A word above H waits for it when it is horizon-bound (R31). -/
theorem wordThen_horizon {e : Eng} {s : State} {m : M (Edge × Bool)} (post : State → State) (h : s.seat.status = .running)
    (hn : near s.seat e = true) (he : e ≠ .m) (ha : s.seat.atH e = false) :
    wordThen e true s m post = .next (waiting s e .horizon) := by
  unfold wordThen
  rw [if_neg (by simp [h]), if_neg (by simp [hn]), if_neg (by simp [he]), if_pos (by simp [ha])]

theorem word_next {e : Eng} {bound : Bool} {s s' : State} {m : M Unit} (h : Issues s e bound) (hm : Does m s () s') :
    word e bound s m = .next (fell e s') :=
  wordThen_next id h (hm.bind (does_pure _ _))

theorem word_fault {e : Eng} {bound : Bool} {s : State} {m : M Unit} {f : FaultInfo} (h : Issues s e bound)
    (hm : m s = .error (.fault f)) : word e bound s m = .next (fail s e f) :=
  wordThen_fault id h (bind_error hm)

theorem logged_next {s s' : State} {m : M Unit} (h : Issues s .s false) (hm : Does m s () s') : logged s m = .next (fell .s s') :=
  word_next h hm

theorem atHorizon_next {s s' : State} {m : M Unit} (h : Issues s .s true) (hm : Does m s () s') :
    atHorizon s m = .next (fell .s s') :=
  word_next h hm

/-- Every meaning of a word answers a next state where the seat at hand runs a unit: it executes, waits, or faults. -/
theorem wordThen_total {e : Eng} {bound : Bool} {s : State} {m : M (Edge × Bool)} (post : State → State)
    (h : s.seat.status = .running) : ∃ t, wordThen e bound s m post = .next t := by
  unfold wordThen
  rw [if_neg (by simp [h])]
  split
  · exact ⟨_, rfl⟩
  · split
    · exact ⟨_, rfl⟩
    · split
      · exact ⟨_, rfl⟩
      · split <;> exact ⟨_, rfl⟩

theorem event_next (s : State) (f : State → State) : event s f = .next (f s) := rfl

end Sys2Proof.Machine
end

