-- ==== Sys2Proof/Laws/Ops.lean ====
section
/-! SUPPORT. What the shared operations can do, each said once: how a word ends, what a register reads after a write, what a
coupling port takes and gives, and how a turn of the machine begins. -/

set_option autoImplicit false

namespace Sys2Proof.Machine

/-- Every way in which a word ends. -/
theorem wordThen_cases {e : Eng} {bound : Bool} {s t : State} {m : M (Edge × Bool)} {post : State → State}
    (h : wordThen e bound s m post = .next t) :
    s.seat.status = .running ∧
    ((near s.seat e = false ∧ t = waiting s e .distance)
    ∨ (near s.seat e = true ∧ e = .m ∧ (∃ c ∈ s.seat.mq, c.back = true ∧ c.started = false) ∧ t = waiting s e .matrix)
    ∨ (near s.seat e = true ∧ bound = true ∧ s.seat.atH e = false ∧ t = waiting s e .horizon)
    ∨ (Issues s e bound ∧ ((∃ edge kill s', Does m s (edge, kill) s' ∧ t = post (left e edge kill s'))
      ∨ (∃ f, m s = .error (.fault f) ∧ t = fail s e f)
      ∨ (∃ w, m s = .error (.wait w) ∧ t = waiting s e w)
      ∨ ∃ w s', m s = .error (.waitIn w s') ∧ t = waiting (waitState e s s' w) e w))) := by
  unfold wordThen at h
  split at h
  · cases h
  · rename_i hs
    have hr : s.seat.status = .running := by simpa using hs
    refine ⟨hr, ?_⟩
    split at h
    · rename_i hn; cases h; exact .inl ⟨by simpa using hn, rfl⟩
    · rename_i hn
      have hn' : near s.seat e = true := by simpa using hn
      split at h
      · rename_i hq; cases h
        simp at hq
        exact .inr (.inl ⟨hn', hq.1, hq.2, rfl⟩)
      · rename_i hq
        split at h
        · rename_i hb; cases h
          simp at hb
          exact .inr (.inr (.inl ⟨hn', hb.1, hb.2, rfl⟩))
        · rename_i hb
          simp at hb
          refine .inr (.inr (.inr ⟨⟨hr, hn', hb, fun he => ?_⟩, ?_⟩))
          · subst he; simpa using hq
          split at h
          · rename_i hm; cases h; exact .inl ⟨_, _, _, hm, rfl⟩
          · rename_i hm; cases h; exact .inr (.inl ⟨_, hm, rfl⟩)
          · rename_i hm; cases h; exact .inr (.inr (.inl ⟨_, hm, rfl⟩))
          · rename_i hm; cases h; exact .inr (.inr (.inr ⟨_, _, hm, rfl⟩))

/-- An invariant that a word keeps: its action keeps it, and so do leaving, waiting and faulting. -/
theorem wordThen_keeps {P : State → Prop} {e : Eng} {bound : Bool} {s t : State} {m : M (Edge × Bool)} {post : State → State}
    (h : wordThen e bound s m post = .next t) (hs : P s) (hok : ∀ x s', Does m s x s' → P s') (hwait : ∀ w s', m s = .error (.waitIn w s') → P (waitState e s s' w))
    (hleft : ∀ edge kill s', P s' → P (post (left e edge kill s'))) (hw : ∀ s' w, P s' → P (waiting s' e w)) (hf : ∀ f, P (fail s e f)) : P t := by
  obtain ⟨_, ⟨_, rfl⟩ | ⟨_, _, _, rfl⟩ | ⟨_, _, _, rfl⟩ | ⟨_, ⟨edge, kill, s', d, rfl⟩ | ⟨f, _, rfl⟩ | ⟨w, _, rfl⟩ | ⟨w, s', d, rfl⟩⟩⟩ := wordThen_cases h
  · exact hw s _ hs
  · exact hw s _ hs
  · exact hw s _ hs
  · exact hleft edge kill s' (hok _ s' d)
  · exact hf f
  · exact hw s w hs
  · exact hw _ w (hwait w s' d)

/-- A fault of a word that is not at H is held with the word; an absent leaf that it met is dropped (R311). -/
theorem fail_held {s : State} {e : Eng} (f : FaultInfo) (h : s.seat.atH e = false) :
    fail s e f = (forgetFault f s).onEng e (fun x => { x with held := some f, wait := none }) := by
  unfold fail; rw [if_neg (by simp [h])]

theorem fail_raised {s : State} {e : Eng} (f : FaultInfo) (h : s.seat.atH e = true) : fail s e f = raiseFault e f s := by
  unfold fail; rw [if_pos h]

-- Registers.
theorem reads_zero (s : State) : Reads s 0 0 0 := rfl

theorem reads_register {s : State} {r : BitVec 6} (h0 : r ≠ 0) (hp : s.seat.pendingS r = false) (hd : Damage.sreg r ∉ s.seat.damage) :
    Reads s r (s.seat.s[r.toNat]'r.isLt) (s.seat.st[r.toNat]'r.isLt) := by
  show s.seat.rdS r = _
  unfold Seat.rdS
  rw [if_neg (by simpa using h0), if_neg (by simp [hp]), if_neg (by simpa using hd)]

theorem wrS_zero (t : Seat) (v : Dword) (k : Taint) : t.wrS 0 v k = t := rfl

theorem wrS_at {t : Seat} {d : BitVec 6} (v : Dword) (k : Taint) (h : d ≠ 0) :
    (t.wrS d v k).s = t.s.set d.toNat v d.isLt ∧ (t.wrS d v k).st = t.st.set d.toNat k d.isLt := by
  unfold Seat.wrS
  rw [if_neg (by simpa using h)]
  exact ⟨rfl, rfl⟩

theorem wrS_other {t : Seat} {d : BitVec 6} (v : Dword) (k : Taint) (i : Fin 64) (h : i.val ≠ d.toNat) :
    (t.wrS d v k).s[i] = t.s[i] ∧ (t.wrS d v k).st[i] = t.st[i] := by
  by_cases h0 : d = 0
  · subst h0; exact ⟨rfl, rfl⟩
  · obtain ⟨a, b⟩ := wrS_at (t := t) v k h0
    simp only [Fin.getElem_fin, a, b]
    exact ⟨Vector.getElem_set_ne _ _ (fun e => h e.symm), Vector.getElem_set_ne _ _ (fun e => h e.symm)⟩

/-- What a written register reads as, s0 apart. -/
theorem reads_wrote {s : State} {d : BitVec 6} (v : Dword) (k : Taint) (h0 : d ≠ 0) (hp : s.seat.pendingS d = false) :
    Reads (wrote d v k s) d v k := by
  have hp' : (wrote d v k s).seat.pendingS d = false := by
    have : (wrote d v k s).seat.atoms = s.seat.atoms := wrS_atoms _ _ _ _
    unfold Seat.pendingS at hp ⊢; rw [this]; exact hp
  have hd : Damage.sreg d ∉ (wrote d v k s).seat.damage := by
    show Damage.sreg d ∉ (s.seat.wrS d v k).damage
    unfold Seat.wrS
    rw [if_neg (by simpa using h0)]
    simp
  have := reads_register h0 hp' hd
  obtain ⟨a, b⟩ := wrS_at (t := s.seat) v k h0
  have a' : (wrote d v k s).seat.s = s.seat.s.set d.toNat v d.isLt := a
  have b' : (wrote d v k s).seat.st = s.seat.st.set d.toNat k d.isLt := b
  simpa [a', b'] using this

-- Coupling ports.
/-- A pop takes the value of the oldest entry not yet taken, and marks it with the word's LSN. -/
theorem popPort_does {s : State} {e : Eng} {q : Fin 16} {i : Item PortEntry} (h : qHead s.seat.ports[q] = some i)
    (hd : i.val.bad = false) (hv : i.val.prov = false) (hp : i.val.psn = false) :
    Does (popPort e q) s i.val (s.onSeat (fun t => { t with ports := t.ports.set q (qTake t.ports[q] (t.eng e).lsn e) })) := by
  show popPort e q s = _
  unfold popPort
  simp only [h]
  rw [if_neg (by simp [hd]), if_neg (by simp [hv]), if_neg (by simp [hp])]

theorem popPort_empty {s : State} {e : Eng} {q : Fin 16} (h : qHead s.seat.ports[q] = none) : popPort e q s = .error (.wait .portEmpty) := by
  unfold popPort
  simp only [h]

-- Turns.
theorem step_event {s : State} {id : SeatId} {ev : Instr} {rest : List Turn} (h : s.agenda = .event id ev :: rest) (he : ev.engine = none) :
    step s = exec ev (State.select { s with agenda := rest } id) := by
  unfold step runTurn
  rw [h]
  simp only [he]

theorem step_engine {s : State} {id : SeatId} {e : Eng} {rest : List Turn} (h : s.agenda = .engine id e :: rest) :
    step s = engineTurn e (State.select { s with agenda := rest } id) := by
  unfold step runTurn
  rw [h]

end Sys2Proof.Machine
end

