-- ==== Sys2Proof/Laws/Scalar.lean ====
section
/-! SUPPORT. How the scalar words complete: the shapes of R99-R105 over the actions of Laws/Words. -/

namespace Sys2Proof.Machine

theorem alu_next {s : State} {d a b : BitVec 6} {x y : Dword} {kx ky : Taint} (f : Dword → Dword → Dword)
    (h : Issues s .s false) (hd : CanWrite s d) (ha : Reads s a x kx) (hb : Reads s b y ky) :
    alu f d a b s = .next (fell .s (wrote d (f x y) (kx ||| ky) s)) :=
  logged_next h ((does_mDest hd).bind ((does_getS ha).bind ((does_getS hb).bind (does_putS _ _ _ _))))

theorem alu1_next {s : State} {d a : BitVec 6} {x : Dword} {k : Taint} (f : Dword → Dword) (h : Issues s .s false)
    (hd : CanWrite s d) (ha : Reads s a x k) : alu1 f d a s = .next (fell .s (wrote d (f x) k s)) :=
  logged_next h ((does_mDest hd).bind ((does_getS ha).bind (does_putS _ _ _ _)))

theorem csel_next {s : State} {d a b : BitVec 6} {x y o : Dword} {kx ky ko : Taint} (h : Issues s .s false) (hd : CanWrite s d)
    (ho : Reads s d o ko) (ha : Reads s a x kx) (hb : Reads s b y ky) :
    execCsel d a b s = .next (fell .s (wrote d (if o != 0 then x else y) (ko ||| kx ||| ky) s)) :=
  logged_next h ((does_mDest hd).bind ((does_getS ho).bind ((does_getS ha).bind ((does_getS hb).bind (does_putS _ _ _ _)))))

theorem movw_next {s : State} {d : BitVec 6} (w : BitVec 17) (h : Issues s .s false) (hd : CanWrite s d) :
    execMovw d w s = .next (fell .s (wrote d (w.signExtend 64) 0 s)) :=
  logged_next h ((does_mDest hd).bind (does_putS _ _ _ _))

/-- A branch target inside the array. -/
theorem does_branchTo {s : State} {e : Eng} {off : Int} (h0 : 0 ≤ ((s.seat.eng e).pc : Int) + off)
    (h1 : ((s.seat.eng e).pc : Int) + off < ((mySlice s e).words.length : Int)) :
    Does (branchTo e off) s (.to (((s.seat.eng e).pc : Int) + off).toNat (decide (off ≤ 0)), decide (off ≤ 0)) s := by
  refine (does_get s).bind ((does_mCheck ?_ _ _ _ s).bind (does_pure _ _))
  simp [h0, h1]

/-- A branch target outside the array. -/
theorem branchTo_fault {s : State} {e : Eng} {off : Int} (h : ((s.seat.eng e).pc : Int) + off < 0 ∨
    ((mySlice s e).words.length : Int) ≤ ((s.seat.eng e).pc : Int) + off) :
    branchTo e off s = .error (.fault { code := FC.fetch, addr := sliceAddr s e 0 + BitVec.ofInt 64 (4 * (((s.seat.eng e).pc : Int) + off)), aux := 1 }) := by
  unfold branchTo
  rw [bind_does (does_get s)]
  refine bind_error (mCheck_fault ?_ _ _ _ s)
  simp; omega

theorem branch_taken {s t : State} {cond : Dword → Dword → Bool} {d a : BitVec 6} {imm : BitVec 11} {x y : Dword}
    {kx ky : Taint} (h : Issues s .s false) (hd : Reads s d x kx) (ha : Reads s a y ky) (hc : cond x y = true)
    (h0 : 0 ≤ (s.seat.engS.pc : Int) + imm.toInt) (h1 : (s.seat.engS.pc : Int) + imm.toInt < ((mySlice s .s).words.length : Int))
    (hp : Does (pushDecision true) s () t) :
    branch cond d a imm s = .next (left .s (.to ((s.seat.engS.pc : Int) + imm.toInt).toNat (decide (imm.toInt ≤ 0)))
      (decide (imm.toInt ≤ 0)) t) := by
  refine wordThen_next id h ((does_getS hd).bind ((does_getS ha).bind ?_))
  simp only [hc, if_true]
  exact (does_branchTo (e := .s) h0 h1).bind (hp.bind (does_pure _ _))

theorem branch_fall {s t : State} {cond : Dword → Dword → Bool} {d a : BitVec 6} {imm : BitVec 11} {x y : Dword}
    {kx ky : Taint} (h : Issues s .s false) (hd : Reads s d x kx) (ha : Reads s a y ky) (hc : cond x y = false)
    (hp : Does (pushDecision false) s () t) :
    branch cond d a imm s = .next (left .s .fall (decide (imm.toInt ≤ 0)) t) := by
  refine wordThen_next id h ((does_getS hd).bind ((does_getS ha).bind ?_))
  simp only [hc]
  exact (does_pure _ _).bind (hp.bind (does_pure _ _))

theorem branch_fault {s : State} {cond : Dword → Dword → Bool} {d a : BitVec 6} {imm : BitVec 11} {x y : Dword}
    {kx ky : Taint} (h : Issues s .s false) (hd : Reads s d x kx) (ha : Reads s a y ky) (hc : cond x y = true)
    (h0 : (s.seat.engS.pc : Int) + imm.toInt < 0 ∨ ((mySlice s .s).words.length : Int) ≤ (s.seat.engS.pc : Int) + imm.toInt) :
    branch cond d a imm s =
      .next (fail s .s { code := FC.fetch, addr := sliceAddr s .s 0 + BitVec.ofInt 64 (4 * ((s.seat.engS.pc : Int) + imm.toInt)), aux := 1 }) := by
  refine wordThen_fault id h ?_
  rw [bind_does (does_getS hd)]; dsimp only
  rw [bind_does (does_getS ha)]; dsimp only
  simp only [hc, if_true]
  exact bind_error (branchTo_fault (e := .s) h0)

theorem jmp_next {s : State} {j : BitVec 23} (h : Issues s .s false) (h0 : 0 ≤ (s.seat.engS.pc : Int) + j.toInt)
    (h1 : (s.seat.engS.pc : Int) + j.toInt < ((mySlice s .s).words.length : Int)) :
    execJmp j s = .next (left .s (.to ((s.seat.engS.pc : Int) + j.toInt).toNat (decide (j.toInt ≤ 0))) (decide (j.toInt ≤ 0)) s) :=
  wordThen_next id h (does_branchTo (e := .s) h0 h1)

theorem call_next {s : State} {j : BitVec 23} (h : Issues s .s false) (hd : CanWrite s 63)
    (h0 : 0 ≤ (s.seat.engS.pc : Int) + j.toInt) (h1 : (s.seat.engS.pc : Int) + j.toInt < ((mySlice s .s).words.length : Int)) :
    execCall j s = .next (left .s (.to ((s.seat.engS.pc : Int) + j.toInt).toNat (decide (j.toInt ≤ 0))) (decide (j.toInt ≤ 0))
      (wrote 63 (logicalNext s) 0 s)) :=
  wordThen_next id h ((does_mDest hd).bind ((does_branchTo (e := .s) h0 h1).bind ((does_putS _ _ _ _).bind (does_pure _ _))))

theorem jr_next {s : State} {d a : BitVec 6} {x : Dword} {k : Taint} {m : Nat} (h : Issues s .s false) (hd : CanWrite s d)
    (ha : Reads s a x k) (hx : (x.extractLsb' 0 2 == 0) = true) (hj : jrTarget s (x.toNat / 4) = true)
    (hm : scalarIndex s (x.toNat / 4) = some m) :
    execJr d a s = .next (left .s (.to m false) false (wrote d (logicalNext s) 0 s)) := by
  refine wordThen_next id h ((does_mDest hd).bind ((does_getS ha).bind ((does_mCheck hx _ _ _ s).bind
    ((does_mCheck hj _ _ _ s).bind ?_))))
  rw [hm]
  exact (does_putS _ _ _ _).bind (does_pure _ _)

theorem jr_align {s : State} {d a : BitVec 6} {x : Dword} {k : Taint} (h : Issues s .s false) (hd : CanWrite s d)
    (ha : Reads s a x k) (hx : (x.extractLsb' 0 2 == 0) = false) :
    execJr d a s = .next (fail s .s { code := FC.align, addr := x, aux := 0 }) := by
  refine wordThen_fault id h ?_
  rw [bind_does (does_mDest hd), bind_does (does_getS ha)]
  exact bind_error (mCheck_fault hx _ _ _ s)

theorem jr_fetch {s : State} {d a : BitVec 6} {x : Dword} {k : Taint} (h : Issues s .s false) (hd : CanWrite s d)
    (ha : Reads s a x k) (hx : (x.extractLsb' 0 2 == 0) = true) (hj : jrTarget s (x.toNat / 4) = false) :
    execJr d a s = .next (fail s .s { code := FC.fetch, addr := x, aux := 2 }) := by
  refine wordThen_fault id h ?_
  rw [bind_does (does_mDest hd), bind_does (does_getS ha)]
  dsimp only
  rw [bind_does (does_mCheck hx _ _ _ s)]
  exact bind_error (mCheck_fault hj _ _ _ s)

end Sys2Proof.Machine
end

