-- ==== Sys2Proof/Laws/Values.lean ====
section
/-! SUPPORT. The values of the scalar words as numbers (R99-R102). -/

namespace Sys2Proof.Machine

theorem amount_eq (y : Dword) : amount y = y.toNat % 64 := by
  simp [amount, BitVec.extractLsb'_toNat]

theorem add_value (x y : Dword) : x + y = BitVec.ofNat 64 (x.toNat + y.toNat) := by
  apply BitVec.eq_of_toNat_eq; simp

theorem sub_value (x y : Dword) : x - y = BitVec.ofInt 64 (x.toInt - y.toInt) := by
  apply BitVec.eq_of_toInt_eq; simp

theorem mul_value (x y : Dword) : x * y = BitVec.ofNat 64 (x.toNat * y.toNat) := by
  apply BitVec.eq_of_toNat_eq; simp

theorem shl_value (x : Dword) (n : Nat) : x <<< n = BitVec.ofNat 64 (x.toNat * 2 ^ n) := by
  apply BitVec.eq_of_toNat_eq; simp [Nat.shiftLeft_eq]

theorem shr_value (x : Dword) (n : Nat) : x >>> n = BitVec.ofNat 64 (x.toNat / 2 ^ n) := by
  apply BitVec.eq_of_toNat_eq
  simp only [BitVec.toNat_ushiftRight, Nat.shiftRight_eq_div_pow, BitVec.toNat_ofNat]
  exact (Nat.mod_eq_of_lt (Nat.lt_of_le_of_lt (Nat.div_le_self _ _) x.isLt)).symm

theorem sar_value (x : Dword) (n : Nat) : x.sshiftRight n = BitVec.ofInt 64 (x.toInt / 2 ^ n) := by
  simp [BitVec.sshiftRight, Int.shiftRight_eq_div_pow]

theorem rot_value (x : Dword) (n : Nat) (h : n < 64) : x.rotateRight n = (x >>> n) ||| (x <<< (64 - n)) := by
  simp [BitVec.rotateRight, BitVec.rotateRightAux, Nat.mod_eq_of_lt h]

theorem min_value (x y : Dword) : (if y.slt x then y else x) = BitVec.ofInt 64 (min x.toInt y.toInt) := by
  by_cases h : y.toInt < x.toInt
  · rw [if_pos (by simpa [BitVec.slt] using h), Int.min_eq_right (Int.le_of_lt h)]; simp
  · rw [if_neg (by simpa [BitVec.slt] using h), Int.min_eq_left (Int.not_lt.1 h)]; simp

theorem max_value (x y : Dword) : (if x.slt y then y else x) = BitVec.ofInt 64 (max x.toInt y.toInt) := by
  by_cases h : x.toInt < y.toInt
  · rw [if_pos (by simpa [BitVec.slt] using h), Int.max_eq_right (Int.le_of_lt h)]; simp
  · rw [if_neg (by simpa [BitVec.slt] using h), Int.max_eq_left (Int.not_lt.1 h)]; simp

theorem minu_value (x y : Dword) : (if y.ult x then y else x) = BitVec.ofNat 64 (min x.toNat y.toNat) := by
  by_cases h : y.toNat < x.toNat
  · rw [if_pos (by simpa [BitVec.ult] using h), Nat.min_eq_right (Nat.le_of_lt h)]; simp
  · rw [if_neg (by simpa [BitVec.ult] using h), Nat.min_eq_left (Nat.not_lt.1 h)]; simp

theorem maxu_value (x y : Dword) : (if x.ult y then y else x) = BitVec.ofNat 64 (max x.toNat y.toNat) := by
  by_cases h : x.toNat < y.toNat
  · rw [if_pos (by simpa [BitVec.ult] using h), Nat.max_eq_right (Nat.le_of_lt h)]; simp
  · rw [if_neg (by simpa [BitVec.ult] using h), Nat.max_eq_left (Nat.not_lt.1 h)]; simp

theorem high_value (z : BitVec 128) : z.extractLsb' 64 64 = BitVec.ofInt 64 (z.toInt / 2 ^ 64) := by
  apply BitVec.eq_of_toNat_eq
  rw [BitVec.extractLsb'_toNat, BitVec.toNat_ofInt, Nat.shiftRight_eq_div_pow, BitVec.toInt_eq_toNat_cond]
  have := z.isLt
  split <;> omega

theorem mulhS_value (x y : Dword) : mulhS x y = BitVec.ofInt 64 (x.toInt * y.toInt / 2 ^ 64) := by
  unfold mulhS
  rw [high_value]
  congr 2
  rw [BitVec.toInt_mul, BitVec.toInt_signExtend_of_le (by decide), BitVec.toInt_signExtend_of_le (by decide)]
  have hx := BitVec.le_toInt x
  have hx' := BitVec.toInt_lt (x := x)
  have hy := BitVec.le_toInt y
  have hy' := BitVec.toInt_lt (x := y)
  have h1 : (x.toInt * y.toInt).natAbs ≤ 2 ^ 63 * 2 ^ 63 := by
    rw [Int.natAbs_mul]; exact Nat.mul_le_mul (by omega) (by omega)
  rw [Int.bmod_eq_of_le] <;> omega

theorem mulhU_value (x y : Dword) : mulhU x y = BitVec.ofNat 64 (x.toNat * y.toNat / 2 ^ 64) := by
  unfold mulhU
  apply BitVec.eq_of_toNat_eq
  rw [BitVec.extractLsb'_toNat, BitVec.toNat_ofNat, Nat.shiftRight_eq_div_pow, BitVec.toNat_mul]
  simp only [BitVec.toNat_setWidth]
  have hx := x.isLt
  have hy := y.isLt
  have h1 : x.toNat * y.toNat < 2 ^ 64 * 2 ^ 64 := Nat.mul_lt_mul'' hx hy
  rw [Nat.mod_eq_of_lt (a := x.toNat) (by omega), Nat.mod_eq_of_lt (a := y.toNat) (by omega),
    Nat.mod_eq_of_lt (a := x.toNat * y.toNat) (by omega)]

theorem addw_value (x y : Dword) : addwD x y = BitVec.ofInt 64 (BitVec.ofNat 32 (x.toNat + y.toNat)).toInt := by
  unfold addwD
  have : ((x + y).extractLsb' 0 32 : W32) = BitVec.ofNat 32 (x.toNat + y.toNat) := by
    apply BitVec.eq_of_toNat_eq
    rw [BitVec.extractLsb'_toNat]; simp
  rw [this]; rfl

theorem low_value (n : Nat) (x : Dword) : (x.extractLsb' 0 n : BitVec n) = BitVec.ofNat n x.toNat := by
  apply BitVec.eq_of_toNat_eq
  rw [BitVec.extractLsb'_toNat]; simp

/-- The bits of an inserted field, and those around it. -/
theorem insert_bits (x : Dword) (lo n : Nat) (w : Dword) (i : Nat) (hi : i < 64) :
    (insertBits x lo n w).getLsbD i = if lo ≤ i ∧ i < lo + n then w.getLsbD (i - lo) else x.getLsbD i := by
  have hm : (BitVec.ofNat 64 ((pow2 n - 1) <<< lo)).getLsbD i = (decide (lo ≤ i) && decide (i < lo + n)) := by
    rw [BitVec.getLsbD_ofNat]
    have : pow2 n = 2^n := by simp [pow2, Nat.one_shiftLeft]
    rw [this, Nat.testBit_shiftLeft, Nat.testBit_two_pow_sub_one]
    simp only [hi, decide_true, Bool.true_and]
    by_cases h1 : lo ≤ i
    · simp [h1]; omega
    · simp [h1]
  simp only [insertBits, BitVec.getLsbD_or, BitVec.getLsbD_and, BitVec.getLsbD_not, hm, BitVec.getLsbD_shiftLeft, hi, decide_true, Bool.true_and]
  by_cases h1 : lo ≤ i
  · by_cases h2 : i < lo + n
    · simp [h1, h2]
    · simp [h1, h2]
  · simp [h1]

theorem divS_value {x y : Dword} (h : y ≠ 0) : divS x y = BitVec.ofInt 64 (x.toInt.tdiv y.toInt) := by
  unfold divS; rw [if_neg (by simpa using h)]

theorem remS_value {x y : Dword} (h : y ≠ 0) : remS x y = BitVec.ofInt 64 (x.toInt - y.toInt * x.toInt.tdiv y.toInt) := by
  unfold remS; rw [if_neg (by simpa using h), Int.tmod_def]

end Sys2Proof.Machine
end

