-- ==== Sys2Proof/Machine/SaveArea.lean ====
section
/-! DEFINITION. The save area (R294, R295, R297, R298): the bytes of a saved context. Where R297 lists a part's contents without laying them out, they
stand in the order of its list, each in whole bytes (DESIGN CHOICE, log 47). The context is stored once, in `Saved`; no unit maps the area's
pages and no rule places them (log 47). -/

namespace Sys2Proof.Machine

-- Replay entries (R295).
def kindCode : CopyKind → Nat
  | .chain => 1 | .plain => 2 | .halo => 3 | .reduce => 4

/-- The four double words of a replay entry (R295). -/
def replayEntry (c : Copy) : List Dword :=
  let d0 := kindCode c.kind * pow2 61 + c.conv.toNat * pow2 57 + c.tok.val * pow2 54 + c.ch.val * pow2 52 + c.bar % 16 * pow2 48
    + c.gen.toNat * pow2 32 + c.lsn.toNat
  if c.kind == .chain then [BitVec.ofNat 64 d0, (c.src.setWidth 55).setWidth 64, 0, 0]
  else [BitVec.ofNat 64 d0, (c.src.setWidth 55).setWidth 64, (c.dst.setWidth 55).setWidth 64, BitVec.ofNat 64 (c.len * pow2 32 + c.off % pow2 32)]

/-- The sixteen entries: KIND 0 marks an empty one. -/
def replayTable (l : List Copy) : List Dword := (List.range 16).flatMap (fun n => ((l[n]?).map replayEntry).getD [0, 0, 0, 0])

-- Ports (R140).
/-- The two double words of a port entry's tag (R140). -/
def portTag (x : Item PortEntry) : List Dword :=
  let b (c : Bool) : Nat := if c then 1 else 0
  let e := x.val
  [BitVec.ofNat 64 (x.lsn.toNat * pow2 32 + e.taint.toNat * pow2 16 + e.vcnt % 8192 * 8 + b e.prov * 4 + b e.psn * 2 + b e.last),
    BitVec.ofNat 64 (e.fcode.toNat * pow2 56 + e.faux.toNat * pow2 48 + e.fmt.toNat * pow2 44)]

/-- A port's eight places, in queue order from the head, each its data and then its tag; provisional entries are not saved. -/
def portBytes (l : List (Item PortEntry)) : List Byte :=
  let l := l.filter (fun x => !x.val.prov)
  (List.range 8).flatMap (fun n => match l[n]? with
    | some x => bytesOf x.val.data 512 ++ dwords (portTag x)
    | none => List.replicate 528 0)

-- The unpublished-byte log (R298).
/-- The line addresses of the bytes of the log, each once. -/
def logLines : List UByte → List Nat
  | [] => []
  | u :: rest =>
    let l := logLines rest
    if l.contains (u.byte.key / 128) then l else u.byte.key / 128 :: l

/-- The byte of a line's place that the log holds: of several stores, the last. -/
def logByte (l : List UByte) (k : Nat) : Option Byte :=
  l.foldl (fun x u => if u.byte.key == k then some (mergeByte (x.getD 0) u.byte.val u.byte.mask) else x) none

/-- A log entry's 160 bytes: the line's address, the byte mask, 8 reserved bytes and the data. -/
def logEntry (l : List UByte) (line : Nat) : List Byte :=
  let at_ := (List.range 128).map (fun i => logByte l (128 * line + i))
  let mask := ((List.range 128).zip at_).foldl (fun n x => if x.2.isSome then n + pow2 x.1 else n) 0
  bytesOf (BitVec.ofNat 64 (128 * line)) 8 ++ bytesOf (BitVec.ofNat 128 mask) 16 ++ List.replicate 8 0 ++ at_.map (fun b => b.getD 0)

def logBytes (l : List UByte) : List Byte := (logLines l).flatMap (logEntry l)

-- The parts whose contents R297 lists.
/-- Numbers, each in `n` bytes. -/
def numBytes (n : Nat) (l : List Nat) : List Byte := l.flatMap (fun x => bytesOf (BitVec.ofNat (8 * n) x) n)

def boolNat (b : Bool) : Nat := if b then 1 else 0

/-- The control block. -/
def controlBlock (x : Saved) : List Byte :=
  let t := x.seat
  let es := engines.map t.eng
  let others := es.drop 1
  let held : Taint := x.banks.foldl (fun k b => b.2.taint.toList.foldl (· ||| ·) k) t.heldTags
  let taints (l : List Taint) : List Byte := numBytes 2 (l.map BitVec.toNat)
  numBytes 4 [(t.horizon.getD t.engS.lsn).toNat] ++ es.flatMap (fun e => numBytes 4 [e.pc, e.lsn.toNat])
    ++ dwords t.s.toList ++ others.flatMap (fun e => dwords e.x.toList)
    ++ es.flatMap (fun e => numBytes 4 (e.lc.toList.map BitVec.toNat) ++ numBytes 1 [e.rbv.val, e.rbp.val])
    ++ numBytes 2 (t.p.toList.map BitVec.toNat) ++ numBytes 1 (t.ev.toList.map (fun q => (qAvail q).length))
    ++ t.kstat.toList ++ dwords t.chd.toList
    ++ numBytes 4 [t.dcfg.seed.toNat, t.dcfg.thresh.toNat, t.dcfg.keepscale.toNat, t.dcfg.outscale.toNat, t.dcfg.outfmt.toNat, t.dcfg.rowbase.toNat,
      t.dcfg.colbase.toNat, t.dcfg.colcount.toNat, t.dcfg.dest.toNat]
    ++ dwords [packMstate t, t.tvec, t.epc] ++ [t.ecode, BitVec.ofNat 8 (boolNat t.hf)] ++ dwords [t.ackbase]
    ++ [t.frec.fcode] ++ numBytes 4 [t.frec.flsn.toNat, t.frec.flpc.toNat] ++ dwords [t.frec.faddr] ++ [t.frec.feng.setWidth 8, t.frec.faux]
    ++ taints ([held] ++ t.st.toList ++ t.vt.toList ++ t.pt.toList ++ others.flatMap (fun e => e.xt.toList) ++ t.shadow.toList)

/-- Transfer queues, decision queues and the walk positions of the generators, each list after its length. -/
def queueBytes (t : Seat) : List Byte :=
  (engines.drop 1).flatMap (fun e =>
    let q := qAvail (t.eng e).xq
    let d := qAvail (t.eng e).dq
    numBytes 1 [q.length] ++ q.flatMap (fun i => dwords [i.val.1] ++ numBytes 2 [i.val.2.toNat])
      ++ numBytes 1 [d.length] ++ numBytes 1 (d.map (fun i => boolNat i.val)))
    ++ t.gens.flatMap (fun g => numBytes 1 [g.port] ++ numBytes 4 [g.pos])

/-- The matrix queue (R294). -/
def matrixBytes (t : Seat) : List Byte :=
  t.mq.flatMap (fun c =>
    numBytes 4 [c.lsn.toNat] ++ numBytes 1 [c.bank, c.tile.val, c.slot.val, c.kb, boolNat c.acc, boolNat c.asg, boolNat c.bsg, boolNat c.hi, c.tag.toNat,
      boolNat c.lr, c.row, c.blk] ++ numBytes 2 [c.idxT.toNat] ++ numBytes 1 (c.pairs.length :: c.pairs.flatMap (fun p => [p.1, p.2])))

/-- The 16 bytes of a row's tag: full bit, poison, fault and taint, with the tile's format tag. -/
def rowTag (f : FCode) (r : Row) : List Byte :=
  let e := r.psn.getD { code := 0 }
  numBytes 1 [boolNat r.full + 2 * boolNat r.psn.isSome, f.toNat, e.code.toNat, e.aux.toNat] ++ dwords [e.addr] ++ numBytes 2 [r.taint.toNat, 0]

def tileBytes (t : Seat) : List Byte :=
  t.tiles.toList.flatMap (fun x => x.rows.toList.flatMap (fun r => bytesOf r.data 512 ++ rowTag x.tag r))

/-- The directory: held banks, held slots and pad entries. -/
def directoryBytes (x : Saved) : List Byte :=
  x.banks.flatMap (fun b => numBytes 1 [b.1, match b.2.ty with
      | .clear => 0
      | .fp32 => 1
      | .int32 => 2] ++ numBytes 2 (b.2.cell :: b.2.taint.toList.map BitVec.toNat))
    ++ x.slots.flatMap (fun y => numBytes 1 [y.1, match y.2.ty with
      | .float => 0
      | .int8 => 1
      | .int4 => 2])
    ++ x.pads.flatMap (fun p => numBytes 2 [p.1] ++ dwords [p.2.1])

/-- The 16 bits of an element of a slot (R12): its sign and 15 magnitude bits, aligned in its block (R59), or its integer pattern. -/
def slotWord (ty : SlotTy) (z : Int) : Nat :=
  match ty with
  | .float => if z < 0 then pow2 15 + z.natAbs else z.natAbs
  | .int8 | .int4 => z.natAbs

/-- The 128 KiB of a held slot: column by column, K ascending (DESIGN CHOICE, log 47). -/
def slotBytes (x : Slot) : List Byte :=
  (List.range 2048).flatMap (fun i =>
    let v := (List.range 32).map (fun j => slotElem x false (32 * (i % 8) + j) (i / 8))
    let l := match x.ty with
      | .float => (alignBlock v 15).2
      | .int8 | .int4 => v.map numToIntExact
    numBytes 2 (l.map (slotWord x.ty)))

-- The area (R297).
/-- The parts of the save area, with their offsets. In the variable part the held banks come first, then held slots, near-pad blocks and the log, each
in ascending number. -/
def saveArea (x : Saved) : List (Nat × List Byte) :=
  let t := x.seat
  let banks := x.banks.flatMap (fun b => b.2.rows.toList.flatMap (fun r => bytesOf r 1024))
  let pads := (x.pads.filter (fun p => !padSp p.2.1)).flatMap (fun p =>
    (List.range 16384).map (fun i => ((p.2.2.find? (fun c => c.1 == i)).map Prod.snd).getD 0))
  let slots := 0x4B000 + banks.length
  let near := slots + 0x20000 * x.slots.length
  let held := x.slots.flatMap (fun y => slotBytes y.2)
  [(0, controlBlock x), (0x1000, t.v.toList.flatMap (fun v => bytesOf v 512)),
    (0x7000, t.ports.toList.flatMap portBytes),
    (0x17800, queueBytes t), (0x17A00, dwords (replayTable t.replay)), (0x17C00, matrixBytes t), (0x18000, tileBytes t),
    (0x39000, t.ctab.toList.flatMap (fun v => bytesOf v 512)),
    (0x39800, (List.range 65536).map (fun i => Memory.read t.lanes (laneKey (i / 2048) (i % 2048)))),
    (0x49800, directoryBytes x), (0x4B000, banks), (slots, held), (near, pads), (near + pads.length, logBytes t.unpub)]

end Sys2Proof.Machine
end

