-- ==== Sys2Proof/Tests/Slice0.lean ====
section
/-! SUPPORT. Tests: ill-formed terms, words written out from the spec's encodings, single steps, and states that meet the hypotheses
of the statements. -/

set_option autoImplicit false
set_option maxRecDepth 20000
set_option Elab.async false

open Sys2Proof Sys2Proof.Machine

-- Ill-formed terms: one for each check of WellFormed.

theorem test_refuses_registers :
    (Instr.strm 16 0 0 .pack false false).wf .slice = false ∧ (Instr.strm 0 16 0 .pack false false).wf .slice = false
    ∧ (Instr.strm 0 16 0 .pack false false).wf .logical = true ∧ (Instr.cpys 0 0 15 .raw).wf .slice = false
    ∧ (Instr.cpys 0 0 63 .raw).wf .logical = false ∧ (Instr.ldt 8 0 0 0).wf .slice = false ∧ (Instr.mldb 4 0 0).wf .slice = false
    ∧ (Instr.drn 16 0 0 false false false false).wf .slice = false ∧ (Instr.drn 0 0 16 false false false false).wf .slice = false := by decide

theorem test_refuses_values :
    (Instr.aballoc 0 0).wf .slice = false ∧ (Instr.aballoc 0 65).wf .slice = false ∧ (Instr.cpys 0 0 0 .qn4).wf .slice = false
    ∧ (Instr.vcvt 0 0 false false .mxs 0 .rne).wf .slice = false ∧ (Instr.sysrd 1 0x004).wf .slice = false
    ∧ (Instr.syswr 1 0x013).wf .slice = false ∧ (Instr.quench 0x21 0).wf .slice = false ∧ (Instr.xsend 0 .s).wf .slice = false
    ∧ (Instr.pwhile .w8 0 0 0).wf .slice = false ∧ (Instr.pwhile .w8 0 0 7).wf .slice = false := by decide

theorem test_refuses_forms :
    (Instr.notify .s).wf .logical = false ∧ (Instr.follow .s 0).wf .slice = false ∧ (Instr.xadd .s 0 0 0).wf .slice = false
    ∧ (Instr.nop .s).wf .logical = true := by decide

-- Decoding: the words are the encodings of R64-R83 with the operands written out.

/-- E = 7 and a reserved OP are ILLEGAL, a reserved value is RESERVED_FIELD (R92). -/
theorem test_refuses_words :
    decode .slice 0xE0000000 = .error .illegal ∧ decode .slice 0x1F800000 = .error .illegal ∧ decode .slice 0x13000000 = .error .illegal
    ∧ decode .slice 0x0000007F = .error .reserved ∧ decode .slice 0x108000A0 = .error .reserved ∧ decode .logical 0x3C000000 = .error .illegal := by
  and_intros <;> rfl
theorem test_decodes_scalar1 :
    decode .slice 0x0056AF40 = .ok (.add 43 21 58)
    ∧ decode .slice 0x0056AF41 = .ok (.sub 43 21 58)
    ∧ decode .slice 0x0056AF42 = .ok (.and 43 21 58)
    ∧ decode .slice 0x0056AF43 = .ok (.or 43 21 58)
    ∧ decode .slice 0x0056AF44 = .ok (.xor 43 21 58)
    ∧ decode .slice 0x0056AF45 = .ok (.andn 43 21 58)
    ∧ decode .slice 0x0056AF46 = .ok (.shl 43 21 58)
    ∧ decode .slice 0x0056AF47 = .ok (.shr 43 21 58)
    ∧ decode .slice 0x0056AF48 = .ok (.sar 43 21 58)
    ∧ decode .slice 0x0056AF49 = .ok (.rot 43 21 58)
    ∧ decode .slice 0x0056AF4A = .ok (.min 43 21 58)
    ∧ decode .slice 0x0056AF4B = .ok (.max 43 21 58)
    ∧ decode .slice 0x0056AF4C = .ok (.minu 43 21 58)
    ∧ decode .slice 0x0056AF4D = .ok (.maxu 43 21 58)
    ∧ decode .slice 0x0056AF4E = .ok (.slt 43 21 58)
    ∧ decode .slice 0x0056AF4F = .ok (.sltu 43 21 58)
    ∧ decode .slice 0x0056AF50 = .ok (.seq 43 21 58)
    ∧ decode .slice 0x0056AF51 = .ok (.mul 43 21 58)
    ∧ decode .slice 0x0056AF52 = .ok (.mulh 43 21 58)
    ∧ decode .slice 0x0056AF53 = .ok (.mulhu 43 21 58)
    ∧ decode .slice 0x0056AF54 = .ok (.div 43 21 58)
    ∧ decode .slice 0x0056AF55 = .ok (.divu 43 21 58)
    ∧ decode .slice 0x0056AF56 = .ok (.rem 43 21 58)
    ∧ decode .slice 0x0056AF57 = .ok (.remu 43 21 58)
    ∧ decode .slice 0x0056A818 = .ok (.clz 43 21)
    ∧ decode .slice 0x0056A819 = .ok (.ffs 43 21) := by
  and_intros <;> rfl

theorem test_decodes_scalar2 :
    decode .slice 0x0056A81A = .ok (.popc 43 21)
    ∧ decode .slice 0x0056A81B = .ok (.brev 43 21)
    ∧ decode .slice 0x0056A81C = .ok (.bswp 43 21)
    ∧ decode .slice 0x0056AF5D = .ok (.csel 43 21 58)
    ∧ decode .slice 0x0056AF5E = .ok (.addw 43 21 58)
    ∧ decode .slice 0x0056A83F = .ok (.sext 43 21 .half)
    ∧ decode .slice 0x00D6AFF9 = .ok (.addi 43 21 2041)
    ∧ decode .slice 0x0156AFF9 = .ok (.andi 43 21 2041)
    ∧ decode .slice 0x01D6AFF9 = .ok (.ori 43 21 2041)
    ∧ decode .slice 0x0256AFF9 = .ok (.xori 43 21 2041)
    ∧ decode .slice 0x02D6A829 = .ok (.shli 43 21 41)
    ∧ decode .slice 0x02D6AA29 = .ok (.shri 43 21 41)
    ∧ decode .slice 0x02D6AC29 = .ok (.sari 43 21 41)
    ∧ decode .slice 0x02D6AE29 = .ok (.roti 43 21 41)
    ∧ decode .slice 0x0356AFF9 = .ok (.slti 43 21 2041)
    ∧ decode .slice 0x03D6AFF9 = .ok (.sltui 43 21 2041)
    ∧ decode .slice 0x04574001 = .ok (.movw 43 81921)
    ∧ decode .slice 0x04D74001 = .ok (.movk1 43 81921)
    ∧ decode .slice 0x05574001 = .ok (.movk2 43 81921)
    ∧ decode .slice 0x05D61401 = .ok (.movk3 43 5121)
    ∧ decode .slice 0x0656AFF9 = .ok (.ldb 43 21 2041)
    ∧ decode .slice 0x06D6AFF9 = .ok (.ldh 43 21 2041)
    ∧ decode .slice 0x0756AFF9 = .ok (.ldw 43 21 2041)
    ∧ decode .slice 0x07D6AFF9 = .ok (.ldd 43 21 2041)
    ∧ decode .slice 0x0856AFF9 = .ok (.stb 43 21 2041)
    ∧ decode .slice 0x08D6AFF9 = .ok (.sth 43 21 2041) := by
  and_intros <;> rfl

theorem test_decodes_scalar3 :
    decode .slice 0x0956AFF9 = .ok (.stw 43 21 2041)
    ∧ decode .slice 0x09D6AFF9 = .ok (.std 43 21 2041)
    ∧ decode .slice 0x0A56AF4E = .ok (.ldx 43 21 58 .sy .word)
    ∧ decode .slice 0x0A56053B = .ok (.ldxFill 43 41)
    ∧ decode .slice 0x0AD6AF56 = .ok (.stx 43 21 58 .syRel .word)
    ∧ decode .slice 0x0AD6053B = .ok (.stxSpill 43 41)
    ∧ decode .slice 0x0B56AF56 = .ok (.amo 43 21 58 .rel .swp)
    ∧ decode .slice 0x0BD6AF56 = .ok (.amow 43 21 58 .rel .swp)
    ∧ decode .slice 0x0C56AFF9 = .ok (.beq 43 21 2041)
    ∧ decode .slice 0x0CD6AFF9 = .ok (.bne 43 21 2041)
    ∧ decode .slice 0x0D56AFF9 = .ok (.blt 43 21 2041)
    ∧ decode .slice 0x0DD6AFF9 = .ok (.bge 43 21 2041)
    ∧ decode .slice 0x0E56AFF9 = .ok (.bltu 43 21 2041)
    ∧ decode .slice 0x0ED6AFF9 = .ok (.bgeu 43 21 2041)
    ∧ decode .slice 0x0F500001 = .ok (.jmp 5242881)
    ∧ decode .slice 0x0FD00001 = .ok (.call 5242881)
    ∧ decode .slice 0x1056A800 = .ok (.jr 43 21)
    ∧ decode .slice 0x10800060 = .ok (.phase .package)
    ∧ decode .slice 0x10D60001 = .ok (.untaint 43)
    ∧ decode .slice 0x10D6A802 = .ok (.taint 43 21)
    ∧ decode .slice 0x10800523 = .ok (.fence 41)
    ∧ decode .slice 0x10800524 = .ok (.trap 41)
    ∧ decode .slice 0x10800005 = .ok (.eret)
    ∧ decode .slice 0x10D60326 = .ok (.sysrd 43 25)
    ∧ decode .slice 0x10D60227 = .ok (.syswr 43 17)
    ∧ decode .slice 0x10800008 = .ok (.icinv) := by
  and_intros <;> rfl

theorem test_decodes_scalar4 :
    decode .slice 0x1080A829 = .ok (.tlbinv 21 .context)
    ∧ decode .slice 0x1080000A = .ok (.halt)
    ∧ decode .slice 0x1080000B = .ok (.bkpt)
    ∧ decode .slice 0x1080000C = .ok (.yield)
    ∧ decode .slice 0x1080000D = .ok (.exit)
    ∧ decode .slice 0x1080A84E = .ok (.xsend 21 .v)
    ∧ decode .slice 0x10D6A80F = .ok (.padmap 43 21)
    ∧ decode .slice 0x1156AF40 = .ok (.spawn 43 21 58)
    ∧ decode .slice 0x1156A801 = .ok (.scopeo 43 21)
    ∧ decode .slice 0x1100A802 = .ok (.scopec 21)
    ∧ decode .slice 0x1122A803 = .ok (.quench 17 21)
    ∧ decode .slice 0x1156A804 = .ok (.cwait 43 21)
    ∧ decode .slice 0x1156A805 = .ok (.cread 43 21)
    ∧ decode .slice 0x1180A800 = .ok (.barArrive 21)
    ∧ decode .slice 0x1180A801 = .ok (.barWait 21)
    ∧ decode .slice 0x1180A802 = .ok (.barSync 21)
    ∧ decode .slice 0x1180AF43 = .ok (.barInit 21 58)
    ∧ decode .slice 0x1200AF40 = .ok (.dcbClean 21 58)
    ∧ decode .slice 0x1200AF41 = .ok (.dcbInv 21 58)
    ∧ decode .slice 0x1200AF42 = .ok (.dcbFlush 21 58)
    ∧ decode .slice 0x1200AF43 = .ok (.dcbPf 21 58)
    ∧ decode .slice 0x1200AF44 = .ok (.dcbZero 21 58)
    ∧ decode .slice 0x1280AFF9 = .ok (.icpf 21 2041) := by
  and_intros <;> rfl

theorem test_decodes_access :
    decode .slice 0x20062847 = .ok (.strm 3 5 2 .row true true)
    ∧ decode .slice 0x20862847 = .ok (.strmg 3 5 2 .row true true)
    ∧ decode .slice 0x21060000 = .ok (.strmc 3)
    ∧ decode .slice 0x2186284C = .ok (.ldv 3 5 2 .sy)
    ∧ decode .slice 0x22062843 = .ok (.ldt 3 5 2 3)
    ∧ decode .slice 0x22802840 = .ok (.pfd 5 2) := by
  and_intros <;> rfl

theorem test_decodes_vector1 :
    decode .slice 0x4056AF54 = .ok (.vfadd 43 21 58 5)
    ∧ decode .slice 0x40D6AF54 = .ok (.vfsub 43 21 58 5)
    ∧ decode .slice 0x4156AF54 = .ok (.vfmul 43 21 58 5)
    ∧ decode .slice 0x41D6AF54 = .ok (.vfma 43 21 58 5)
    ∧ decode .slice 0x4256AF54 = .ok (.vfmin 43 21 58 5)
    ∧ decode .slice 0x42D6AF54 = .ok (.vfmax 43 21 58 5)
    ∧ decode .slice 0x4356A814 = .ok (.vfabs 43 21 5)
    ∧ decode .slice 0x43D6A814 = .ok (.vfneg 43 21 5)
    ∧ decode .slice 0x4456AF57 = .ok (.vadd 43 21 58 5 .ss)
    ∧ decode .slice 0x44D6AF57 = .ok (.vsub 43 21 58 5 .ss)
    ∧ decode .slice 0x4556AF56 = .ok (.vmul 43 21 58 5 .highUnsigned)
    ∧ decode .slice 0x45D6AF55 = .ok (.vmin 43 21 58 5 true)
    ∧ decode .slice 0x4656AF55 = .ok (.vmax 43 21 58 5 true)
    ∧ decode .slice 0x46D6A815 = .ok (.vabs 43 21 5 true)
    ∧ decode .slice 0x4756AF54 = .ok (.vand 43 21 58 5)
    ∧ decode .slice 0x47D6AF54 = .ok (.vor 43 21 58 5)
    ∧ decode .slice 0x4856AF54 = .ok (.vxor 43 21 58 5)
    ∧ decode .slice 0x48D6AF54 = .ok (.vandn 43 21 58 5)
    ∧ decode .slice 0x4956AF54 = .ok (.vshl 43 21 58 5)
    ∧ decode .slice 0x49D6AF55 = .ok (.vshr 43 21 58 5 true)
    ∧ decode .slice 0x4A56A814 = .ok (.vclz 43 21 5)
    ∧ decode .slice 0x4AD6A814 = .ok (.vffs 43 21 5)
    ∧ decode .slice 0x4B56A814 = .ok (.vpopc 43 21 5)
    ∧ decode .slice 0x4BD6AF56 = .ok (.vfcmp 43 21 58 5 .le)
    ∧ decode .slice 0x4C56AF55 = .ok (.vicmp 43 21 58 5 .slt)
    ∧ decode .slice 0x4CD6AF54 = .ok (.vsel 43 21 58 5) := by
  and_intros <;> rfl

theorem test_decodes_vector2 :
    decode .slice 0x4D56AE75 = .ok (.vcvt 43 21 true true .e4m3 5 .rtz)
    ∧ decode .slice 0x4DD6A816 = .ok (.vwid 43 21 5 .unsigned)
    ∧ decode .slice 0x4E56A816 = .ok (.vnar 43 21 5 .unsigned)
    ∧ decode .slice 0x4ED6A817 = .ok (.vred 43 21 5 .imax)
    ∧ decode .slice 0x4F56A815 = .ok (.vscan 43 21 5 .isum)
    ∧ decode .slice 0x4FD6AF54 = .ok (.vperm 43 21 58 5)
    ∧ decode .slice 0x50062854 = .ok (.vslide 3 5 2 5)
    ∧ decode .slice 0x50862814 = .ok (.vbcast 3 5 5)
    ∧ decode .slice 0x5156A814 = .ok (.vmov 43 21 5)
    ∧ decode .slice 0x51D7FF35 = .ok (.vmovi 43 4089 5 .float)
    ∧ decode .slice 0x5256A874 = .ok (.vsfu 43 21 .rsqrt 5)
    ∧ decode .slice 0x52862854 = .ok (.vtw 3 5 2 5)
    ∧ decode .slice 0x53062840 = .ok (.vtr 3 5 2)
    ∧ decode .slice 0x53865800 = .ok (.tfmt 3 11)
    ∧ decode .slice 0x54062854 = .ok (.vlsl 3 5 2 5)
    ∧ decode .slice 0x54862854 = .ok (.vlss 3 5 2 5)
    ∧ decode .slice 0x552A1001 = .ok (.pset .w16 5 4097)
    ∧ decode .slice 0x55AA2860 = .ok (.pwhile .w16 5 5 3)
    ∧ decode .slice 0x56062800 = .ok (.pcnt 3 5) := by
  and_intros <;> rfl

theorem test_decodes_matrix :
    decode .slice 0x60014001 = .ok (.mlease 81921)
    ∧ decode .slice 0x60800000 = .ok (.myield)
    ∧ decode .slice 0x61062840 = .ok (.mldb 3 5 2)
    ∧ decode .slice 0x61862EFF = .ok (.mmul 3 5 true 5 3 true true true 3)
    ∧ decode .slice 0x62062F3F = .ok (.mmulg 3 5 3 9 true true true 3)
    ∧ decode .slice 0x62860009 = .ok (.aballoc 3 9)
    ∧ decode .slice 0x63060009 = .ok (.abfree 3 9)
    ∧ decode .slice 0x63862840 = .ok (.abown 3 5 2)
    ∧ decode .slice 0x64000000 = .ok (.mresume) := by
  and_intros <;> rfl

theorem test_decodes_writeBack :
    decode .slice 0x80062854 = .ok (.stv 3 5 2 .syRel)
    ∧ decode .slice 0x80862844 = .ok (.wstrm 3 5 2 .row)
    ∧ decode .slice 0x81062843 = .ok (.stt 3 5 2 3)
    ∧ decode .slice 0x8186284F = .ok (.drn 3 5 2 true true true true)
    ∧ decode .slice 0x82034001 = .ok (.dcfg .thresh 81921)
    ∧ decode .slice 0x8222000B = .ok (.dcfgRegister .thresh 11) := by
  and_intros <;> rfl

theorem test_decodes_copy :
    decode .slice 0xA0062840 = .ok (.cpy 3 5 2)
    ∧ decode .slice 0xA0862843 = .ok (.cpys 3 5 2 .e4m3)
    ∧ decode .slice 0xA106284B = .ok (.cpyh 3 5 2 11)
    ∧ decode .slice 0xA1862841 = .ok (.cpyr 3 5 2 true)
    ∧ decode .slice 0xA2062800 = .ok (.cvtl 3 5)
    ∧ decode .slice 0xA2800040 = .ok (.cpyc 2) := by
  and_intros <;> rfl

theorem test_decodes_coupling :
    decode .slice 0x58000000 = .ok (.nop .v)
    ∧ decode .slice 0x58800015 = .ok (.evpost .v 21)
    ∧ decode .slice 0x59000015 = .ok (.evwait .v 21)
    ∧ decode .slice 0x59801FF9 = .ok (.loop .v 3 2041)
    ∧ decode .slice 0x5A051170 = .ok (.lcset .v 2 70000)
    ∧ decode .slice 0x5A460000 = .ok (.lcsetQueue .v 3)
    ∧ decode .slice 0x5AD00001 = .ok (.follow .v 5242881)
    ∧ decode .slice 0x5B500001 = .ok (.jmpe .v 5242881)
    ∧ decode .slice 0x5B8000A1 = .ok (.tkwait .v 161)
    ∧ decode .slice 0x5C000000 = .ok (.notify .v)
    ∧ decode .slice 0x5C960000 = .ok (.xrecv .v 11)
    ∧ decode .slice 0x5D165FF9 = .ok (.xaddi .v 11 11 2041)
    ∧ decode .slice 0x5D974001 = .ok (.xmovw .v 11 81921)
    ∧ decode .slice 0x5E165960 = .ok (.xadd .v 11 11 11) := by
  and_intros <;> rfl
-- A small state: a unit on seat 0 with an image of four words for each engine, every engine at H, block 0 of its pad space in the
-- near pad.

def T.sl : Slice := ⟨0, [0, 0, 0, 0], [⟨1, 1, 0, false, false⟩, ⟨1, 1, 1, false, false⟩, ⟨1, 1, 2, false, false⟩, ⟨1, 1, 3, false, false⟩]⟩
def T.img : Image := { img := { handle := 1, base := 0, slices := [T.sl, T.sl, T.sl, T.sl, T.sl, T.sl], targets := [2], hintTargets := [(0, 3)] } }
def T.x : Vector Dword 16 := ((Vector.replicate 16 (0 : Dword)).set 1 0xFFFFFE0000000000).set 2 64
def T.eng : Engine := { x := T.x }
def T.unit : UnitRec := { uid := 5, image := 1, scope := 1, gen := 1 }
def T.regs : Vector Dword 64 :=
  (((((Vector.replicate 64 (0 : Dword)).set 1 0xFFFFFE0000000000).set 2 8).set 3 0x8000000000000000).set 4 0xFFFFFFFFFFFFFFFF).set 6 7
def T.part : Part :=
  { id := 0, scopes := [{ num := 0, gen := 1, state := .opened, kind := .root, counter := 1 }, { num := 1, gen := 1, state := .opened, counter := 2 }] }
def T.base : State :=
  { State.reset with
    seat := { status := .running, unit := T.unit, s := T.regs, engS := T.eng, engA := T.eng, engV := T.eng, engM := T.eng, engW := T.eng, engC := T.eng }
    images := [T.img], parts := [T.part], cells := [{ ix := 0, pads := [(0, 65)] }] }

def T.dwords (k : Nat) (ds : List Dword) : List Host.Cell :=
  ((List.range (8 * ds.length)).map (fun i => (k + i, byteOf (nth ds (i / 8) 0) (i % 8)))).filter (fun c => c.2 != 0)
/-- A page of memory at address 0, which the cell has translated, with unpublished bytes of the unit and a byte that a cache holds newer
than its home. -/
def T.page : State :=
  { T.base with
    parts := [{ T.part with keys := [0] }]
    mem := T.dwords 0 [0x10000001] ++ T.dwords 0x10000 [0x20000001] ++ T.dwords 0x20000 [0x30000007] ++ T.dwords 0x30000 [0, 7, 1, 0]
    tlb := [{ cell := 0, part := 0, vf := 0, proc := 0, page := 0, leaf := 0x30000007, lvl := 2 }]
    dirty := [{ key := 0x30008, seat := 0, part := 0, vf := 0, back := 3 }]
    seat := { T.base.seat with unpub := [{ byte := { key := 0x30000, val := 0x55 }, lsn := 0 }, { byte := { key := 0x30080, val := 0x66 }, lsn := 0 }] } }
/-- A page of format INT8 on package 1, at address 0. -/
def T.far : State :=
  { T.base with
    parts := [{ T.part with keys := [0] }]
    ports := T.base.ports.set 0 { allowed := [0] }
    mem := T.dwords 0 [0x10000001] ++ T.dwords 0x10000 [0x20000001] ++ T.dwords 0x20000 [0x30200187]
    tlb := [{ cell := 0, part := 0, vf := 0, proc := 0, page := 0, leaf := 0x30200187, lvl := 2 }] }
/-- All engines at LSN 1. -/
def T.later (s : State) : State :=
  s.onSeat (fun t => { t with engS := { t.engS with lsn := 1 }, engA := { t.engA with lsn := 1 }, engV := { t.engV with lsn := 1 }
                              engM := { t.engM with lsn := 1 }, engW := { t.engW with lsn := 1 }, engC := { t.engC with lsn := 1 } })

theorem T.issues (e : Eng) (b : Bool) : Issues T.base e b := ⟨rfl, by cases e <;> decide, fun _ => by cases e <;> decide, fun _ => by decide⟩
theorem T.canWrite (d : BitVec 6) : CanWrite T.base d := ⟨rfl, .inr (by decide)⟩

/-- The state after an action that runs, or the state before. -/
def T.after {α : Type} (m : M α) (s : State) : State :=
  match m s with
  | .ok (_, t) => t
  | .error _ => s
/-- The action runs, and its value meets `p`. -/
def T.ok {α : Type} (m : M α) (s : State) (p : α → Bool) : Bool :=
  match m s with
  | .ok (a, _) => p a
  | .error _ => false
theorem T.does {α : Type} {m : M α} {s : State} {p : α → Bool} (h : T.ok m s p = true) :
    ∃ a, p a = true ∧ Does m s a (T.after m s) := by
  simp only [T.ok, T.after, Does] at *
  split at h
  · rename_i a t he; exact ⟨a, h, by rw [he]⟩
  · cases h
theorem T.doesUnit {m : M Unit} {s : State} (h : T.ok m s (fun _ => true) = true) : Does m s () (T.after m s) :=
  let ⟨(), _, d⟩ := T.does h; d

/-- The action runs, and its value and the state after it meet `p`. -/
def T.run {α : Type} (m : M α) (s : State) (p : α → State → Bool) : Bool :=
  match m s with
  | .ok (a, t) => p a t
  | .error _ => false
theorem T.runs {α : Type} {m : M α} {s : State} {p : α → State → Bool} (h : T.run m s p = true) : ∃ a t, p a t = true ∧ Does m s a t := by
  simp only [T.run, Does] at *
  split at h
  · rename_i a t he; exact ⟨a, t, h, he⟩
  · cases h

-- States and operands that meet the hypotheses of the statements, clause by clause.

theorem test_meets_encoding : (engOf (fE 0x20000000) ≠ some .s) ∧ (Instr.addi 3 3 16).wf .slice = true ∧ encode (.addi 3 3 16) = some 0x00861810
    ∧ decode .slice 0x00861810 = .ok (.addi 3 3 16) := by and_intros <;> first | rfl | decide

/-- The first word of a fetched program, and an event's turn. -/
theorem test_meets_step :
    let s := State.reset.withFetchWord 32 0x00861810
    let s0 := State.select { s with agenda := [] } 0
    s.agenda = [.engine 0 .s] ∧ s0.seat.status = .running ∧ (s0.seat.eng .s).done = false ∧ (s0.seat.eng .s).held = none
    ∧ (∃ s', Does (fetchWord .s) s0 0x00861810 s') ∧ decodeSlice .s 0x00861810 = .ok (.addi 3 3 16)
    ∧ ({ T.base with agenda := [.event 0 .chipTick] } : State).agenda = [.event 0 .chipTick] ∧ Instr.chipTick.engine = none := by
  refine ⟨rfl, rfl, rfl, rfl, ?_, rfl, rfl, rfl⟩
  obtain ⟨a, h, d⟩ := T.does (m := fetchWord .s) (s := State.select { State.reset.withFetchWord 32 0x00861810 with agenda := [] } 0)
    (p := fun w => w == 0x00861810) (by decide)
  exact ⟨_, (by simpa using h : a = 0x00861810) ▸ d⟩

theorem test_meets_memory :
    Inv State.reset ∧ (let s : State := { T.base with agenda := [.event 0 .sliceEnd] }; Inv s ∧ ∃ t, step s = .next t)
    ∧ Memory.wf [(3, 1), (5, 2)] ∧ ∀ k, Memory.read [(3, 1), (5, 2)] k = Memory.read [(3, 1), (5, 2)] k :=
  ⟨rfl, ⟨rfl, _, rfl⟩, rfl, fun _ => rfl⟩

theorem test_meets_scalar (b d : BitVec 6) :
    Issues T.base .s false ∧ CanWrite T.base d ∧ Reads T.base 1 0xFFFFFE0000000000 0 ∧ Reads T.base 2 8 0 ∧ Reads T.base 3 0x8000000000000000 0
    ∧ Reads T.base 4 0xFFFFFFFFFFFFFFFF 0 ∧ Reads T.base 5 0 0 ∧ T.base.seat.pendingS b = false :=
  ⟨T.issues .s false, T.canWrite d, rfl, rfl, rfl, rfl, rfl, rfl⟩

/-- A branch to word 0, to word 3, and past either end, and its decision. -/
theorem test_meets_branches :
    let n (o : Int) : Int := (T.base.seat.engS.pc : Int) + o
    Issues T.base .s false ∧ (0 ≤ n 0 ∧ n 3 < ((mySlice T.base .s).words.length : Int)) ∧ (n (-1) < 0 ∧ ((mySlice T.base .s).words.length : Int) ≤ n 4)
    ∧ Does (pushDecision true) T.base () T.base ∧ T.base.seat.engS.side.exp = false
    ∧ (let s := T.base.onEng .s (fun x => { x with side := { x.side with exp := true } })
      s.seat.engS.side.exp = true ∧ (∀ e, e ≠ .s → (qLive s.seat (s.seat.eng e).dq).length < 64) ∧ (s.seat.eng .v).done = false
      ∧ (∀ d, decodeSlice .v (nth (mySlice s .v).words (s.seat.eng .v).pc 0) ≠ .ok (.notify d))) := by
  refine ⟨T.issues .s false, by decide, by decide, rfl, rfl, rfl, by intro e _; cases e <;> decide, rfl, ?_⟩
  exact fun d h => nomatch (show Except.error DecErr.illegal = Except.ok (Instr.notify d) from h)

/-- Jumps, calls and returns: the word after a CALL, a hinted one, an odd address and one that is no target. -/
theorem test_meets_jumps :
    Issues T.base .s false ∧ T.base.myImage = some T.img ∧ 2 ∈ T.img.img.targets ∧ (T.base.seat.engS.side.lpc.toNat, 3) ∈ T.img.img.hintTargets
    ∧ scalarIndex T.base 2 = some 2 ∧ scalarIndex T.base 3 = some 3 ∧ scalarIndex T.base 4 = none ∧ (6 : Dword).toNat % 4 ≠ 0
    ∧ ¬(1 ∈ T.img.img.targets ∨ (0, 1) ∈ T.img.img.hintTargets) :=
  ⟨T.issues .s false, rfl, by decide⟩
/-- A plain and a sync load of a double word of the near pad, with its run-ahead note. -/
theorem test_meets_loads :
    Issues T.base .s false ∧ CanWrite T.base 7 ∧ Reads T.base 1 0xFFFFFE0000000000 0 ∧ Reads T.base 2 8 0
    ∧ ((0xFFFFFE0000000000 : Dword) + 8).toNat % 8 = 0
    ∧ (∀ v : Machine.View, v = {} ∨ v = { coherent := true } ∨ v = { alloc := false } → ∃ r s1 s2, Does (loadUnit .s 0 v 0xFFFFFE0000000008 8) T.base r s1
        ∧ Does (noteRead 0 r.2) s1 () s2 ∧ (s2.freeTag = some 1))
    ∧ (∀ m ∈ T.base.seat.atoms, lsnLt m.lsn 0 = false) ∧ (∀ g ∈ T.base.seat.gsb, storeSync g.cls = true → lsnLt g.lsn 0 = false)
    ∧ lsnLt T.base.seat.engW.lsn 0 = false
    ∧ (let s := T.base.onSeat (fun t => { t with st := t.st.set 9 0xFFFF }); s.freeTag = none) := by
  refine ⟨T.issues .s false, T.canWrite 7, rfl, rfl, by decide, ?_, by simp [T.base], by simp [T.base], by decide, by decide⟩
  rintro v (rfl | rfl | rfl) <;>
    exact ⟨_, _, _, rfl, rfl, by decide⟩

/-- A read at the last bytes of a near-pad block. -/
theorem test_meets_pad :
    let entry := padEntry T.base 0 0
    (16376 < 0x600000) ∧ 0 < 8 ∧ 16376 % 16384 + 8 ≤ 16384 ∧ padV entry = true ∧ padSp entry = false ∧ padSeat entry = sideOf T.base.seat.id + 1
    ∧ isZm (padFmtOf entry) = false ∧ padLoc entry < 64 ∧ cellOf T.base.seat.id < 1024 ∧ T.base.seat.ranges = [] ∧ T.base.seat.gsb = []
    ∧ T.base.seat.unpub = [] ∧ T.base.seat.copies = [] ∧ T.base.badMem = [] ∧ T.base.hist = [] ∧ T.base.seat.copiesBegun 0 = true := by
  decide

/-- Odd addresses for each size. -/
theorem test_meets_align :
    Reads T.base 6 7 0 ∧ Issues T.base .s true ∧ CanWrite T.base 7 ∧ ((7 : Dword).toNat % 2 ≠ 0 ∧ (7 : Dword).toNat % 4 ≠ 0 ∧ (7 : Dword).toNat % 8 ≠ 0) :=
  ⟨rfl, T.issues .s true, T.canWrite 7, by decide⟩

/-- A store to the near pad, with and without a run-ahead read of its bytes; an atomic on it. -/
theorem test_meets_stores :
    Issues T.base .s true ∧ Reads T.base 1 0xFFFFFE0000000000 0 ∧ Reads T.base 2 8 0
    ∧ (∃ pieces s1, Does (locate 0xFFFFFE0000000008 8 .write) T.base pieces s1 ∧ aliasOf s1.seat 0 (pieces.map (fun p => p.1.key)) = none)
    ∧ (∃ pieces s1, Does (locate 0xFFFFFE0000000008 8 .write) (T.base.onSeat (fun t => { t with rlog := [⟨3, [nearKey 0 8], false⟩] })) pieces s1
      ∧ aliasOf s1.seat 0 (pieces.map (fun p => p.1.key)) = some 3)
    ∧ (∃ loc more s1, Does (locate 0xFFFFFE0000000008 8 .rmw true) T.base ((loc, 0xFFFFFE0000000008, 8) :: more) s1 ∧ loc.fmt = 0 ∧ nodeOf loc.key ≠ hostHome
      ∧ (∀ p ∈ (loc, 0xFFFFFE0000000008, 8) :: more, homeRemote (nodeOf p.1.key) = false) ∧ ∀ c ∈ s1.seat.mq, lsnLt c.lsn s1.seat.engS.lsn = false) := by
  refine ⟨T.issues .s true, rfl, rfl, ⟨_, _, rfl, by decide⟩, ⟨_, _, rfl, by decide⟩, ⟨_, [], _, rfl, by decide, by decide, by decide, by decide⟩⟩

/-- A store of each class at the head of the buffer, its line in the cell's L1 and not, and an older atomic that it meets. -/
theorem test_meets_drain (c : StClass) (here : Bool) :
    let g : GStore := { lsn := 0, cls := c, bytes := [{ key := 5, val := 1, l2 := true }, { key := nearKey 0 8, val := 2 }] }
    let s := (T.later T.base).onSeat (fun t => { t with gsb := [g] })
    let s := if here then { s with lineTags := [{ holder := 0, line := 0, fmt := 0, part := 0 }] } else s
    let a : Atom := { lsn := 0xFFFFFFFF, op := .add, ord := .sy, dst := 7, key := 4, wide := true, b := 1, dIn := 0, taint := 0 }
    (Inv s ∧ s.seat.gsb = g :: [] ∧ s.seat.passed g.lsn = true ∧ (g.bytes.map (fun b => b.key)).Nodup ∧ (∀ b ∈ g.bytes, b.mask = 0xFF)
      ∧ s.seat.atoms = [] ∧ s.hist = [] ∧ s.seat.unpub = [] ∧ s.others = [] ∧ (lineIn s 0 (5 / 128) 0 0).isSome = here)
    ∧ T.run (lineTokens g.lsn (homeBytes s g)) s (fun _ _ => true) = true
    ∧ KeysKept s g.bytes ∧ lsnLt a.lsn g.lsn = true ∧ (∃ b ∈ g.bytes, a.key ≤ b.key ∧ b.key < a.key + (if a.wide then 8 else 4)) := by
  unfold Machine.Inv KeysKept; cases c <;> cases here <;> decide

/-- An atomic under way, of each width. -/
theorem test_meets_atomic (wide : Bool) :
    let m : Atom := { lsn := 0, op := .cas, ord := .sy, dst := 7, key := nearKey 0 8, wide, b := 1, dIn := 0, taint := 2 }
    let s := T.base.onSeat (fun t => { t with atoms := [m] })
    Inv s ∧ s.seat.atoms = m :: [] ∧ m.dst ≠ 0 ∧ s.seat.gsb = [] ∧ s.seat.unpub = [] ∧ s.hist = [] ∧ (∀ i, i < 8 → s.foreign m.kid (m.key + i) = none)
    ∧ (∀ i, i < 8 → s.markAt (m.key + i) true = none) ∧ T.run (lineTokens m.lsn (landBytes s.seat m)) s (fun _ _ => true) = true := by
  cases wide <;> exact ⟨rfl, rfl, by decide, rfl, rfl, rfl, by decide⟩

/-- An atomic that may issue at once, with a tag free and with none. -/
theorem test_meets_atomic_issue :
    let none_ := T.base.onSeat (fun t => { t with st := t.st.set 9 0xFFFF })
    Reads T.base 1 0xFFFFFE0000000000 0 ∧ Reads none_ 1 0xFFFFFE0000000000 0 ∧ (∀ s ∈ [T.base, none_], T.run (locate 0xFFFFFE0000000000 8 .rmw true) s (fun ps s1 => T.run (mSound 0 (ps.map (fun p => p.1.key)).sum 8 0xFFFFFE0000000000) s1 (fun _ s1 => T.run (storeGate .s 0 true ps) s1 (fun _ s2 => T.run (remoteGate .s ps) s2 (fun _ s3 =>
      T.run (lineTokens 0 (landBytes s3.seat { lsn := 0, op := .cas, ord := .acq, dst := 7, key := nearKey 0 0, wide := true, b := 1, dIn := 0, taint := 0 })) s3 (fun _ _ => true) &&
      decide (ps.map (fun p => (p.1.fmt, p.2)) = [(0, 0xFFFFFE0000000000, 8)]) && decide (nodeOf (ps.map (fun p => p.1.key)).sum ≠ hostHome))))) = true)
    ∧ T.base.freeTag = some 1 ∧ none_.freeTag = none ∧ none_.seat.atoms = [] ∧ T.base.seat.mq = [] := by
  exact ⟨rfl, rfl, by decide⟩

-- System, task and barrier words.

/-- No store and no matrix command under way; an unprivileged and a privileged unit, in and out of a handler. -/
theorem test_meets_system :
    let p := T.base.onSeat (fun t => { t with unit := { t.unit with priv := true } })
    let h := T.base.onSeat (fun t => { t with tvec := 12, hf := false })
    Issues T.base .s true ∧ Reads T.base 2 8 0 ∧ CanWrite T.base 7 ∧ (∀ g ∈ T.base.seat.gsb, lsnLt g.lsn 0 = false) ∧ (∀ c ∈ T.base.seat.mq, lsnLt c.lsn 0 = false)
    ∧ (h.seat.tvec ≠ 0 ∧ h.seat.hf = false ∧ handlerIndex h = some 3) ∧ (T.base.seat.tvec = 0)
    ∧ (T.base.seat.unit.priv = false ∧ T.base.seat.hf = false) ∧ (p.seat.unit.priv = true ∧ p.seat.epc.toNat % 4 = 0 ∧ scalarIndex p (p.seat.epc.toNat / 4) = some 0)
    ∧ (∀ mode, spansHeld mode 0 p = false) ∧ (padValueOk 1 65 = true ∧ blockBusy p 1 = false) ∧ unitWaits (fell .s T.base) = false
    ∧ (∀ e, (qLive T.base.seat (T.base.seat.eng e).xq).length < 8) := by
  refine ⟨T.issues .s true, rfl, T.canWrite 7, by decide, by decide, by decide, rfl, by decide, by decide, ?_, by decide, by decide, ?_⟩
  · intro mode; cases mode <;> decide
  · intro e; cases e <;> decide

/-- Unpublished bytes below a PHASE at memory, at home with a remote package's byte unanswered, asked for and answered; a store published before. -/
theorem test_meets_phase :
    let s := { T.later T.page with hist := [{ key := 9, old := 3, seq := 1, uid := 5, lsn := 0, cell := 0, pubs := [] }] }
    let far : State := s.onSeat (fun t => { t with unpub := [{ byte := { key := 8 * spaceSize, val := 1 }, lsn := 0 }] })
    let got := far.onSeat (fun t => { t with engS := { t.engS with remote := .answered } })
    let sent : State := { T.later T.base with hist := [{ key := 8 * spaceSize, old := 3, seq := 1, uid := 5, lsn := 0, cell := 0, pubs := [] }] }
    let u : UByte := { byte := { key := 0x30000, val := 0x55 }, lsn := 0 }
    let w : UByte := { byte := { key := 0x30080, val := 0x66 }, lsn := 0 }
    (∀ x ∈ [s, far, got, sent], Inv x ∧ x.seat.status = .running ∧ near x.seat .s = true ∧ x.seat.atH .s = true ∧ x.seat.gsb = [] ∧ x.seat.mq = [] ∧ x.seat.atoms = []
      ∧ T.run (mPublishTokens 1 (some 1)) x (fun _ _ => true) = true
      ∧ ∀ h ∈ x.hist, h.uid = 5 ∧ h.spill = false ∧ lsnLt h.lsn 1 = true ∧ h.tok = none)
    ∧ (∀ x ∈ [s, far, got], KeysKept x (x.seat.unpub.map (fun u => u.byte)))
    ∧ s.seat.unpub = [] ++ u :: [w] ∧ (lsnLt u.lsn 1 = true ∧ u.tok = none ∧ u.spill = false ∧ u.byte.mask = 0xFF ∧ w.byte.key ≠ u.byte.key)
    ∧ (∀ h ∈ s.hist, h.key ≠ 0x30000) ∧ farHome u.byte.key = false ∧ farHome w.byte.key = false
    ∧ (far.seat.engS.remote = .idle ∧ ∀ u ∈ far.seat.unpub, farHome u.byte.key = true) ∧ got.seat.engS.remote = .answered
    ∧ (sent.seat.engS.remote = .idle ∧ ∃ p ∈ sent.hist, farHome p.key = true) := by
  unfold Machine.Inv KeysKept; decide

/-- A store of the access engine's side below a FENCE, named by its mask and not. -/
theorem test_meets_fence :
    let s := (T.later T.base).onSeat (fun t => { t with gsb := [{ lsn := 0, cls := .plain, bytes := [], eng := .w }] })
    s.seat.status = .running ∧ near s.seat .s = true ∧ s.seat.atH .s = true
    ∧ (∀ g ∈ s.seat.gsb, g.eng ≠ .s ∧ lsnLt g.lsn s.seat.engS.lsn = true ∧ (0x10 : BitVec 6).getLsbD (engNum g.eng) = true ∧ (0x2F : BitVec 6).getLsbD (engNum g.eng) = false) := by
  decide

/-- The line of the near pad at its first byte, which no cache holds, and no store to it. -/
theorem test_meets_cache :
    Issues T.base .s true ∧ Issues T.base .s false ∧ Issues T.base .a false ∧ Reads T.base 1 0xFFFFFE0000000000 0 ∧ Reads T.base 0 0 0
    ∧ ReadsX T.base .a 1 0xFFFFFE0000000000 0 ∧ ReadsX T.base .a 0 0 0 := by
  exact ⟨T.issues .s true, T.issues .s false, T.issues .a false, rfl, rfl, rfl, rfl⟩

/-- The lines of a DCB word have tokens. -/
def T.tokens (r : Dword × List (Loc × Dword × Nat)) (s : State) : Bool :=
  T.run (mEach (r.2.filter (fun p => p.1.l2 && p.1.pad.isNone)) (fun p => lineToken 0 (1024 + nodeOf p.1.key) (lineOf p.1.key))) s (fun _ _ => true)
/-- The page, with a byte of its line that the other seat of the cell has not published. -/
def T.both : State :=
  { T.page with others := [{ id := 1, status := .running, unit := { T.unit with uid := 6 }, unpub := [{ byte := { key := 0x30001, val := 0x44 }, lsn := 0 }] }] }

/-- A line of the near pad, which no cache holds, and one of memory with the unit's newer byte, and with one of the other seat's. -/
theorem test_meets_cache_line (a : Acc) (z : Bool) (h : a = .clean ∨ a = .rmw) :
    (∃ r s1, (s1.seat.gsb = [] ∧ s1.others = [] ∧ s1.seat.unpub = [] ∧ lineKeys r.2 = [] ∧ T.tokens r s1 = true) ∧ Does (lineAt 1 0 a z) T.base r s1)
    ∧ ∀ s ∈ [T.page, T.both], ∃ r s1, (s1.seat.gsb = [] ∧ s1.others = s.others ∧ s1.seat.unpub = T.page.seat.unpub ∧ s1.dirty = T.page.dirty ∧ s1.hist = []
      ∧ 0x30000 ∈ lineKeys r.2 ∧ 0x30001 ∈ lineKeys r.2 ∧ 0x30080 ∉ lineKeys r.2 ∧ T.tokens r s1 = true) ∧ Does (lineAt 0 0 a z) s r s1 := by
  constructor
  · have ⟨r, s1, h, d⟩ := T.runs (m := lineAt 1 0 a z) (s := T.base)
      (p := fun r s => decide (s.seat.gsb = [] ∧ s.others = [] ∧ s.seat.unpub = [] ∧ lineKeys r.2 = [] ∧ T.tokens r s = true)) (by rcases h with rfl | rfl <;> cases z <;> decide)
    exact ⟨r, s1, by simpa using h, d⟩
  · intro x hx
    simp only [List.mem_cons, List.not_mem_nil, or_false] at hx
    have ⟨r, s1, h, d⟩ := T.runs (m := lineAt 0 0 a z) (s := x)
      (p := fun r s => decide (s.seat.gsb = [] ∧ s.others = x.others ∧ s.seat.unpub = T.page.seat.unpub ∧ s.dirty = T.page.dirty ∧ s.hist = []
        ∧ 0x30000 ∈ lineKeys r.2 ∧ 0x30001 ∈ lineKeys r.2 ∧ 0x30080 ∉ lineKeys r.2 ∧ T.tokens r s = true))
      (by rcases hx with rfl | rfl <;> rcases h with rfl | rfl <;> cases z <;> decide +kernel)
    exact ⟨r, s1, of_decide_eq_true h, d⟩
theorem test_meets_cache_keys : (∀ s ∈ [T.page, T.both], KeysKept s (s.seat.unpub.map (fun u => u.byte) ++ s.others.flatMap (fun o => o.unpub.map (fun u => u.byte))))
    ∧ (T.page.dirty.map (fun d => d.key)).Nodup ∧ (∀ d ∈ T.page.dirty, d.seat = T.page.seat.id ∧ d.part = T.page.seat.unit.part)
    ∧ (∀ o ∈ T.both.others, cellOf o.id = cellOf T.both.seat.id ∧ o.id ≠ T.both.seat.id ∧ o.unit.uid ≠ T.both.seat.unit.uid)
    ∧ (match lineAt 0 0 .clean true { T.far with ports := T.base.ports } with
      | .error (.fault f) => f.code == FC.partition
      | _ => false) = true := by
  refine ⟨?_, by decide, by decide, by decide, by decide +kernel⟩; unfold KeysKept; decide

/-- The unit with a reference to scope 1 in s7, to no scope in s8 and to no open scope in s9, and a launch record of image 1 in the pad. -/
def T.task : State :=
  { T.base with mem := [(nearKey 0 16, 1)], seat := { T.base.seat with s := ((T.regs.set 7 0x1001).set 8 0x2001).set 9 0x1000 } }
def T.withScope (f : Scope → Scope) : State :=
  { T.task with parts := [{ T.part with scopes := T.part.scopes.map (fun c => if c.num = 1 then f c else c) }] }

/-- The record loads, its scope is `ok`, and its entry's image is loaded. -/
def T.spawns (s : State) (ok : Scope → Bool) : Bool :=
  T.run (mPublish 0 (some 0) .package) s (fun _ s0 => T.run (loadUnit .s 0 { coherent := false } 0xFFFFFE0000000000 32) s0 (fun r s1 =>
    match resolveRef s1.myPart s1.seat.unit.scope 0x1001, loadedImage s1 s1.seat.unit.vf s1.seat.unit.proc (wordOf 32 ((r.1.drop 16).take 4)) with
    | some sc, some im => inSub s1.myPart s1.seat.unit.scope sc.num && ok sc && !dueRefused (entryOf s1 r.1 sc im 1)
    | _, _ => false))

/-- A SPAWN into an open scope, and into one that a QUENCH covers. -/
theorem test_meets_spawn :
    Issues T.task .s true ∧ CanWrite T.task 7 ∧ Reads T.task 1 0xFFFFFE0000000000 0 ∧ Reads T.task 7 0x1001 0 ∧ (0xFFFFFE0000000000 : Dword).toNat % 32 = 0
    ∧ (∀ g ∈ T.task.seat.gsb, lsnLt g.lsn 0 = false) ∧ T.spawns T.task (fun sc => !sc.cancel && decide (sc.state = .opened)) = true
    ∧ T.spawns (T.withScope (fun c => { c with cancel := true })) (fun sc => sc.cancel) = true :=
  ⟨⟨by decide, by decide, fun _ => by decide, fun _ => by decide⟩, ⟨by decide, .inr (by decide)⟩, rfl, rfl, by decide, by decide, by decide, by decide⟩

/-- Scope 1 open, cancelled, done and closed; a free entry and none. -/
theorem test_meets_scopes :
    let at_ (f : Scope → Scope) (p : State → Scope → Bool) : Bool :=
      match resolveRef (T.withScope f).myPart 1 0x1001 with
      | some sc => inSub (T.withScope f).myPart 1 sc.num && decide ((T.withScope f).myPart.scope sc.num = sc) && p (T.withScope f) sc
      | none => false
    T.task.seat.unit.scope = 1 ∧ Issues T.task .s true ∧ CanWrite T.task 7 ∧ Reads T.task 7 0x1001 0 ∧ Reads T.task 8 0x2001 0
    ∧ at_ id (fun s sc => !sc.cancel && decide (sc.state = .opened) && decide (s.myPart.freeScope = some 2) && decide (sc.kind = .device)
      && decide (sc.counter ≠ 0) && s.myPart.scopes.all (fun y => decide (y.state = .closed → y.counter ≠ 0))) = true
    ∧ at_ (fun c => { c with cancel := true }) (fun _ sc => sc.cancel) = true
    ∧ at_ (fun c => { c with state := .closed }) (fun _ sc => decide (sc.state = .closed)) = true
    ∧ at_ (fun c => { c with state := .done }) (fun _ sc => decide (sc.state = .done)) = true
    ∧ resolveRef T.task.myPart 1 0x2001 = none := by
  exact ⟨rfl, ⟨rfl, by decide, fun _ => by decide, fun _ => by decide⟩, ⟨rfl, .inr (by decide)⟩, rfl, rfl, by decide⟩

/-- A QUENCH that covers the unit's own scope, with entries, another unit and barriers inside and outside it; one of an empty scope below it, which a SCOPEC
ends too; and one of a scope that is done. -/
def T.quenched (st : ScopeState) (counter : W32) : State :=
  { T.task with
    others := [{ id := 1, status := .running, unit := { T.unit with uid := 6 } }, { id := 2, status := .running, unit := { T.unit with uid := 7, scope := 0 } }]
    clusters := [{ ix := 0, bars := (Vector.replicate 16 { domain := 0, init := true }).set 15 { domain := 1, init := true } }]
    parts := [{ T.part with
      scopes := T.part.scopes ++ [{ num := 2, gen := 1, parent := 1, state := st, counter }]
      entries := [{ unit := { T.unit with uid := 8 } }, { unit := { T.unit with uid := 9, scope := 0 } }] }]
    seat := { T.task.seat with s := T.task.seat.s.set 8 0x1002 } }
/-- A saved unit of the subtree, with its entry, and one outside it. -/
theorem test_meets_quench_saved :
    let x : Saved := { seat := { unit := { T.unit with uid := 10 } } }
    let y : Saved := { seat := { unit := { T.unit with uid := 11, scope := 0 } } }
    let s := { T.quenched .opened 0 with saved := [x, y] }
    x.seat.unit.part = s.seat.unit.part ∧ inSub s.myPart 1 x.seat.unit.scope = true ∧ inSub s.myPart 1 y.seat.unit.scope = false ∧ x.seat.unit.uid ≠ y.seat.unit.uid := by
  decide
theorem test_meets_quench :
    let s := T.quenched .opened 0
    let names (s : State) (x : Dword) (st : ScopeState) : Bool := match resolveRef s.myPart 1 x with
      | some sc => inSub s.myPart 1 sc.num && decide (s.myPart.scope sc.num = sc ∧ sc.state = st)
      | none => false
    Reads s 7 0x1001 0 ∧ Reads s 8 0x1002 0 ∧ names s 0x1001 .opened = true ∧ names s 0x1002 .opened = true ∧ names (T.quenched .done 0) 0x1002 .done = true
    ∧ s.saved = [] ∧ (s.myPart.entries.map (fun y => y.unit.uid)).Nodup ∧ s.seat.kill = .no ∧ inSub s.myPart 1 1 = true ∧ inSub s.myPart 1 0 = false
    ∧ inSub s.myPart 2 1 = false ∧ inSub s.myPart 2 0 = false ∧ s.partOf s.here = s.seat.unit.part ∧ (s.myPart.scope 2).kind = .device ∧ (s.myPart.scope 2).ack = 0
    ∧ (s.myPart.scopes.map (fun y => y.num)).Nodup ∧ (∀ y ∈ s.myPart.scopes, y.state ≠ .closed) ∧ s.myPart.quenches = []
    ∧ (∀ y ∈ s.myPart.entries, inSub s.myPart 2 y.unit.scope = false) ∧ (∀ q : Fin 32, (qLive s.seat s.seat.ev[q]).length < 255)
    ∧ (∀ m ∈ s.myPart.scopes, m.num ≠ 2 → inSub s.myPart 2 m.num = false) := by
  exact ⟨rfl, rfl, by decide⟩

/-- Barrier 15 with a count of 1 and of 2; the unit has arrived in an earlier generation, in this one, or not; and a word for BAR.INIT
with its least and its greatest expectation. -/
def T.barred (b : Barrier) : State :=
  { T.task with seat := { T.task.seat with s := T.task.seat.s.set 10 15 }, clusters := [{ ix := 0, bars := (Vector.replicate 16 ({} : Barrier)).set 15 b }] }
def T.b1 : Barrier := { domain := 1, parts := [], cnt := 1, exp := 1, gen := 3, init := true }

theorem test_meets_barriers :
    let full : Barrier := { T.b1 with parts := (List.range 63).map (fun i => (100 + i, none)), cnt := 2, exp := 63 }
    (∀ b ∈ [T.b1, full, { T.b1 with parts := [(5, some 2)] }], Issues (T.barred b) .s true ∧ Reads (T.barred b) 10 (BitVec.ofNat 64 15) 0
      ∧ (T.barred b).bar 15 = b ∧ b.init = true ∧ (b.takes 5 = true ∨ b.parts.length < 64) ∧ inSub (T.barred b).myPart b.domain 1 = true
      ∧ (∀ g ∈ (T.barred b).seat.gsb, lsnLt g.lsn 0 = false) ∧ (∀ m ∈ (T.barred b).seat.mq, lsnLt m.lsn 0 = false)
      ∧ heldGen (T.barred b).seat 15 = none
      ∧ T.run (mPublishTokens 0 (some 0)) ((T.barred b).setBar 15 (if b.takes 5 then b else { b with parts := b.parts ++ [(5, none)] })) (fun _ _ => true) = true)
    ∧ T.b1.arrived 5 = none ∧ full.arrived 5 = none ∧ ({ T.b1 with parts := [(5, some 2)] } : Barrier).arrived 5 = some 2 ∧ (3 : Half) ≠ 2
    ∧ heldGen { T.task.seat with barGen := some (15, 2) } 15 = some 2
    ∧ heldGen { T.task.seat with barGen := some (15, 3) } 15 = some T.b1.gen ∧ ({ T.b1 with parts := [(5, some 3)] } : Barrier).arrived 5 = some T.b1.gen
    ∧ (let s := { T.later (T.barred T.b1) with seat := { (T.later (T.barred T.b1)).seat with unpub := [{ byte := { key := 0x30000, val := 1 }, lsn := 0 }] } }
      (∀ w ∈ s.seat.unpub, lsnLt w.lsn s.seat.engS.lsn = true ∧ w.tok = none ∧ w.spill = false ∧ w.byte.mask = 0xFF) ∧ s.hist = [] ∧ clusOf 1 = clusOf s.seat.id
      ∧ KeysKept s (s.seat.unpub.map (fun w => w.byte))) := by
  refine ⟨?_, by decide, by decide, by decide, by decide, by decide, by decide, by decide, by unfold KeysKept; decide⟩
  intro b hb
  simp only [List.mem_cons, List.not_mem_nil, or_false] at hb
  rcases hb with rfl | rfl | rfl <;> exact ⟨⟨rfl, by decide, fun _ => by decide, fun _ => by decide⟩, rfl, by decide⟩

theorem test_meets_barrier_init :
    (match resolveRef T.task.myPart 1 ((((0x10010001 : Dword).extractLsb' 16 32) : W32).setWidth 64) with
      | some dom => inSub T.task.myPart 1 dom.num && inSub T.task.myPart dom.num 1
      | none => false) = true
    ∧ ([(0x10010001 : Dword), 0x10010040].all (fun y => decide (y.toNat < 2 ^ 48 ∧ 1 ≤ y.toNat % 65536 ∧ y.toNat % 65536 ≤ 64)) = true)
    ∧ (∀ p ∈ T.b1.parts, p.1 = 5) ∧ T.b1.cnt = T.b1.exp := by decide
-- Words of the other engines.

/-- Object 1 of the table at address 0: a pad object, of eight rows of two elements unless `ext` says another size, of format `f`, in a block of that format. -/
def T.object (f : FCode) (d0 ext str : Dword) : List Dword :=
  [d0, ext, 0x0000000100000001, str, 0, 0x1000, 0x8130 ||| f.setWidth 64, 0]
def T.obj (f : FCode) (ext : Dword := 0x0000000800000002) : State :=
  { T.base with
    cells := [{ ix := 0, pads := [(0, 65 ||| f.setWidth 64 <<< 2)] }]
    mem := T.dwords 64 (T.object f 0x007FFE0000000000 ext 0x0000004000000001) }

def T.acc : State := (T.obj 12).onEng .a (fun e => { e with x := (e.x.set 3 1).set 1 0xFFFFFE0000000000 })
theorem T.accIssues : Issues T.acc .a false := ⟨by decide, by decide, fun _ => by decide, fun _ => by decide⟩

/-- An idle port at both ends of its range, an object in the pad, a plain and an acquiring read, an empty tile. -/
theorem test_meets_access :
    ReadsX T.acc .a 3 1 0 ∧ ReadsX T.acc .a 1 0xFFFFFE0000000000 0 ∧ ReadsX T.acc .a 0 0 0
    ∧ T.acc.seat.portActive 0 = false ∧ T.acc.seat.portActive 9 = false ∧ (∀ q : Fin 16, (qLive T.acc.seat T.acc.seat.ports[q]).length < 8)
    ∧ (∀ r : BitVec 2, ∀ k : Fin 8, rowsEmpty T.acc.seat k (8 * (r.toNat + 1)) = true)
    ∧ (∀ p ∈ T.acc.seat.lastAcq, p.1 ≠ T.acc.seat.engA.pc) := by
  refine ⟨rfl, rfl, rfl, by decide, by decide, by decide, ?_, by decide⟩
  decide

/-- The object can be streamed and loaded into tile 7, none of its elements on a remote package. -/
theorem test_meets_access_object :
    ∃ o s1, (streamable o && ldtOk o && s1.seat.logRoom .a 1 && rowsEmpty T.acc.seat 7 8
      && T.run (farElement o ((List.range 8).flatMap (fun j => (List.range (obExt o 0)).map (fun i =>
          elemPlace o (obBase o + 0 + BitVec.ofNat 64 j * obStr o 1) i)))) s1 (fun far s2 =>
        far.isNone && T.run (askGate .a far) s2 (fun _ s3 => T.run (mEach (List.range 8) (ldtFill 0 { coherent := false } o 0 7 0)) s3 (fun _ _ => true)))) = true
      ∧ Does (objectRef 1) T.acc o s1 := T.runs (by decide +kernel)

theorem test_meets_access_ldv (c : LdClass) :
    ∃ e s1, decide (s1.freeTag = some 1) = true ∧ Does (ldvRead 0 (ldView c 0 (nxHinted T.acc)) (0xFFFFFE0000000000 + 0) 0) T.acc e s1 :=
  T.runs (by cases c <;> decide)

/-- An acquire of a word that has acquired before: of a misaligned address, whatever is picked, and of a mapped block; no tag is free. -/
theorem test_meets_access_predicted :
    let s := T.acc.onSeat (fun t => { t with lastAcq := [(0, 7)], st := t.st.set 9 0xFFFF })
    ((0, 7) ∈ s.seat.lastAcq ∧ (∀ p ∈ s.seat.lastAcq, p.1 = s.seat.engA.pc → p.2 = 7) ∧ s.freeTag = none ∧ nxHinted s = false
      ∧ T.run (ldvRead 0 { coherent := true, nx := nxHinted s } 0xFFFFFE0000000000 0) s (fun _ _ => true) = true)
    ∧ ∀ n, ∃ z u, Does (ldvRead 0 { coherent := true, nx := nxHinted s } (0xFFFFFE0000000000 + 1) (0 ||| 0)) { s with nonce := n } z u :=
  ⟨by decide, fun _ => ⟨_, _, rfl⟩⟩
/-- Predicate 1 holds `n` elements of the width with code `c`; register 1 and row 3 of tile 0 hold numbers. -/
def T.vec (c : BitVec 2) (n : BitVec 13) : State :=
  { T.base with seat := { T.base.seat with p := T.base.seat.p.set 1 ((0 : BitVec 1) ++ c ++ n), v := T.base.seat.v.set 1 0x3F8000034000FFFF } }
theorem test_meets_vector_issue (b : Bool) : Issues (T.vec 3 1) .v b := ⟨rfl, by decide, fun _ => by decide, fun _ => by decide⟩

/-- Sources of one and of two registers at every width: one element, a full register, one element more, none. -/
theorem test_meets_vector (c : BitVec 2) (n : BitVec 13) (h : n ∈ [(0 : BitVec 13), 1, 128, 129]) :
    Does (getP 1) (T.vec c n) (4 * 2 ^ c.toNat, n.toNat, 0) (T.vec c n) := by
  simp only [List.mem_cons, List.not_mem_nil, or_false] at h
  have hc : c = 0 ∨ c = 1 ∨ c = 2 ∨ c = 3 := by revert c; decide
  rcases h with rfl | rfl | rfl | rfl <;> rcases hc with rfl | rfl | rfl | rfl <;> rfl

theorem test_meets_vector_groups :
    (∀ d : BitVec 6, groupOk d 1 = true) ∧ groupOk 2 2 = true ∧ (∀ d : BitVec 6, d.toNat < 48 → destFieldOk d = true) ∧ (129 * 32 + 4095) / 4096 = 2
    ∧ (∃ r t, decide (r.1.length = 2) = true ∧ Does (readGroups 1 [1, 2]) (T.vec 3 1) r t)
    ∧ (∃ r t, decide (r.1.length = 1) = true ∧ Does (readGroups 2 [2]) (T.vec 3 129) r t)
    ∧ (∃ r t, true = true ∧ Does (readGroup 1 1) (T.vec 3 1) r t) := by
  refine ⟨by decide, by decide, by decide, by decide, T.runs (by decide), T.runs (by decide), T.runs (by decide)⟩

/-- Six registers in one group and one, at both ends of the file; two entries of a port, and room for six. -/
theorem test_meets_vector_sizes :
    let s := (T.vec 3 1).onSeat (fun t => { t with ports := t.ports.set 0 (List.replicate 2 { val := { data := 1, vcnt := 1, fmt := 2, last := true }, lsn := 0 }) })
    let xs := ((s.seat.ports[0].filter (fun i => i.taken.isNone)).map Item.val).take 2
    768 * 32 ≤ 6 * 4096 ∧ (768 * 32 + 4095) / 4096 = 6 ∧ 42 + 6 ≤ 48 ∧ (1 * 4 + 4095) / 4096 = 1 ∧ s.seat.damage = [] ∧ s.seat.logRoom .v 6 = true
    ∧ (256 * 32 + 4095) / 4096 = 2 ∧ xs.length = 2 ∧ (∀ x ∈ xs, x.bad = false ∧ x.prov = false ∧ x.psn = false)
    ∧ (qLive s.seat s.seat.ports[15]).length + 6 ≤ 8 := by decide

/-- A result goes to a register, to a pair and to a port. -/
theorem test_meets_vector_writes :
    (∃ t, Does (writeGroup 2 12 8 4 0x01020304 0 false 0) (T.vec 1 4) () t) ∧ (∃ t, Does (writeGroup 2 2 32 129 1 0 false 0) (T.vec 3 129) () t)
    ∧ (∃ t, Does (writeGroup 63 2 32 1 1 0 true 0) (T.vec 3 1) () t)
    ∧ (qLive (T.vec 3 1).seat (T.vec 3 1).seat.ports[15]).length < 8 ∧ isPort 63 = true ∧ isPort 2 = false ∧ (T.vec 3 1).seat.damage = []
    ∧ (T.vec 3 1).seat.logRoom .v 64 = true := by
  refine ⟨⟨_, T.doesUnit (by decide)⟩, ⟨_, T.doesUnit (by decide)⟩, ⟨_, T.doesUnit (by decide)⟩, by decide, by decide, by decide, by decide, by decide⟩

theorem test_meets_conversions :
    cvtOk false false .raw 32 = true ∧ ReadsX (T.vec 3 1) .v 2 64 0 := ⟨by decide, rfl⟩

/-- Tile 0 is empty; tile 1 is full of 32 rows of tag 2; rows 0 and 31, and an offset of a slice's last element. -/
def T.full : Tile := { tag := 2, rows := Vector.replicate 32 { full := true } }
def T.tiled : State :=
  { T.vec 3 1 with seat := { (T.vec 3 1).seat with
      tiles := (T.base.seat.tiles.set 0 { tag := 2 }).set 1 T.full, v := Vector.replicate 48 0x7BC, engV := { T.eng with x := T.x.set 3 31 } } }

theorem test_meets_tiles :
    ReadsX T.tiled .v 3 31 0 ∧ ReadsX T.tiled .v 0 0 0
    ∧ (∃ r t, true = true ∧ Does (mMap allRows (mRow 1)) T.tiled r t) ∧ ReadsX T.tiled .v 2 64 0 ∧ vtwOk 2 32 1 = true ∧ T.tiled.seat.logRoom .v 64 = true
    ∧ (∀ r ∈ [(0 : Fin 32), 31], (T.tiled.seat.rowNow 0 r).full = false) ∧ tileFmt 1 = true
    ∧ T.tiled.seat.tiles[1].tag = 2 ∧ (∀ r : Fin 32, T.tiled.seat.rowFull 0 1 r = true)
    ∧ Memory.wf T.tiled.seat.lanes ∧ T.tiled.seat.logRoom .v (lanePasses 32 128).length = true
    ∧ ((64 : Dword) + BitVec.ofNat 64 0x7BC).toNat % 4 = 0 ∧ ((64 : Dword) + BitVec.ofNat 64 0x7BC).toNat + 4 ≤ 2048 := by
  exact ⟨rfl, rfl, T.runs (by decide), rfl, by decide⟩
/-- A seat with no lease; one with the lease, a slot and banks 0 and 63, a full tile 1 of tag 12, and an index entry in port 0. -/
def T.bank : Bank := { owner := some 0 }
def T.anvil : Anvil :=
  { holder := some 0, left := 4, slots := (Vector.replicate 4 ({} : Slot)).set 0 { owner := some 0, ty := .int8, elems := [(0, .fin false 3 0)] },
    banks := ((((((Vector.replicate 64 ({} : Bank)).set 0 T.bank).set 1 T.bank).set 2 T.bank).set 3 T.bank).set 4 T.bank).set 63 T.bank }
def T.mat : State :=
  { T.obj 12 0x0000000200000002 with
    clusters := [{ ix := 0, anvil := T.anvil }]
    seat := { T.base.seat with
      ls := true, tiles := T.base.seat.tiles.set 1 { T.full with tag := 12 }, engM := { T.eng with x := T.x.set 3 1 }
      ports := T.base.seat.ports.set 0 [{ val := { data := 0x3F, vcnt := 1, fmt := 2, last := true }, lsn := 0 }] } }

theorem test_meets_lease :
    Issues T.base .m true ∧ T.base.seat.ls = false ∧ (T.base.anvil T.base.here).holder ≠ some T.base.seat.id
    ∧ (T.mat.anvil T.mat.here).holder = some T.mat.seat.id ∧ T.mat.seat.ls = true ∧ T.mat.seat.mq = [] := by
  refine ⟨T.issues .m true, ?_⟩; decide

/-- Free runs at both ends of the banks, and the seat's own banks there. -/
theorem test_meets_banks :
    (∀ i, i < 1 → (bankOf T.base (63 + i)).owner = none) ∧ (∀ i, i < 64 → (bankOf T.base (0 + i)).owner = none) ∧ 63 + 1 ≤ 64 ∧ 0 + 64 ≤ 64
    ∧ (∀ r ∈ (T.base.anvil T.base.here).resv, r.1 = T.base.seat.unit.uid)
    ∧ olderAllocs T.base.seat.id 63 1 (T.base.anvil T.base.here).allocs = false
    ∧ (∀ t ∈ T.mat.seats, t.drain = none)
    ∧ (let s := T.mat.onSeat (fun t => { t with drain := some { lsn := 0, num := 63, seen := [], port := 15, res := none, sc := false, dr := false } })
      ∃ t ∈ s.seats, clusOf t.id = s.here ∧ (t.drain.map (fun x => (x.live, x.num))) = some (true, 63))
    ∧ (∀ i, i < 1 → (bankOf T.mat (63 + i)).owner = some T.mat.seat.id) ∧ (∀ i, i < 4 → (bankOf T.mat (0 + i)).owner = some T.mat.seat.id) := by
  decide

theorem test_meets_commands :
    let an := T.mat.anvil T.mat.here
    let ready (t : State) (pairs : List (Nat × Nat)) : Bool :=
      decide (an.slots[0].owner = some T.mat.seat.id) && decide (t.seat.mq.length < 4) && decide (t.seat.tiles = T.mat.seat.tiles)
      && pairs.all (fun p => t.seat.rowFull 0 1 (Fin.ofNat 32 p.1) && decide ((T.mat.seat.tiles[1].rows[Fin.ofNat 32 p.1]).psn = none ∧ (T.mat.seat.tiles[1].rows[Fin.ofNat 32 p.1]).bad = false))
      && decide (t.seat.damage = []) && (banksOf 0 pairs).all (fun n => bankOk t true true n)
    Issues T.mat .m true ∧ unstarted T.mat.seat < an.left ∧ (∀ x y : Bool, classOk T.mat 12 0 x y false = true)
    ∧ (∀ r : BitVec 2, ready T.mat ((List.range (8 * (r.toNat + 1))).map (fun i => (i, i))) = true)
    ∧ (∃ r s1, (ready s1 (r.1.map (fun w => (w.toNat % 32, w.toNat / 32))) && decide (r.1.length = 1)
        && r.1.all (fun w => decide (w.toNat < 2 ^ 13)) && decide (s1.anvil s1.here = an)) = true ∧ Does (popIndices 0 9) T.mat r s1) := by
  refine ⟨⟨rfl, by decide, fun _ => by decide, fun _ => by decide⟩, by decide, by decide, by decide, T.runs (by decide)⟩

theorem test_meets_slot :
    ReadsX T.mat .m 3 1 0 ∧ ReadsX T.mat .m 0 0 0 ∧ (T.mat.anvil T.mat.here).slots[3].owner = none
    ∧ slotReserved (T.mat.anvil T.mat.here) T.mat.seat.unit.uid 3 = false ∧ (∀ z ∈ T.mat.seat.mq, z.slot ≠ 3)
    ∧ (∃ o s1, (mldbOk o 0 && decide (s1.anvil s1.here = T.mat.anvil T.mat.here)
        && T.run (mMap (List.range (dimExt o 1)) (slotColumn 0 { coherent := false } o 0)) s1 (fun _ s2 =>
          decide (s2.anvil s2.here = T.mat.anvil T.mat.here ∧ s2.seat.id = T.mat.seat.id))) = true ∧ Does (objectRef 1) T.mat o s1) :=
  ⟨rfl, rfl, by decide, by decide, by decide, T.runs (by decide +kernel)⟩

/-- A started command at the head of the queue, stopped or not. -/
theorem test_meets_command :
    let c : MCmd := { lsn := 0, bank := 0, tile := 1, slot := 0, pairs := [(0, 0), (31, 3)], kb := 1, acc := true, asg := false, bsg := false, hi := false, tag := 12, lr := true, started := true }
    let s := T.mat.onSeat (fun t => { t with mq := [c], mstop := { t.mstop with v := true } })
    s.seat.mq = c :: [] ∧ c.started = true ∧ (s.anvil s.here).holder = some s.seat.id ∧ Issues s .m true ∧ s.seat.ls = true
    ∧ s.seat.mstop.v = true ∧ s.seat.mstop.lsn = c.lsn ∧ T.base.seat.mstop.v = false := by
  refine ⟨rfl, rfl, by decide, ⟨rfl, by decide, fun _ => by decide, fun _ => by decide⟩, rfl, rfl, rfl, rfl⟩
-- The write-back and copy engines, and words of every engine.

def T.wb : State :=
  { T.mat with mem := (T.obj 12).mem, seat := { T.mat.seat with
      engW := { T.eng with x := (T.x.set 3 1).set 4 0x12345 }, dcfg := { T.mat.seat.dcfg with outfmt := 12, dest := 1, colcount := 2 }
      ports := (T.base.seat.ports.set 1 (List.replicate 8 { val := { data := 1, vcnt := 2, fmt := 12 }, lsn := 0 })).set 10 [{ val := { data := 0x01020304, vcnt := 16, fmt := 12, last := true }, lsn := 0 }] } }
theorem test_meets_issue_w : Issues T.wb .w true := ⟨rfl, by decide, fun _ => by decide, fun _ => by decide⟩

/-- Values of each register at the ends of its range and past it, from the word and from an x register. -/
theorem test_meets_drain_configuration :
    ReadsX T.wb .w 4 0x12345 0 ∧ (65536 : Nat) < 2 ^ 17 ∧ ¬(65537 ≤ 65536) ∧ (0x12345 % 2 ^ 16 : Nat) < 2 ^ 16 := ⟨rfl, by decide, by decide, by decide⟩

/-- STV: an entry of sixteen bytes; each class of store can be captured. -/
def T.stv (c : StClass) (s : State) : M Unit := do
  let e ← peek (popPort .w 10)
  let pieces ← locate 0xFFFFFE0000000000 ((e.vcnt * widthOf e.fmt + 7) / 8) .write
  mNeeds (pieces.all (fun p => decide (p.1.fmt.toNat < 5 ∨ 11 < p.1.fmt.toNat))) .buffer
  storeGate .w 0 (c == .syRel) pieces
  let e' ← popPort .w 10
  mNeeds (decide (e' = e ∧ s.seat.engW.lsn = 0)) .buffer
  capture .w 0 c (wbytes pieces ((List.range ((e.vcnt * widthOf e.fmt + 7) / 8)).map (byteOf e.data))) (pieces.any (fun p => farHome p.1.key))
theorem test_meets_stv (c : StClass) : ∃ u t, true = true ∧ Does (T.stv c T.wb) T.wb u t := T.runs (by cases c <;> decide)

/-- WSTRM and STT: an object of the tile's format, a port with enough elements, and full rows. -/
theorem test_meets_object_stores :
    (∃ o s1, (tileFmt (obFmt o) && decide (s1.seat.engW.lsn = 0) && decide (obFmt o = 12)
        && T.run (walkWrite 10 .pack o 0 (List.range (walkTotal o)) [] false true) s1 (fun out s2 => T.run (capture .w 0 .plain out) s2 (fun _ _ => true))
        && T.run (mMap ((List.range 8).map (fun j => Fin.ofNat 32 j)) (mRow 1)) s1 (fun rows s2 => decide (s2.seat.engW.lsn = 0)
          && T.run (mMap ((List.range 8).zip rows) (fun p => sttRow o 0 12 p.1 p.2)) s1 (fun parts s3 => T.run (capture .w 0 .plain parts.flatten) s3 (fun _ _ => true)))) = true
      ∧ Does (objectRef 1) T.wb o s1)
    ∧ ReadsX T.wb .w 3 1 0 ∧ ReadsX T.wb .w 0 0 0 ∧ ReadsX T.wb .w 1 0xFFFFFE0000000000 0
    ∧ T.wb.seat.tiles[1].tag = 12 ∧ (∀ j : Fin 32, T.wb.seat.rowFull 0 1 j = true) := by
  refine ⟨T.runs (by decide), rfl, rfl, rfl, rfl, by decide⟩

/-- DRN of bank 0 to the object and to a port, with and without a residue port, and one that goes on with a drain under way. -/
def T.drain (port : Nat) (res : Option Nat) : Drain := { lsn := 0, num := 0, seen := [], port, res, sc := false, dr := false }
theorem test_meets_drains :
    (∃ o s1, (directDrainOk o T.wb.seat.dcfg false && T.run (mDrainable 0) s1 (fun _ s1 => T.run (startDrain (T.drain 15 none)) s1 (fun x s2 =>
        T.run (directRows o false 8 x) s2 (fun out s3 => T.run (capture .w 0 .plain out) (s3.onSeat (fun w => { w with drain := none })) (fun _ _ => true))))) = true
      ∧ Does (objectRef 1) T.wb o s1)
    ∧ T.wb.seat.drain = none ∧ drnPorts 0x3F 0x3F false = true ∧ drnPorts 10 0 true = true ∧ drnPorts 15 9 true = true ∧ portDrainOk T.wb.seat.dcfg false = true
    ∧ ((bankOf T.wb 0).owner = some T.wb.seat.id ∧ (bankOf T.base 0).owner = none)
    ∧ T.run (mDrainable 0) T.wb (fun _ s1 => T.run (startDrain (T.drain 11 (some 1))) s1 (fun x s2 => T.run (drainGo x) s2 (fun _ _ => true))) = true
    ∧ T.run (drainOn { T.drain 11 none with seen := [T.bank], row := 7 }) (T.wb.onSeat (fun t => { t with drain := some { T.drain 11 none with seen := [T.bank], row := 7 } }))
        (fun _ _ => true) = true := by
  exact ⟨T.runs (by decide +kernel), by decide +kernel⟩

/-- One element of eight bits and one of four; a row of a drain with and without a residual; a row that goes to the object, and one that goes into a
page of compressed slots; a row that goes to a port. -/
def T.slots : State := { T.obj 10 with seat := T.wb.seat, clusters := T.wb.clusters }
def T.slotted : List Dword := T.object 10 0x007FFE0000000000 0x0000000800000200 0x0000020000000001
theorem test_meets_stored_bytes :
    let o (f : FCode) := T.object f 0x007FFE0000000000 0x0000000800000002 0x0000004000000001
    let d (res : Option Nat) : Drain := { T.drain 11 res with seen := [T.bank] }
    (∀ f ∈ [(12 : FCode), 13], T.run (elemWrite (o f) (walkPlace (o f) 0 1) 5) { T.obj f with seat := T.wb.seat } (fun _ _ => true) = true)
    ∧ (∀ res ∈ [none, some 1], T.run (drainRow (d res)) T.wb (fun r s1 => T.run (directRow (o 12) T.wb.seat.dcfg 0 r.1) s1 (fun _ _ => true)) = true)
    ∧ T.run (popPort .w 1) T.wb (fun _ _ => true) = true ∧ T.wb.seat.dcfg.colcount.toNat ≤ 256
    ∧ T.run (compressedRow T.slotted T.wb.seat.dcfg 0 [1, 2]) T.slots (fun out _ => decide (out ≠ [])) = true
    ∧ (∃ i, qHead T.wb.seat.ports[1] = some i ∧ i.val.prov = false) ∧ (qLive T.wb.seat T.wb.seat.ports[11]).length < 8
    ∧ T.run (pushRows 1 (d (some 1))) T.wb (fun x _ => decide (x.row = 1)) = true := by
  exact ⟨by decide +kernel, by decide +kernel, by decide +kernel, by decide +kernel, by decide +kernel, ⟨_, rfl, rfl⟩, by decide +kernel, by decide +kernel⟩

/-- The x registers of a copy: a source, a destination and a length (in the register after the destination's), of zero and more. -/
def T.cpOf (f : FCode) : State :=
  { T.obj f with seat := { T.base.seat with
      engC := { T.eng with x := (((T.x.set 3 0xFFFFFE0000000000).set 4 0xFFFFFE0000001000).set 5 64).set 6 0x100000 } } }
def T.cp : State := T.cpOf 0
def T.plan (c : Copy) (s : State) : Bool :=
  T.run (copyPlan c) s fun sp s1 => decide (s1.seat.ranges.length + (copyRanges { c with spans := sp } (spansOut sp)).length ≤ 16)

theorem test_meets_copies :
    Issues T.cp .c true ∧ ReadsX T.cp .c 3 0xFFFFFE0000000000 0 ∧ ReadsX T.cp .c 4 0xFFFFFE0000001000 0 ∧ ReadsX T.cp .c (4 + 1) 64 0
    ∧ ReadsX T.cp .c (0 + 1) 0xFFFFFE0000000000 0 ∧ ReadsX T.cp .c (6 + 1) 0 0
    ∧ (∃ r s1, true = true ∧ Does (loadUnit .c 0 { coherent := false } 0xFFFFFE0000000000 512) T.cp r s1)
    ∧ (∀ k : Fin 8, T.cp.seat.kstat[k] ≠ 0xFD) ∧ (64 : Dword).toNat ≤ 4194304 ∧ (0xFFFFFE0000000000 : Dword).toNat % 64 = 0 ∧ (64 : Dword).toNat % 4 = 0
    ∧ (∀ ch : Fin 4, T.run (enterRanges 7 (chainHeld { kind := .chain, tok := 7, ch, lsn := 0 } (T.cp.onSeat (fun t => { t with chd := t.chd.set ch 0xFFFFFE0000000000 }))))
        T.cp (fun _ _ => true) = true)
    ∧ (∀ ch : Fin 4, chainOn T.cp.seat ch = false) ∧ (∀ c ∈ T.cp.seat.copies, c.kind = .chain → c.ended ≠ none)
    ∧ (∀ ch : Fin 4, let t := { T.cp.seat with copies := [{ kind := .chain, tok := 0, ch, lsn := 0, taint := 0, since := 0 }] }
      ∃ c ∈ t.copies, c.kind = .chain ∧ c.ch = ch ∧ c.ended = none) := by
  refine ⟨⟨rfl, by decide, fun _ => by decide, fun _ => by decide⟩, rfl, rfl, rfl, rfl, rfl, T.runs (by decide), ?_⟩
  decide

/-- The plans of a plain copy, of a reducing one and of a halo of the pad's first bytes. -/
theorem test_meets_copy_plans :
    let s (f : FCode) := joinTokens (fun j => j == 7) (T.cpOf f)
    let c : Copy := { kind := .plain, tok := 7, src := 0xFFFFFE0000000000, dst := 0xFFFFFE0000001000, len := 64, lsn := 0, taint := 0 }
    T.plan c (s 0) = true ∧ T.plan { c with kind := .reduce, conv := 1 } (s 1) = true ∧ T.plan { c with kind := .reduce, conv := 0 } (s 2) = true := by
  decide

theorem test_meets_halo :
    let s := { T.cp with cells := [{ ix := 0, pads := [(0, 65)] }, { ix := 1, pads := [(0, 65)] }]
                         clusters := [{ ix := 0, bars := (Vector.replicate 16 ({} : Barrier)).set 15 T.b1 }] }
    T.run (mJoin .c 15) (joinTokens (fun j => j == 0) s) (fun bar s2 => decide (s2.seat.engC.lsn = 0) && T.plan
      { kind := .halo, tok := 0, src := 0x1000000, dst := 0xFFFFFE0000001000, len := 64, bar := 15, gen := bar.gen, lsn := 0, taint := 0 } s2) = true
    ∧ inSourcePad s 0x1000000 0xFFFFFE0000001000 = false ∧ (0x1000000 : Dword).toNat < 2 ^ 27 := by decide

theorem T.noEvents (n : BitVec 5) (d : Eng) (w : W32) (h : w ∈ (mySlice T.base d).words) : postsTo d n w = false ∧ waitsFor d n w = false := by
  obtain rfl : w = 0 := by cases d <;> exact (List.mem_replicate.mp (show w ∈ List.replicate 4 0 from h)).2
  cases d <;> exact ⟨rfl, rfl⟩

/-- A queued post, transfer and decision, before and after one that a word has taken; loop counters of one and of two. -/
theorem test_meets_coupling (e : Eng) :
    Issues T.base e (couplingBound e) ∧ Issues T.base e true ∧ T.base.seat.logRoom e 2 = true
    ∧ (∀ n : BitVec 5, (qLive T.base.seat (T.base.seat.ev[n.toNat]'n.isLt)).length < 255)
    ∧ ((0 : Int) ≤ ((T.base.seat.eng e).pc : Int) + 0 ∧ ((T.base.seat.eng e).pc : Int) + 3 < ((mySlice T.base e).words.length : Int))
    ∧ (∀ n : BitVec 5, ∀ d : Eng, ∀ w ∈ (mySlice T.base d).words, postsTo d n w = false ∧ waitsFor d n w = false)
    ∧ (∀ mask : BitVec 8, mask = 0 ∨ T.base.seat.copiesBegun 0 = true) ∧ (∀ k : Fin 8, T.base.seat.kstat[k] ≠ 0xFD) := by
  refine ⟨T.issues e _, T.issues e true, ?_, by decide, ?_, T.noEvents, fun _ => .inr (by decide), by decide⟩ <;> cases e <;> decide

theorem test_meets_queued (e : Eng) :
    let x : Item (Dword × Taint) := { val := (3, 1), lsn := 0 }
    let y : Item (Dword × Taint) := { x with taken := some 0 }
    let d : Item Bool := { val := true, lsn := 0 }
    let f : Item Bool := { val := false, lsn := 0, taken := some 0 }
    let s := T.base.onEng e (fun z => { z with xq := [y, x], dq := [f, d], lc := (z.lc.set 0 2).set 3 1 })
    (s.seat.eng e).xq = [y] ++ x :: [] ∧ (∀ k ∈ [y], k.taken ≠ none) ∧ x.taken = none
    ∧ (s.seat.eng e).dq = [f] ++ d :: [] ∧ (∀ k ∈ [f], k.taken ≠ none) ∧ d.taken = none ∧ d.val = true
    ∧ 1 < ((s.seat.eng e).lc[0]).toNat ∧ ((s.seat.eng e).lc[3]).toNat ≤ 1 := by
  cases e <;> exact ⟨rfl, by decide, rfl, rfl, by decide, rfl, rfl, by decide, by decide⟩

theorem test_meets_local (e : Eng) :
    ReadsX T.base e ((1 : BitVec 4).setWidth 6) 0xFFFFFE0000000000 0 ∧ ReadsX T.base e ((15 : BitVec 4).setWidth 6) 0 0 ∧ T.base.seat.logRoom e 1 = true := by
  cases e <;> exact ⟨rfl, rfl, by decide⟩
-- Faults and events.

/-- A seat whose scalar engine is past H; one at H with empty logs and one with a logged write, damaged and not; a write engine that has not
faulted; no report and 64 reports unanswered. -/
theorem test_meets_faults :
    let past := T.base.onEng .s (fun x => { x with lsn := 1 })
    let full := { T.base with vfs := [{ vf := 0, open_ := (List.range 64).map (BitVec.ofNat 32) }] }
    let y (b : Bool) : LogEntry := { undo := .sreg 3 7 0, lsn := 0, was := b }
    let w : Engine := { T.eng with issued := [(1, 0), (2, 1)] }
    past.seat.atH .s = false ∧ T.base.seat.atH .s = true ∧ (∀ d ∈ engines, (T.base.seat.eng d).held = none ∧ (T.base.seat.eng d).issued = [])
    ∧ T.base.seat.slagS ++ T.base.seat.slagV ++ T.base.seat.logA = [] ∧ (∀ b, lsnLt (y b).lsn 0 = false)
    ∧ (w.issued = [(1, 0)] ++ (2, 1) :: [] ∧ lsnLt 1 (0 + 1) = false) ∧ (lsnLt 0 0 = false ∧ ∀ c ∈ [(2, 1)], lsnLt c.2 (0 : Lsn) = false)
    ∧ hearthPaged T.base 0 = true ∧ hearthPaged T.base 0x10000 = false
    ∧ T.base.seat.kill = .no ∧ T.base.seat.gsb = [] ∧ T.base.seat.atoms = [] ∧ T.base.seat.mq = [] ∧ T.base.seat.copies = []
    ∧ T.base.seat.preds = [] ∧ T.base.seat.unpub = [] ∧ T.base.others = [] ∧ (T.base.vf 0).open_.length < 64 ∧ 64 ≤ (full.vf 0).open_.length
    ∧ (T.base.vf 0).fltbase.toNat + 64 < 2 ^ 52 ∧ T.base.seat.unit.proc < 256 := by decide

/-- A held fault at H; a unit in service for a TRAP and for a page, whose leaf has the context's key identity or another; a saved unit that waits for the reply to report 3. -/
theorem test_meets_service :
    let f : FaultInfo := { code := 0x14, aux := 0x40 }
    let held := T.base.onEng .a (fun x => { x with held := some f })
    let trap := T.base.onSeat (fun t => { t with status := .service, frec := { t.frec with fcode := 0x14 }, after := some (2, 1) })
    let page := T.base.onSeat (fun t => { t with status := .service, frec := { t.frec with fcode := 0x04, faux := 0x12 } })
    let x : Saved := { seat := T.base.seat, reply := some 3 }
    let waits := { T.base with seat := {}, saved := [x], vfs := [{ vf := 0, seq := 4, open_ := [3] }] }
    held.seat.status = .running ∧ (held.seat.eng .a).held = some f ∧ held.seat.atH .a = true ∧ (held.seat.eng .a).done = false
    ∧ (∀ d, engNum d < engNum .a → (held.seat.eng d).held = none)
    ∧ trap.seat.status = .service ∧ trap.seat.frec.fcode = 0x14
    ∧ T.page.contextKey T.page.seat.unit.vf = 0 ∧ (0x10000001 : Dword).extractLsb' 11 7 = 0 ∧ (0x801 : Dword).extractLsb' 11 7 ≠ 0
    ∧ page.seat.frec.fcode = 0x04 ∧ (1 : Dword).getLsbD 0 = true ∧ isPadSpace page.seat.frec.faddr = false
    ∧ absentLevel page page.seat.frec.faddr = some 0 ∧ pteValid 1 0 = true ∧ (1 : Dword).extractLsb' 1 2 = 0 ∧ absentLevel T.page 0 = none
    ∧ isPadSpace 0xFFFFFE0000000000 = true
    ∧ (waits.vf 0).open_.contains 7 = false ∧ 3 ∈ (waits.vf 0).open_ ∧ x ∈ waits.saved ∧ x.seat.unit.vf = 0 ∧ x.reply = some 3
    ∧ (∀ y ∈ waits.saved, y.unsent = false) := by
  refine ⟨rfl, rfl, by decide, rfl, ?_, rfl, rfl, by decide +kernel⟩
  intro d; cases d <;> simp [engNum] <;> rfl

/-- A chain that waits for the page of its record, whose walk stops at the first level. -/
theorem test_meets_chain_page :
    let c : Copy := { kind := .chain, tok := 7, ch := 3, lsn := 0, page := some 0x1000 }
    let s := T.base.onSeat (fun t => { t with copies := [c] })
    s.seat.status ≠ .service ∧ s.seat.copies = [c] ∧ c.page = some 0x1000 ∧ absentLevel s 0x1000 = some 0
    ∧ pteValid 1 0 = true ∧ (1 : Dword).extractLsb' 1 2 = 0 ∧ (∀ x ∈ T.base.seat.copies, x.page = none) := by decide

/-- A generator at its start, at its end, one whose element is out of bounds, and one for a gather with an index entry at hand. -/
def T.gen : Gen := { port := 9, lsn := 0, obj := T.object 12 0x007FFE0000000000 0x0000000200000002 0x0000004000000001, kind := .row }
def T.places (g : Gen) (n : Nat) : List (Dword × Nat) := (List.range n).map (fun i => walkPlace g.obj g.off (g.pos + i))
theorem test_meets_generators :
    let at_ (g : Gen) := (T.obj 12).onSeat (fun t => { t with gens := [g] })
    let out : Gen := { T.gen with off := 0x2000 }
    let away : Gen := { T.gen with obj := T.object 12 0 0x0000000200000002 0x0000004000000001 }
    let reads (g : Gen) (p : Option FaultInfo → Bool) : Bool := T.run (farElement g.obj (T.places g 2)) (at_ g) (fun far s0 => far.isNone
      && T.run (collect (readElem g.lsn { coherent := g.sy || g.taint != 0, nx := g.nx } g.obj) (T.places g 2)) s0 (fun r _ => p r.2))
    (at_ T.gen).seat.gens = [T.gen] ∧ T.gen.port = (9 : BitVec 4).toNat ∧ T.gen.ended = false ∧ T.gen.stopped = none ∧ T.gen.index = none
    ∧ T.gen.pos < walkTotal T.gen.obj ∧ walkTotal T.gen.obj ≤ ({ T.gen with pos := 4 } : Gen).pos ∧ T.gen.prov = false
    ∧ min (min 512 (walkTotal T.gen.obj - T.gen.pos)) (dimExt T.gen.obj 0 - T.gen.pos % dimExt T.gen.obj 0) = 2
    ∧ reads T.gen (fun f => f.isNone) = true ∧ reads out (fun f => f.isSome) = true
    ∧ T.run (farElement away.obj (T.places away 2)) (T.far.onSeat (fun t => { t with gens := [away] })) (fun far _ => far == some 0) = true ∧ away.remote = .idle := by
  decide

/-- An index entry at hand: a good one, a poisoned one and one from damaged storage. -/
def T.ix : Item PortEntry := { val := { data := 1, vcnt := 1, fmt := 2, last := true }, lsn := 0 }
theorem test_meets_gather :
    let g : Gen := { T.gen with index := some 0 }
    let s := (T.obj 12).onSeat (fun t => { t with gens := [g], ports := t.ports.set 0 [T.ix] })
    let popped := s.onSeat (fun t => { t with ports := t.ports.set 0 ([] ++ { T.ix with taken := some g.lsn, taker := .a } :: []) })
    let ws := (entryIndices T.ix.val).map (fun w => (w, (0 : Taint)))
    s.seat.ports[0] = [] ++ T.ix :: [] ∧ T.ix.taken = none ∧ g.pending = [] ∧ g.lastIn = false ∧ T.ix.val.psn = false ∧ T.ix.val.bad = false ∧ T.ix.val.prov = false
    ∧ ({ T.ix.val with psn := true } : PortEntry).psn = true ∧ ({ T.ix.val with bad := true } : PortEntry).bad = true
    ∧ ws.length = 1 ∧ T.run (farElement g.obj (ws.map (fun w => elemPlace g.obj (obBase g.obj) w.1.toNat))) popped (fun far s0 => far.isNone
        && T.run (collect (readIndexed { g with pending := ws, lastIn := true }) ws) s0 (fun r _ => decide (r.2 = none))) = true := by decide

/-- A prediction that is confirmed, and one that fails. -/
def T.predicted (p : Predicted) : State := T.base.onSeat (fun t => { t with preds := [p] })
theorem test_meets_prediction :
    let p : Predicted := { port := 9, lsn := 0, pc := 0, addr := 0xFFFFFE0000000000, data := 0, seq := 0 }
    ∀ r ∈ [p, { p with data := 5, tag := false }], r ∈ (T.predicted r).seat.preds ∧ (∀ x ∈ (T.predicted r).seat.preds, x.port = 9 → x = r)
      ∧ T.run (ldvRead r.lsn { coherent := true } r.addr 0) (T.predicted r) (fun x s1 => decide (s1.seat.gens = [] ∧ x.data = 0 ∧ x.psn = false)) = true := by
  decide
/-- The lease free with a request of this seat, and at its run's end with and without another request. -/
theorem test_meets_lease_events :
    let at_ (a : Anvil) : State := { T.base with clusters := [{ ix := 0, anvil := a }] }
    let free : Anvil := { reqs := [0, 1], last := 7 }
    let own : Anvil := { holder := some 0, reqs := [0] }
    let two : Anvil := { holder := some 0, reqs := [0, 1] }
    let f := (at_ free).anvil (at_ free).here
    let o := (at_ own).anvil (at_ own).here
    f.holder = none ∧ f.next = some T.base.seat.id ∧ o.holder = some T.base.seat.id ∧ o.left = 0 ∧ (∀ r ∈ o.reqs, r = T.base.seat.id)
    ∧ (1 : SeatId) ∈ two.reqs ∧ (1 : SeatId) ≠ T.base.seat.id ∧ T.base.seat.mq = [] := by decide

/-- A drain at its DRN. -/
theorem test_meets_drain_event :
    let d : Drain := { T.drain 15 none with seen := [{}], row := 7 }
    let s := T.base.onSeat (fun t => { t with drain := some d, dcfg := { t.dcfg with outfmt := 12, colcount := 1 } })
    Issues s .w true ∧ s.seat.drain = some d ∧ d.lsn = s.seat.engW.lsn ∧ s.seat.engW.done = false
    ∧ T.run (drainOn d) s (fun _ _ => true) = true := by
  refine ⟨⟨rfl, by decide, fun _ => by decide, fun _ => by decide⟩, rfl, rfl, rfl, by decide +kernel⟩

/-- A chain at its end, at a record of one row of 64 bytes that the model takes, before and after its ranges are entered, and at one that is not its own. -/
def T.record : List Dword := [0x8000000000000000, 0x007FFE0000001000, 0x007FFE0000002000, 0x0001000000000040, 0, 0, 0, 0]
def T.link : Copy := { kind := .chain, tok := 7, ch := 3, lsn := 0 }
def T.chained (c : Copy) : State :=
  { T.base with mem := T.dwords (nearKey 0 0) T.record
                seat := { T.base.seat with copies := [c], chd := T.base.seat.chd.set 3 0xFFFFFE0000000000 } }
theorem test_meets_chain :
    let s := T.chained T.link
    (s.seat.copies = [T.link] ∧ T.link.kind = .chain ∧ T.link.ch = (3 : BitVec 2).toFin ∧ T.link.ended = none ∧ T.link.page = none ∧ s.seat.chd[T.link.ch] ≠ 0
      ∧ T.base.seat.chd[T.link.ch] = 0 ∧ s.seat.chStop[T.link.ch] = false)
    ∧ T.run (mPastOwn 7 (recordRead T.link s.seat.chd[T.link.ch])) s (fun rec s1 =>
      (recD rec 0).getLsbD 63 && !recReserved rec && decide (recConv rec = some .none ∧ s1.seat.copies = [T.link])
      && T.run (mPastOwn 7 (recRefused .none rec)) s1 (fun refused s5 => decide (refused = false ∧ s5.seat.copies = [T.link] ∧ s5.seat.chStop[T.link.ch] = false))
      && T.run (mPastOwn 7 (doneOut .none rec (recDone rec))) s1 (fun _ s2 => T.run (recRanges T.link .none rec) s2 (fun rs s3 =>
        decide (rs.length = 2) && T.run (enterRanges 7 rs) s3 (fun _ s4 => decide (s4.seat.copies = [T.link]))))) = true
    ∧ T.run (mPastOwn 7 (recordRead T.link s.seat.chd[T.link.ch])) { s with mem := [] } (fun rec _ => !(recD rec 0).getLsbD 63 && decide (recConv rec = some .none)) = true := by
  decide +kernel
/-- A record whose conversion its source's format does not list. -/
theorem test_meets_chain_refused :
    let rec_ : List Byte := (T.record.set 5 0x11).flatMap (fun d => bytesOf d 8)
    let s : State := { T.chained T.link with mem := T.dwords (nearKey 0 0) (T.record.set 5 0x11) }
    recConv rec_ = some (.to 1) ∧ recReserved rec_ = false ∧ T.run (mPastOwn 7 (recRefused (.to 1) rec_)) s (fun refused s5 =>
      decide (refused = true ∧ s5.seat.copies = [T.link])
      && T.run (recordWrite T.link 0xFFFFFE0000000000 rec_ true 0x0E (recDone rec_)) s5 (fun _ s2 => decide (s2.seat.copies = [T.link]))) = true := by decide +kernel
theorem test_meets_chain_moves :
    let c : Copy := { T.link with begun := some 0xFFFFFE0000000000, row := T.record.flatMap (fun d => bytesOf d 8) }
    let s := (T.chained c).onSeat (fun t => { t with ranges := [⟨7, 0x1000, 0x1040, false⟩, ⟨7, 0x2000, 0x2040, true⟩] })
    let rec_ := c.row
    (fun rec => !(recD rec 5).getLsbD 10 && decide (recConv rec = some .none)
      && T.run (moveRecord c .none rec c.off 0 64) (s.onSeat (fun t => { t with ranges := t.ranges.filter (fun r => r.tok != c.tok) })) (fun moved s2 =>
        moved.bad.isNone && decide (recLen rec * recRows rec ≤ c.off + moved.raw.length) && T.run (recordWrite c s.seat.chd[c.ch] rec false 0xFF (recLen rec * recRows rec)) s2 (fun _ s3 =>
          decide (s3.seat.copies = [c] ∧ s3.seat.ranges = [])))) rec_ = true := by decide +kernel

/-- A plain copy that can move, one whose source is no pad byte, a chain that has ended and one that has not. -/
theorem test_meets_retire :
    let c : Copy := { kind := .plain, tok := 7, src := 0xFFFFFE0000000000, dst := 0xFFFFFE0000001000, len := 64, lsn := 0 }
    let s := T.base.onSeat (fun t => { t with copies := [c] })
    s.seat.copies = [c] ∧ c.tok = (7 : BitVec 3).toFin ∧ c.ended = none ∧ ({ T.link with ended := some 0x13 } : Copy).ended = some 0x13 ∧ T.link.ended = none
    ∧ T.run (copySpans c) s (fun l s1 => T.run (moveAll c l) s1 (fun _ _ => true)) = true
    ∧ (match copySpans { c with src := 0xFFFFFEFFFFFFFFC0 } s with
      | .error (.fault _) => true
      | _ => false) = true := by decide +kernel

/-- A unit that has come to its end, one that a QUENCH has killed, and a check that is due. -/
theorem test_meets_unit_ends :
    let ended := T.base.onSeat (fun t => { t with engS := { t.engS with done := true }, engA := { t.engA with done := true }, engV := { t.engV with done := true }
                                                  engM := { t.engM with done := true }, engW := { t.engW with done := true }, engC := { t.engC with done := true } })
    let killed := T.base.onSeat (fun t => { t with kill := .quench, atKill := true, cycles := 65536 })
    ended.seat.status = .running ∧ (∀ d ∈ engines, (ended.seat.eng d).done = true) ∧ ended.seat.gsb = [] ∧ ended.seat.atoms = [] ∧ ended.seat.mq = [] ∧ ended.seat.copies = [] ∧ ended.seat.unpub = [] ∧ ended.seat.drain = none ∧ ended.seat.gens = [] ∧ ended.seat.preds = []
    ∧ 1 < ((T.base.part 0).scope 1).counter.toNat ∧ (∀ y ∈ (T.base.part 0).scopes, y.num ≠ 0 → y.counter ≠ 0) ∧ (∀ t ∈ T.base.others, t.copies = [])
    ∧ killed.seat.kill = .quench ∧ killed.seat.replay = [] ∧ killed.seat.atoms = [] ∧ killed.seat.copies = [] ∧ killed.seat.atKill = true ∧ (∀ y ∈ killed.seat.unpub, y.copy = false) ∧ 65536 ≤ (killed.seat.cycles - killed.seat.chk).toNat
    ∧ T.base.seat.kill = .no ∧ T.base.seat.status ≠ .vacant := by
  decide

theorem test_meets_timeout :
    let s := T.base.onSeat (fun t => { t with cycles := 0x100007, engA := { t.engA with remote := .asked 7 0 } })
    let ack := T.base.onEng .s (fun x => { x with remote := .asked 7 0, wait := some .ack })
    ((s.seat.eng .a).wait ≠ some .ack ∧ ∀ j ∈ engines, (ack.seat.eng j).remote = .idle ∨ (ack.seat.eng j).wait = some .ack)
    ∧ (s.seat.eng .a).remote = .asked 7 0 ∧ 7 + 2 ^ 20 ≤ s.seat.cycles.toNat ∧ (∀ j, engNum j < engNum .a → (s.seat.eng j).remote = .idle) := by
  refine ⟨by decide, rfl, by decide, ?_⟩; intro d; cases d <;> simp [engNum] <;> rfl

-- The dispatcher and the host.

/-- A released entry and a free seat; a saved unit; a due entry and one that waits; the last VF and the first in turn. -/
def T.entry : Entry := { unit := { uid := 9, image := 1, scope := 1, gen := 1 }, phase := .released }
def T.idle : State := { T.base with seat := {}, parts := [{ T.part with entries := [T.entry] }] }
theorem test_meets_placement :
    seatExists 1 = true ∧ (T.idle.cell (cellOf 1)).retired = false ∧ (∀ t ∈ T.idle.seats, t.id ≠ 1) ∧ T.idle.saved = [] ∧ T.idle.partOf (clusOf 1) = 0
    ∧ (T.idle.part 0).entries = [T.entry] ∧ T.entry.phase = .released ∧ T.entry.pv = false ∧ T.entry.unit.vf = T.idle.curVf ∧ dieServes T.idle 0 T.entry.unit = true
    ∧ T.idle.image T.entry.unit.image = some T.img
    ∧ (∀ e ∈ engines, (T.img.img.slices[engNum e]?).map (fun x => x.start) = some 0) := by decide

theorem test_meets_resume :
    let x : Saved := { seat := T.base.seat, banks := [(0, { cell := 0 }), (63, { cell := 1 })] }
    let s := { T.base with seat := {}, saved := [x] }
    s.saved = [x] ∧ (s.part 0).entries = [] ∧ x.seat.unit.part = 0 ∧ x.seat.unit.vf = s.curVf ∧ x.reply = none ∧ x.unsent = false ∧ x.pinClus = false
    ∧ roomIn s (clusOf 1) x = true ∧ x.seat.replay = [] ∧ dieServes s 0 x.seat.unit = true ∧ (x.banks.map Prod.fst).Nodup ∧ (∀ b ∈ x.banks, b.1 < 64) ∧ (∀ t ∈ s.seats, t.id ≠ 1) := by decide

theorem test_meets_ticks :
    let due : Entry := { T.entry with dv := true, due := 0, phase := .waiting }
    (T.base.parts.map (fun p => p.id)).Nodup ∧ (∀ g ∈ T.base.graces, g.left ≠ 0) ∧ (∀ d, d < 4 → ∀ k, k < 64 → expired T.base d k (T.base.bind d k) = false) ∧ nextVf T.base = T.base.curVf
    ∧ (let s := { T.idle with parts := [{ T.part with entries := [{ T.entry with unit := { T.entry.unit with vf := 5 } }] }] }; sliceOver s = true ∧ nextVf s ≠ s.curVf)
    ∧ reached 0 due.due = true ∧ reached 0 1 = false ∧ T.base.seat.status ≠ .vacant := by decide +kernel

/-- VF 5 is the next with work after VF 0, and the last VF with work comes round to 0; a slice at its end (how long one is, and so whether an
age lies below it, is open). -/
theorem test_meets_slices :
    let work (v : Nat) : State := { T.base with parts := [{ T.part with entries := [{ T.entry with unit := { T.entry.unit with vf := v } }] }] }
    Config.sliceLength 0 ≤ ({ T.base with sliceAge := Config.sliceLength 0 } : State).sliceAge
    ∧ (hasWork (work 5) 5 = true ∧ ∀ w, w < 97 → (w + 96 - 0) % 97 < (5 + 96 - 0) % 97 → hasWork (work 5) w = false)
    ∧ T.base.others = [] ∧ T.base.seat.unit.part = 0 ∧ T.base.seat.unit.vf = T.base.curVf ∧ T.base.seat.unit.pinned = false
    ∧ (∀ t ∈ T.idle.seats, t.unit.part = 0 → t.unit.vf = T.idle.curVf → t.unit.pinned = true)
    ∧ hasWork T.base 0 = true ∧ hasWork (work 5) T.base.curVf = true ∧ hasWork { (work 5) with seat := {} } 0 = false := by
  exact ⟨Nat.le_refl _, by decide +kernel⟩
/-- A swapped entry (which of the two sides of the region's size, a value that each implementation has, a state is on is open). -/
theorem test_meets_restore :
    let e : Entry := { T.entry with swapped := true }
    let s := { T.base with parts := [{ T.part with entries := [e] }] }
    (∃ p ∈ s.parts, e ∈ p.entries) ∧ e.swapped = true ∧ e.phase ≠ .placed
    ∧ (∀ p ∈ s.parts, ∀ y ∈ p.entries, y.swapped = true → y.phase ≠ .placed → e.unit.uid ≤ y.unit.uid) := by
  exact ⟨⟨_, List.mem_singleton.mpr rfl, List.mem_singleton.mpr rfl⟩, rfl, by decide, by decide⟩

/-- Queue 1023 of VF 0, waiting and in the last slot of the last die with command `d`, and scopes of each kind below the root. -/
def T.queue (nest : List (BitVec 12 × BitVec 20)) : HostQueue := { vf := 0, q := 1023, nest, tail := 1 }
def T.scope (n : BitVec 12) (kind : ScopeKind) (parent : BitVec 12) : Scope := { num := n, gen := 1, parent, state := .opened, kind, counter := 1 }
def T.nest : List (BitVec 12 × BitVec 20) := [(3, 1), (2, 1), (1, 1)]
def T.job : Job := { scope := 1, part := 0, vf := 0, q := 1023, record := 0, tag := 0, slips := 0 }
def T.host (nest : List (BitVec 12 × BitVec 20)) (d : List Dword) : State :=
  State.setBind { T.base with
    mem := T.dwords 0 [0x10000001] ++ T.dwords 0x10000 [0x20000001] ++ T.dwords 0x20000 [0x30000007] ++ T.dwords 0x30000 [0, 0, 1, 0] ++ T.dwords (hostKey 0) d
    queues := [T.queue nest], jobs := [T.job]
    parts := [{ T.part with keys := [0], scopes := [{ num := 0, gen := 1, state := .opened, kind := .root, counter := 1 }, T.scope 1 .job 0, T.scope 2 .pass 1, T.scope 3 .graph 2] }] }
    3 63 { v := true, qnum := 1023, tail := 1, logn := 4 }
def T.cmd (op : Dword) (addr count : Dword := 0) : List Dword := [op <<< 56, addr, count, 0, 0, 0, 0, 0]

theorem test_meets_bind :
    let s := { T.base with queues := [T.queue []] }
    (s.bind 3 63).v = false ∧ s.slotOf 0 1023 = none ∧ (T.queue []).head ≠ (T.queue []).tail ∧ s.admits 0 = true ∧ (T.queue []).proc < 256
    ∧ (T.queue []).logn < 32 ∧ (∀ k, k < 64 → (s.bind 3 k).holds 0 1023 = false) ∧ s.partOf (64 * 3 + 39) = 0
    ∧ (let two := (T.host [] (T.cmd 1))
      two.slotOf 0 1023 = some (3, 63) ∧ (∀ k, k < 64 → (two.bind 2 k).holds 0 1023 = false) ∧ (two.bind 2 0).v = false) := by decide +kernel

/-- Each command at the head of the queue, well-formed and in a nest that takes it, with scope 4 free. -/
theorem test_meets_commands_of_host :
    let ready (nest : List (BitVec 12 × BitVec 20)) (d : List Dword) (op : Nat) : Bool :=
      let s := T.host nest d
      let b := s.bind 3 63
      let p := s.part 0
      decide (s.slotOf 0 1023 = some (3, 63)) && decide (s.queue 0 1023 = T.queue nest) && decide (b.head ≠ b.tail) && !p.rst && s.admits 0
        && !nestGone p (T.queue nest) && cmdFields (headEntry s b) && cmdNests p nest (cmdOp (headEntry s b)) && decide (cmdOp (headEntry s b) = op)
        && decide (p.freeScope = some 4)
    ready [] (T.cmd 1) 1 = true ∧ ready [(1, 1)] (T.cmd 2) 2 = true ∧ ready [(2, 1), (1, 1)] (T.cmd 3) 3 = true ∧ ready T.nest (T.cmd 4 0 1) 4 = true
    ∧ ready T.nest (T.cmd 5) 5 = true := by decide +kernel

theorem test_meets_host_scopes :
    let s := T.host T.nest (T.cmd 5)
    let j := T.host [] (T.cmd 1)
    ((s.part 0).scope 3).counter ≠ 0 ∧ (∀ y ∈ (s.part 0).scopes, y.state = .closed → y.counter ≠ 0)
    ∧ jobQueues j = [T.queue []] ∧ wins j (jobQueues j) (T.queue []) = true ∧ openJob s 0 (T.queue T.nest) = some T.job
    ∧ findDeps T.job (3, 1) (cmdDeps (T.cmd 4 0 1)) = some [] := by decide +kernel

/-- A LAUNCH of one entry that lies in a page of the context. -/
theorem test_meets_launch :
    let s := T.host T.nest (T.cmd 4 0 1)
    (match loadEntries s (T.queue T.nest) 0 (s.queuePinned 0 1023) 4 1 [] 0 1 0 with
      | (s1, some l) => decide (l.length = 1 ∧ s1.part 0 = s.part 0)
      | (_, none) => false) = true := by decide +kernel

/-- A command of no kind, and a PASS outside a job. -/
theorem test_meets_breaches :
    cmdFields (T.cmd 9) = false ∧ cmdFields (T.cmd 2) = true ∧ cmdNests T.part [] (cmdOp (T.cmd 2)) = false ∧ cmdOp (T.cmd 2) = 2 := by decide

/-- A slot's watchdog at its limit, with the queue's job open; a grace period at its end, and one that runs; clusters at both ends of a die's. -/
theorem test_meets_watchdog :
    let s := (T.host T.nest (T.cmd 5)).setBind 3 63 { v := true, qnum := 1023, wdog := 5, count := 5 }
    let g (n : Nat) := { s with graces := [⟨3, 63, 0, 1, 1, n⟩] }
    (s.bind 3 63).wdog ≠ 0 ∧ (s.bind 3 63).wdog.toNat ≤ (s.bind 3 63).count.toNat ∧ s.graces = [] ∧ s.jobs = [T.job]
    ∧ s.slotOf 0 1023 = some (3, 63) ∧ (s.part 0).entries = [] ∧ s.saved = [] ∧ ((s.part 0).scope 1).state = .opened ∧ (∀ y ∈ (s.part 0).scopes, y.num ≠ 0 → y.counter ≠ 0)
    ∧ (s.vf 0).fltbase.toNat + 64 < 2 ^ 52
    ∧ (∃ x ∈ (g 0).graces, x.part = 0 ∧ x.left = 0) ∧ (∀ x ∈ (g 1).graces, x.part = 0 → x.left ≠ 0) ∧ s.others = [] ∧ s.seat.unit.part = 0
    ∧ s.seat.status ≠ .vacant ∧ s.partOf 0 = 0 ∧ s.partOf 231 = 0 ∧ 231 % 64 < 40 := by decide +kernel

/-- A doorbell at both ends of its window and past them; a port that allows a tag. -/
theorem test_meets_host_registers :
    let s := { T.base with queues := [T.queue []], ports := T.base.ports.set 47 { allowed := [7] }, parts := [{ T.part with tag := 7 }]
                           seat := { T.base.seat with engA := { T.eng with remote := .asked 3 0 } } }
    let b := ((T.host [] (T.cmd 1)).bind 3 63)
    s.vfOn 0 = true ∧ s.vfOn 96 = true ∧ ((16 : W32) - b.head).toNat ≤ 2 ^ b.logn.toNat ∧ 2 ^ b.logn.toNat < ((17 : W32) - b.head).toNat
    ∧ s.slotOf 0 1023 = none ∧ ((0 : W32) - (s.queue 0 1023).head).toNat ≤ 2 ^ (s.queue 0 1023).logn
    ∧ 2 ^ (s.queue 0 1023).logn < ((0xFFFFFFFF : W32) - (s.queue 0 1023).head).toNat
    ∧ leadVf s (s.vf 1).part = some 1 ∧ (64 : Dword).toNat % 64 = 0 ∧ (65 : Dword).toNat % 64 ≠ 0
    ∧ (6 : Half) ∉ s.ports[47].allowed ∧ (7 : Half) ∈ s.ports[47].allowed ∧ nodeOf 5 < 4 ∧ s.parts.find? (fun p => p.tag == 7) = some s.myPart ∧ 1 ≠ s.myPart.epoch ∧ 0 = s.myPart.epoch
    ∧ (∀ p ∈ s.parts, p.tag ≠ 6) ∧ s.seat.status ≠ .vacant ∧ s.seat.gens = [] ∧ s.seat.copies = [] ∧ s.seat.replay = []
    ∧ s.foreign (packetOwner s 7 5).2 5 = none ∧ (s.seat.eng .a).remote = .asked 3 0 ∧ (s.seat.eng .s).remote = .idle := by decide +kernel

/-- Kernels that the Hearth takes and refuses, with their images. -/
theorem test_meets_hearth :
    let k : Kernel := { words := [0x1080000D], objects := [] }
    let bad : Kernel := { words := [0xFFFFFFFF], objects := [] }
    let e (w : W32) : Slice := ⟨0, [w], [⟨0, 0, 0, false, false⟩]⟩
    let img : SliceImage := { handle := 0, base := 0, slices := [e 0x1080000D, e 0x3C000000, e 0x5C000000, e 0x7C000000, e 0x9C000000, e 0xBC000000], targets := [], hintTargets := [] }
    [k].all kernelOk = true ∧ [k, bad].all kernelOk = false ∧ imageOk k img = true ∧ imageOk k { img with slices := img.slices.take 5 } = false ∧ codePages T.base 0 0 img = true
    ∧ imageNamed T.base 1 = true ∧ imageNamed { T.base with seat := {} } 1 = false ∧ T.base.image 1 = some T.img
    ∧ (∀ p ∈ T.base.parts, p.entries = [] ∧ ∀ y ∈ p.scopes, y.num ≠ 0 → y.counter ≠ 0) ∧ T.base.seat.unit.image = 1 := by decide +kernel

theorem test_meets_partitions :
    let ring : List Byte := List.replicate 4 31 ++ List.replicate 252 0x80
    let ways := (List.range 48).map (fun k => (k, 31, (1 : BitVec 16)))
    let set_ : PartSetting := { part := 31, tag := 7, refill := 1, vfs := [96], keys := [5], pads := [], walkMin := 4, walkMax := 128, homes := [3], vfKeys := [(96, 5)] }
    let s := { T.base with seat := {}, parts := [{ T.part with keys := [] }] }
    ringOk ring = true ∧ ringOk (ring.drop 1) = false ∧ waysOk ways = true ∧ (∀ p ∈ dieTenants s 3 [set_], shareOk ring ways p = true)
    ∧ (∀ d ∈ set_.homes, d = 3) ∧ shareOk (dieRing s 2) (dieWays s 2) 31 = false ∧ settingsOk s [set_] = true ∧ shareOk (dieRing s 3) (dieWays s 3) 0 = true ∧ s.partOf 231 = 0 ∧ (∀ t ∈ s.seats, clusOf t.id ≠ 231)
    ∧ ({ s with owned := [(231, 31)] } : State).partOf 231 ≠ Fin.ofNat 32 0 ∧ 927 / 4 % 64 < 40
    ∧ ((T.host [] (T.cmd 1)).bind 3 63).v = true
    ∧ ((List.range 64).filter (fun k => k != 63 && ((T.host [] (T.cmd 1)).bind 3 k).pin)).length < 48 := by decide +kernel

/-- A responder at each point of the exchange, with one session or none; interfaces in each state. -/
theorem test_meets_trust :
    let y : Session := { sid := 1, secret := [] }
    let r : Responder := { version := true, caps := true, algs := true, opened := [y] }
    let s := { T.base with spdm := T.base.spdm.set 5 { r with opened := [{ y with ready := true }] }, ide := [{ stream := 3, die := 5, sid := 1, vfs := [96] }]
                           vfs := [{ vf := 1, tdi := .locked }, { vf := 2, tdi := .run }, { vf := 3, tdi := .error }], parts := [{ T.part with keys := [5] }] }
    (s.responder 5).version = true ∧ (s.responder 5).caps = true ∧ (s.responder 5).algs = true ∧ (s.responder 0).version = false ∧ (s.responder 0).caps = false
    ∧ (s.responder 0).algs = false ∧ r.opened = [y] ∧ y.ready = false ∧ (s.responder 5).opened = [{ y with ready := true }] ∧ (∀ z ∈ r.opened, z.sid ≠ 2)
    ∧ (measurement s 5 3).isSome = true ∧ measurement s 0 3 = none
    ∧ (∃ z ∈ (s.responder 5).opened, z.sid = 1 ∧ z.ready = true) ∧ s.bootFail = 0 ∧ (s.ide.filter (fun x => x.stream != 4)).length < 32
    ∧ streamSecret s 96 = some [] ∧ freeKey s (s.vf 96).part = some 5 ∧ (s.vf 96).tdi = .unlocked ∧ (∃ x ∈ s.ide, 96 ∈ x.vfs ∧ x.die = 5 ∧ x.sid = 1)
    ∧ streamSecret s 4 = none ∧ (s.vf 1).tdi = .locked ∧ (s.vf 2).tdi = .run ∧ (s.vf 3).tdi = .error ∧ s.sriov = true
    ∧ s.jobs = [] ∧ s.saved = [] ∧ ({ s with seat := {} } : State).seats = [] ∧ (∀ d ∈ s.dirty, d.vf ≠ 2) := by
  refine ⟨rfl, rfl, rfl, rfl, rfl, rfl, rfl, rfl, rfl, by decide, rfl, by decide, ?_⟩
  decide +kernel
-- What copies move.

/-- A span of the pad: eight bytes of block 0 to byte 4,096; and a place for its state with block 0 in each format. -/
def T.span (f : FCode) (n : Nat := 64) : Span :=
  { src := { key := nearKey 0 0, fmt := f, l1 := false, l2 := false, pad := some 0, page := 16384 }, sva := 0xFFFFFE0000000000, n
    dst := [({ key := nearKey 0 4096, fmt := f, pad := some 4096, page := 16384 }, 0xFFFFFE0000001000, n)] }
def T.mover : Copy := { kind := .plain, tok := 7, src := 0xFFFFFE0000000000, dst := 0xFFFFFE0000001000, len := 64, lsn := 0, spans := [T.span 0] }
def T.moving : State := T.cp.onSeat (fun t => { t with copies := [T.mover] })

theorem test_meets_copied_bytes :
    T.run (spans .none (fun va n => translate va n .read true) 0xFFFFFE0000000000 0xFFFFFE0000001000 64) T.cp (fun l _ => decide (l.length = 1)) = true
    ∧ (∀ i, i < 8 → T.cp.markAt (nearKey 0 0 + i) false false = none ∧ T.cp.foreign 0 (nearKey 0 0 + i) = none ∧ T.cp.hist = [] ∧ T.cp.seat.unpub = [] ∧ T.cp.seat.gsb = [])
    ∧ atomPending T.cp.seat 0 (nearKey 0 0) 8 = false
    ∧ T.run (spanRaw 0 (forkView 0) (T.span 0)) T.cp (fun raw _ => decide (raw.length = ((T.span 0).dst.map (fun p => p.2.2)).sum)) = true
    ∧ isZm 10 = true ∧ T.run (spanBytes 0 (forkView 0) .none (T.span 10 512)) (T.cpOf 10) (fun x _ => decide (x.2.length = 513)) = true := by decide +kernel

/-- A conversion without scales and one by the scales of the pad's last code page of its group. -/
theorem test_meets_converted_bytes :
    let s : State := { T.cp with cells := [{ ix := 0, pads := [(0, 65 ||| 5 <<< 2), (124, 65 ||| 9 <<< 2 ||| 16384)] }] }
    layoutOf 1 = some bf16 ∧ convListed 2 (.to 1) = true ∧ hasScales 2 = false ∧ convListed 5 (.to 1) = true ∧ hasScales 5 = true
    ∧ T.run (spanRaw 0 (forkView 0) (T.span 2)) (T.cpOf 2) (fun _ _ => true) = true
    ∧ T.run (spanRaw 0 (forkView 0) (T.span 5)) s (fun raw s1 => decide (raw.length / 32 = 2)
      && T.run (scalesAt 0 (forkView 0) 5 0xFFFFFE0000000000 []) s1 (fun _ s2 => T.run (scalesAt 0 (forkView 0) 5 0xFFFFFE0000000020 []) s2 (fun _ _ => true))) = true := by
  decide +kernel

theorem test_meets_reduced_bytes :
    layoutOf 1 = some bf16 ∧ (T.span 1).n % (widthOf 1 / 8) = 0 ∧ ((T.span 1).dst.map (fun p => p.2.2)).sum = (T.span 1).n
    ∧ T.run (spanRaw 0 (forkView 0) (T.span 1)) (T.cpOf 1) (fun raw _ => decide (raw.length = (T.span 1).n)) = true
    ∧ T.run (reduceBytes 0 0 1 (T.span 1)) (T.cpOf 1) (fun out _ => decide (out.length = 64)) = true := by decide +kernel

/-- The bytes of a pad and one beyond it, and the way of a copy of one span to its token. -/
theorem test_meets_moves :
    let w : List WByte := [{ key := nearKey 0 4096, val := 1 }, { key := 0x30000, val := 2 }]
    (Inv T.cp ∧ (w.map (fun b => b.key)).Nodup ∧ (∀ b ∈ w, b.mask = 0xFF ∧ b.kid = 0 ∧ T.cp.foreign 0 b.key = none) ∧ w.map (fun b => b.inPad) = [true, false])
    ∧ T.run (copySpan T.mover (T.span 0)) T.moving (fun b s1 => T.run (forkTokens T.mover (T.mover.unmoved b)) s1 (fun _ s2 => T.run (forkWrite T.mover (T.mover.unmoved b)) s2 (fun _ _ => true))) = true
    ∧ spanRemote (T.span 0) = false ∧ T.run (moveSpan T.mover (T.span 0)) T.moving (fun _ s1 => T.run (moveAll T.mover []) s1 (fun x _ => decide (x = (0, 0xFF)))) = true
    ∧ (match moveSpan T.mover (T.span 0) { T.moving with badMem := [{ lo := nearKey 0 0, n := 1, kind := 3, left := [nearKey 0 0] }] } with
      | .error (.fault f) => f.code == FC.soft
      | _ => false) = true
    ∧ T.moving.seat.copies.find? (fun x => x.tok == T.mover.tok) = some T.mover
    ∧ T.run (moveAll T.mover T.mover.spans) T.moving (fun x _ => decide (x = (64, 0xFF))) = true := by
  refine ⟨⟨rfl, ?_⟩, ?_⟩ <;> decide +kernel

/-- A record's row of 64 bytes, moved in one span. -/
theorem test_meets_rows :
    let rec_ := T.record.flatMap (fun d => bytesOf d 8)
    let c : Copy := { T.link with resp := true }
    let src (va : Dword) (n : Nat) : M Loc := translate va n .read true
    rec_.length = 64 ∧ recLen rec_ = 64 ∧ T.run (spanAt .none src 0xFFFFFE0000001000 0xFFFFFE0000002000 64) (T.chained c) (fun sp s1 => decide (sp.n = 64)
      && T.run (spanBytes 0 (forkView 0 true) .none sp) s1 (fun x s2 => T.run (forkTokens c (c.unmoved x.2) .plain) s2 (fun _ s4 => T.run (forkWrite c (c.unmoved x.2) .plain) s4 (fun _ s3 =>
        T.run (moveRun 63 c .none rec_ 0xFFFFFE0000001040 0xFFFFFE0000002040 0 0) (chargeBytes 64 s3) (fun _ _ => true))))) = true
    ∧ T.run (moveRun 64 c .none rec_ (recSrc rec_) (recDst rec_) 64 1) (T.chained c) (fun now s1 => decide (now.raw.length = 64)
      && T.run (moveRows c .none rec_ [] 0 0 now.left) s1 (fun _ _ => true)) = true := by decide +kernel
-- Single steps and functions on the spec's worked values and on corners worked out by hand from its tables.

/-- One execution of `i` on the small state, and what the next state must meet. -/
def T.exec1 (i : Instr) (s : State) (p : Seat → Bool) : Bool :=
  match exec i s with
  | .next t => p t.seat
  | .fault _ | .refused _ => false
def T.gives (i : Instr) (v : Dword) : Bool := T.exec1 i T.base (fun t => decide (t.s[7] = v ∧ t.engS.pc = 1))

/-- R99, R100: wrap-around, signs and borderline divisions. s1 is 0xFFFF_FE00_0000_0000, s2 8, s3 the least number, s4 −1, s6 7. -/
theorem test_alu :
    T.gives (.add 7 4 6) 6 = true ∧ T.gives (.sub 7 0 2) 0xFFFFFFFFFFFFFFF8 = true ∧ T.gives (.andn 7 4 6) 0xFFFFFFFFFFFFFFF8 = true
    ∧ T.gives (.sar 7 3 6) 0xFF00000000000000 = true ∧ T.gives (.shr 7 3 6) 0x0100000000000000 = true ∧ T.gives (.rot 7 6 2) 0x0700000000000000 = true
    ∧ T.gives (.min 7 3 6) 0x8000000000000000 = true ∧ T.gives (.minu 7 3 6) 7 = true ∧ T.gives (.slt 7 4 0) 1 = true ∧ T.gives (.sltu 7 4 0) 0 = true
    ∧ T.gives (.mulh 7 4 4) 0 = true ∧ T.gives (.mulhu 7 4 4) 0xFFFFFFFFFFFFFFFE = true ∧ T.gives (.div 7 3 4) 0x8000000000000000 = true
    ∧ T.gives (.div 7 6 0) 0xFFFFFFFFFFFFFFFF = true ∧ T.gives (.rem 7 3 4) 0 = true ∧ T.gives (.rem 7 6 0) 7 = true ∧ T.gives (.remu 7 6 2) 7 = true := by
  decide

theorem test_alu_unary :
    T.gives (.clz 7 0) 64 = true ∧ T.gives (.ffs 7 0) 64 = true ∧ T.gives (.ffs 7 1) 41 = true ∧ T.gives (.popc 7 1) 23 = true
    ∧ T.gives (.brev 7 6) 0xE000000000000000 = true ∧ T.gives (.bswp 7 6) 0x0700000000000000 = true ∧ T.gives (.csel 7 6 2) 8 = true
    ∧ T.gives (.addw 7 4 6) 6 = true := by decide

/-- R101: SLTUI against −1 gives 1 for every value but −1. -/
theorem test_immediates :
    T.gives (.addi 7 6 (-8)) 0xFFFFFFFFFFFFFFFF = true ∧ T.gives (.sltui 7 3 (-1)) 1 = true ∧ T.gives (.sltui 7 4 (-1)) 0 = true
    ∧ T.gives (.slti 7 3 0) 1 = true ∧ T.gives (.sari 7 3 63) 0xFFFFFFFFFFFFFFFF = true ∧ T.gives (.xori 7 6 (-1)) 0xFFFFFFFFFFFFFFF8 = true := by decide

/-- R102: the three words that make the pad-space base. -/
theorem test_constants :
    T.gives (.movw 7 0) 0 = true ∧ T.gives (.movk2 7 0x1FF80) 0x0007FE0000000000 = true
    ∧ T.exec1 (.movk3 7 0x1FFF) (T.base.onSeat (fun t => { t with s := t.s.set 7 0x0007FE0000000000 })) (fun t => decide (t.s[7] = 0xFFFFFE0000000000)) = true
    ∧ T.gives (.movw 7 0x10000) 0xFFFFFFFFFFFF0000 = true := by decide

/-- R97: s0 discards a write and reads as zero. -/
theorem test_s0 : T.exec1 (.addi 0 6 1) T.base (fun t => decide (t.s = T.base.seat.s ∧ t.engS.pc = 1)) = true := by decide

/-- R107: a load of the pad zero-extends, its offset counted in elements, and R109: a misaligned one is held as an ALIGN fault. -/
theorem test_loads :
    let s := { T.base with mem := [(nearKey 0 8, 0xFF), (nearKey 0 9, 0x80)] }
    T.exec1 (.ldh 7 1 4) s (fun t => decide (t.s[7] = 0x80FF)) = true ∧ T.exec1 (.ldb 7 1 9) s (fun t => decide (t.s[7] = 0x80)) = true
    ∧ (match exec (.ldw 7 6 0) (s.onEng .s (fun x => { x with lsn := 1 })) with
      | .next t => (t.seat.engS.held.map (fun f => f.code)) == some FC.align
      | .fault _ | .refused _ => false) = true := by decide

/-- R33, R109: a store waits in the buffer, and a later load of the unit finds its bytes there. -/
theorem test_store_then_load :
    (match exec (.sth 6 1 4) T.base with
      | .next t => T.exec1 (.ldd 7 1 1) (t.onSeat (fun u => { u with engS := { u.engS with lsn := 1 }, engC := { u.engC with done := true } })) (fun u => decide (u.s[7] = 7 ∧ u.gsb.length = 1)) && decide (t.mem = [])
      | .fault _ | .refused _ => false) = true := by decide

/-- R103: a branch taken and not taken, by signed and unsigned comparison. -/
theorem test_branches :
    T.exec1 (.blt 4 0 3) T.base (fun t => decide (t.engS.pc = 3)) = true ∧ T.exec1 (.bltu 4 0 3) T.base (fun t => decide (t.engS.pc = 1)) = true
    ∧ T.exec1 (.bne 6 6 3) T.base (fun t => decide (t.engS.pc = 1)) = true := by decide

/-- R219: TRAP with a handler at word 3, one that has been answered, and ERET. -/
theorem test_trap :
    T.exec1 (.trap 5) (T.base.onSeat (fun t => { t with tvec := 12 })) (fun t => decide (t.engS.pc = 3 ∧ t.ecode = 5 ∧ t.hf = true ∧ t.epc = 4)) = true
    ∧ T.exec1 (.trap 5) (T.base.onSeat (fun t => { t with after := some (0, 0) })) (fun t => decide (t.engS.pc = 1 ∧ t.after = none ∧ t.hf = false)) = true
    ∧ T.exec1 .eret (T.base.onSeat (fun t => { t with hf := true, epc := 8 })) (fun t => decide (t.engS.pc = 2 ∧ t.hf = false)) = true := by decide

/-- R85, R87, R71: LOOP with two passes left goes back, counts down and rotates. -/
theorem test_loop :
    T.exec1 (.loop .v 0 (-1)) (T.base.onEng .v (fun x => { x with pc := 2, lc := x.lc.set 0 2, rbv := 0 }))
      (fun t => decide (t.engV.pc = 1 ∧ t.engV.lc[0] = 1 ∧ t.engV.rbv = 23)) = true := by decide

/-- R88, R90: local registers. -/
theorem test_local_registers :
    T.exec1 (.xaddi .c 15 1 (-1)) T.base (fun t => decide (t.engC.x[15] = 0xFFFFFDFFFFFFFFFF ∧ t.engA.x[15] = 0)) = true
    ∧ T.exec1 (.xmovw .a 3 0x1FFFF) T.base (fun t => decide (t.engA.x[3] = 0xFFFFFFFFFFFFFFFF)) = true := by decide

/-- R153, R154: saturating and wrapping sums of bytes; the elements past the last active one are kept. -/
theorem test_vector_sums :
    let s := (T.vec 1 1).onSeat (fun t => { t with v := (t.v.set 1 0x11FF).set 2 0x2202 })
    T.exec1 (.vadd 3 1 2 1 .wrap) s (fun t => decide (t.v[3] = 0x01)) = true ∧ T.exec1 (.vadd 3 1 2 1 .us) s (fun t => decide (t.v[3] = 0xFF)) = true
    ∧ T.exec1 (.vadd 2 1 2 1 .ss) s (fun t => decide (t.v[2] = 0x2201)) = true := by decide +kernel

/-- R155: 1 + 2 in FP32, and R156: a predicate of no element leaves the word without effect. -/
theorem test_vector_float :
    let s (n : BitVec 13) := (T.vec 3 n).onSeat (fun t => { t with v := (t.v.set 1 0x3F800000).set 2 0x40000000 })
    T.exec1 (.vfadd 3 1 2 1) (s 1) (fun t => decide (t.v[3] = 0x40400000)) = true
    ∧ T.exec1 (.vfadd 3 1 2 1) (s 0) (fun t => decide (t.v[3] = 0 ∧ t.engV.pc = 1)) = true := by decide +kernel

/-- R50, R58: the worked QN4 products: code 15 with scale 64 and superscale 2^−7, and the tie of code 13 with 5 and 1. -/
theorem test_qn4 : numToF bf16 .rne (qn4Num 15 64 0x3C000000) = 0x3F00 ∧ numToF bf16 .rne (qn4Num 13 5 0x3F800000) = 0x4040 := by decide +kernel

/-- R57: FP32 464 saturates in E4M3 and is exact in BF16. -/
theorem test_conversions : numToF e4m3 .rne (decodeF fp32 0x43E80000) = 0x7E ∧ numToF bf16 .rne (decodeF fp32 0x43E80000) = 0x43E8 := by decide +kernel

/-- R63: the worked keep test. -/
theorem test_keep : keepTest 0 0 1 60724 = true ∧ keepTest 0 0 1 60725 = false := by decide +kernel

/-- R184: THRESH takes 65,536 and refuses 65,537. -/
theorem test_dcfg :
    T.exec1 (.dcfg .thresh 0x10000) T.base (fun t => decide (t.dcfg.thresh = 0x10000)) = true
    ∧ (match exec (.dcfg .thresh 0x10001) T.base with
      | .next t => decide (t.seat.dcfg.thresh = T.base.seat.dcfg.thresh)
      | .fault _ | .refused _ => false) = true := by decide +kernel

/-- R283: of two logged tile tags the older one stays: a TFMT's entry made before an LDT's is undone after it. -/
theorem test_undo_newest_first :
    let t := { T.base.seat with slagV := [{ undo := .tag 3 12, lsn := 0, ord := 1 }], logA := [{ undo := .tag 3 4, lsn := 0, ord := 2 }] }
    (takeFault t .s { code := 0x14, aux := 0x40 }).tiles[3].tag = 12 := by decide

/-- R136, R197, R198: a chain ends at a next record of zero, and keeps its ranges until its token retires. -/
theorem test_chain_record :
    let s := (T.chained { T.link with begun := some 0xFFFFFE0000000000, row := T.record.flatMap (fun d => bytesOf d 8) }).onSeat (fun t => { t with ranges := [⟨7, 0x1000, 0x1040, false⟩, ⟨7, 0x2000, 0x2040, true⟩] })
    T.exec1 (.chainRecord 3) s (fun t => decide (t.ranges.length = 2 ∧ t.chd[3] = 0 ∧ t.copies.map (fun c => c.ended) = [some 0xFF])) = true := by decide +kernel

/-- R18, R243, R303: 128 walkers at most and four at least for a partition; partition 0 owns no ring entry. -/
theorem test_settings :
    let x : PartSetting := { part := 31, tag := 7, refill := 1, vfs := [], keys := [], pads := [], walkMin := 4, walkMax := 128 }
    settingsOk T.base [x] = true ∧ settingsOk T.base [{ x with walkMin := 3 }] = false ∧ settingsOk T.base [{ x with walkMax := 129 }] = false
    ∧ ringOk (List.replicate 256 0x80) = true ∧ ringOk (List.replicate 255 0x80 ++ [0]) = false := by decide +kernel

/-- R23, R92: an XSEND that no word of its engine reads, and a TFMT of a reserved format, make no image. -/
theorem test_kernels :
    kernelOk { words := [0x1080A84E, 0x1080000D], objects := [] } = false ∧ kernelOk { words := [0x53865800, 0x1080000D], objects := [] } = false
    ∧ kernelOk { words := [0x1080000D], objects := [] } = true := by decide +kernel
end

section
/-! SUPPORT. What the records of partitions, functions, scopes, queues and slots read as after a change, what opening a scope does, and which
operations leave partitions and bind records as they were. -/

set_option autoImplicit false

namespace Sys2Proof.Machine

-- Looking up what has been put.

theorem part_id (s : State) (i : Fin 32) : (s.part i).id = i := by
  unfold State.part
  cases h : s.parts.find? (fun x => x.id == i) with
  | none => rfl
  | some p => simpa using List.find?_some h

theorem vf_vf (s : State) (v : Nat) : (s.vf v).vf = v := by
  unfold State.vf
  cases h : s.vfs.find? (fun x => x.vf == v) with
  | none => rfl
  | some y => simpa using List.find?_some h

theorem scope_num (p : Part) (n : BitVec 12) : (p.scope n).num = n := by
  unfold Part.scope
  cases h : p.scopes.find? (fun x => x.num == n) with
  | none => rfl
  | some y => simpa using List.find?_some h

theorem scope_setScope (p : Part) (x : Scope) (n : BitVec 12) : (p.setScope x).scope n = if n = x.num then x else p.scope n := by
  unfold Part.scope Part.setScope
  split
  · rename_i h; subst h; rw [find_putWhere _ _ _ (by simp)]; rfl
  · rename_i h
    rw [find_putWhere_other _ _ _ _ (by simpa using fun e => h e.symm) (by intro y hy; simp at hy ⊢; rw [hy]; exact fun e => h e.symm)]

theorem mem_putWhere {α : Type} {p : α → Bool} {x y : α} {l : List α} (h : y ∈ putWhere p x l) : y = x ∨ y ∈ l := by
  induction l with
  | nil => simpa [putWhere] using h
  | cons z rest ih =>
    unfold putWhere at h
    split at h
    · exact (List.mem_cons.1 h).imp_right (List.mem_cons_of_mem _)
    · rcases List.mem_cons.1 h with rfl | h
      · exact .inr List.mem_cons_self
      · exact (ih h).imp_right (List.mem_cons_of_mem _)

theorem queue_setQueue (s : State) (x : HostQueue) : (s.setQueue x).queue x.vf x.q = x := by
  unfold State.queue State.setQueue
  rw [find_putWhere _ _ _ (by simp)]
  rfl

-- The tables of bind records (R248).

theorem bind_setBind (s : State) (die slot : Nat) (b : Bind) (d k : Nat) :
    (s.setBind die slot b).bind d k = if die % 4 = d % 4 ∧ slot % 64 = k % 64 then b else s.bind d k := by
  unfold State.bind State.setBind
  simp only [Fin.getElem_fin, Fin.val_ofNat, Vector.getElem_set]
  split
  · rename_i h
    simp only [Vector.getElem_set, h, true_and]
  · rename_i h; exact (if_neg (fun c => h c.1)).symm

theorem getElem_vmap {α β : Type} {n : Nat} (f : α → β) (v : Vector α n) (i : Nat) (h : i < n) : (vmap f v)[i] = f v[i] := by
  simp [vmap]

theorem bind_mapBinds (s : State) (f : Bind → Bind) (d k : Nat) : (mapBinds s f).bind d k = f (s.bind d k) := by
  unfold State.bind mapBinds
  simp only [getElem_vmap]

theorem holds_iff {b : Bind} {vf q : Nat} : b.holds vf q = true ↔ b.v = true ∧ b.vf.toNat = vf ∧ b.qnum.toNat = q := by
  simp [Bind.holds, and_assoc]

theorem mem_allSlots {a : Nat × Nat} : a ∈ allSlots ↔ a.1 < 4 ∧ a.2 < 64 := by
  obtain ⟨d, k⟩ := a
  simp only [allSlots, List.mem_flatMap, List.mem_map, List.mem_range, Prod.mk.injEq]
  exact ⟨fun ⟨_, hd, _, hk, e, f⟩ => e ▸ f ▸ ⟨hd, hk⟩, fun ⟨hd, hk⟩ => ⟨d, hd, k, hk, rfl, rfl⟩⟩

/-- The slot that holds a queue is a slot, and its record the queue's. -/
theorem slotOf_holds {s : State} {vf q : Nat} {a : Nat × Nat} (h : s.slotOf vf q = some a) :
    a.1 < 4 ∧ a.2 < 64 ∧ (s.bind a.1 a.2).holds vf q = true :=
  have ⟨hd, hk⟩ := mem_allSlots.1 (List.mem_of_find?_eq_some h)
  ⟨hd, hk, by simpa using List.find?_some h⟩

-- What is read of equal tables is equal.

theorem bind_congr {s t : State} (h : t.slots = s.slots) (d k : Nat) : t.bind d k = s.bind d k := by
  unfold State.bind; simp only [h]

theorem vf_congr {s t : State} (h : t.vfs = s.vfs) (v : Nat) : t.vf v = s.vf v := by
  unfold State.vf; rw [h]

theorem part_congr {s t : State} (h : t.parts = s.parts) (i : Fin 32) : t.part i = s.part i := by
  unfold State.part; rw [h]

theorem scope_congr {p p' : Part} (h : p'.scopes = p.scopes) (n : BitVec 12) : p'.scope n = p.scope n := by
  unfold Part.scope; rw [h]

/-- A change of every partition that keeps its number is a change of each. -/
theorem part_map (s : State) {f : Part → Part} {i : Fin 32} (hid : ∀ p, (f p).id = p.id) (hd : f { id := i } = { id := i }) :
    ({ s with parts := s.parts.map f } : State).part i = f (s.part i) := by
  have hc : ((fun x : Part => x.id == i) ∘ f) = (fun x => x.id == i) := funext fun p => by simp [hid]
  unfold State.part
  rw [List.find?_map, hc]
  cases s.parts.find? (fun x => x.id == i) with
  | none => exact hd.symm
  | some p => rfl

-- Scopes that commands open and close (R209, R246).

theorem openScope_scope (p : Part) {n par : BitVec 12} (x : Scope) (h : n ≠ par) :
    (openScope p n par x).scope n = { x with
      num := n, gen := nextGen (p.scope n).gen, parent := par, state := .opened, cancel := false, cancelled := false, counter := 0 } := by
  unfold openScope
  simp only [scope_setScope, scope_num, if_neg h, if_neg h.symm, if_true]

theorem openScope_parent (p : Part) {n par : BitVec 12} (x : Scope) (h : n ≠ par) :
    (openScope p n par x).scope par = { p.scope par with counter := (p.scope par).counter + 1 } := by
  unfold openScope
  simp only [scope_setScope, scope_num, if_neg h.symm, if_true]

/-- Where no closed scope has a counter of zero, none becomes done. -/
theorem settle_busy {s : State} {part : Fin 32} (ct : List (BitVec 12)) (h : ∀ y ∈ (s.part part).scopes, y.state = .closed → y.counter ≠ 0) :
    settle s part ct = s := by
  have hf : (s.part part).scopes.find? (fun x => x.state == .closed && x.counter == 0 && x.num != 0) = none := by
    rw [List.find?_eq_none]
    intro y hy hc
    simp only [Bool.and_eq_true, beq_iff_eq] at hc
    exact h y hy hc.1.1 hc.1.2
  unfold settle settleFuel
  simp only [hf]

-- What the Hearth writes for a LAUNCH changes no partition and no bind record.

/-- The partitions and the bind records are as they were. -/
def KeepsTables (s t : State) : Prop := t.parts = s.parts ∧ t.slots = s.slots

theorem KeepsTables.refl (s : State) : KeepsTables s s := ⟨rfl, rfl⟩

theorem KeepsTables.trans {s t u : State} (h : KeepsTables s t) (h' : KeepsTables t u) : KeepsTables s u :=
  ⟨h'.1.trans h.1, h'.2.trans h.2⟩

theorem KeepsTables.foldl {α : Type} {f : State → α → State} (hf : ∀ s x, KeepsTables s (f s x)) (l : List α) (s : State) :
    KeepsTables s (l.foldl f s) := by
  induction l generalizing s with
  | nil => exact .refl s
  | cons x rest ih => exact (hf s x).trans (ih _)

theorem rekey_tables (s : State) (kid : BitVec 7) (k : Nat) : KeepsTables s (rekey s kid k) := by
  unfold rekey
  split <;> exact .refl s

theorem fillLine_tables (s : State) (t : LineTag) : KeepsTables s (fillLine s t) := by
  unfold fillLine
  dsimp only
  split
  · exact .refl s
  · constructor <;> (dsimp only; repeat' split) <;> rfl

theorem fillAt_tables (h : Nat) (part : Fin 32) (s : State) (b : WByte) : KeepsTables s (fillAt h part s b) := by
  unfold fillAt
  split
  · exact .refl s
  · exact fillLine_tables _ _

theorem homeWrite_tables (s : State) (u : UByte) (uid : Nat) (r : Option Reach) (id : SeatId) (part : Fin 32) (vf : Nat) :
    KeepsTables s (homeWrite s u uid r id part vf) := by
  refine (rekey_tables s u.byte.kid u.byte.key).trans ?_
  unfold homeWrite
  dsimp only
  split
  · exact fillAt_tables _ _ _ _
  · exact .refl _

theorem deviceWrite_tables (s : State) (k : Nat) (b : Byte) (r : Reach) (part : Fin 32) (l2 : Bool) (kid : BitVec 7) :
    KeepsTables s (deviceWrite s k b r part l2 kid) :=
  homeWrite_tables s { byte := { key := k, val := b, l2, kid }, lsn := 0 } 0 (some r) 0 part 0

theorem writeScope_tables (s : State) (part : Fin 32) (places : List (Nat × BitVec 7)) (n : BitVec 12) :
    KeepsTables s (writeScope s part places n) :=
  (deviceWrite_tables s _ _ _ _ _ _).trans (homeWrite_tables _ _ _ _ _ _ _)

theorem loadEntries_tables (x : HostQueue) (part : Fin 32) (pin : Bool) (n : BitVec 12) (g : BitVec 20) (deps : List (BitVec 12 × BitVec 20))
    (va : Dword) (k i : Nat) (s : State) : KeepsTables s (loadEntries s x part pin n g deps va k i).1 := by
  induction k generalizing s i with
  | zero => exact .refl s
  | succ k ih =>
    unfold loadEntries
    split
    · exact .refl s
    · exact (writeScope_tables s part _ n).trans (ih _ _)

theorem writeObjects_tables (s : State) (part : Fin 32) (x : HostQueue) (h : W32) : KeepsTables s (writeObjects s part x h) := by
  unfold writeObjects
  split
  · exact .refl s
  · exact .foldl (fun _ _ => .foldl (fun _ _ => .foldl (fun _ _ => deviceWrite_tables _ _ _ _ _ _ _) _ _) _ _) _ _

/-- A partition's scopes, and the units of its entries in order, are as they were: entries may have been swapped. -/
def SameWork (p p' : Part) : Prop := p'.scopes = p.scopes ∧ p'.entries.map (fun e => e.unit) = p.entries.map (fun e => e.unit)

/-- The entry with serial `uid` marked as swapped, if its unit is not placed (R255). -/
def swapEntry (uid : Nat) (p : Part) : Part :=
  { p with entries := p.entries.map (fun e => if e.unit.uid == uid && e.phase != .placed then { e with swapped := true } else e) }

theorem swapEntry_work (uid : Nat) (p : Part) : SameWork p (swapEntry uid p) := by
  refine ⟨rfl, ?_⟩
  unfold swapEntry
  rw [List.map_map]
  refine List.map_congr_left fun e _ => ?_
  rw [Function.comp_apply]
  split <;> rfl

theorem swapOne_eq (s : State) (v : Nat) : ∃ uid, swapOne s v = { s with parts := s.parts.map (swapEntry uid) } := ⟨_, rfl⟩

theorem swapOne_work (s : State) (v : Nat) (i : Fin 32) : SameWork (s.part i) ((swapOne s v).part i) := by
  obtain ⟨uid, h⟩ := swapOne_eq s v
  rw [h, part_map s (f := swapEntry uid) (fun _ => rfl) rfl]
  exact swapEntry_work uid _

theorem swapFuel_work (k : Nat) (s : State) (i : Fin 32) : SameWork (s.part i) ((swapFuel k s).part i) ∧ (swapFuel k s).slots = s.slots := by
  induction k generalizing s with
  | zero => exact ⟨⟨rfl, rfl⟩, rfl⟩
  | succ k ih =>
    unfold swapFuel
    split
    · exact ⟨⟨rfl, rfl⟩, rfl⟩
    · obtain ⟨⟨hs, he⟩, hb⟩ := ih (swapOne s (heaviest s))
      obtain ⟨hs', he'⟩ := swapOne_work s (heaviest s) i
      exact ⟨⟨hs.trans hs', he.trans he'⟩, hb⟩

theorem swapWork_work (s : State) (i : Fin 32) : SameWork (s.part i) ((swapWork s).part i) := (swapFuel_work _ s i).1

theorem swapWork_slots (s : State) : (swapWork s).slots = s.slots := (swapFuel_work _ s 0).2

end Sys2Proof.Machine
end

section
/-! SUPPORT. How a queue gets a slot and how the command at its head is applied (R245-R251). -/

set_option autoImplicit false

namespace Sys2Proof.Machine

-- Binding (R250).

theorem unbind_free {s : State} {die slot : Nat} (h : (s.bind die slot).v = false) : unbind s die slot = s := by
  simp [unbind, h]

@[simp] theorem openCtx_mem (s : State) (vf proc : Nat) : (openCtx s vf proc).mem = s.mem := by unfold openCtx; split <;> rfl
@[simp] theorem openCtx_vfs (s : State) (vf proc : Nat) : (openCtx s vf proc).vfs = s.vfs := by unfold openCtx; split <;> rfl
@[simp] theorem openCtx_slots (s : State) (vf proc : Nat) : (openCtx s vf proc).slots = s.slots := by unfold openCtx; split <;> rfl

/-- The record that a queue gets: HEAD, TAIL and COUNT are those of another record of it, if there is one (R19). -/
def boundRecord (s : State) (x : HostQueue) : Bind :=
  { v := true, count := ((s.slotOf x.vf x.q).map (fun p => (s.bind p.1 p.2).count)).getD 0, qbase := x.qbase, wdog := x.wdog
    part := BitVec.ofNat 5 (s.vf x.vf).part.val, prio := x.prio, logn := BitVec.ofNat 5 x.logn, vf := BitVec.ofNat 7 x.vf
    proc := BitVec.ofNat 8 x.proc, head := (s.heads x.vf x.q).1, tail := (s.heads x.vf x.q).2, qnum := BitVec.ofNat 10 x.q, vec := x.vec }

theorem bindQueue_bind {s : State} {die slot : Nat} (x : HostQueue) (h : (s.bind die slot).v = false) (d k : Nat) :
    (bindQueue s die slot x).bind d k = if die % 4 = d % 4 ∧ slot % 64 = k % 64 then boundRecord s x else s.bind d k := by
  unfold bindQueue
  rw [unbind_free h, bind_setBind]
  congr 1
  · unfold boundRecord
    rw [← vf_congr (openCtx_vfs s x.vf x.proc) x.vf]
    rfl
  · exact bind_congr (openCtx_slots s x.vf x.proc) d k

theorem bindQueue_mem {s : State} {die slot : Nat} (x : HostQueue) (h : (s.bind die slot).v = false) :
    (bindQueue s die slot x).mem = s.mem := by
  unfold bindQueue
  rw [unbind_free h]
  exact openCtx_mem s x.vf x.proc

/-- A queue is no rival of its own. -/
theorem wins_alone (s : State) (x : HostQueue) : wins s [x] x = true := by simp [wins]

theorem wantsSlot_of {s : State} {die : Nat} {x : HostQueue} (hn : ∀ k, k < 64 → (s.bind die k).holds x.vf x.q = false)
    (hw : ∃ c, c < 40 ∧ s.partOf (64 * die + c) = (s.vf x.vf).part)
    (hr : s.slotOf x.vf x.q ≠ none ∨ x.pending = true ∨ x.head ≠ x.tail) (ha : s.admits x.vf = true) : wantsSlot s die x = true := by
  have h1 : (List.range 64).all (fun k => !(s.bind die k).holds x.vf x.q) = true := by
    simpa using hn
  have h2 : runsWork s die (s.vf x.vf).part = true := by
    simpa [runsWork] using hw
  have h3 : ((s.slotOf x.vf x.q).isSome || x.pending || x.head != x.tail || s.jobs.any (fun j => j.vf == x.vf && j.q == x.q)) = true := by
    rcases hr with hr | hr | hr
    · simp [Option.isSome_iff_ne_none.2 hr]
    · simp [hr]
    · simp [hr]
  simp only [wantsSlot, h1, h2, h3, ha, Bool.and_self]

/-- The one queue that waits for a free slot gets it. -/
theorem execQueueBind_alone {s : State} {die slot : Nat} {x : HostQueue} (hd : die < 4) (hk : slot < 64) (hv : (s.bind die slot).v = false)
    (hq : s.queues = [x]) (hw : wantsSlot s die x = true) :
    execQueueBind die slot x.vf x.q s = .next (bindQueue s die slot x) := by
  have hx : s.queue x.vf x.q = x := by simp [State.queue, hq]
  have hl : s.queues.filter (wantsSlot s die) = [x] := by simp [hq, hw]
  unfold execQueueBind
  rw [event_next, hx, hl]
  simp [hd, hk, hw, hv, wins_alone, canTake]

/-- The number fields of a queue's record are wide enough for its numbers (R248). -/
theorem boundRecord_numbers (s : State) {x : HostQueue} (hv : x.vf < 128) (hq : x.q < 1024) (hp : x.proc < 256) (hl : x.logn < 32) :
    (boundRecord s x).logn.toNat = x.logn ∧ (boundRecord s x).vf.toNat = x.vf ∧ (boundRecord s x).proc.toNat = x.proc
    ∧ (boundRecord s x).qnum.toNat = x.q ∧ (boundRecord s x).part.toNat = (s.vf x.vf).part.val :=
  ⟨BitVec.toNat_ofNat .. ▸ Nat.mod_eq_of_lt hl, BitVec.toNat_ofNat .. ▸ Nat.mod_eq_of_lt hv, BitVec.toNat_ofNat .. ▸ Nat.mod_eq_of_lt hp,
    BitVec.toNat_ofNat .. ▸ Nat.mod_eq_of_lt hq, BitVec.toNat_ofNat .. ▸ Nat.mod_eq_of_lt (s.vf x.vf).part.isLt⟩

/-- A record that another die has of the queue stays as it is. -/
theorem bindQueue_elsewhere {s : State} {die slot : Nat} {x : HostQueue} {a : Nat × Nat} (hd : die < 4) (hv : (s.bind die slot).v = false)
    (hn : ∀ k, k < 64 → (s.bind die k).holds x.vf x.q = false) (ha : s.slotOf x.vf x.q = some a) :
    (bindQueue s die slot x).bind a.1 a.2 = s.bind a.1 a.2 := by
  obtain ⟨h4, h64, hh⟩ := slotOf_holds ha
  rw [bindQueue_bind x hv, if_neg]
  rintro ⟨he, -⟩
  rw [Nat.mod_eq_of_lt hd, Nat.mod_eq_of_lt h4] at he
  have := hn a.2 h64
  rw [he, hh] at this
  cases this

theorem heads_none {s : State} {vf q : Nat} (h : s.slotOf vf q = none) : s.heads vf q = ((s.queue vf q).head, (s.queue vf q).tail) := by
  simp [State.heads, h]

theorem heads_some {s : State} {vf q : Nat} {a : Nat × Nat} (h : s.slotOf vf q = some a) :
    s.heads vf q = ((s.bind a.1 a.2).head, (s.bind a.1 a.2).tail) := by
  simp [State.heads, h]

-- Commands at the head of a queue (R246, R247).

/-- Queue `vf`, `q`, whose state is `x`, is held by slot `slot` of die `die`; its partition is `p`, and `d`, its command at HEAD, may be applied: it is
written, no partition reset is on, the function may be used, and nothing is being skipped. -/
structure Ready (s : State) (vf q die slot : Nat) (x : HostQueue) (p : Part) (d : List Dword) : Prop where
  bound     : s.slotOf vf q = some (die, slot)
  queue     : s.queue vf q = x
  function  : x.vf = vf
  number    : x.q = q
  partition : s.part (s.vf vf).part = p
  command   : headEntry s (s.bind die slot) = d
  written   : (s.bind die slot).head ≠ (s.bind die slot).tail
  noReset   : p.rst = false
  admitted  : s.admits vf = true
  usable    : s.vfOn vf = true
  noSkip    : x.skip = 0
  nestOpen  : nestGone p x = false

/-- A command of kind `op` that breaks no rule of R246. -/
structure Lawful (p : Part) (x : HostQueue) (d : List Dword) (op : Nat) : Prop where
  kind   : cmdOp d = op
  fields : cmdFields d = true
  nests  : cmdNests p x.nest op = true

/-- The job that a JOB opens (R247), with the dies whose tables hold its queue (R19). -/
def admittedJob (s : State) (x : HostQueue) (part : Fin 32) (n : BitVec 12) (d : List Dword) : Job :=
  { scope := n, part, vf := x.vf, q := x.q, record := cmdAddr d, tag := cmdTag d, slips := (s.part part).slipcount
    dies := ((allSlots.filter (fun a => (s.bind a.1 a.2).holds x.vf x.q)).map Prod.fst).eraseDups }

section
variable {s : State} {vf q die slot : Nat} {x : HostQueue} {p : Part} {d : List Dword} {n : BitVec 12} {m : BitVec 12 × BitVec 20}
  {rest : List (BitVec 12 × BitVec 20)}

theorem Ready.record (h : Ready s vf q die slot x p d) :
    (s.bind die slot).v = true ∧ (s.bind die slot).vf.toNat = vf ∧ (s.bind die slot).qnum.toNat = q :=
  holds_iff.1 (slotOf_holds h.bound).2.2

/-- What the Hearth looks at before it applies a command, for `simp`. -/
theorem Ready.guards (h : Ready s vf q die slot x p d) :
    s.slotOf vf q = some (die, slot) ∧ (s.bind die slot).vf.toNat = vf ∧ (s.bind die slot).qnum.toNat = q ∧ s.queue vf q = x ∧ x.vf = vf ∧ x.q = q
    ∧ s.part (s.vf vf).part = p ∧ headEntry s (s.bind die slot) = d ∧ (s.bind die slot).head ≠ (s.bind die slot).tail
    ∧ p.rst = false ∧ s.admits vf = true ∧ s.vfOn vf = true ∧ x.skip = 0 ∧ nestGone p x = false :=
  ⟨h.bound, h.record.2.1, h.record.2.2, h.queue, h.function, h.number, h.partition, h.command, h.written, h.noReset, h.admitted, h.usable,
    h.noSkip, h.nestOpen⟩

/-- The innermost scope closes (R40, R246). -/
theorem Ready.close (h : Ready s vf q die slot x p d) (hl : Lawful p x d 5) (hm : x.nest = m :: rest) :
    commandOf vf q 5 s =
      advance (settle (s.setPart (p.setScope { p.scope m.1 with state := .closed })) (s.vf vf).part) (die, slot) { x with nest := rest } := by
  have hn := hm ▸ hl.nests
  simp [commandOf, applyHead, opReserved, h.guards, hl.kind, hl.fields, hn, hm]

/-- A scope opens under the innermost one (R246). -/
theorem Ready.passOrGraph (h : Ready s vf q die slot x p d) {op : Nat} (ho : op = 2 ∨ op = 3) (hl : Lawful p x d op) (hm : x.nest = m :: rest)
    (hf : p.freeScope = some n) :
    commandOf vf q op s = advance (s.setPart (openCommand p x n m.1 op d)) (die, slot)
      { x with nest := (n, ((openCommand p x n m.1 op d).scope n).gen) :: x.nest } := by
  have hn := hm ▸ hl.nests
  rcases ho with rfl | rfl <;> simp [commandOf, applyHead, opReserved, h.guards, hl.kind, hl.fields, hn, hm, hf]

/-- A scope opens under the root, and its job with it; the round robin goes on behind the queue (R247, R251). -/
theorem Ready.job (h : Ready s vf q die slot x p d) (hl : Lawful p x d 1) (hf : p.freeScope = some n) :
    commandOf vf q 1 s = advance
      (({ s.setPart (openCommand p x n 0 1 d) with jobs := s.jobs ++ [admittedJob s x (s.vf vf).part n d] } : State).setCtx
        { s.ctx vf x.proc with rr := (q + 1) % 1024 })
      (die, slot) { x with nest := [(n, ((openCommand p x n 0 1 d).scope n).gen)], jobIx := (s.bind die slot).head } := by
  simp [commandOf, applyHead, opReserved, admittedJob, h.guards, hl.kind, hl.fields, hl.nests, hf]
  rfl

/-- A LAUNCH goes on under the innermost scope and the open job (R246). -/
theorem Ready.launch (h : Ready s vf q die slot x p d) {j : Job} (hl : Lawful p x d 4) (hm : x.nest = m :: rest)
    (hf : p.freeScope = some n) (hj : openJob s (s.vf vf).part x = some j) :
    commandOf vf q 4 s = launchUnder s (s.vf vf).part (die, slot) x d j m n := by
  have hn := hm ▸ hl.nests
  simp [commandOf, applyHead, opReserved, h.guards, hl.kind, hl.fields, hn, hm, hf, hj]

/-- A command that breaks R246, or a reserved operation, which the Hearth meets with any command that it reads there, with no job open (R247). -/
theorem Ready.breachOutsideJobs (h : Ready s vf q die slot x p d) {op : Nat}
    (hop : cmdOp d = op ∨ cmdOp d = 0 ∨ 5 < cmdOp d) (hb : cmdFields d = false ∨ cmdNests p x.nest (cmdOp d) = false) (hm : x.nest = []) :
    commandOf vf q op s = advance (qerr s vf q) (die, slot) x := by
  have he : (if opReserved (cmdOp d) = true then cmdOp d else op) = cmdOp d := by
    rcases hop with hop | hop | hop
    · simp [hop]
    · simp [opReserved, hop]
    · simp [opReserved, Nat.not_le.2 hop]
  rw [hm] at hb
  rcases hb with hb | hb <;> simp [commandOf, applyHead, breach, h.guards, he, hb, hm]
end

-- HEAD passes a command (R247).

/-- HEAD has passed the command at it, the queue has the scopes `nest` open, and memory is as it was. -/
def Passed (s t : State) (vf q die slot : Nat) (nest : List (BitVec 12 × BitVec 20)) : Prop :=
  (t.bind die slot).head = (s.bind die slot).head + 1 ∧ (t.queue vf q).nest = nest ∧ SameMemory s t

theorem advance_bind {s : State} {die slot : Nat} (x : HostQueue) (h : (s.bind die slot).v = true) :
    ((advance s (die, slot) x).bind die slot).head = (s.bind die slot).head + 1 := by
  have hh : (s.bind die slot).holds (s.bind die slot).vf.toNat (s.bind die slot).qnum.toNat = true := holds_iff.2 ⟨h, rfl, rfl⟩
  have hs : (s.setQueue x).bind die slot = s.bind die slot := rfl
  unfold advance mapQueueBinds
  rw [bind_mapBinds, hs, if_pos hh]

theorem advance_queue (s : State) (a : Nat × Nat) (x : HostQueue) : (advance s a x).queue x.vf x.q = x := queue_setQueue s x

@[simp] theorem advance_part (s : State) (a : Nat × Nat) (x : HostQueue) (i : Fin 32) : (advance s a x).part i = s.part i := rfl
@[simp] theorem advance_mem (s : State) (a : Nat × Nat) (x : HostQueue) : (advance s a x).mem = s.mem := rfl

section
variable {s u : State} {vf q die slot : Nat} {x : HostQueue} {p : Part} {d : List Dword}

/-- A command that has left the records and memory alone, and that the queue passes with the state `y`. -/
theorem Ready.passed (h : Ready s vf q die slot x p d) (hs : u.slots = s.slots) (hm : u.mem = s.mem) {y : HostQueue} (hv : y.vf = x.vf)
    (hq : y.q = x.q) : Passed s (advance u (die, slot) y) vf q die slot y.nest := by
  have hb := bind_congr hs die slot
  refine ⟨?_, ?_, fun k => ?_⟩
  · rw [advance_bind y (hb ▸ h.record.1), hb]
  · rw [← h.function, ← h.number, ← hv, ← hq, advance_queue]
  · unfold State.home
    rw [advance_mem, hm]
end

/-- Scope `n` has opened under `par` for the command `d`, whose queue had the scopes `nest` open and has passed it. -/
def Opened (s t : State) (vf q die slot : Nat) (nest : List (BitVec 12 × BitVec 20)) (d : List Dword) (n par : BitVec 12) (kind : ScopeKind) : Prop :=
  let part := (s.vf vf).part
  let p := s.part part
  let y := (t.part part).scope n
  y.state = .opened ∧ y.parent = par ∧ y.kind = kind ∧ y.counter = 0 ∧ y.cancel = false ∧ y.gen = nextGen (p.scope n).gen
    ∧ y.ack = (cmdAck d).setWidth 64 ∧ y.hostAck = true
    ∧ ((t.part part).scope par).counter = (p.scope par).counter + 1 ∧ Passed s t vf q die slot ((n, y.gen) :: nest)

section
variable {s u : State} {vf q die slot : Nat} {x : HostQueue} {p : Part} {d : List Dword} {n par : BitVec 12} {op : Nat}

theorem Ready.partId (h : Ready s vf q die slot x p d) : p.id = (s.vf vf).part := by
  rw [← h.partition, part_id]

theorem Ready.part_put (h : Ready s vf q die slot x p d) {p' : Part} (hi : p'.id = p.id) : (s.setPart p').part (s.vf vf).part = p' := by
  rw [part_setPart, hi, h.partId, if_pos rfl]

/-- A command that has opened its scope in its partition, and left the records and memory alone. -/
theorem Ready.opened (h : Ready s vf q die slot x p d) (hs : u.slots = s.slots) (hm : u.mem = s.mem) (hn : n ≠ par)
    (hp : u.part (s.vf vf).part = openCommand p x n par op d) {y : HostQueue} (hv : y.vf = x.vf) (hq : y.q = x.q)
    (hy : y.nest = (n, ((openCommand p x n par op d).scope n).gen) :: x.nest) :
    Opened s (advance u (die, slot) y) vf q die slot x.nest d n par (cmdKind op) := by
  have hpass := h.passed hs hm hv hq
  rw [hy] at hpass
  unfold Opened
  simp only [advance_part, hp, h.partition]
  unfold openCommand at hpass ⊢
  rw [openScope_parent p _ hn]
  rw [openScope_scope p _ hn] at hpass ⊢
  exact ⟨rfl, rfl, rfl, rfl, rfl, rfl, rfl, rfl, rfl, hpass⟩

end

-- A LAUNCH (R40, R246).

/-- The partition with a LAUNCH's scope `n` opened under `par` and closed again, with its entries queued (R40, R246). -/
def launchedPart (p : Part) (x : HostQueue) (d : List Dword) (par n : BitVec 12) (l : List Entry) : Part :=
  let p := openCommand p x n par 4 d
  { p.setScope { p.scope n with counter := BitVec.ofNat 32 l.length, state := .closed } with entries := p.entries ++ l }

@[simp] theorem launchedPart_id (p : Part) (x : HostQueue) (d : List Dword) (par n : BitVec 12) (l : List Entry) :
    (launchedPart p x d par n l).id = p.id := rfl

/-- The state in which a LAUNCH's entries have been queued, and its images' object entries written (R139). -/
def queueEntries (s : State) (part : Fin 32) (x : HostQueue) (d : List Dword) (par n : BitVec 12) (l : List Entry) : State :=
  l.foldl (fun s e => writeObjects s part x e.unit.image)
    { s.setPart (launchedPart (s.part part) x d par n l) with order := s.order + 1 }

theorem queueEntries_tables (s : State) (part : Fin 32) (x : HostQueue) (d : List Dword) (par n : BitVec 12) (l : List Entry) :
    (queueEntries s part x d par n l).part part = launchedPart (s.part part) x d par n l
    ∧ (queueEntries s part x d par n l).slots = s.slots := by
  obtain ⟨hp, hs⟩ := KeepsTables.foldl (fun s (e : Entry) => writeObjects_tables s part x e.unit.image) l
    { s.setPart (launchedPart (s.part part) x d par n l) with order := s.order + 1 }
  refine ⟨(part_congr hp part).trans ?_, hs⟩
  have h := part_setPart s (launchedPart (s.part part) x d par n l) part
  rwa [launchedPart_id, part_id, if_pos rfl] at h

@[simp] theorem setJob_part (s : State) (j : Job) (i : Fin 32) : (setJob s j).part i = s.part i := rfl

/-- A LAUNCH whose dependences are known and whose entries are all taken ends with its scope closed and its entries queued. -/
theorem launchUnder_loaded {s s1 : State} {part : Fin 32} {a : Nat × Nat} {x : HostQueue} {d : List Dword} {j : Job} {m : BitVec 12 × BitVec 20}
    {n : BitVec 12} {deps : List (BitVec 12 × BitVec 20)} {l : List Entry} (hd : findDeps j m (cmdDeps d) = some deps)
    (hl : loadEntries s x part (s.queuePinned x.vf x.q) n (nextGen ((s.part part).scope n).gen) deps (BitVec.signExtend 64 (cmdAddr d)) (cmdCount d) 0
      = (s1, some l)) :
    ∃ u, launchUnder s part a x d j m n = advance u a x ∧ SameWork (launchedPart (s1.part part) x d m.1 n l) (u.part part) ∧ u.slots = s.slots := by
  obtain ⟨hp, hs⟩ := queueEntries_tables s1 part x d m.1 n l
  have hs1 : s1.slots = s.slots := by
    have hk := loadEntries_tables x part (s.queuePinned x.vf x.q) n (nextGen ((s.part part).scope n).gen) deps (BitVec.signExtend 64 (cmdAddr d))
      (cmdCount d) 0 s
    rw [hl] at hk
    exact hk.2
  let j' : Job := { j with launches := (cmdTag d, (n, nextGen ((s.part part).scope n).gen), m) :: j.launches }
  have hw := swapWork_work (setJob (queueEntries s1 part x d m.1 n l) j') part
  rw [setJob_part, hp] at hw
  refine ⟨_, ?_, hw, (swapWork_slots _).trans (hs.trans hs1)⟩
  unfold launchUnder
  simp only [hd, hl]
  rfl

/-- Scope `n` of a LAUNCH under `par`: closed, of its kind, and counting its entries, with the scope above it counting it. -/
theorem launchedPart_scopes (p : Part) (x : HostQueue) (d : List Dword) {par n : BitVec 12} (l : List Entry) (hn : n ≠ par) :
    ((launchedPart p x d par n l).scope n).state = .closed ∧ ((launchedPart p x d par n l).scope n).kind = .launch
    ∧ ((launchedPart p x d par n l).scope n).counter = BitVec.ofNat 32 l.length
    ∧ ((launchedPart p x d par n l).scope par).counter = (p.scope par).counter + 1 := by
  have hs (k : BitVec 12) : (launchedPart p x d par n l).scope k = if k = n
      then { (openCommand p x n par 4 d).scope n with counter := BitVec.ofNat 32 l.length, state := .closed }
      else (openCommand p x n par 4 d).scope k := by
    have h := scope_setScope (openCommand p x n par 4 d)
      { (openCommand p x n par 4 d).scope n with counter := BitVec.ofNat 32 l.length, state := .closed } k
    rw [scope_num] at h
    exact h
  rw [hs n, hs par, if_pos rfl, if_neg hn.symm]
  unfold openCommand
  rw [openScope_scope p _ hn, openScope_parent p _ hn]
  exact ⟨rfl, rfl, rfl, rfl⟩

-- What each command does.

section
variable {s : State} {vf q die slot : Nat} {x : HostQueue} {p : Part} {d : List Dword} {n par : BitVec 12} {g : BitVec 20}
  {rest : List (BitVec 12 × BitVec 20)}

/-- CLOSE closes the queue's innermost scope, which has something left to count. -/
theorem Ready.close_effect (h : Ready s vf q die slot x p d) (hl : Lawful p x d 5) (hm : x.nest = (n, g) :: rest) (hc : (p.scope n).counter ≠ 0)
    (hall : ∀ y ∈ p.scopes, y.state = .closed → y.counter ≠ 0) :
    Passed s (commandOf vf q 5 s) vf q die slot rest
    ∧ ((commandOf vf q 5 s).part (s.vf vf).part).scope n = { p.scope n with state := .closed } := by
  have hp := h.part_put (p' := p.setScope { p.scope n with state := .closed }) rfl
  have hb : ∀ y ∈ (p.setScope { p.scope n with state := .closed }).scopes, y.state = .closed → y.counter ≠ 0 := by
    intro y hy hs
    rcases mem_putWhere hy with rfl | hy
    · exact hc
    · exact hall y hy hs
  rw [h.close hl hm, settle_busy [] (hp.symm ▸ hb)]
  refine ⟨h.passed rfl rfl rfl rfl, ?_⟩
  rw [advance_part, hp, scope_setScope, if_pos (scope_num p n).symm]

/-- A PASS or a GRAPH opens its scope under the queue's innermost one. -/
theorem Ready.passOrGraph_effect (h : Ready s vf q die slot x p d) {op : Nat} (ho : op = 2 ∨ op = 3) (hl : Lawful p x d op)
    (hm : x.nest = (par, g) :: rest) (hf : p.freeScope = some n) (hn : n ≠ par) :
    Opened s (commandOf vf q op s) vf q die slot x.nest d n par (cmdKind op) := by
  rw [h.passOrGraph ho hl hm hf]
  exact h.opened (u := s.setPart (openCommand p x n par op d)) rfl rfl hn (h.part_put rfl) rfl rfl rfl

/-- A JOB opens its scope under the root, and its job is open. -/
theorem Ready.job_effect (h : Ready s vf q die slot x p d) (hl : Lawful p x d 1) (hm : x.nest = []) (hf : p.freeScope = some n) (hn : n ≠ 0) :
    Opened s (commandOf vf q 1 s) vf q die slot x.nest d n 0 .job ∧ admittedJob s x (s.vf vf).part n d ∈ (commandOf vf q 1 s).jobs := by
  rw [h.job hl hf]
  refine ⟨h.opened (op := 1) ?_ ?_ hn ?_ ?_ ?_ ?_, List.mem_append_right _ List.mem_cons_self⟩
  case refine_3 => exact h.part_put rfl
  case refine_6 => rw [hm]
  all_goals rfl

/-- A LAUNCH opens a scope under the queue's innermost one, queues its entries, and closes it. -/
theorem Ready.launch_effect (h : Ready s vf q die slot x p d) {s1 : State} {j : Job} {deps : List (BitVec 12 × BitVec 20)} {l : List Entry}
    (hl : Lawful p x d 4) (hm : x.nest = (par, g) :: rest) (hf : p.freeScope = some n) (hn : n ≠ par) (hj : openJob s (s.vf vf).part x = some j)
    (hd : findDeps j (par, g) (cmdDeps d) = some deps)
    (he : loadEntries s x (s.vf vf).part (s.queuePinned vf q) n (nextGen (p.scope n).gen) deps (BitVec.signExtend 64 (cmdAddr d)) (cmdCount d) 0
      = (s1, some l)) (hp : s1.part (s.vf vf).part = p) :
    let t := commandOf vf q 4 s
    (t.bind die slot).head = (s.bind die slot).head + 1
    ∧ ((t.part (s.vf vf).part).scope n).state = .closed ∧ ((t.part (s.vf vf).part).scope n).kind = .launch
    ∧ ((t.part (s.vf vf).part).scope n).counter = BitVec.ofNat 32 l.length
    ∧ (t.part (s.vf vf).part).entries.map (fun e => e.unit) = (p.entries ++ l).map (fun e => e.unit)
    ∧ ((t.part (s.vf vf).part).scope par).counter = (p.scope par).counter + 1 := by
  intro t
  obtain ⟨u, hu, ⟨hscopes, hentries⟩, hslots⟩ :=
    launchUnder_loaded (a := (die, slot)) hd (by rw [h.partition, h.function, h.number]; exact he)
  have ht : t = advance u (die, slot) x := (h.launch hl hm hf hj).trans hu
  have hb := bind_congr hslots die slot
  rw [hp] at hscopes hentries
  obtain ⟨hstate, hkind, hcount, hparent⟩ := launchedPart_scopes p x d l hn
  rw [ht, advance_part, scope_congr hscopes, scope_congr hscopes, advance_bind x (hb ▸ h.record.1), hb, hentries]
  exact ⟨rfl, hstate, hkind, hcount, rfl, hparent⟩

theorem qerr_bit (s : State) (vf q : Nat) : q ∈ ((qerr s vf q).vf vf).qerr := by
  have hv := vf_setVf s { s.vf vf with qerr := if (s.vf vf).qerr.contains q then (s.vf vf).qerr else (s.vf vf).qerr ++ [q] } vf
  rw [if_pos (vf_vf s vf).symm] at hv
  have hq : ((qerr s vf q).vf vf).qerr = if (s.vf vf).qerr.contains q then (s.vf vf).qerr else (s.vf vf).qerr ++ [q] := congrArg Vf.qerr hv
  rw [hq]
  split
  · rename_i hc; simpa using hc
  · simp

/-- A command that breaks the rules with no job open is passed, and QERR tells (R247). -/
theorem Ready.breach_effect (h : Ready s vf q die slot x p d) {op : Nat} (hop : cmdOp d = op ∨ cmdOp d = 0 ∨ 5 < cmdOp d)
    (hb : cmdFields d = false ∨ cmdNests p x.nest (cmdOp d) = false) (hm : x.nest = []) :
    Passed s (commandOf vf q op s) vf q die slot [] ∧ q ∈ ((commandOf vf q op s).vf vf).qerr ∧ Sent.msix vf 0 ∈ (commandOf vf q op s).sent := by
  rw [h.breachOutsideJobs hop hb hm]
  refine ⟨hm ▸ h.passed rfl rfl rfl rfl, ?_, ?_⟩
  · exact qerr_bit s vf q
  · exact List.mem_append_right _ List.mem_cons_self
end

/-- The words PASS, GRAPH, LAUNCH and CLOSE apply the command at the head of their queue. -/
theorem exec_command (s : State) {vf q op : Nat} {i : Instr}
    (h : (op, i) ∈ [(2, Instr.pass vf q), (3, .graph vf q), (4, .launch vf q), (5, .close vf q)]) : exec i s = .next (commandOf vf q op s) := by
  simp only [List.mem_cons, Prod.mk.injEq, List.not_mem_nil, or_false] at h
  obtain ⟨rfl, rfl⟩ | ⟨rfl, rfl⟩ | ⟨rfl, rfl⟩ | ⟨rfl, rfl⟩ := h <;> rfl

/-- A JOB that no rival ranks before is applied. -/
theorem execJob_wins {s : State} {x : HostQueue} {vf q : Nat} (hq : s.queue vf q = x) (hw : wins s (jobQueues s) x = true) :
    execJob vf q s = .next (commandOf vf q 1 s) := by
  unfold execJob
  rw [event_next, hq, if_pos hw]

/-- The one queue with a JOB at its head has it applied by the arbitration (R251), whatever is picked. -/
theorem execJobAdmission_alone {s : State} {x : HostQueue} (hj : jobQueues s = [x]) :
    execJobAdmission s = .next (commandOf x.vf x.q 1 s.pick.2) := by
  have hl : [x].filter (wins s [x]) = [x] := by simp [wins_alone]
  unfold execJobAdmission
  rw [event_next, hj, hl]
  simp [nth, Nat.mod_one]

theorem Ready.pick {s : State} {vf q die slot : Nat} {x : HostQueue} {p : Part} {d : List Dword} (h : Ready s vf q die slot x p d) :
    Ready s.pick.2 vf q die slot x p d :=
  ⟨h.bound, h.queue, h.function, h.number, h.partition, h.command, h.written, h.noReset, h.admitted, h.usable, h.noSkip, h.nestOpen⟩

/-- Settles O55: the one queue that waits for a free slot gets it with its own record, and each command at the head of a queue that is ready is applied
by what its kind does; a breach with no job open sets QERR. -/
theorem hostCommandsAreApplied : Obligations.HostCommandsAreApplied := by
  intro s s1 vf q die slot x n par g rest j deps l b part p d headed
  refine ⟨?bind, ?commands⟩
  case bind =>
    intro hd hk hv hqs hxv hxq hn hw hr ha hvf hq hproc hlogn
    subst hxv hxq
    have hrec : (bindQueue s die slot x).bind die slot = boundRecord s x := by rw [bindQueue_bind x hv, if_pos ⟨rfl, rfl⟩]
    obtain ⟨hl, hf, hp, hnum, hpart⟩ := boundRecord_numbers s hvf hq hproc hlogn
    refine ⟨_, execQueueBind_alone hd hk hv hqs (wantsSlot_of hn hw hr ha), ?_⟩
    rw [hrec]
    refine ⟨rfl, rfl, rfl, rfl, rfl, hl, hf, hp, rfl, rfl, hnum, fun hs => ⟨?_, ?_⟩, fun a hs => ⟨heads_some hs, ?_, ?_⟩, rfl, hpart, bindQueue_mem x hv⟩
    · rw [heads_none hs]
      simp [State.queue, hqs]
    · simp [boundRecord, hs]
    · simp [boundRecord, hs]
    · exact bindQueue_elsewhere hd hv hn hs
  case commands =>
    intro hs hq hxv hxq hne hrst ha hskip hgone hon _
    have h : Ready s vf q die slot x p d := ⟨hs, hq, hxv, hxq, rfl, rfl, hne, hrst, ha, hon, hskip, hgone⟩
    refine ⟨fun hfields hnests => ?lawful, fun hb hm op i hi hop => ⟨_, exec_command s hi, h.breach_effect hop hb hm⟩⟩
    have lawful {op : Nat} (hop : cmdOp d = op) : Lawful p x d op := ⟨hop, hfields, hop ▸ hnests⟩
    refine ⟨fun hop hm hc hall => ⟨_, rfl, h.close_effect (lawful hop) hm hc hall⟩, fun hf => ⟨?job, ?pass, ?graph, ?launch⟩⟩
    case job =>
      intro hop hm hn0 hw
      obtain ⟨hopen, hjob⟩ := h.job_effect (lawful hop) hm hf hn0
      obtain ⟨hopen', hjob'⟩ := h.pick.job_effect (lawful hop) hm hf hn0
      refine ⟨⟨_, execJob_wins hq hw, hopen, _, hjob, rfl, rfl, hxv, hxq, rfl, rfl⟩, fun hj => ?_⟩
      have he := execJobAdmission_alone hj
      rw [hxv, hxq] at he
      exact ⟨_, he, hopen', _, hjob', rfl, rfl, hxv, hxq, rfl, rfl⟩
    case pass => exact fun hop hm hn => ⟨_, rfl, h.passOrGraph_effect (.inl rfl) (lawful hop) hm hf hn⟩
    case graph => exact fun hop hm hn => ⟨_, rfl, h.passOrGraph_effect (.inr rfl) (lawful hop) hm hf hn⟩
    case launch =>
      exact fun hop hm hn hj hdeps hload hp => ⟨_, rfl, h.launch_effect (lawful hop) hm hf hn hj hdeps hload hp⟩

end Sys2Proof.Machine
end
